-- ==== Sys2Proof/Word.lean ====
section
/-! DEFINITION. The word types of the K4 and their plainest arithmetic (R1, R2, R101). -/
namespace Sys2Proof

/-- One byte of any memory place. -/
abbrev Byte := BitVec 8
/-- A 32-bit word: literals, format words, FP32 patterns, 32-bit system registers. -/
abbrev Word := BitVec 32
/-- A 64-bit word: address registers, sequencer words. -/
abbrev DWord := BitVec 64
/-- A domain register number D0-D63. -/
abbrev DReg := BitVec 6
/-- An address register number A0-A31. -/
abbrev AReg := BitVec 5

/-- The helper Wrap(x, w) of R101: the integer congruent to x modulo 2^w in -2^(w-1) .. 2^(w-1) - 1. -/
def wrap (w : Nat) (x : Int) : Int := (BitVec.ofInt w x).toInt

/-- The helper Clip(x, lo, hi), also called Clamp, of R101. -/
def clip (x lo hi : Int) : Int := if x < lo then lo else if hi < x then hi else x

/-- The least and the greatest 32-bit signed integer. -/
def minI32 : Int := -2147483648
def maxI32 : Int := 2147483647

end Sys2Proof
end

