-- ==== Sys2Proof/Machine/Numbers.lean ====
section
/-! DEFINITION. Number formats and exact arithmetic: decoding, rounding, block scales, exact sums, the format word,
the transcendental functions (R82-R101, R230, R231). -/
namespace Sys2Proof.Machine

/-! ### Extended reals that the formats denote -/

/-- A NaN, an infinity, or (-1)^neg × m × 2^e; a zero keeps its sign. -/
inductive Ext where
  | nan
  | inf (neg : Bool)
  | fin (neg : Bool) (m : Nat) (e : Int)
deriving DecidableEq, Repr

namespace Ext
def zero : Ext := .fin false 0 0
def isNaN : Ext → Bool
  | .nan => true
  | _ => false
def isZero : Ext → Bool
  | .fin _ 0 _ => true
  | _ => false
def sign : Ext → Bool
  | .nan => false
  | .inf n => n
  | .fin n _ _ => n
def neg : Ext → Ext
  | .nan => .nan
  | .inf n => .inf (!n)
  | .fin n m e => .fin (!n) m e
def abs : Ext → Ext
  | .nan => .nan
  | .inf _ => .inf false
  | .fin _ m e => .fin false m e
/-- The value times 2^k. -/
def scale (x : Ext) (k : Int) : Ext :=
  match x with
  | .fin n m e => .fin n m (e + k)
  | y => y
/-- The exact product; 0 times infinity is NaN (R98). -/
def mul : Ext → Ext → Ext
  | .nan, _ => .nan
  | _, .nan => .nan
  | .inf a, .inf b => .inf (a != b)
  | .inf a, .fin b m _ => if m = 0 then .nan else .inf (a != b)
  | .fin a m _, .inf b => if m = 0 then .nan else .inf (a != b)
  | .fin a m e, .fin b n f => .fin (a != b) (m * n) (e + f)
/-- A signed multiple of 2^lo, for lo at most the exponent. -/
def units (lo : Int) : Ext → Int
  | .fin n m e => let v : Int := (m <<< (e - lo).toNat : Nat); if n then -v else v
  | _ => 0
def expo : Ext → Int
  | .fin _ _ e => e
  | _ => 0
/-- An integer times 2^lo. -/
def ofUnits (lo v : Int) : Ext := .fin (decide (v < 0)) v.natAbs lo

/-- R98, ExactSum. -/
def sum (l : List Ext) : Ext :=
  let up := l.any fun x => x == .inf false
  let down := l.any fun x => x == .inf true
  if (l.any isNaN) || (up && down) then .nan
  else if up then .inf false
  else if down then .inf true
  else
    let lo := (l.map expo).foldl min 0
    let v := (l.map (units lo)).foldl (· + ·) 0
    if v = 0 then .fin (!l.isEmpty && l.all fun x => x.isZero && x.sign) 0 0 else ofUnits lo v

/-- |x| ≤ |y| for finite values and infinities. -/
def absLe : Ext → Ext → Bool
  | _, .inf _ => true
  | .inf _, _ => false
  | .fin _ m e, .fin _ n f => let lo := min e f; decide (m <<< (e - lo).toNat ≤ n <<< (f - lo).toNat)
  | _, _ => false
/-- x < y in the real order, where zeros are equal; false for a NaN. -/
def lt : Ext → Ext → Bool
  | .nan, _ => false
  | _, .nan => false
  | .inf a, .inf b => a && !b
  | .inf a, _ => a
  | _, .inf b => !b
  | .fin a m e, .fin b n f =>
    let lo := min e f
    decide (units lo (.fin a m e) < units lo (.fin b n f))
/-- Equal in the real order; false for a NaN. -/
def same (x y : Ext) : Bool := !x.isNaN && !y.isNaN && !lt x y && !lt y x
/-- Floor(Log2(|x|)) for a nonzero value; 127 for an infinity (R88). -/
def log2 : Ext → Int
  | .fin _ m e => (m.log2 : Int) + e
  | _ => 127
end Ext

/-! ### Formats (R82, R83) -/

/-- A floating format by its field widths, bias, and kind of top exponent: 0 infinities and NaNs, 1 E4M3, 2 none. -/
structure FloatFmt where
  eb : Nat
  mb : Nat
  bias : Int
  top : Nat
deriving DecidableEq, Repr

/-- The floating format of a code; none for the integer codes 6 and 7. -/
def floatFmt : Nat → Option FloatFmt
  | 0 => some { eb := 8, mb := 23, bias := 127, top := 0 }
  | 1 => some { eb := 8, mb := 7, bias := 127, top := 0 }
  | 2 => some { eb := 5, mb := 10, bias := 15, top := 0 }
  | 3 => some { eb := 4, mb := 3, bias := 7, top := 1 }
  | 4 => some { eb := 5, mb := 2, bias := 15, top := 0 }
  | 5 => some { eb := 2, mb := 1, bias := 1, top := 2 }
  | _ => none

/-- The element width of a format code in bits. -/
def fmtWidth : Nat → Nat
  | 0 => 32
  | 1 => 16
  | 2 => 16
  | 3 => 8
  | 4 => 8
  | 5 => 4
  | 6 => 8
  | _ => 4

def decodeFloat (f : FloatFmt) (c : Nat) : Ext :=
  let m := c % 2 ^ f.mb
  let e := c / 2 ^ f.mb % 2 ^ f.eb
  let n := (c / 2 ^ (f.mb + f.eb)) % 2 == 1
  if f.top = 0 ∧ e = 2 ^ f.eb - 1 then (if m = 0 then .inf n else .nan)
  else if f.top = 1 ∧ e = 15 ∧ m = 7 then .nan
  else if e = 0 then .fin n m (1 - f.bias - f.mb)
  else .fin n (2 ^ f.mb + m) ((e : Int) - f.bias - f.mb)

/-- Decode(code, fmt) of R101. -/
def decodeCode (fmt c : Nat) : Ext :=
  match floatFmt fmt with
  | some f => decodeFloat f c
  | none => Ext.ofUnits 0 (BitVec.ofNat (fmtWidth fmt) c).toInt

/-- Mantissa and exponent of the largest finite value. -/
def FloatFmt.maxFinite (f : FloatFmt) : Nat × Int :=
  let emax : Int := 2 ^ f.eb - 1 - f.bias - (if f.top = 0 then 1 else 0)
  (if f.top = 1 then 2 ^ (f.mb + 1) - 2 else 2 ^ (f.mb + 1) - 1, emax - f.mb)

/-- The code of (-1)^n × k × 2^q, a value of the format's grid that does not exceed its largest. -/
def FloatFmt.code (f : FloatFmt) (n : Bool) (k : Nat) (q : Int) : Nat :=
  let s := if n then 2 ^ (f.mb + f.eb) else 0
  if k = 0 then s
  else
    let e := (k.log2 : Int) + q
    if e < 1 - f.bias then s + k
    else s + (e + f.bias).toNat * 2 ^ f.mb +
      ((if f.mb ≤ k.log2 then k >>> (k.log2 - f.mb) else k <<< (f.mb - k.log2)) - 2 ^ f.mb)

/-- R83: the canonical NaN; E2M1 has none and takes 0. -/
def canonNaN : Nat → Nat
  | 0 => 0x7FC00000
  | 1 => 0x7FC0
  | 2 => 0x7E00
  | 3 => 0x7F
  | 4 => 0x7E
  | _ => 0

/-! ### Rounding (R89, R90) -/

inductive Rnd where
  | rne | sr | rtz
deriving DecidableEq, Repr

/-- Whether a remainder `rem` of 2^sh above the even or odd grid point `k` rounds up. -/
def roundsUp (rnd : Rnd) (rand k rem sh : Nat) : Bool :=
  match rnd with
  | .rne => decide (2 ^ sh < 2 * rem) || (decide (2 * rem = 2 ^ sh) && k % 2 == 1)
  | .sr => decide (rand < rem * 2 ^ 16 / 2 ^ sh)
  | .rtz => false

/-- m × 2^e in units of 2^q, rounded. -/
def roundUnits (rnd : Rnd) (rand m : Nat) (e q : Int) : Nat :=
  if q ≤ e then m <<< (e - q).toNat
  else
    let sh := (q - e).toNat
    let k := m >>> sh
    if roundsUp rnd rand k (m % 2 ^ sh) sh then k + 1 else k

/-- R90: the largest finite value of a floating format, with a sign. -/
def FloatFmt.maxCode (f : FloatFmt) (n : Bool) : Nat := f.code n f.maxFinite.1 f.maxFinite.2

/-- R90: an overflow. -/
def FloatFmt.overflow (f : FloatFmt) (rnd : Rnd) (sat n : Bool) : Nat :=
  if sat || rnd == .rtz || f.top == 2 then f.maxCode n
  else if f.top = 1 then 0x7F
  else f.code n 0 0 + (2 ^ f.eb - 1) * 2 ^ f.mb

/-- R90: the largest magnitude of an integer format of width `w`, with a sign. -/
def intMax (w : Nat) (n : Bool) : Nat := if n then 2 ^ (w - 1) else 2 ^ (w - 1) - 1

/-- Round(x, fmt, rnd, sat) of R89 and R90; `rand` is the draw of R91. -/
def round (fmt : Nat) (rnd : Rnd) (sat : Bool) (rand : Nat) (x : Ext) : Nat :=
  match floatFmt fmt with
  | some f => match x with
    | .nan => canonNaN fmt
    | .inf n =>
      if f.top = 2 ∨ sat then f.maxCode n else if f.top = 1 then 0x7F else f.overflow .rne false n
    | .fin n m e =>
      if m = 0 then f.code n 0 0
      else
        let q := max ((m.log2 : Int) + e - f.mb) (1 - f.bias - f.mb)
        let k := roundUnits rnd rand m e q
        let mx := f.maxFinite
        if !(Ext.absLe (.fin false k q) (.fin false mx.1 mx.2)) then f.overflow rnd sat n else f.code n k q
  | none =>
    let w := fmtWidth fmt
    match x with
    | .nan => 0
    | .inf n => intMax w n
    | .fin n m e =>
      let k := roundUnits rnd rand m e 0
      if intMax w false < k then intMax w n else if n then (2 ^ w - k) % 2 ^ w else k

/-- RoundNE(x, FP32). -/
def toF32 (x : Ext) : Word := BitVec.ofNat 32 (round 0 .rne false 0 x)
def ofF32 (w : Word) : Ext := decodeCode 0 w.toNat

/-- R91: one step of a generator, and Rand16. -/
def randStep (s : Word) : Word := if s.getLsbD 0 then (s >>> 1) ^^^ 0x80200003 else s >>> 1
def randSteps : Nat → Word → Word
  | 0, s => s
  | n + 1, s => randSteps n (randStep s)
/-- A call of Round with its draw: the code and the generator after it. -/
def roundDraw (fmt : Nat) (rnd : Rnd) (sat : Bool) (seed : Word) (x : Ext) : Nat × Word :=
  if rnd = .sr then
    let t := randSteps 16 seed
    (round fmt rnd sat (t.toNat % 65536) x, t)
  else (round fmt rnd sat 0 x, seed)

/-! ### Blocks (R85-R88, R96) -/

/-- R88: EMAX. -/
def emaxOf : Nat → Int
  | 3 => 8
  | 4 => 15
  | 5 => 2
  | 6 => 6
  | _ => 2

/-- What EncodeBlock returns: the scale entry of R86, the codes, the generator. -/
structure Encoded where
  entry : Nat
  codes : List Nat
  seed : Word
deriving DecidableEq, Repr

/-- The greatest magnitude of a list; zero for an empty one. -/
def maxAbs (l : List Ext) : Ext := l.foldl (fun m x => if Ext.absLe x m then m else x.abs) Ext.zero

def clampInt (x lo hi : Int) : Int := clip x lo hi

/-- Rounds a list in order, drawing for each. -/
def roundList (fmt : Nat) (rnd : Rnd) (sat : Bool) : Word → List Ext → List Nat × Word
  | seed, [] => ([], seed)
  | seed, x :: l =>
    let r := roundDraw fmt rnd sat seed x
    let t := roundList fmt rnd sat r.2 l
    (r.1 :: t.1, t.2)

/-- R88, EncodeBlock, over the valid elements. -/
def encodeBlock (x : List Ext) (fmt : Nat) (sv : Bool) (rnd : Rnd) (sat : Bool) (seed : Word) : Encoded :=
  if x.any Ext.isNaN then { entry := 0x80FF, codes := x.map fun _ => 0, seed := seed }
  else
    let top := maxAbs x
    let outlier : Option Nat :=
      if sv && fmt == 5 && decide (2 ≤ (x.filter fun y => !y.isZero).length) then x.findIdx? fun y => Ext.absLe top y else none
    let m := match outlier with
      | some o => maxAbs (x.eraseIdx o)
      | none => top
    let e := match outlier with
      | some _ => clampInt (m.log2 - 2) (-127) 127
      | none => if m.isZero then -127 else clampInt (m.log2 - emaxOf fmt) (-127) 127
    let others := match outlier with
      | some o => x.eraseIdx o
      | none => x
    let r := roundList fmt rnd sat seed (others.map fun y => y.scale (-e))
    let codes := if sv && fmt == 5 then r.1.map fun c => if c = 8 then 0 else c else r.1
    match outlier with
    | some o => { entry := round 3 .rne true 0 ((x.getD o Ext.zero).scale (-e)) * 256 + (e + 127).toNat, codes := codes.insertIdx o 8, seed := r.2 }
    | none => { entry := 0x8000 + (e + 127).toNat, codes := codes, seed := r.2 }

/-- R87: an element with its block's scale entry. -/
def decodeScaled (fmt : Nat) (sv : Bool) (entry c : Nat) : Ext :=
  let scale := entry % 256
  if scale = 0xFF then .nan
  else
    let b := if fmt = 5 ∧ sv ∧ c = 8 ∧ entry / 256 ≠ 0x80 then decodeCode 3 (entry / 256) else decodeCode fmt c
    b.scale ((scale : Int) - 127)

/-- Parity of the bits that two numbers share. -/
def parityAnd (i j : Nat) : Bool := ((List.range 8).filter fun b => i.testBit b && j.testBit b).length % 2 == 1
/-- R96: Hn × x, exact, for a block padded with zeros to n values; an exact sum of 0 has R98's sign (log entry 55, DESIGN
CHOICE). -/
def hadamard (x : List Ext) (n : Nat) : List Ext :=
  let x := x ++ List.replicate (n - x.length) Ext.zero
  (List.range n).map fun i => Ext.sum (((List.range n).zip x).map fun p => if parityAnd i p.1 then p.2.neg else p.2)

/-! ### The format word (R92, R93) -/

structure Fmt where
  af : Nat
  bf : Nat
  of : Nat
  sc : Nat
  bk : Nat
  hd : Nat
  rnd : Nat
  sat : Bool
  sv : Bool
  amx : Bool
  amxIx : Nat
  low : Nat
deriving DecidableEq, Repr

def Fmt.unpack (w : Word) : Fmt :=
  let v := w.toNat
  { af := v / 2 ^ 28, bf := v / 2 ^ 24 % 16, of := v / 2 ^ 20 % 16, sc := v / 2 ^ 18 % 4, bk := if w.getLsbD 17 then 32 else 16,
    hd := v / 2 ^ 15 % 4, rnd := v / 2 ^ 13 % 4, sat := w.getLsbD 12, sv := w.getLsbD 11, amx := w.getLsbD 10, amxIx := v / 256 % 4,
    low := v % 256 }
/-- R93. -/
def Fmt.ok (f : Fmt) : Bool :=
  decide (f.af < 8) && decide (f.bf < 8) && decide (f.of < 8) && f.hd != 3 && f.rnd != 3 && f.low == 0 &&
    (!f.sv || f.af == 5 || f.bf == 5 || f.of == 5)
def Fmt.mode (f : Fmt) : Rnd := if f.rnd = 1 then .sr else if f.rnd = 2 then .rtz else .rne
/-- The scale mode has block scales (SC[1]), the factor q (SC[0]). -/
def Fmt.blocks (f : Fmt) : Bool := decide (2 ≤ f.sc)
def Fmt.factor (f : Fmt) : Bool := f.sc % 2 == 1
/-- R85: a format that carries block scales under this word. -/
def Fmt.scaled (f : Fmt) (fmt : Nat) : Bool := f.blocks && decide (3 ≤ fmt)

/-- R95: one element's update of a largest-magnitude register. -/
def amaxUpdate (a : Word) (x : Ext) : Word :=
  if x.isNaN then a else let v := toF32 x.abs; if a.toNat < v.toNat then v else a

/-! ### Functions of one operand (R231) -/

/-- Bits of the fixed-point values below. -/
def fixBits : Nat := 256
def fixOne : Nat := 2 ^ 256
/-- ln 2 × 2^256 as the sum over k of 1 / (k 2^k). -/
def ln2Fix : Nat := ((List.range 300).map fun k => fixOne / ((k + 1) * 2 ^ (k + 1))).foldl (· + ·) 0
/-- e^x for x in [0, 1), both times 2^256, by its series. -/
def expFix (x : Nat) : Nat :=
  ((List.range 80).foldl (fun (a : Nat × Nat) k => (a.1 + a.2, a.2 * x / fixOne / (k + 1))) (0, fixOne)).1
/-- 2^f for f in [0, 1), both times 2^256. -/
def exp2Fix (f : Nat) : Nat := expFix (f * ln2Fix / fixOne)
/-- log2 of x in [1, 2), both times 2^256, by the series of the inverse hyperbolic tangent. -/
def log2Fix (x : Nat) : Nat :=
  let z := (x - fixOne) * fixOne / (x + fixOne)
  let zz := z * z / fixOne
  let s := (List.range 90).foldl (fun (a : Nat × Nat) k => (a.1 + a.2 / (2 * k + 1), a.2 * zz / fixOne)) (0, z)
  2 * s.1 * fixOne / ln2Fix

/-- A positive inexact value: the low bit says that more follows. -/
def sticky (n : Bool) (m : Nat) (e : Int) : Ext := .fin n (2 * m + 1) (e - 1)

/-- 2^y of a finite y. -/
def exp2Of (n : Bool) (m : Nat) (e : Int) : Ext :=
  if m = 0 then .fin false 1 0
  else if 8 < (m.log2 : Int) + e then (if n then .fin false 1 (-1000) else .fin false 1 1000)
  else
    -- y in units of 2^-256; a smaller part only makes the result inexact
    let v : Int := Ext.units (min e (-256)) (.fin n m e)
    let y := Int.fdiv v ((2 ^ (-256 - min e (-256)).toNat : Nat) : Int)
    let i := Int.fdiv y (fixOne : Int)
    let f := (y - i * (fixOne : Int)).toNat
    if f = 0 ∧ y * ((2 ^ (-256 - min e (-256)).toNat : Nat) : Int) = v then .fin false 1 i
    else sticky false (exp2Fix f) (i - 256)
/-- log2 y of a positive finite y. -/
def log2Of (m : Nat) (e : Int) : Ext :=
  let k := m.log2
  let i : Int := (k : Int) + e
  let x := m * 2 ^ 256 / 2 ^ k
  if m = 2 ^ k then Ext.ofUnits 0 i
  else
    let v : Int := i * (fixOne : Int) + (log2Fix x : Int)
    sticky (decide (v < 0)) v.natAbs (-256)
/-- 1 / y and 1 / √y of a nonzero finite y. -/
def rcpOf (n : Bool) (m : Nat) (e : Int) : Ext :=
  let k := 256 + m.log2
  if 2 ^ k % m = 0 then .fin n (2 ^ k / m) (-e - k) else sticky n (2 ^ k / m) (-e - k)
/-- The integer square root, by bits from the highest. -/
def isqrt (x : Nat) : Nat :=
  (List.range (x.log2 / 2 + 1)).foldl (fun r j => let t := r + 2 ^ (x.log2 / 2 - j); if t * t ≤ x then t else r) 0
def rsqOf (m : Nat) (e : Int) : Ext :=
  let m' := if e % 2 = 0 then m else 2 * m
  let e' := if e % 2 = 0 then e else e - 1
  let k := 2 * (128 + m'.log2)
  let r := isqrt (2 ^ k / m')
  if r * r * m' = 2 ^ k then .fin false r (-(e' / 2) - (k / 2 : Nat)) else sticky false r (-(e' / 2) - (k / 2 : Nat))
/-- tanh y of a finite y. -/
def tanhOf (n : Bool) (m : Nat) (e : Int) : Ext :=
  if m = 0 then .fin n 0 0
  else if (m.log2 : Int) + e < -40 then .fin n (m * 2 ^ 64 - 1) (e - 64)
  else if 6 ≤ (m.log2 : Int) + e then .fin n (2 ^ 64 - 1) (-64)
  else
    -- u = e^(-2|y|) as 2^(-t), t = 2|y| / ln 2
    let t := Int.toNat (Ext.units (-400) (.fin false m e)) * 2 ^ 257 / 2 ^ 400 * fixOne / ln2Fix
    let i := t / fixOne
    let f := t % fixOne
    let u := if f = 0 then fixOne / 2 ^ i else exp2Fix (fixOne - f) / 2 ^ (i + 1)
    sticky n ((fixOne - u) * fixOne / (fixOne + u)) (-256)

/-- The five functions in the order VEXP2, VLOG2, VRCP, VRSQ, VTANH. -/
inductive Fn where
  | exp2 | log2 | rcp | rsq | tanh
deriving DecidableEq, Repr

/-- R231. -/
def Fn.apply (f : Fn) (x : Ext) : Ext :=
  match f, x with
  | _, .nan => .nan
  | .exp2, .inf n => if n then Ext.zero else .inf false
  | .log2, .inf n => if n then .nan else .inf false
  | .rcp, .inf n => .fin n 0 0
  | .rsq, .inf n => if n then .nan else Ext.zero
  | .tanh, .inf n => .fin n 1 0
  | .exp2, .fin n m e => exp2Of n m e
  | .log2, .fin n m e => if m = 0 then .inf true else if n then .nan else log2Of m e
  | .rcp, .fin n m e => if m = 0 then .inf n else rcpOf n m e
  | .rsq, .fin n m e => if m = 0 then .inf n else if n then .nan else rsqOf m e
  | .tanh, .fin n m e => tanhOf n m e

end Sys2Proof.Machine
end

