-- ==== Sys2Proof/Syntax.lean ====
section
/-! DEFINITION. The instructions and the indivisible steps of the K4, one constructor of `Instr` for every row of the
opcode table: sequencer words (R118-R125), engine words (R126-R129), chain entries (R132, R133) and the steps that
have no encoding, whose arguments name the agent and carry what the outside supplies. -/
namespace Sys2Proof

/-- The three engines, in the order ME, VE, CE of R26 and R124. -/
inductive Eng where
  | me | ve | ce
deriving DecidableEq, Repr

/-- The two sources of a form that accepts LIT 00, 01 and 10 (R119). -/
inductive Src2 where
  /-- LIT 00: registers SRC1 and SRC2. -/
  | reg (a b : DReg)
  /-- LIT 01: register SRC1, the literal in the place of SRC2. -/
  | lit2 (a : DReg) (l : Word)
  /-- LIT 10: the literal is the first source, SRC1 names the second. -/
  | lit1 (l : Word) (b : DReg)
deriving DecidableEq, Repr

/-- A domain source SRC2 that may be a literal under LIT 01. -/
inductive SrcV where
  | reg (b : DReg)
  | lit (l : Word)
deriving DecidableEq, Repr

/-- An address source SRC2 that may be a sign-extended literal under LIT 01. -/
inductive SrcA where
  | reg (b : AReg)
  | lit (l : Word)
deriving DecidableEq, Repr

/-- The plain widths of R125. -/
inductive Width where
  | w32 | w8 | w16 | w64
deriving DecidableEq, Repr

/-- The subfield T of R125: domain register sign-extended, domain register zero-extended, address register. -/
inductive TKind where
  | ts | tz | ta
deriving DecidableEq, Repr

/-- The source of a store: a register with the offset IMM20, or a literal stored at the base (R163). -/
inductive StSrc where
  | reg (r : BitVec 6) (off : BitVec 20)
  | lit (l : Word)
deriving DecidableEq, Repr

/-- Result and operand of a plain atomic: W32 on domain registers (zx: T = TZ), W64 on address registers (R165). -/
inductive AForm where
  | s (zx : Bool) (dst : DReg) (v : SrcV)
  | a (dst : AReg) (v : SrcA)
deriving DecidableEq, Repr

/-- Result, operand and compare value of ATOM.CAS (R165). -/
inductive CasForm where
  | s (zx : Bool) (dst v c : DReg)
  | a (dst v c : AReg)
deriving DecidableEq, Repr

/-- The six operations that atomics, row updates and CATOM share, in the order of their codes 0-5. -/
inductive AOp where
  | add | min | max | and | or | xor
deriving DecidableEq, Repr

/-- The fields of an ME or VE word below its opcode (R126). -/
structure EWord where
  pop : BitVec 3
  push : BitVec 3
  each : Bool
  rpt : BitVec 10
  step : BitVec 10
  k : Bool
  x : BitVec 4
  y : BitVec 4
  z : BitVec 4
deriving DecidableEq, Repr

/-- The fields of a chain entry above its OP (R132); its RSVD field is not held because it must be 0. -/
structure CEntry where
  dpstr : BitVec 16
  drstr : BitVec 16
  spstr : BitVec 16
  srstr : BitVec 16
  addr1 : DWord
  addr0 : DWord
  n1m : BitVec 12
  lenm : BitVec 20
  n2m : BitVec 12
  fn : BitVec 8
  setf : Bool
  tkp : Bool
deriving DecidableEq, Repr

/-- Who writes the control space or speaks to a responder: the operator's physical function, which is that of link 0, the
physical function of link 1, the virtual function of a partition, or the management core (R346, R348, R352, R353). -/
inductive Func where
  | pf
  | pf1
  | vf (p : Nat)
  | mgmt
deriving DecidableEq, Repr

/-- New readings that the sensors bring to a sample (R335, R339): signed eighths of a degree. -/
inductive Reading where
  | seg (s : Nat) (temp : BitVec 16)
  | group (h g : Nat) (temp : BitVec 16) (layer : BitVec 5)
deriving DecidableEq, Repr

/-- One constructor per row of spec/opcode_table.json, in the table's order but for a few steps without an encoding. -/
inductive Instr where
  -- integer and relational forms (R106, R107, R144-R150)
  | add (d : DReg) (s2 : Src2)
  | addR (d : DReg) (s2 : Src2)
  | sub (d : DReg) (s2 : Src2)
  | subR (d : DReg) (s2 : Src2)
  | mul (d : DReg) (s2 : Src2)
  | mulR (d : DReg) (s2 : Src2)
  | mulhS (d : DReg) (s2 : Src2)
  | mulhU (d : DReg) (s2 : Src2)
  | divS (d : DReg) (s2 : Src2)
  | divU (d : DReg) (s2 : Src2)
  | remS (d : DReg) (s2 : Src2)
  | remU (d : DReg) (s2 : Src2)
  | and (d : DReg) (s2 : Src2)
  | or (d : DReg) (s2 : Src2)
  | xor (d : DReg) (s2 : Src2)
  | andn (d : DReg) (s2 : Src2)
  | shl (d : DReg) (s2 : Src2)
  | shr (d : DReg) (s2 : Src2)
  | sra (d : DReg) (s2 : Src2)
  | rot (d : DReg) (s2 : Src2)
  | min (d : DReg) (s2 : Src2)
  | minR (d : DReg) (s2 : Src2)
  | max (d : DReg) (s2 : Src2)
  | maxR (d : DReg) (s2 : Src2)
  | abs (d a : DReg)
  | absR (d a : DReg)
  | neg (d a : DReg)
  | negR (d a : DReg)
  | clz (d a : DReg)
  | ffs (d a : DReg)
  | popc (d a : DReg)
  | exts (d a : DReg) (pos : BitVec 5) (width : BitVec 6)
  | extz (d a : DReg) (pos : BitVec 5) (width : BitVec 6)
  | sel (d c a b : DReg)
  | cmpeq (d : DReg) (s2 : Src2)
  | cmpeqR (d : DReg) (s2 : Src2)
  | cmpne (d : DReg) (s2 : Src2)
  | cmpneR (d : DReg) (s2 : Src2)
  | cmplt (d : DReg) (s2 : Src2)
  | cmpltR (d : DReg) (s2 : Src2)
  | cmple (d : DReg) (s2 : Src2)
  | cmpleR (d : DReg) (s2 : Src2)
  | alld (d : DReg) (m : BitVec 4)
  -- domain forms (R151-R156)
  | dset (d : DReg) (s2 : Src2)
  | dmsk (d : DReg) (a : AReg)
  | dexc (d : DReg) (v : SrcV)
  | dint (d a : DReg)
  | dlo (d a : DReg)
  | dhi (d a : DReg)
  | dcard (d a : DReg)
  | dpickLo (d a : DReg)
  | dpickHi (d a : DReg)
  | dtst (d a : DReg) (v : SrcV)
  | mov (d a : DReg)
  | pfix
  | pclr
  | ckpt (alt : BitVec 20)
  | ckpop
  | ckrst
  | ckback
  -- address forms (R157)
  | aadd (d a : AReg) (v : SrcV)
  | asub (d a : AReg) (v : SrcV)
  | ascl (d a : AReg) (v : DReg) (sh : BitVec 3)
  | alo (d : DReg) (a : AReg)
  | ahi (d : DReg) (a : AReg)
  | amov (d a : AReg)
  | amovL2 (d : AReg) (l : Word)
  | afromd (d : AReg) (v : DReg)
  | dfroma (d : DReg) (a : AReg)
  | acmpEq (d : DReg) (a b : AReg)
  | acmpNe (d : DReg) (a b : AReg)
  | acmpLt (d : DReg) (a b : AReg)
  | acmpLe (d : DReg) (a b : AReg)
  -- memory forms (R162-R166)
  | ld (w : Width) (t : TKind) (dst : BitVec 6) (base : AReg) (off : BitVec 20)
  | ldWcell (dst : DReg) (base : AReg) (off : BitVec 20)
  | st (w : Width) (t : TKind) (base : AReg) (src : StSrc)
  | pref (base : AReg) (off : BitVec 20)
  | atomAdd (f : AForm) (base : AReg)
  | atomMin (f : AForm) (base : AReg)
  | atomMax (f : AForm) (base : AReg)
  | atomAnd (f : AForm) (base : AReg)
  | atomOr (f : AForm) (base : AReg)
  | atomXor (f : AForm) (base : AReg)
  | atomXchg (f : AForm) (base : AReg)
  | atomCas (f : CasForm) (base : AReg)
  | atomFaddx (base : AReg) (v : SrcV)
  | rowUpdate (op : AOp) (wide : Bool) (base : AReg) (row : SrcA)
  | dqPush (d : DReg) (h v : AReg)
  | dqPop (d : DReg) (h v : AReg)
  | dqSteal (d : DReg) (h v : AReg)
  -- ordering forms (R167)
  | mark (q : BitVec 5)
  | qfen (q : BitVec 3)
  | sfen (n : BitVec 4)
  | reltag (w : DReg)
  -- control forms (R168-R174)
  | br (off : BitVec 20)
  | bri (a : AReg)
  | beq (a b : DReg) (off : BitVec 20)
  | bne (a b : DReg) (off : BitVec 20)
  | blt (a b : DReg) (off : BitVec 20)
  | ble (a b : DReg) (off : BitVec 20)
  | bsngS (a : DReg) (off : BitVec 20)
  | bsngN (a : DReg) (off : BitVec 20)
  | call (l : AReg) (off : BitVec 20)
  | ret (a : AReg)
  | loop (c : DReg) (last : BitVec 20)
  | looprp (last : BitVec 20)
  | lrec (a : AReg)
  | node
  | idle
  | halt
  | trap (code : BitVec 8)
  | rtt
  -- flags, engine queues and shadows (R175-R180)
  | waitf (n : BitVec 8)
  | sigf (n : BitVec 8)
  | clrf (n : BitVec 8)
  | enqMe (a : AReg)
  | enqVe (a : AReg)
  | enqCe (a : AReg)
  | nest (a : AReg)
  | ngo
  | fmtq (v : SrcV)
  | tkpost (e : Eng)
  | tkwait (e : Eng)
  | port (a : AReg) (p : BitVec 3)
  | shape (v : SrcV)
  -- reels, remote work, near memory (R181-R185)
  | reelj (a : AReg)
  | reell (a : AReg)
  | reels (a : AReg)
  | reqMe (a : AReg) (t : SrcV)
  | reqVe (a : AReg) (t : SrcV)
  | reqCe (a : AReg) (t : SrcV)
  | send (a : AReg) (t l : DReg) (handler : BitVec 14)
  | trel (r t : AReg)
  | nmv (a : AReg)
  | pks (a : AReg)
  | pkg (a : AReg)
  | pka (a : AReg)
  -- leases, system registers, debug (R186-R190)
  | pacq (level : BitVec 4)
  | prel
  | srr (d : DReg) (num : BitVec 12)
  | srw (d : DReg) (num : BitVec 12)
  | sdeadD (a : AReg)
  | sdeadA (a : AReg)
  | bkpt (code : BitVec 8)
  | cut
  /-- Strand `k` of core `c` takes a trap (R260); `addr`, `agent` and `seq` fill the trap state of R305. -/
  | trapEntry (c k : Nat) (code : BitVec 8) (agent : BitVec 3) (addr : DWord) (seq : BitVec 16)
  -- ME words (R128)
  | mzero (w : EWord)
  | mload (w : EWord)
  | mloadg (w : EWord)
  | mstore (w : EWord)
  | mmac (w : EWord)
  | mmacs (w : EWord)
  | mdrain (w : EWord)
  | mhad (w : EWord)
  | mtrn (w : EWord)
  | mnest (w : EWord)
  | mstop (w : EWord)
  | mnop (w : EWord)
  /-- The ME of core `c` goes on with the NEST entry it runs (R211). -/
  | nestEntryRun (c : Nat)
  /-- Engine `e` of core `c` takes the next strand's queue head (R27). -/
  | engineEntryStart (c : Nat) (e : Eng)
  /-- The word or entry that engine `e` of core `c` has finished makes its pushes and completes (R28, R29, R242). -/
  | engineWordComplete (c : Nat) (e : Eng)
  -- VE words (R129)
  | vadd (w : EWord)
  | vsub (w : EWord)
  | vmul (w : EWord)
  | vfma (w : EWord)
  | vmin (w : EWord)
  | vmax (w : EWord)
  | vabs (w : EWord)
  | vneg (w : EWord)
  | vexp2 (w : EWord)
  | vlog2 (w : EWord)
  | vrcp (w : EWord)
  | vrsq (w : EWord)
  | vtanh (w : EWord)
  | vscl (w : EWord)
  | vsel (w : EWord)
  | vand (w : EWord)
  | vor (w : EWord)
  | vxor (w : EWord)
  | vshl (w : EWord)
  | vshr (w : EWord)
  | vclz (w : EWord)
  | vffs (w : EWord)
  | vpopc (w : EWord)
  | vbc (w : EWord)
  | vperm (w : EWord)
  | vtrn (w : EWord)
  | vmov (w : EWord)
  | vld (w : EWord)
  | vst (w : EWord)
  | vrot (w : EWord)
  | vpst (w : EWord)
  | vcmpEq (w : EWord)
  | vcmpNe (w : EWord)
  | vcmpLt (w : EWord)
  | vcmpLe (w : EWord)
  | vcmpGt (w : EWord)
  | vcmpGe (w : EWord)
  | vredAdd (w : EWord)
  | vredMin (w : EWord)
  | vredMax (w : EWord)
  | vredAmx (w : EWord)
  | vcvt (src dst : BitVec 3) (w : EWord)
  | vstop (w : EWord)
  | vnop (w : EWord)
  -- chain entries (R133)
  | ccopy (e : CEntry)
  | cgath (e : CEntry)
  | cscat (e : CEntry)
  | cfill (e : CEntry)
  | cwait (e : CEntry)
  /-- The CE of core `c` reads the counter of a CWAIT at a queue head again (R244). -/
  | cwaitRetest (c : Nat)
  | cpost (e : CEntry)
  | catom (e : CEntry)
  | clink (e : CEntry)
  | cend (e : CEntry)
  | cnop (e : CEntry)
  -- traffic of the load and store queues (R63, R68, R162, R308)
  /-- The head entry of the load queue (`st` false) or store queue (`st` true) of strand `k` of core `c` issues. -/
  | queueEntryIssue (c k : Nat) (st : Bool)
  /-- The access of core `c` with issue number `n` is performed at its place. -/
  | accessPerform (c n : Nat)
  /-- The value of access `n` of core `c` is written to its register. -/
  | loadValueReturn (c n : Nat)
  /-- Access `n` of core `c` leaves the in-flight record. -/
  | inFlightRetire (c n : Nat)
  /-- The oldest reel release under way reaches its core (R32). -/
  | reelRelease
  /-- The oldest REQ in the network whose target queue has room is accepted (R33). -/
  | reqAccept (i : Nat)
  /-- Core `c` accepts the oldest message held for it (R34). -/
  | sendAccept (c : Nat)
  -- starts, switches, ends (R23, R35-R38)
  | strandStart (c : Nat)
  | taskSwitch (c k : Nat)
  | endingToDormant (c k : Nat)
  | timerWheelSlot (c : Nat)
  -- three steps of later chapters stand here: a sample of the trace unit (R358), the end of a scrub (R351), an
  -- invalidation (R327)
  | traceSample (c k : Nat)
  | scrubDone (p : Nat)
  | tlbinv (p : Nat)
  -- launch and placement (R290-R300)
  | residencyPoll (die : Nat)
  | distributorIssue (die : Nat)
  | transferRun (c : Nat)
  | lendingEnd (c : Nat)
  | rotation (die : Nat)
  -- pre-emption (R314-R322)
  | preemptLight (c : Nat)
  | preemptFull (c : Nat)
  | preemptResume (c : Nat)
  | preemptKill (c : Nat)
  | killTransfer (c : Nat)
  | leaseGrant (seg : Nat)
  -- translation (R325-R329, R370, R373)
  | tableWalkComplete (c k : Nat) (st : Bool)
  -- three steps of launch and placement (R278, R290, R298)
  | mailboxGo (by_ : Func) (c : Nat)
  | overlayLoad (c : Nat)
  | park (c : Nat)
  | priResponse (fid : Nat) (ok : Bool)
  | tfresRetry (p fid : Nat)
  | tfresRefuse (p fid : Nat)
  | mtfresRetry (fid : Nat)
  | mtfresRefuse (fid : Nat)
  | mtlbinv
  | atsInvalidation (va : DWord) (size : BitVec 3)
  | eventRingRoom (p : Nat) (cons : BitVec 8)
  -- power and thermal (R336-R344)
  | drawEstimateWindow
  | sensorSample (rs : List Reading)
  | alertPeriodExpiry
  | talrtWrite (v : Word)
  | refreshDue (h v pc bank : Nat) (postpone : Bool)
  | selfRefreshEntry (h v pc : Nat)
  | vilvWrite (h v : Nat) (n : BitVec 5)
  | vilvMigrationDone (h v : Nat)
  | rcapmsg (m : DWord)
  | capLeaseExpiry
  | powerSample (watts : Nat)
  | ptpstepWrite (v : DWord)
  | ptpMessage (port : BitVec 5) (body : DWord)
  -- partitions and security (R349-R354)
  | partitionEnable (p : Nat)
  | partitionDisable (p : Nat)
  | getVersion (f : Func)
  | getCapabilities (f : Func)
  | negotiateAlgorithms (f : Func) (asym hash dhe aead : BitVec 8)
  | getDigests (f : Func)
  | getCertificate (f : Func) (slot : Nat)
  | challenge (f : Func) (slot : Nat)
  | getMeasurements (f : Func) (index : Nat)
  | keyExchange (f : Func)
  | finish (f : Func)
  | endSession (f : Func)
  | keyUpdate (f : Func)
  | lockInterface (p : Nat)
  | startInterface (p : Nat)
  | stopInterface (p : Nat)
  | alabinFlitGroup (port stream : Nat) (ok : Bool)
  -- bring-up (R334, R354, R355)
  /-- Package reset with a firmware package whose signature check gives `sigOk` and whose version is `version`. -/
  | reset (sigOk : Bool) (version : Word) (rs : List Reading)
  | stackTrained (h : Nat)
  | svcFull
  -- trace, scrub, control space (R346, R358, R366)
  | patrolScrub (h : Nat) (row : Nat)
  | controlRegisterWrite (by_ : Func) (off : Nat) (wide : Bool) (v : DWord)
  | alabinStreamRekey (port stream : Nat)
  | atsTranslationCompletion (die p : Nat) (va : DWord) (host : DWord)
  | ideKm (p : Nat)
  | segmentTrim (seg : Nat) (up : Bool)
deriving DecidableEq, Repr

end Sys2Proof
end

