-- ==== Sys2Proof/WellFormed.lean ====
section
/-! DEFINITION. Which terms of `Instr` the encodings of the spec admit: the operand ranges and the fields that must be
0 (R119-R134, R148, R150, R157, R167, R169, R174-R184, R186, R187, R190, R199). -/
namespace Sys2Proof

/-- R125: the combinations of W and T that LD and ST admit; an address register number lies below 32 (R120). -/
def widthKindOk : Width → TKind → BitVec 6 → Bool
  | .w32, .ta, r => decide (r.toNat < 32)
  | .w64, .ta, r => decide (r.toNat < 32)
  | .w64, _, _ => false
  | .w8, .ta, _ => false
  | .w16, .ta, _ => false
  | _, _, _ => true

/-- R163: the source of ST under its W and T. -/
def stSrcOk (w : Width) (t : TKind) : StSrc → Bool
  | .reg r _ => widthKindOk w t r
  | .lit _ => widthKindOk w t 0

/-- R148: the field of EXTS and EXTZ. -/
def extOk (pos : BitVec 5) (width : BitVec 6) : Bool :=
  decide (1 ≤ width.toNat) && decide (pos.toNat + width.toNat ≤ 32)

/-- R169: a word offset of LOOP and LOOPRP is at least 1, read as signed. -/
def lastOk (off : BitVec 20) : Bool := decide (1 ≤ off.toInt)

/-- The number of set bits among the three of QFEN (R167). -/
def atLeastTwo (q : BitVec 3) : Bool :=
  (q.getLsbD 0 && q.getLsbD 1) || (q.getLsbD 0 && q.getLsbD 2) || (q.getLsbD 1 && q.getLsbD 2)

/-- R127, R128: the fields of MSTOP (`stop` true) and MNOP, which VSTOP and VNOP share. -/
def stopOk (stop : Bool) (w : EWord) : Bool :=
  w.x == 0 && w.y == 0 && w.z == 0 && !w.k && w.step == 0 && (!stop || (w.rpt == 0 && !w.each))

/-- R128, R199: the fields of an ME word; `z`, `y` and the tile rule are given by each form. -/
def mzeroOk (w : EWord) : Bool := !w.k && w.step == 0 && w.y == 0 && w.z == 0
def mloadOk (w : EWord) : Bool :=
  !w.k && ((w.z == 0 && decide (w.y.toNat ≤ 3)) || ((w.z == 14 || w.z == 15) && w.y == 0 && w.step == 0))
def mloadgOk (w : EWord) : Bool := !w.k && decide (w.y.toNat ≤ 2) && w.z == 0
def mstoreOk (w : EWord) : Bool := decide (w.y.toNat ≤ 3) && w.z == 0
def mmacOk (w : EWord) : Bool := w.step == 0 && w.x != w.y && w.x != w.z
def mmacsOk (w : EWord) : Bool := !w.k && decide (w.y.toNat ≤ 2) && decide (w.z.toNat ≤ 2)
def mdrainOk (w : EWord) : Bool := w.step == 0 && decide (w.z.toNat ≤ 1) && w.x != w.y
def mhadOk (w : EWord) : Bool := w.step == 0 && decide (w.z.toNat ≤ 2) && w.x != w.y
def mtrnOk (w : EWord) : Bool := w.step == 0 && w.z == 0 && w.x != w.y
def mnestOk (w : EWord) : Bool :=
  !w.k && w.step == 0 && w.x == 0 && w.y == 0 && w.rpt == 0 && decide (1 ≤ w.z.toNat) && decide (w.z.toNat ≤ 5)

/-- R129: the predicate fields inside STEP: [1:0] are 0, and PS is 0 when PE is 0. -/
def predOk (w : EWord) : Bool :=
  (w.step &&& 3) == 0 && (w.step.getLsbD 6 || (w.step &&& 0x3C) == 0)
/-- R129: a destination code does not name PT0-PT5, a source code does not name PT6 or PT7. -/
def dstOk (c : BitVec 4) : Bool := decide (6 ≤ c.toNat)
def srcOk (c : BitVec 4) : Bool := c != 6 && c != 7
/-- What the column I of R129 admits. -/
inductive IUse where
  | zero | one | either
deriving DecidableEq, Repr
def iOk (u : IUse) (w : EWord) : Bool :=
  match u with
  | .zero => !w.k
  | .one => w.k
  | .either => true
/-- VE words with operands X, Y, Z; with X, Y (Z is 0). -/
def ve3Ok (u : IUse) (w : EWord) : Bool := predOk w && iOk u w && dstOk w.x && srcOk w.y && srcOk w.z
def ve2Ok (u : IUse) (w : EWord) : Bool := predOk w && iOk u w && dstOk w.x && srcOk w.y && w.z == 0
def vldOk (w : EWord) : Bool :=
  predOk w && !w.k && decide (8 ≤ w.x.toNat) && decide (w.y.toNat ≤ 5) && w.z == 0
def vstOk (w : EWord) : Bool :=
  predOk w && !w.k && (w.x == 6 || w.x == 7) && decide (8 ≤ w.y.toNat) && w.z == 0
def vpstOk (w : EWord) : Bool := predOk w && !w.k && w.x == 0 && srcOk w.y && w.z == 0

/-- R133: the fields that an entry does not use are 0. -/
def strides0 (e : CEntry) : Bool := e.dpstr == 0 && e.drstr == 0 && e.spstr == 0 && e.srstr == 0
def counts0 (e : CEntry) : Bool := e.n1m == 0 && e.lenm == 0 && e.n2m == 0
def cgathOk (e : CEntry) : Bool := e.n2m == 0
def cfillOk (e : CEntry) : Bool := e.spstr == 0 && e.srstr == 0
def cwaitOk (e : CEntry) : Bool := counts0 e && strides0 e && decide (e.addr1.toNat < 2 ^ 32)
def cpostOk (e : CEntry) : Bool := counts0 e && strides0 e && decide (e.addr1.toNat < 2 ^ 32) && e.addr1 != 0
/-- R133, R243: OPX, the multiples of the width, and the operand of the 32-bit form. -/
def catomOk (e : CEntry) : Bool :=
  e.n1m == 0 && e.n2m == 0 && e.dpstr == 0 && e.drstr == 0 && e.spstr == 0 &&
  decide (e.srstr.toNat < 32) && decide (e.srstr.toNat % 16 ≤ 5) &&
  (if e.srstr.getLsbD 4 then e.addr0.toNat % 8 == 0 && (e.lenm.toNat + 1) % 8 == 0
   else e.addr0.toNat % 4 == 0 && (e.lenm.toNat + 1) % 4 == 0 && decide (e.addr1.toNat < 2 ^ 32))
def clinkOk (e : CEntry) : Bool := counts0 e && strides0 e && e.addr1 == 0
def cendOk (e : CEntry) : Bool := counts0 e && strides0 e && e.addr0 == 0 && e.addr1 == 0

/-- The bounds of the agents that an event names (R2): cores, slots, segments, dies, stacks, vaults. -/
def coreOk (c : Nat) : Bool := decide (c ≤ 2048)
def slotOk (k : Nat) : Bool := decide (k < 8)
def segOk (g : Nat) : Bool := decide (g < 1024)
def dieOk (d : Nat) : Bool := decide (d < 4)
def partOk (p : Nat) : Bool := decide (p < 16)
def stackOk (h : Nat) : Bool := decide (h < 8)

def Reading.wf : Reading → Bool
  | .seg s _ => segOk s
  | .group h g _ layer => stackOk h && decide (g < 32) && decide (layer.toNat < 20)

/-- A term that stands for an instruction word, or for an event of agents that the K4 has. -/
def Instr.wf : Instr → Bool
  | .exts _ _ pos width => extOk pos width
  | .extz _ _ pos width => extOk pos width
  | .alld d m => decide (2 ≤ m.toNat) && decide (m.toNat ≤ 8) && decide (d.toNat + m.toNat ≤ 64)
  | .ascl _ _ _ sh => decide (sh.toNat ≤ 6)
  | .ld w t dst _ _ => widthKindOk w t dst
  | .st w t _ src => stSrcOk w t src
  | .mark q => q != 0
  | .qfen q => atLeastTwo q
  | .loop _ last => lastOk last
  | .looprp last => lastOk last
  | .mzero w => mzeroOk w
  | .mload w => mloadOk w
  | .mloadg w => mloadgOk w
  | .mstore w => mstoreOk w
  | .mmac w => mmacOk w
  | .mmacs w => mmacsOk w
  | .mdrain w => mdrainOk w
  | .mhad w => mhadOk w
  | .mtrn w => mtrnOk w
  | .mnest w => mnestOk w
  | .mstop w => stopOk true w
  | .mnop w => stopOk false w
  | .vadd w => ve3Ok .either w
  | .vsub w => ve3Ok .either w
  | .vmul w => ve3Ok .either w
  | .vfma w => ve3Ok .zero w
  | .vmin w => ve3Ok .either w
  | .vmax w => ve3Ok .either w
  | .vabs w => ve2Ok .either w
  | .vneg w => ve2Ok .either w
  | .vexp2 w => ve2Ok .zero w
  | .vlog2 w => ve2Ok .zero w
  | .vrcp w => ve2Ok .zero w
  | .vrsq w => ve2Ok .zero w
  | .vtanh w => ve2Ok .zero w
  | .vscl w => ve3Ok .zero w
  | .vsel w => ve3Ok .either w
  | .vand w => ve3Ok .one w
  | .vor w => ve3Ok .one w
  | .vxor w => ve3Ok .one w
  | .vshl w => ve3Ok .one w
  | .vshr w => ve3Ok .one w
  | .vclz w => ve2Ok .one w
  | .vffs w => ve2Ok .one w
  | .vpopc w => ve2Ok .one w
  | .vbc w => ve2Ok .zero w
  | .vperm w => ve3Ok .zero w
  | .vtrn w => ve2Ok .zero w
  | .vmov w => ve2Ok .zero w
  | .vld w => vldOk w
  | .vst w => vstOk w
  | .vrot w => ve3Ok .zero w
  | .vpst w => vpstOk w
  | .vcmpEq w => ve3Ok .either w
  | .vcmpNe w => ve3Ok .either w
  | .vcmpLt w => ve3Ok .either w
  | .vcmpLe w => ve3Ok .either w
  | .vcmpGt w => ve3Ok .either w
  | .vcmpGe w => ve3Ok .either w
  | .vredAdd w => ve2Ok .either w
  | .vredMin w => ve2Ok .either w
  | .vredMax w => ve2Ok .either w
  | .vredAmx w => ve2Ok .zero w
  | .vcvt s t w => ve3Ok .zero w && s != t
  | .vstop w => stopOk true w
  | .vnop w => stopOk false w
  | .cgath e => cgathOk e
  | .cscat e => cgathOk e
  | .cfill e => cfillOk e
  | .cwait e => cwaitOk e
  | .cpost e => cpostOk e
  | .catom e => catomOk e
  | .clink e => clinkOk e
  | .cend e => cendOk e
  | .cnop e => cendOk e
  | .trapEntry c k _ _ _ _ => coreOk c && slotOk k
  | .nestEntryRun c => coreOk c
  | .engineEntryStart c _ => coreOk c
  | .engineWordComplete c _ => coreOk c
  | .cwaitRetest c => coreOk c
  | .queueEntryIssue c k _ => coreOk c && slotOk k
  | .accessPerform c _ => coreOk c
  | .loadValueReturn c _ => coreOk c
  | .inFlightRetire c _ => coreOk c
  | .sendAccept c => coreOk c
  | .strandStart c => coreOk c
  | .taskSwitch c k => coreOk c && slotOk k
  | .endingToDormant c k => coreOk c && slotOk k
  | .timerWheelSlot c => coreOk c
  | .mailboxGo _ c => coreOk c
  | .residencyPoll d => dieOk d
  | .distributorIssue d => dieOk d
  | .overlayLoad c => coreOk c
  | .transferRun c => coreOk c
  | .park c => coreOk c
  | .lendingEnd c => coreOk c
  | .rotation d => dieOk d
  | .preemptLight c => coreOk c
  | .preemptFull c => coreOk c
  | .preemptResume c => coreOk c
  | .preemptKill c => coreOk c
  | .killTransfer c => coreOk c
  | .leaseGrant g => segOk g
  | .tableWalkComplete c k _ => coreOk c && slotOk k
  | .tfresRetry p _ => partOk p
  | .tfresRefuse p _ => partOk p
  | .tlbinv p => partOk p
  | .eventRingRoom p _ => partOk p
  | .sensorSample rs => rs.all Reading.wf
  | .refreshDue h v pc bank _ => stackOk h && decide (v < 16) && decide (pc < 24) && decide (bank < 64)
  | .selfRefreshEntry h v pc => stackOk h && decide (v < 16) && decide (pc < 24)
  | .vilvWrite h v _ => stackOk h && decide (v < 16)
  | .vilvMigrationDone h v => stackOk h && decide (v < 16)
  | .partitionEnable p => partOk p
  | .partitionDisable p => partOk p
  | .scrubDone p => partOk p
  | .lockInterface p => partOk p
  | .startInterface p => partOk p
  | .stopInterface p => partOk p
  | .ideKm p => partOk p
  | .stackTrained h => stackOk h
  | .traceSample c k => coreOk c && slotOk k
  | .patrolScrub h _ => stackOk h
  | .atsTranslationCompletion d p _ _ => dieOk d && partOk p
  | .segmentTrim g _ => segOk g
  | .reset _ _ rs => rs.all Reading.wf
  | .add _ _ => true
  | .addR _ _ => true
  | .sub _ _ => true
  | .subR _ _ => true
  | .mul _ _ => true
  | .mulR _ _ => true
  | .mulhS _ _ => true
  | .mulhU _ _ => true
  | .divS _ _ => true
  | .divU _ _ => true
  | .remS _ _ => true
  | .remU _ _ => true
  | .and _ _ => true
  | .or _ _ => true
  | .xor _ _ => true
  | .andn _ _ => true
  | .shl _ _ => true
  | .shr _ _ => true
  | .sra _ _ => true
  | .rot _ _ => true
  | .min _ _ => true
  | .minR _ _ => true
  | .max _ _ => true
  | .maxR _ _ => true
  | .abs _ _ => true
  | .absR _ _ => true
  | .neg _ _ => true
  | .negR _ _ => true
  | .clz _ _ => true
  | .ffs _ _ => true
  | .popc _ _ => true
  | .sel _ _ _ _ => true
  | .cmpeq _ _ => true
  | .cmpeqR _ _ => true
  | .cmpne _ _ => true
  | .cmpneR _ _ => true
  | .cmplt _ _ => true
  | .cmpltR _ _ => true
  | .cmple _ _ => true
  | .cmpleR _ _ => true
  | .dset _ _ => true
  | .dmsk _ _ => true
  | .dexc _ _ => true
  | .dint _ _ => true
  | .dlo _ _ => true
  | .dhi _ _ => true
  | .dcard _ _ => true
  | .dpickLo _ _ => true
  | .dpickHi _ _ => true
  | .dtst _ _ _ => true
  | .mov _ _ => true
  | .pfix => true
  | .pclr => true
  | .ckpt _ => true
  | .ckpop => true
  | .ckrst => true
  | .ckback => true
  | .aadd _ _ _ => true
  | .asub _ _ _ => true
  | .alo _ _ => true
  | .ahi _ _ => true
  | .amov _ _ => true
  | .amovL2 _ _ => true
  | .afromd _ _ => true
  | .dfroma _ _ => true
  | .acmpEq _ _ _ => true
  | .acmpNe _ _ _ => true
  | .acmpLt _ _ _ => true
  | .acmpLe _ _ _ => true
  | .ldWcell _ _ _ => true
  | .pref _ _ => true
  | .atomAdd _ _ => true
  | .atomMin _ _ => true
  | .atomMax _ _ => true
  | .atomAnd _ _ => true
  | .atomOr _ _ => true
  | .atomXor _ _ => true
  | .atomXchg _ _ => true
  | .atomCas _ _ => true
  | .atomFaddx _ _ => true
  | .rowUpdate _ _ _ _ => true
  | .dqPush _ _ _ => true
  | .dqPop _ _ _ => true
  | .dqSteal _ _ _ => true
  | .sfen _ => true
  | .reltag _ => true
  | .br _ => true
  | .bri _ => true
  | .beq _ _ _ => true
  | .bne _ _ _ => true
  | .blt _ _ _ => true
  | .ble _ _ _ => true
  | .bsngS _ _ => true
  | .bsngN _ _ => true
  | .call _ _ => true
  | .ret _ => true
  | .lrec _ => true
  | .node => true
  | .idle => true
  | .halt => true
  | .trap _ => true
  | .rtt => true
  | .waitf _ => true
  | .sigf _ => true
  | .clrf _ => true
  | .enqMe _ => true
  | .enqVe _ => true
  | .enqCe _ => true
  | .nest _ => true
  | .ngo => true
  | .fmtq _ => true
  | .tkpost _ => true
  | .tkwait _ => true
  | .port _ _ => true
  | .shape _ => true
  | .reelj _ => true
  | .reell _ => true
  | .reels _ => true
  | .reqMe _ _ => true
  | .reqVe _ _ => true
  | .reqCe _ _ => true
  | .send _ _ _ _ => true
  | .trel _ _ => true
  | .nmv _ => true
  | .pks _ => true
  | .pkg _ => true
  | .pka _ => true
  | .pacq _ => true
  | .prel => true
  | .srr _ _ => true
  | .srw _ _ => true
  | .sdeadD _ => true
  | .sdeadA _ => true
  | .bkpt _ => true
  | .cut => true
  | .ccopy _ => true
  | .reelRelease => true
  | .reqAccept _ => true
  | .priResponse _ _ => true
  | .mtfresRetry _ => true
  | .mtfresRefuse _ => true
  | .mtlbinv => true
  | .atsInvalidation _ _ => true
  | .drawEstimateWindow => true
  | .alertPeriodExpiry => true
  | .talrtWrite _ => true
  | .rcapmsg _ => true
  | .capLeaseExpiry => true
  | .powerSample _ => true
  | .ptpstepWrite _ => true
  | .ptpMessage _ _ => true
  | .getVersion _ => true
  | .getCapabilities _ => true
  | .negotiateAlgorithms _ _ _ _ _ => true
  | .getDigests _ => true
  | .getCertificate _ _ => true
  | .challenge _ _ => true
  | .getMeasurements _ _ => true
  | .keyExchange _ => true
  | .finish _ => true
  | .endSession _ => true
  | .keyUpdate _ => true
  | .alabinFlitGroup _ _ _ => true
  | .svcFull => true
  | .controlRegisterWrite _ _ _ _ => true
  | .alabinStreamRekey _ _ => true

end Sys2Proof
end

