-- ==== Sys2Proof/Decode.lean ====
section
/-! DEFINITION. The decoders of the three encodings (R118-R134), total on any bytes and rejecting by name, and after
them the encoder, written from the same tables. Steps without an encoding decode from nothing and encode to nothing. -/
namespace Sys2Proof

/-- Why a word is not an instruction: the cases of R122, R131 and R134. -/
inductive Illegal where
  /-- Fewer bytes than the word has. -/
  | shortWord
  | reservedOpcode
  | badSub
  | badMode
  | badLit
  | badFlags
  | addressRegister
  | unusedField
  | immediateRange
  /-- An engine word that breaks R128, R129 or R199. -/
  | badEngineWord
  /-- A chain entry that breaks R133 or R243. -/
  | badChainEntry
deriving DecidableEq, Repr

/-- The decoder's answer. -/
abbrev Decoded := Except Illegal Instr

/-- Little-endian value of bytes, the first the least significant (R5). -/
def leNat : List Byte → Nat
  | [] => 0
  | b :: bs => b.toNat + 256 * leNat bs

/-- The first `n` bytes of a value, little-endian (R5). -/
def leBytes : Nat → Nat → List Byte
  | 0, _ => []
  | n + 1, v => BitVec.ofNat 8 v :: leBytes n (v / 256)

/-! ### The sequencer word -/

/-- The fields of R118; `low` is bits [31:0]. -/
structure SeqF where
  opc : BitVec 8
  sub : BitVec 4
  m : Bool
  lit : BitVec 2
  dst : BitVec 6
  src1 : BitVec 6
  flg : BitVec 5
  low : BitVec 32
deriving DecidableEq, Repr

/-- R118: the fields of a 64-bit word. -/
def SeqF.unpack (w : DWord) : SeqF :=
  { opc := w.extractLsb' 56 8, sub := w.extractLsb' 52 4, m := w.getLsbD 51, lit := w.extractLsb' 49 2,
    dst := w.extractLsb' 43 6, src1 := w.extractLsb' 37 6, flg := w.extractLsb' 32 5, low := w.extractLsb' 0 32 }

/-- R119, LIT 00: SRC2, SRC3 and IMM20. -/
def SeqF.s2 (f : SeqF) : BitVec 6 := f.low.extractLsb' 26 6
def SeqF.s3 (f : SeqF) : BitVec 6 := f.low.extractLsb' 20 6
def SeqF.imm (f : SeqF) : BitVec 20 := f.low.extractLsb' 0 20

/-- Go on when the field is as the form requires, else reject by the given name. -/
def req {α : Type} (b : Bool) (e : Illegal) (k : Except Illegal α) : Except Illegal α :=
  match b with
  | true => k
  | false => .error e

/-- R120: a register field of kind a. -/
def aReg {α : Type} (x : BitVec 6) (k : AReg → Except Illegal α) : Except Illegal α :=
  req (decide (x.toNat < 32)) .addressRegister (k (x.setWidth 5))

/-- R122: functional forms with SUB 0 and FLG 0. -/
def SeqF.plain (f : SeqF) (k : Decoded) : Decoded :=
  req (f.sub == 0) .badSub (req (!f.m) .badMode (req (f.flg == 0) .badFlags k))
/-- As `plain` for a form whose SUB has been read. -/
def SeqF.plainS (f : SeqF) (k : Decoded) : Decoded := req (!f.m) .badMode (req (f.flg == 0) .badFlags k)
/-- Forms with FLG subfields. -/
def SeqF.flagged (f : SeqF) (k : Decoded) : Decoded := req (f.sub == 0) .badSub (req (!f.m) .badMode k)
/-- LIT must be 00. -/
def SeqF.lit0 (f : SeqF) (k : Decoded) : Decoded := req (f.lit == 0) .badLit k
def SeqF.dst0 (f : SeqF) (k : Decoded) : Decoded := req (f.dst == 0) .unusedField k
def SeqF.src10 (f : SeqF) (k : Decoded) : Decoded := req (f.src1 == 0) .unusedField k
def SeqF.s20 (f : SeqF) (k : Decoded) : Decoded := req (f.s2 == 0) .unusedField k
def SeqF.s30 (f : SeqF) (k : Decoded) : Decoded := req (f.s3 == 0) .unusedField k
def SeqF.imm0 (f : SeqF) (k : Decoded) : Decoded := req (f.imm == 0) .immediateRange k
/-- An immediate below a bound. -/
def SeqF.immLt (f : SeqF) (n : Nat) (k : Decoded) : Decoded :=
  req (decide (f.imm.toNat < n)) .immediateRange k

/-- R119: the two domain sources of a form that accepts LIT 00, 01 and 10. -/
def SeqF.src2 (f : SeqF) (k : Src2 → Decoded) : Decoded :=
  match f.lit.toNat with
  | 0 => f.s30 (f.imm0 (k (.reg f.src1 f.s2)))
  | 1 => k (.lit2 f.src1 f.low)
  | 2 => k (.lit1 f.low f.src1)
  | _ => .error .badLit
/-- R119: SRC2 of a form that accepts LIT 00 and 01, as a domain source. -/
def SeqF.srcV (f : SeqF) (k : SrcV → Decoded) : Decoded :=
  match f.lit.toNat with
  | 0 => f.s30 (f.imm0 (k (.reg f.s2)))
  | 1 => k (.lit f.low)
  | _ => .error .badLit
/-- The same as an address source. -/
def SeqF.srcA (f : SeqF) (k : SrcA → Decoded) : Decoded :=
  match f.lit.toNat with
  | 0 => f.s30 (f.imm0 (aReg f.s2 fun b => k (.reg b)))
  | 1 => k (.lit f.low)
  | _ => .error .badLit

/-- Functional form with DST d and two domain sources. -/
def SeqF.f3 (f : SeqF) (mk : DReg → Src2 → Instr) : Decoded := f.plain (f.src2 fun s => .ok (mk f.dst s))
def SeqF.f3S (f : SeqF) (mk : DReg → Src2 → Instr) : Decoded := f.plainS (f.src2 fun s => .ok (mk f.dst s))
/-- The R-capable form: F and R. -/
def SeqF.fr3 (f : SeqF) (mk mkR : DReg → Src2 → Instr) : Decoded :=
  req (f.sub == 0) .badSub (req (f.flg == 0) .badFlags
    (f.src2 fun s => .ok (if f.m then mkR f.dst s else mk f.dst s)))
/-- DST d, SRC1 d, nothing else. -/
def SeqF.rest0 (f : SeqF) (k : Decoded) : Decoded := f.lit0 (f.s20 (f.s30 (f.imm0 k)))
def SeqF.f2 (f : SeqF) (mk : DReg → DReg → Instr) : Decoded := f.plain (f.rest0 (.ok (mk f.dst f.src1)))
def SeqF.f2S (f : SeqF) (mk : DReg → DReg → Instr) : Decoded := f.plainS (f.rest0 (.ok (mk f.dst f.src1)))
def SeqF.fr2 (f : SeqF) (mk mkR : DReg → DReg → Instr) : Decoded :=
  req (f.sub == 0) .badSub (req (f.flg == 0) .badFlags
    (f.rest0 (.ok (if f.m then mkR f.dst f.src1 else mk f.dst f.src1))))
/-- No operand. -/
def SeqF.f0 (f : SeqF) (i : Instr) : Decoded := f.plain (f.dst0 (f.src10 (f.rest0 (.ok i))))
/-- SRC1 a, nothing else. -/
def SeqF.fa (f : SeqF) (mk : AReg → Instr) : Decoded :=
  f.plain (f.dst0 (f.rest0 (aReg f.src1 fun a => .ok (mk a))))
def SeqF.faS (f : SeqF) (mk : AReg → Instr) : Decoded :=
  f.plainS (f.dst0 (f.rest0 (aReg f.src1 fun a => .ok (mk a))))
/-- IMM20 only, below `n`. -/
def SeqF.fi (f : SeqF) (n : Nat) (mk : BitVec 20 → Instr) : Decoded :=
  f.plain (f.lit0 (f.dst0 (f.src10 (f.s20 (f.s30 (f.immLt n (.ok (mk f.imm))))))))
/-- EXTS, EXTZ. -/
def SeqF.fext (f : SeqF) (mk : DReg → DReg → BitVec 5 → BitVec 6 → Instr) : Decoded :=
  f.plain (f.lit0 (f.s20 (f.s30 (f.immLt 2048
    (let pos := f.imm.extractLsb' 0 5
     let width := f.imm.extractLsb' 5 6
     req (extOk pos width) .immediateRange (.ok (mk f.dst f.src1 pos width)))))))
/-- A compare branch. -/
def SeqF.fb (f : SeqF) (mk : DReg → DReg → BitVec 20 → Instr) : Decoded :=
  f.plain (f.lit0 (f.dst0 (f.s30 (.ok (mk f.src1 f.s2 f.imm)))))
def SeqF.fbs (f : SeqF) (mk : DReg → BitVec 20 → Instr) : Decoded :=
  f.plainS (f.lit0 (f.dst0 (f.s20 (f.s30 (.ok (mk f.src1 f.imm))))))
/-- An address form with DST d. -/
def SeqF.fda (f : SeqF) (mk : DReg → AReg → Instr) : Decoded :=
  f.plain (f.rest0 (aReg f.src1 fun a => .ok (mk f.dst a)))
/-- ACMP. -/
def SeqF.facmp (f : SeqF) (mk : DReg → AReg → AReg → Instr) : Decoded :=
  f.plainS (f.lit0 (f.s30 (f.imm0 (aReg f.src1 fun a => aReg f.s2 fun b => .ok (mk f.dst a b)))))

/-- R125: T of a plain width, and W. -/
def tKind (t : BitVec 2) : Option TKind :=
  match t.toNat with
  | 0 => some .ts
  | 1 => some .tz
  | 2 => some .ta
  | _ => none
def widthOf (w : BitVec 3) : Option Width :=
  match w.toNat with
  | 0 => some .w32
  | 1 => some .w8
  | 2 => some .w16
  | 3 => some .w64
  | _ => none
def SeqF.w (f : SeqF) : BitVec 3 := f.flg.extractLsb' 2 3
def SeqF.t (f : SeqF) : BitVec 2 := f.flg.extractLsb' 0 2

/-- OPC 0x40. -/
def SeqF.fld (f : SeqF) : Decoded :=
  f.flagged (f.lit0 (f.s20 (f.s30 (
    match widthOf f.w, tKind f.t with
    | some w, some t =>
      req (widthKindOk w t f.dst) .badFlags (aReg f.src1 fun a => .ok (.ld w t f.dst a f.imm))
    | none, some .ts => req (f.w == 6) .badFlags (aReg f.src1 fun a => .ok (.ldWcell f.dst a f.imm))
    | _, _ => .error .badFlags))))

/-- OPC 0x41. -/
def SeqF.fst (f : SeqF) : Decoded :=
  f.flagged (f.dst0 (
    match widthOf f.w, tKind f.t with
    | some w, some t =>
      aReg f.src1 fun a =>
      match f.lit.toNat with
      | 0 => f.s30 (req (widthKindOk w t f.s2) .badFlags (.ok (.st w t a (.reg f.s2 f.imm))))
      | 1 => req (widthKindOk w t 0) .badFlags (.ok (.st w t a (.lit f.low)))
      | _ => .error .badLit
    | _, _ => .error .badFlags))

/-- OPC 0x43 with a plain width: the operand forms of R165. -/
def SeqF.fatom (f : SeqF) (mk : AForm → AReg → Instr) : Decoded :=
  req (!f.m) .badMode (aReg f.src1 fun base =>
    match f.w.toNat, f.t.toNat with
    | 0, 0 => f.srcV fun v => .ok (mk (.s false f.dst v) base)
    | 0, 1 => f.srcV fun v => .ok (mk (.s true f.dst v) base)
    | 3, 2 => aReg f.dst fun d => f.srcA fun v => .ok (mk (.a d v) base)
    | _, _ => .error .badFlags)

/-- OPC 0x43, SUB 0-5: a plain width or a row width. -/
def SeqF.fatomRow (f : SeqF) (op : AOp) (mk : AForm → AReg → Instr) : Decoded :=
  match f.w.toNat with
  | 4 => req (!f.m) .badMode (req (f.t == 2) .badFlags (f.dst0 (aReg f.src1 fun base =>
      f.srcA fun r => .ok (.rowUpdate op false base r))))
  | 5 => req (!f.m) .badMode (req (f.t == 2) .badFlags (f.dst0 (aReg f.src1 fun base =>
      f.srcA fun r => .ok (.rowUpdate op true base r))))
  | _ => f.fatom mk

/-- OPC 0x43, SUB 7. -/
def SeqF.fcas (f : SeqF) : Decoded :=
  req (!f.m) .badMode (f.lit0 (f.imm0 (aReg f.src1 fun base =>
    match f.w.toNat, f.t.toNat with
    | 0, 0 => .ok (.atomCas (.s false f.dst f.s2 f.s3) base)
    | 0, 1 => .ok (.atomCas (.s true f.dst f.s2 f.s3) base)
    | 3, 2 => aReg f.dst fun d => aReg f.s2 fun v => aReg f.s3 fun c => .ok (.atomCas (.a d v c) base)
    | _, _ => .error .badFlags)))

/-- The opcode map of R124. -/
def SeqF.decode (f : SeqF) : Decoded :=
  match f.opc.toNat with
  | 0x00 => f.fr3 .add .addR
  | 0x01 => f.fr3 .sub .subR
  | 0x02 => f.fr3 .mul .mulR
  | 0x03 => match f.sub.toNat with
    | 0 => f.f3S .mulhS
    | 1 => f.f3S .mulhU
    | _ => .error .badSub
  | 0x04 => match f.sub.toNat with
    | 0 => f.f3S .divS
    | 1 => f.f3S .divU
    | _ => .error .badSub
  | 0x05 => match f.sub.toNat with
    | 0 => f.f3S .remS
    | 1 => f.f3S .remU
    | _ => .error .badSub
  | 0x06 => f.f3 .and
  | 0x07 => f.f3 .or
  | 0x08 => f.f3 .xor
  | 0x09 => f.f3 .andn
  | 0x0A => f.f3 .shl
  | 0x0B => f.f3 .shr
  | 0x0C => f.f3 .sra
  | 0x0D => f.f3 .rot
  | 0x0E => f.fr3 .min .minR
  | 0x0F => f.fr3 .max .maxR
  | 0x10 => f.fr2 .abs .absR
  | 0x11 => f.fr2 .neg .negR
  | 0x12 => f.f2 .clz
  | 0x13 => f.f2 .ffs
  | 0x14 => f.f2 .popc
  | 0x15 => f.fext .exts
  | 0x16 => f.fext .extz
  | 0x17 => f.plain (f.lit0 (f.imm0 (.ok (.sel f.dst f.src1 f.s2 f.s3))))
  | 0x18 => f.fr3 .cmpeq .cmpeqR
  | 0x19 => f.fr3 .cmpne .cmpneR
  | 0x1A => f.fr3 .cmplt .cmpltR
  | 0x1B => f.fr3 .cmple .cmpleR
  | 0x1C => req (f.sub == 0) .badSub (req f.m .badMode (req (f.flg == 0) .badFlags
      (f.lit0 (f.src10 (f.s20 (f.s30 (f.immLt 9
        (req (decide (2 ≤ f.imm.toNat) && decide (f.dst.toNat + f.imm.toNat ≤ 64)) .immediateRange
          (.ok (.alld f.dst (f.imm.setWidth 4)))))))))))
  | 0x20 => f.f3 .dset
  | 0x21 => f.fda .dmsk
  | 0x22 => f.plain (f.src10 (f.srcV fun v => .ok (.dexc f.dst v)))
  | 0x23 => f.f2 .dint
  | 0x24 => f.f2 .dlo
  | 0x25 => f.f2 .dhi
  | 0x26 => f.f2 .dcard
  | 0x27 => match f.sub.toNat with
    | 0 => f.f2S .dpickLo
    | 1 => f.f2S .dpickHi
    | _ => .error .badSub
  | 0x28 => f.plain (f.srcV fun v => .ok (.dtst f.dst f.src1 v))
  | 0x29 => f.f2 .mov
  | 0x2A => f.f0 .pfix
  | 0x2B => f.f0 .pclr
  | 0x2C => f.plain (f.lit0 (f.dst0 (f.src10 (f.s20 (f.s30 (.ok (.ckpt f.imm)))))))
  | 0x2D => f.f0 .ckpop
  | 0x2E => f.f0 .ckrst
  | 0x2F => f.f0 .ckback
  | 0x30 => f.plain (aReg f.dst fun d => aReg f.src1 fun a => f.srcV fun v => .ok (.aadd d a v))
  | 0x31 => f.plain (aReg f.dst fun d => aReg f.src1 fun a => f.srcV fun v => .ok (.asub d a v))
  | 0x32 => f.plain (f.lit0 (f.s30 (f.immLt 7 (aReg f.dst fun d => aReg f.src1 fun a =>
      .ok (.ascl d a f.s2 (f.imm.setWidth 3))))))
  | 0x33 => f.fda .alo
  | 0x34 => f.fda .ahi
  | 0x35 => f.plain (aReg f.dst fun d =>
      match f.lit.toNat with
      | 0 => f.s20 (f.s30 (f.imm0 (aReg f.src1 fun a => .ok (.amov d a))))
      | 1 => f.src10 (.ok (.amovL2 d f.low))
      | _ => .error .badLit)
  | 0x36 => f.plain (f.rest0 (aReg f.dst fun d => .ok (.afromd d f.src1)))
  | 0x37 => f.fda .dfroma
  | 0x38 => match f.sub.toNat with
    | 0 => f.facmp .acmpEq
    | 1 => f.facmp .acmpNe
    | 2 => f.facmp .acmpLt
    | 3 => f.facmp .acmpLe
    | _ => .error .badSub
  | 0x40 => f.fld
  | 0x41 => f.fst
  | 0x42 => f.plain (f.lit0 (f.dst0 (f.s20 (f.s30 (aReg f.src1 fun a => .ok (.pref a f.imm))))))
  | 0x43 => match f.sub.toNat with
    | 0 => f.fatomRow .add .atomAdd
    | 1 => f.fatomRow .min .atomMin
    | 2 => f.fatomRow .max .atomMax
    | 3 => f.fatomRow .and .atomAnd
    | 4 => f.fatomRow .or .atomOr
    | 5 => f.fatomRow .xor .atomXor
    | 6 => f.fatom .atomXchg
    | 7 => f.fcas
    | 8 => req (!f.m) .badMode (req (f.flg == 0) .badFlags (f.dst0 (aReg f.src1 fun base =>
        f.srcV fun v => .ok (.atomFaddx base v))))
    | _ => .error .badSub
  | 0x44 => match f.sub.toNat with
    | 0 => f.facmp .dqPush
    | 1 => f.facmp .dqPop
    | 2 => f.facmp .dqSteal
    | _ => .error .badSub
  | 0x45 => f.flagged (f.dst0 (f.src10 (f.rest0 (req (f.flg != 0) .badFlags (.ok (.mark f.flg))))))
  | 0x46 => f.flagged (f.dst0 (f.src10 (f.rest0
      (req (f.flg.extractLsb' 3 2 == 0 && atLeastTwo (f.flg.extractLsb' 0 3)) .badFlags
        (.ok (.qfen (f.flg.extractLsb' 0 3)))))))
  | 0x47 => f.fi 16 fun n => .sfen (n.setWidth 4)
  | 0x48 => f.plain (f.dst0 (f.rest0 (.ok (.reltag f.src1))))
  | 0x60 => f.plain (f.lit0 (f.dst0 (f.src10 (f.s20 (f.s30 (.ok (.br f.imm)))))))
  | 0x61 => f.fa .bri
  | 0x62 => f.fb .beq
  | 0x63 => f.fb .bne
  | 0x64 => f.fb .blt
  | 0x65 => f.fb .ble
  | 0x66 => match f.sub.toNat with
    | 0 => f.fbs .bsngS
    | 1 => f.fbs .bsngN
    | _ => .error .badSub
  | 0x67 => f.plain (f.lit0 (f.src10 (f.s20 (f.s30 (aReg f.dst fun l => .ok (.call l f.imm))))))
  | 0x68 => f.fa .ret
  | 0x69 => f.plain (f.lit0 (f.dst0 (f.s20 (f.s30
      (req (lastOk f.imm) .immediateRange (.ok (.loop f.src1 f.imm)))))))
  | 0x6A => f.plain (f.lit0 (f.dst0 (f.src10 (f.s20 (f.s30
      (req (lastOk f.imm) .immediateRange (.ok (.looprp f.imm))))))))
  | 0x6B => f.fa .lrec
  | 0x6C => f.f0 .node
  | 0x6D => f.f0 .idle
  | 0x6E => f.f0 .halt
  | 0x6F => f.fi 256 fun n => .trap (n.setWidth 8)
  | 0x70 => f.f0 .rtt
  | 0x71 => f.fi 256 fun n => .waitf (n.setWidth 8)
  | 0x72 => f.fi 256 fun n => .sigf (n.setWidth 8)
  | 0x73 => f.fi 256 fun n => .clrf (n.setWidth 8)
  | 0x80 => match f.sub.toNat with
    | 0 => f.faS .enqMe
    | 1 => f.faS .enqVe
    | 2 => f.faS .enqCe
    | _ => .error .badSub
  | 0x81 => f.fa .nest
  | 0x82 => f.f0 .ngo
  | 0x83 => f.plain (f.dst0 (f.src10 (f.srcV fun v => .ok (.fmtq v))))
  | 0x84 => f.plain (f.lit0 (f.dst0 (f.src10 (f.s20 (f.s30 (
      match f.imm.toNat with
      | 0 => .ok (.tkpost .me)
      | 1 => .ok (.tkpost .ve)
      | 2 => .ok (.tkpost .ce)
      | _ => .error .immediateRange))))))
  | 0x85 => f.plain (f.lit0 (f.dst0 (f.src10 (f.s20 (f.s30 (
      match f.imm.toNat with
      | 3 => .ok (.tkwait .me)
      | 6 => .ok (.tkwait .ve)
      | 9 => .ok (.tkwait .ce)
      | _ => .error .immediateRange))))))
  | 0x86 => f.plain (f.lit0 (f.dst0 (f.s20 (f.s30 (f.immLt 8
      (aReg f.src1 fun a => .ok (.port a (f.imm.setWidth 3))))))))
  | 0x87 => f.plain (f.dst0 (f.src10 (f.srcV fun v => .ok (.shape v))))
  | 0xA0 => f.fa .reelj
  | 0xA1 => f.fa .reell
  | 0xA2 => f.fa .reels
  | 0xA3 =>
    let go (mk : AReg → SrcV → Instr) : Decoded :=
      f.plainS (f.dst0 (aReg f.src1 fun a => f.srcV fun v => .ok (mk a v)))
    match f.sub.toNat with
    | 0 => go .reqMe
    | 1 => go .reqVe
    | 2 => go .reqCe
    | _ => .error .badSub
  | 0xA4 => f.plain (f.lit0 (f.dst0 (f.immLt 16384 (aReg f.src1 fun a =>
      .ok (.send a f.s2 f.s3 (f.imm.setWidth 14))))))
  | 0xA5 => f.plain (f.lit0 (f.dst0 (f.s30 (f.imm0 (aReg f.src1 fun a => aReg f.s2 fun b =>
      .ok (.trel a b))))))
  | 0xB0 => f.fa .nmv
  | 0xB1 => f.fa .pks
  | 0xB2 => f.fa .pkg
  | 0xB3 => f.fa .pka
  | 0xC0 => f.fi 16 fun n => .pacq (n.setWidth 4)
  | 0xC1 => f.f0 .prel
  | 0xC2 => f.plain (f.lit0 (f.src10 (f.s20 (f.s30 (f.immLt 4096 (.ok (.srr f.dst (f.imm.setWidth 12))))))))
  | 0xC3 => f.plain (f.lit0 (f.dst0 (f.src10 (f.s30 (f.immLt 4096 (.ok (.srw f.s2 (f.imm.setWidth 12))))))))
  | 0xC4 => match f.sub.toNat with
    | 0 => f.faS .sdeadD
    | 1 => f.faS .sdeadA
    | _ => .error .badSub
  | 0xC5 => f.fi 256 fun n => .bkpt (n.setWidth 8)
  | 0xC6 => f.f0 .cut
  | _ => .error .reservedOpcode

/-- R118-R122: a 64-bit sequencer word. -/
def decodeSeq (w : DWord) : Decoded := (SeqF.unpack w).decode

/-! ### Engine words -/

/-- R126: the fields below the opcode. -/
def EWord.unpack (w : BitVec 48) : EWord :=
  { pop := w.extractLsb' 37 3, push := w.extractLsb' 34 3, each := w.getLsbD 33, rpt := w.extractLsb' 23 10,
    step := w.extractLsb' 13 10, k := w.getLsbD 12, x := w.extractLsb' 8 4, y := w.extractLsb' 4 4,
    z := w.extractLsb' 0 4 }

/-- R128: the ME opcodes. -/
def meOp (opc : Nat) (w : EWord) : Option Instr :=
  match opc with
  | 0x00 => some (.mzero w)
  | 0x01 => some (.mload w)
  | 0x02 => some (.mloadg w)
  | 0x03 => some (.mstore w)
  | 0x04 => some (.mmac w)
  | 0x05 => some (.mmacs w)
  | 0x06 => some (.mdrain w)
  | 0x07 => some (.mhad w)
  | 0x08 => some (.mtrn w)
  | 0x09 => some (.mnest w)
  | 0xF0 => some (.mstop w)
  | 0xF1 => some (.mnop w)
  | _ => none

/-- R129: the VE opcodes. -/
def veOp (opc : Nat) (w : EWord) : Option Instr :=
  match opc with
  | 0x40 => some (.vadd w)
  | 0x41 => some (.vsub w)
  | 0x42 => some (.vmul w)
  | 0x43 => some (.vfma w)
  | 0x44 => some (.vmin w)
  | 0x45 => some (.vmax w)
  | 0x46 => some (.vabs w)
  | 0x47 => some (.vneg w)
  | 0x48 => some (.vexp2 w)
  | 0x49 => some (.vlog2 w)
  | 0x4A => some (.vrcp w)
  | 0x4B => some (.vrsq w)
  | 0x4C => some (.vtanh w)
  | 0x4D => some (.vscl w)
  | 0x4E => some (.vsel w)
  | 0x4F => some (.vand w)
  | 0x50 => some (.vor w)
  | 0x51 => some (.vxor w)
  | 0x52 => some (.vshl w)
  | 0x53 => some (.vshr w)
  | 0x54 => some (.vclz w)
  | 0x55 => some (.vffs w)
  | 0x56 => some (.vpopc w)
  | 0x57 => some (.vbc w)
  | 0x58 => some (.vperm w)
  | 0x59 => some (.vtrn w)
  | 0x5A => some (.vmov w)
  | 0x5B => some (.vld w)
  | 0x5C => some (.vst w)
  | 0x5D => some (.vrot w)
  | 0x5E => some (.vpst w)
  | 0x70 => some (.vcmpEq w)
  | 0x71 => some (.vcmpNe w)
  | 0x72 => some (.vcmpLt w)
  | 0x73 => some (.vcmpLe w)
  | 0x74 => some (.vcmpGt w)
  | 0x75 => some (.vcmpGe w)
  | 0x78 => some (.vredAdd w)
  | 0x79 => some (.vredMin w)
  | 0x7A => some (.vredMax w)
  | 0x7B => some (.vredAmx w)
  | 0xF0 => some (.vstop w)
  | 0xF1 => some (.vnop w)
  | o => if 0x80 ≤ o ∧ o < 0xC0 then some (.vcvt (BitVec.ofNat 3 (o / 8)) (BitVec.ofNat 3 o) w) else none

/-- R126-R131: a 48-bit word as the ME (`ve` false) or the VE reads it. -/
def decodeEng (ve : Bool) (w : BitVec 48) : Decoded :=
  let opc := (w.extractLsb' 40 8).toNat
  match (if ve then veOp opc (EWord.unpack w) else meOp opc (EWord.unpack w)) with
  | none => .error .reservedOpcode
  | some i => req i.wf .badEngineWord (.ok i)

/-! ### Chain entries -/

/-- R132: the fields above OP. -/
def CEntry.unpack (w : BitVec 256) : CEntry :=
  { dpstr := w.extractLsb' 240 16, drstr := w.extractLsb' 224 16, spstr := w.extractLsb' 208 16,
    srstr := w.extractLsb' 192 16, addr1 := w.extractLsb' 128 64, addr0 := w.extractLsb' 64 64,
    n1m := w.extractLsb' 52 12, lenm := w.extractLsb' 32 20, n2m := w.extractLsb' 20 12,
    fn := w.extractLsb' 10 8, setf := w.getLsbD 9, tkp := w.getLsbD 8 }

/-- R133: the entry codes. -/
def chainOp (op : Nat) (e : CEntry) : Option Instr :=
  match op with
  | 1 => some (.ccopy e)
  | 2 => some (.cgath e)
  | 3 => some (.cscat e)
  | 4 => some (.cfill e)
  | 5 => some (.cwait e)
  | 6 => some (.cpost e)
  | 7 => some (.catom e)
  | 8 => some (.clink e)
  | 9 => some (.cend e)
  | 10 => some (.cnop e)
  | _ => none

/-- R132-R134: a 256-bit chain entry. -/
def decodeChain (w : BitVec 256) : Decoded :=
  match chainOp (w.extractLsb' 0 8).toNat (CEntry.unpack w) with
  | none => .error .reservedOpcode
  | some i => req (w.extractLsb' 18 2 == 0) .unusedField (req i.wf .badChainEntry (.ok i))

/-! ### Bytes -/

/-- Which of the four readers takes the bytes. -/
inductive Reader where
  | seq | me | ve | ce
deriving DecidableEq, Repr

/-- How many bytes one word of a reader has. -/
def Reader.size : Reader → Nat
  | .seq => 8
  | .me => 6
  | .ve => 6
  | .ce => 32

/-- The decoder over bytes, lowest address first; bytes after the word are not read. -/
def decode (r : Reader) (bs : List Byte) : Decoded :=
  if bs.length < r.size then .error .shortWord else
  let v := leNat (bs.take r.size)
  match r with
  | .seq => decodeSeq (BitVec.ofNat 64 v)
  | .me => decodeEng false (BitVec.ofNat 48 v)
  | .ve => decodeEng true (BitVec.ofNat 48 v)
  | .ce => decodeChain (BitVec.ofNat 256 v)

/-- The reader that runs instructions of the table with `nbits` bits whose word is `w`: up to 48 bits an engine word,
to the VE where its opcode lies in the range of the VE (R129); up to 64 bits a sequencer word; above, a chain entry. -/
def tableReader (nbits w : Nat) : Reader :=
  if nbits ≤ 48 then
    (if 0x40 ≤ w / 2 ^ 40 % 256 ∧ w / 2 ^ 40 % 256 < 0xF0 then .ve else .me)
  else if nbits ≤ 64 then .seq else .ce

/-- The instruction that the decoder reads from the bits of a row of the opcode table. -/
def decodeTableWord (nbits w : Nat) : Option Instr :=
  match decode (tableReader nbits w) (leBytes (tableReader nbits w).size w) with
  | .ok i => some i
  | .error _ => none

/-! ### The encoder -/

/-- R118: the word of its fields. -/
def SeqF.pack (f : SeqF) : DWord :=
  f.opc ++ f.sub ++ BitVec.ofBool f.m ++ f.lit ++ f.dst ++ f.src1 ++ f.flg ++ f.low

/-- Bits [31:0] under LIT 00. -/
def lowOf (s2 s3 : BitVec 6) (imm : BitVec 20) : BitVec 32 := s2 ++ s3 ++ imm

/-- A word of operation code, sub-code, mode, DST; the rest 0. -/
def opF (opc : BitVec 8) (sub : BitVec 4) (dst : BitVec 6) (src1 : BitVec 6) (low : BitVec 32) : SeqF :=
  { opc := opc, sub := sub, m := false, lit := 0, dst := dst, src1 := src1, flg := 0, low := low }
/-- An address register number in a register field. -/
def ext6 (a : AReg) : BitVec 6 := a.setWidth 6

def enc3 (opc : BitVec 8) (sub : BitVec 4) (m : Bool) (d : DReg) : Src2 → SeqF
  | .reg a b => { opF opc sub d a (lowOf b 0 0) with m := m }
  | .lit2 a l => { opF opc sub d a l with m := m, lit := 1 }
  | .lit1 l b => { opF opc sub d b l with m := m, lit := 2 }
def enc2 (opc : BitVec 8) (sub : BitVec 4) (m : Bool) (d a : BitVec 6) : SeqF := { opF opc sub d a 0 with m := m }
def encV (f : SeqF) : SrcV → SeqF
  | .reg b => { f with low := lowOf b 0 0 }
  | .lit l => { f with lit := 1, low := l }
def encA (f : SeqF) : SrcA → SeqF
  | .reg b => { f with low := lowOf (ext6 b) 0 0 }
  | .lit l => { f with lit := 1, low := l }
def encImm (opc : BitVec 8) (imm : BitVec 20) : SeqF := opF opc 0 0 0 (lowOf 0 0 imm)
def Width.code : Width → BitVec 3
  | .w32 => 0
  | .w8 => 1
  | .w16 => 2
  | .w64 => 3
def TKind.code : TKind → BitVec 2
  | .ts => 0
  | .tz => 1
  | .ta => 2
def flgOf (w : BitVec 3) (t : BitVec 2) : BitVec 5 := w ++ t
def encAtom (sub : BitVec 4) (base : AReg) : AForm → SeqF
  | .s zx d v => encV { opF 0x43 sub d (ext6 base) 0 with flg := flgOf 0 (if zx then 1 else 0) } v
  | .a d v => encA { opF 0x43 sub (ext6 d) (ext6 base) 0 with flg := flgOf 3 2 } v
def AOp.code : AOp → BitVec 4
  | .add => 0
  | .min => 1
  | .max => 2
  | .and => 3
  | .or => 4
  | .xor => 5

/-- The fields of a sequencer instruction, by the tables of R124 and R125. -/
def encodeF : Instr → Option SeqF
  | .add d s => some (enc3 0x00 0 false d s)
  | .addR d s => some (enc3 0x00 0 true d s)
  | .sub d s => some (enc3 0x01 0 false d s)
  | .subR d s => some (enc3 0x01 0 true d s)
  | .mul d s => some (enc3 0x02 0 false d s)
  | .mulR d s => some (enc3 0x02 0 true d s)
  | .mulhS d s => some (enc3 0x03 0 false d s)
  | .mulhU d s => some (enc3 0x03 1 false d s)
  | .divS d s => some (enc3 0x04 0 false d s)
  | .divU d s => some (enc3 0x04 1 false d s)
  | .remS d s => some (enc3 0x05 0 false d s)
  | .remU d s => some (enc3 0x05 1 false d s)
  | .and d s => some (enc3 0x06 0 false d s)
  | .or d s => some (enc3 0x07 0 false d s)
  | .xor d s => some (enc3 0x08 0 false d s)
  | .andn d s => some (enc3 0x09 0 false d s)
  | .shl d s => some (enc3 0x0A 0 false d s)
  | .shr d s => some (enc3 0x0B 0 false d s)
  | .sra d s => some (enc3 0x0C 0 false d s)
  | .rot d s => some (enc3 0x0D 0 false d s)
  | .min d s => some (enc3 0x0E 0 false d s)
  | .minR d s => some (enc3 0x0E 0 true d s)
  | .max d s => some (enc3 0x0F 0 false d s)
  | .maxR d s => some (enc3 0x0F 0 true d s)
  | .abs d a => some (enc2 0x10 0 false d a)
  | .absR d a => some (enc2 0x10 0 true d a)
  | .neg d a => some (enc2 0x11 0 false d a)
  | .negR d a => some (enc2 0x11 0 true d a)
  | .clz d a => some (enc2 0x12 0 false d a)
  | .ffs d a => some (enc2 0x13 0 false d a)
  | .popc d a => some (enc2 0x14 0 false d a)
  | .exts d a pos width => some (opF 0x15 0 d a (lowOf 0 0 ((width ++ pos).setWidth 20)))
  | .extz d a pos width => some (opF 0x16 0 d a (lowOf 0 0 ((width ++ pos).setWidth 20)))
  | .sel d c a b => some (opF 0x17 0 d c (lowOf a b 0))
  | .cmpeq d s => some (enc3 0x18 0 false d s)
  | .cmpeqR d s => some (enc3 0x18 0 true d s)
  | .cmpne d s => some (enc3 0x19 0 false d s)
  | .cmpneR d s => some (enc3 0x19 0 true d s)
  | .cmplt d s => some (enc3 0x1A 0 false d s)
  | .cmpltR d s => some (enc3 0x1A 0 true d s)
  | .cmple d s => some (enc3 0x1B 0 false d s)
  | .cmpleR d s => some (enc3 0x1B 0 true d s)
  | .alld d m => some { opF 0x1C 0 d 0 (lowOf 0 0 (m.setWidth 20)) with m := true }
  | .dset d s => some (enc3 0x20 0 false d s)
  | .dmsk d a => some (enc2 0x21 0 false d (ext6 a))
  | .dexc d v => some (encV (opF 0x22 0 d 0 0) v)
  | .dint d a => some (enc2 0x23 0 false d a)
  | .dlo d a => some (enc2 0x24 0 false d a)
  | .dhi d a => some (enc2 0x25 0 false d a)
  | .dcard d a => some (enc2 0x26 0 false d a)
  | .dpickLo d a => some (enc2 0x27 0 false d a)
  | .dpickHi d a => some (enc2 0x27 1 false d a)
  | .dtst d a v => some (encV (opF 0x28 0 d a 0) v)
  | .mov d a => some (enc2 0x29 0 false d a)
  | .pfix => some (opF 0x2A 0 0 0 0)
  | .pclr => some (opF 0x2B 0 0 0 0)
  | .ckpt alt => some (encImm 0x2C alt)
  | .ckpop => some (opF 0x2D 0 0 0 0)
  | .ckrst => some (opF 0x2E 0 0 0 0)
  | .ckback => some (opF 0x2F 0 0 0 0)
  | .aadd d a v => some (encV (opF 0x30 0 (ext6 d) (ext6 a) 0) v)
  | .asub d a v => some (encV (opF 0x31 0 (ext6 d) (ext6 a) 0) v)
  | .ascl d a v sh => some (opF 0x32 0 (ext6 d) (ext6 a) (lowOf v 0 (sh.setWidth 20)))
  | .alo d a => some (enc2 0x33 0 false d (ext6 a))
  | .ahi d a => some (enc2 0x34 0 false d (ext6 a))
  | .amov d a => some (enc2 0x35 0 false (ext6 d) (ext6 a))
  | .amovL2 d l => some { opF 0x35 0 (ext6 d) 0 l with lit := 1 }
  | .afromd d v => some (enc2 0x36 0 false (ext6 d) v)
  | .dfroma d a => some (enc2 0x37 0 false d (ext6 a))
  | .acmpEq d a b => some (opF 0x38 0 d (ext6 a) (lowOf (ext6 b) 0 0))
  | .acmpNe d a b => some (opF 0x38 1 d (ext6 a) (lowOf (ext6 b) 0 0))
  | .acmpLt d a b => some (opF 0x38 2 d (ext6 a) (lowOf (ext6 b) 0 0))
  | .acmpLe d a b => some (opF 0x38 3 d (ext6 a) (lowOf (ext6 b) 0 0))
  | .ld w t dst base off =>
    some { opF 0x40 0 dst (ext6 base) (lowOf 0 0 off) with flg := flgOf w.code t.code }
  | .ldWcell dst base off => some { opF 0x40 0 dst (ext6 base) (lowOf 0 0 off) with flg := flgOf 6 0 }
  | .st w t base (.reg r off) =>
    some { opF 0x41 0 0 (ext6 base) (lowOf r 0 off) with flg := flgOf w.code t.code }
  | .st w t base (.lit l) =>
    some { opF 0x41 0 0 (ext6 base) l with flg := flgOf w.code t.code, lit := 1 }
  | .pref base off => some (opF 0x42 0 0 (ext6 base) (lowOf 0 0 off))
  | .atomAdd f base => some (encAtom 0 base f)
  | .atomMin f base => some (encAtom 1 base f)
  | .atomMax f base => some (encAtom 2 base f)
  | .atomAnd f base => some (encAtom 3 base f)
  | .atomOr f base => some (encAtom 4 base f)
  | .atomXor f base => some (encAtom 5 base f)
  | .atomXchg f base => some (encAtom 6 base f)
  | .atomCas (.s zx d v c) base =>
    some { opF 0x43 7 d (ext6 base) (lowOf v c 0) with flg := flgOf 0 (if zx then 1 else 0) }
  | .atomCas (.a d v c) base =>
    some { opF 0x43 7 (ext6 d) (ext6 base) (lowOf (ext6 v) (ext6 c) 0) with flg := flgOf 3 2 }
  | .atomFaddx base v => some (encV (opF 0x43 8 0 (ext6 base) 0) v)
  | .rowUpdate op wide base r =>
    some (encA { opF 0x43 op.code 0 (ext6 base) 0 with flg := flgOf (if wide then 5 else 4) 2 } r)
  | .dqPush d h v => some (opF 0x44 0 d (ext6 h) (lowOf (ext6 v) 0 0))
  | .dqPop d h v => some (opF 0x44 1 d (ext6 h) (lowOf (ext6 v) 0 0))
  | .dqSteal d h v => some (opF 0x44 2 d (ext6 h) (lowOf (ext6 v) 0 0))
  | .mark q => some { opF 0x45 0 0 0 0 with flg := q }
  | .qfen q => some { opF 0x46 0 0 0 0 with flg := q.setWidth 5 }
  | .sfen n => some (encImm 0x47 (n.setWidth 20))
  | .reltag w => some (opF 0x48 0 0 w 0)
  | .br off => some (encImm 0x60 off)
  | .bri a => some (opF 0x61 0 0 (ext6 a) 0)
  | .beq a b off => some (opF 0x62 0 0 a (lowOf b 0 off))
  | .bne a b off => some (opF 0x63 0 0 a (lowOf b 0 off))
  | .blt a b off => some (opF 0x64 0 0 a (lowOf b 0 off))
  | .ble a b off => some (opF 0x65 0 0 a (lowOf b 0 off))
  | .bsngS a off => some (opF 0x66 0 0 a (lowOf 0 0 off))
  | .bsngN a off => some (opF 0x66 1 0 a (lowOf 0 0 off))
  | .call l off => some (opF 0x67 0 (ext6 l) 0 (lowOf 0 0 off))
  | .ret a => some (opF 0x68 0 0 (ext6 a) 0)
  | .loop c last => some (opF 0x69 0 0 c (lowOf 0 0 last))
  | .looprp last => some (encImm 0x6A last)
  | .lrec a => some (opF 0x6B 0 0 (ext6 a) 0)
  | .node => some (opF 0x6C 0 0 0 0)
  | .idle => some (opF 0x6D 0 0 0 0)
  | .halt => some (opF 0x6E 0 0 0 0)
  | .trap c => some (encImm 0x6F (c.setWidth 20))
  | .rtt => some (opF 0x70 0 0 0 0)
  | .waitf n => some (encImm 0x71 (n.setWidth 20))
  | .sigf n => some (encImm 0x72 (n.setWidth 20))
  | .clrf n => some (encImm 0x73 (n.setWidth 20))
  | .enqMe a => some (opF 0x80 0 0 (ext6 a) 0)
  | .enqVe a => some (opF 0x80 1 0 (ext6 a) 0)
  | .enqCe a => some (opF 0x80 2 0 (ext6 a) 0)
  | .nest a => some (opF 0x81 0 0 (ext6 a) 0)
  | .ngo => some (opF 0x82 0 0 0 0)
  | .fmtq v => some (encV (opF 0x83 0 0 0 0) v)
  | .tkpost .me => some (encImm 0x84 0)
  | .tkpost .ve => some (encImm 0x84 1)
  | .tkpost .ce => some (encImm 0x84 2)
  | .tkwait .me => some (encImm 0x85 3)
  | .tkwait .ve => some (encImm 0x85 6)
  | .tkwait .ce => some (encImm 0x85 9)
  | .port a p => some (opF 0x86 0 0 (ext6 a) (lowOf 0 0 (p.setWidth 20)))
  | .shape v => some (encV (opF 0x87 0 0 0 0) v)
  | .reelj a => some (opF 0xA0 0 0 (ext6 a) 0)
  | .reell a => some (opF 0xA1 0 0 (ext6 a) 0)
  | .reels a => some (opF 0xA2 0 0 (ext6 a) 0)
  | .reqMe a t => some (encV (opF 0xA3 0 0 (ext6 a) 0) t)
  | .reqVe a t => some (encV (opF 0xA3 1 0 (ext6 a) 0) t)
  | .reqCe a t => some (encV (opF 0xA3 2 0 (ext6 a) 0) t)
  | .send a t l h => some (opF 0xA4 0 0 (ext6 a) (lowOf t l (h.setWidth 20)))
  | .trel r t => some (opF 0xA5 0 0 (ext6 r) (lowOf (ext6 t) 0 0))
  | .nmv a => some (opF 0xB0 0 0 (ext6 a) 0)
  | .pks a => some (opF 0xB1 0 0 (ext6 a) 0)
  | .pkg a => some (opF 0xB2 0 0 (ext6 a) 0)
  | .pka a => some (opF 0xB3 0 0 (ext6 a) 0)
  | .pacq n => some (encImm 0xC0 (n.setWidth 20))
  | .prel => some (opF 0xC1 0 0 0 0)
  | .srr d n => some (opF 0xC2 0 d 0 (lowOf 0 0 (n.setWidth 20)))
  | .srw d n => some (opF 0xC3 0 0 0 (lowOf d 0 (n.setWidth 20)))
  | .sdeadD a => some (opF 0xC4 0 0 (ext6 a) 0)
  | .sdeadA a => some (opF 0xC4 1 0 (ext6 a) 0)
  | .bkpt c => some (encImm 0xC5 (c.setWidth 20))
  | .cut => some (opF 0xC6 0 0 0 0)
  | _ => none

/-- R126: an engine word of an opcode and its fields. -/
def EWord.pack (opc : BitVec 8) (w : EWord) : BitVec 48 :=
  opc ++ w.pop ++ w.push ++ BitVec.ofBool w.each ++ w.rpt ++ w.step ++ BitVec.ofBool w.k ++ w.x ++ w.y ++ w.z

/-- The opcode and the fields of an ME instruction (R128). -/
def meCode : Instr → Option (BitVec 8 × EWord)
  | .mzero w => some (0x00, w)
  | .mload w => some (0x01, w)
  | .mloadg w => some (0x02, w)
  | .mstore w => some (0x03, w)
  | .mmac w => some (0x04, w)
  | .mmacs w => some (0x05, w)
  | .mdrain w => some (0x06, w)
  | .mhad w => some (0x07, w)
  | .mtrn w => some (0x08, w)
  | .mnest w => some (0x09, w)
  | .mstop w => some (0xF0, w)
  | .mnop w => some (0xF1, w)
  | _ => none

/-- The opcode and the fields of a VE instruction (R129). -/
def veCode : Instr → Option (BitVec 8 × EWord)
  | .vadd w => some (0x40, w)
  | .vsub w => some (0x41, w)
  | .vmul w => some (0x42, w)
  | .vfma w => some (0x43, w)
  | .vmin w => some (0x44, w)
  | .vmax w => some (0x45, w)
  | .vabs w => some (0x46, w)
  | .vneg w => some (0x47, w)
  | .vexp2 w => some (0x48, w)
  | .vlog2 w => some (0x49, w)
  | .vrcp w => some (0x4A, w)
  | .vrsq w => some (0x4B, w)
  | .vtanh w => some (0x4C, w)
  | .vscl w => some (0x4D, w)
  | .vsel w => some (0x4E, w)
  | .vand w => some (0x4F, w)
  | .vor w => some (0x50, w)
  | .vxor w => some (0x51, w)
  | .vshl w => some (0x52, w)
  | .vshr w => some (0x53, w)
  | .vclz w => some (0x54, w)
  | .vffs w => some (0x55, w)
  | .vpopc w => some (0x56, w)
  | .vbc w => some (0x57, w)
  | .vperm w => some (0x58, w)
  | .vtrn w => some (0x59, w)
  | .vmov w => some (0x5A, w)
  | .vld w => some (0x5B, w)
  | .vst w => some (0x5C, w)
  | .vrot w => some (0x5D, w)
  | .vpst w => some (0x5E, w)
  | .vcmpEq w => some (0x70, w)
  | .vcmpNe w => some (0x71, w)
  | .vcmpLt w => some (0x72, w)
  | .vcmpLe w => some (0x73, w)
  | .vcmpGt w => some (0x74, w)
  | .vcmpGe w => some (0x75, w)
  | .vredAdd w => some (0x78, w)
  | .vredMin w => some (0x79, w)
  | .vredMax w => some (0x7A, w)
  | .vredAmx w => some (0x7B, w)
  | .vcvt s t w => some (0b10#2 ++ s ++ t, w)
  | .vstop w => some (0xF0, w)
  | .vnop w => some (0xF1, w)
  | _ => none

/-- R132: a chain entry of a code and its fields. -/
def CEntry.pack (op : BitVec 8) (e : CEntry) : BitVec 256 :=
  e.dpstr ++ e.drstr ++ e.spstr ++ e.srstr ++ e.addr1 ++ e.addr0 ++ e.n1m ++ e.lenm ++ e.n2m ++ 0#2 ++ e.fn ++
    BitVec.ofBool e.setf ++ BitVec.ofBool e.tkp ++ op

/-- The code and the fields of a chain entry (R133). -/
def ceCode : Instr → Option (BitVec 8 × CEntry)
  | .ccopy e => some (0x01, e)
  | .cgath e => some (0x02, e)
  | .cscat e => some (0x03, e)
  | .cfill e => some (0x04, e)
  | .cwait e => some (0x05, e)
  | .cpost e => some (0x06, e)
  | .catom e => some (0x07, e)
  | .clink e => some (0x08, e)
  | .cend e => some (0x09, e)
  | .cnop e => some (0x0A, e)
  | _ => none

/-- The words that stand for an instruction: its reader and its bytes, lowest address first; none for an event. -/
def encode (i : Instr) : Option (Reader × List Byte) :=
  match encodeF i with
  | some f => some (.seq, leBytes 8 f.pack.toNat)
  | none => match meCode i with
    | some (o, w) => some (.me, leBytes 6 (w.pack o).toNat)
    | none => match veCode i with
      | some (o, w) => some (.ve, leBytes 6 (w.pack o).toNat)
      | none => match ceCode i with
        | some (o, e) => some (.ce, leBytes 32 (e.pack o).toNat)
        | none => none

end Sys2Proof
end

