-- ==== Sys2Proof/Config.lean ====
section
/-! DEFINITION. What one implementation fixes and the spec leaves open: constants without a body, so that no proof
can use a value of them (see the assumption log, entries 5, 6, 7, 12 and 58). -/
namespace Sys2Proof.Config

/-- What a read of the dead domain register `r` yields at model step `n`, as three raw fields that the reader brings
into canonical form (R189: an unspecified value of its kind, in canonical form). Log entry 5, DESIGN CHOICE. -/
opaque freeDomLo : Nat → Nat → BitVec 32
opaque freeDomHi : Nat → Nat → BitVec 32
opaque freeDomMask : Nat → Nat → BitVec 64

/-- What a read of the dead address register `r` yields at model step `n` (R189). Log entry 5, DESIGN CHOICE. -/
opaque freeAddr : Nat → Nat → BitVec 64

/-- The firmware version fused into the part (R354). Log entry 6, DESIGN CHOICE. -/
opaque fusedVersion : BitVec 32

/-- How many tags the spill region of one partition holds (R312 gives no figure). Log entry 6, DESIGN CHOICE. -/
opaque tagSpillCap : Nat

/-- The body of the SPDM response number `n` of a responder where R352 gives no value. Log entry 7, PRESUMED. -/
opaque spdmBody : Nat → Nat → BitVec 256

/-- Measurement blocks 1 to 3 of R352: boot ROM, management-core firmware and security-core firmware. Log entry 7, PRESUMED. -/
opaque measured : Nat → BitVec 256

/-- What byte `k` of memory, written under the management core's key, reads as under the key of a partition enabled at model
step `n` (R351, R370). Log entry 58, DESIGN CHOICE. -/
opaque otherKey : Nat → Nat → BitVec 8

/-- R64: of an access of several events, the number of the moment at which its read event at key `k` binds, modulo the moments that
it has, the first of them at model step `n`; and, at model step `n`, the place of the write event that is performed next among those
that may be. Log entry 12, DESIGN CHOICE. -/
opaque eventMoment : Nat → Nat → Nat

/-- Which older translation a full TLB gives up, as a position modulo its fill (R325 gives no rule). Log entry 6, DESIGN CHOICE. -/
opaque tlbVictim : Nat → Nat

/-- The bank of its pseudo-channel on which a vault offset lies (R18, R342 give no map to banks). Log entry 6, DESIGN CHOICE. -/
opaque bankOf : Nat → Nat

/-- The energy in mJ that column segment `g` draws in the window that ends at model step `n` (R335 gives no meter). Log
entry 6, DESIGN CHOICE. -/
opaque energy : Nat → Nat → Nat

/-- The part of that energy which is the idle energy of a parked core of the segment (R295 gives no measure of it). Log entry 6,
DESIGN CHOICE. -/
opaque idleEnergy : Nat → Nat → Nat

/-- The bytes that a VE repetition at model step `n` leaves out because of tag bits (R366 does not say how the bits come
about). Log entry 6, DESIGN CHOICE. -/
opaque vskipBytes : Nat → Nat

/-- The trimmed voltage of column segment `g`, in units of 4 mV, as sampled before the control space leaves reset (R335).
Log entry 6, DESIGN CHOICE. -/
opaque trimmed : Nat → BitVec 8

/-- The bytes of a checksum where the region cannot be read at model step `n` (R362 gives no value). Log entry 6, DESIGN CHOICE. -/
opaque checksum : Nat → BitVec 64

end Sys2Proof.Config
end

