-- ==== Sys2Proof/Machine/Map.lean ====
section
/-! DEFINITION. Sparse maps by number as plain data in one canonical form, and the memory of bytes built from them. -/
namespace Sys2Proof.Machine

/-- A sparse map: pairs of key and value, keys strictly rising. -/
abbrev SMap (α : Type) := List (Nat × α)

/-- The value at a key, `d` where the key is not listed. -/
def SMap.get {α : Type} (d : α) : SMap α → Nat → α
  | [], _ => d
  | (j, v) :: m, k => if j = k then v else SMap.get d m k

/-- The map with `new` in place of every entry of the keys from `k` up to but not including `k + n`. -/
def SMap.splice {α : Type} (m : SMap α) (k n : Nat) (new : SMap α) : SMap α :=
  m.filter (fun e => decide (e.1 < k)) ++ new ++ m.filter (fun e => decide (k + n ≤ e.1))

/-- The map with `v` at `k`; every value is listed. -/
def SMap.put {α : Type} (m : SMap α) (k : Nat) (v : α) : SMap α := m.splice k 1 [(k, v)]

/-- The map with `v` at `k`; the value `d` of an unlisted key is not listed. -/
def SMap.set {α : Type} [DecidableEq α] (d : α) (m : SMap α) (k : Nat) (v : α) : SMap α :=
  m.splice k 1 (if v = d then [] else [(k, v)])

/-- Keys strictly rising. -/
def SMap.rising {α : Type} : SMap α → Bool
  | [] => true
  | [_] => true
  | a :: b :: m => decide (a.1 < b.1) && SMap.rising (b :: m)

/-! ### Bytes -/

/-- The bytes of every place under one key each; an unlisted byte reads 0 (log entry 4, DESIGN CHOICE). -/
abbrev Memory := SMap Byte

/-- The canonical form: keys strictly rising, no listed byte 0. -/
def Memory.wf (m : Memory) : Bool := SMap.rising m && m.all (fun e => e.2 != 0)

/-- One byte. -/
def Memory.byte (m : Memory) (k : Nat) : Byte := SMap.get 0 m k

/-- The entries of a range of keys. -/
def Memory.window (m : Memory) (k n : Nat) : Memory := m.filter (fun e => decide (k ≤ e.1) && decide (e.1 < k + n))

/-- `n` bytes from key `k` upward. -/
def Memory.read (m : Memory) (k n : Nat) : List Byte :=
  let w := m.window k n
  (List.range n).map fun i => SMap.get 0 w (k + i)

/-- The listed entries of bytes that stand from key `k` upward. -/
def Memory.cells : Nat → List Byte → Memory
  | _, [] => []
  | k, b :: bs => if b = 0 then Memory.cells (k + 1) bs else (k, b) :: Memory.cells (k + 1) bs

/-- The memory with bytes written from key `k` upward. -/
def Memory.write (m : Memory) (k : Nat) (bs : List Byte) : Memory :=
  SMap.splice m k bs.length (Memory.cells k bs)

end Sys2Proof.Machine
end

