-- ==== Sys2Proof/Machine/State.lean ====
section
/-! DEFINITION. The state of the package as plain data, and its value right after reset. Every structure's field names
the rule that gives it; INVENTORY.md lists the reset values and the log entries of those the spec does not give. -/
namespace Sys2Proof.Machine

/-! ### Domains (R102, R103) -/

/-- A domain: the triple (lo, hi, mask). -/
structure Dom where
  lo : Word
  hi : Word
  mask : DWord
deriving DecidableEq, Repr

/-- The singleton of R103. -/
def Dom.single (v : Word) : Dom := { lo := v, hi := v, mask := 1 }

/-! ### The strand -/

/-- R23: the states of a slot. -/
inductive SlotState where
  | dormant | ready | waiting | ending | parked | frozen
deriving DecidableEq, Repr

/-- R25, R319: what a WAITING strand waits for. -/
inductive Wait where
  | none
  | loadQueue
  | storeQueue
  /-- A REQ or SEND that has issued and is not accepted. -/
  | accept
  /-- A REELS that has issued, its phase not complete. -/
  | reelPhase
  /-- A REELJ that has issued, its join held. -/
  | reelHeld
  /-- SFEN, with the radius it read at its issue; 255 and above counts every place (R71). -/
  | sfen (radius : Nat)
  /-- Room in queues; the bits name the command queues among them: ME, VE, CE. -/
  | queueFull (q : BitVec 3)
  /-- The shadow nest table is ARMED; at an NGO, which takes the table as FILLED once the ME has taken it (R177). -/
  | shadowArmed (ngo : Bool)
  | formatFull
  | token (n : Nat)
  | flag (n : Nat)
  | lrec
  | trel
  | drain
  | idle
  | lease
  | operand
  | progress
  | spill
deriving DecidableEq, Repr

/-- R312: an entry's tag: context number and sequence number. -/
structure Tag where
  ctx : BitVec 20
  seq : BitVec 28
deriving DecidableEq, Repr

/-- Why an entry of a load or store queue, or an engine's cursor, is held (R307, R325, R326). -/
inductive Held where
  | no
  /-- A page-table walk for the address is under way. -/
  | walk
  /-- A translation fault with this number awaits SYS.TFRES or SYS.MTFRES. -/
  | fid (n : Nat)
  /-- A PRI page request to the host is under way under this number for this address, after a fault with this cause. -/
  | pri (n : Nat) (va : Nat) (code : BitVec 8)
  /-- The host is to translate the page of this address for a chain entry (R325). -/
  | ats (va : Nat)
  /-- A cause that traps once the consuming side needs the entry. -/
  | cause (code : BitVec 8) (addr : DWord)
  /-- A TREL that met a full timer wheel at this model step, which orders it among those that wait for room (R25, R184). -/
  | wheel (since : Nat)
  /-- Its trap has been taken, or it stood at a cut for a cause that traps: it issues again after RTT (R306). -/
  | taken
deriving DecidableEq, Repr

/-- An entry of a load or store queue: the instruction, with the values it captured at its issue to the queue. A MARK
entry carries the marker's number in `v`. -/
structure QEntry where
  i : Instr
  /-- Position in po, counted since the slot left DORMANT. -/
  po : Nat
  qseq : BitVec 16
  ea : DWord
  v : DWord
  c : DWord
  /-- Bytes read when the entry issued: the operand row of a row update, the payload of a SEND. -/
  data : List Byte
  held : Held
  /-- The tag of an entry that issued once already and is issued again after a resumption (R80). -/
  tag : Option Tag
  /-- The bytes that the entry reached when it issued first; it reaches them again when it is replayed (R59, R320). -/
  ra : Option (List (Nat × Nat))
  /-- The place in the in-flight record of an entry that a replay issues again, in that order (R80, R320). -/
  replay : Option Nat
deriving DecidableEq, Repr

/-- R176, R318: what a command-queue entry takes with it. -/
structure Snap where
  ports : Vector (BitVec 512) 8
  shape : Word
  fmt : Word
  rrb : BitVec 5
  pred : BitVec 16
deriving DecidableEq, Repr

/-- R26: the kinds of command-queue entries. A STREAM that a REQ brought carries the issuing core. -/
inductive CmdKind where
  | stream (req : Option Nat)
  | nest
  | fence (id : Nat) (me ve ce : Bool)
  | marker (id : Nat) (q : BitVec 5)
deriving DecidableEq, Repr

structure Cmd where
  kind : CmdKind
  addr : DWord
  qseq : BitVec 16
  snap : Snap
deriving DecidableEq, Repr

/-- Where an engine command stands (R198, R211, R229, R245). -/
inductive Phase where
  /-- The word or entry at the address has not begun. -/
  | fetch
  /-- Its repetitions are under way. -/
  | run
  /-- A repetition under EACH = 1 has committed and its pushes are outstanding. -/
  | push
  /-- Every repetition has committed; the word's completion is outstanding. -/
  | done
deriving DecidableEq, Repr

/-- R243: a CPOST or an element of a CATOM that has issued beyond the own scratchpad: its tag, the bytes that it reached first,
and whether its place has performed it. -/
structure Struck where
  tag : Option Tag
  ra : List (Nat × Nat)
  hit : Bool
  /-- The place in the in-flight record of an action that a replay issues again, in that order (R80, R320). -/
  replay : Option Nat
deriving DecidableEq, Repr

/-- The resume cursor of one engine for one strand. -/
structure Cursor where
  /-- Byte offset of the engine word in instruction memory or in the REQ block, or the address of the chain entry. -/
  addr : DWord
  /-- The engine word or chain entry, read when it began (R229, R242). -/
  word : BitVec 256
  phase : Phase
  /-- The pops of the word, or of the repetition under EACH, have been made. -/
  popped : Bool
  rep : Nat
  /-- Executions of the word, read when it starts (R40). -/
  total : Nat
  fmt : Word
  /-- The indices of a running nest, level 0 first; empty outside a nest. -/
  idx : List Nat
  /-- The nest runs as a NEST entry (true) or as an MNEST word. -/
  nestEntry : Bool
  /-- Row counters of the eight ports (R228). -/
  rows : Vector Nat 8
  /-- Operands delivered or taken by each port since the entry started. -/
  pw : BitVec 16
  /-- The first uncommitted unit of a chain entry. -/
  unit : Nat
  /-- Rows that a CGATH has read, by index: a row named twice is read once (R79). -/
  seen : List (Nat × List Byte)
  /-- Tiles that the word has begun to read, tiles it has begun to write, and whether those are accumulators
  (R29, R199). -/
  reads : BitVec 16
  writes : BitVec 16
  acc : Bool
  /-- A CLINK has left the block that a REQ brought (R242). -/
  linked : Bool
  /-- Counters that the completion of the word, or of its repetition, has pushed already (R28). -/
  pushed : List Nat
  /-- 64-byte rows of the block that a REQ brought, by key: each is read once (R33). -/
  rowBuf : List (Nat × List Byte)
  /-- Bytes at which a read of the unit under way is held by a refresh (R331). -/
  heldAt : List (Nat × Nat)
  /-- The atomic action of the unit under way. -/
  atom : Option Struck
  held : Held
  /-- What the word waits for (R358): 1 a token counter or 2 a tile, its number, and the clk at which it began. -/
  since : Option (Nat × Nat × Nat)
deriving DecidableEq, Repr

/-- The six queues of R26 and their numbering (R305). -/
structure Queues where
  me : List Cmd
  ve : List Cmd
  ce : List Cmd
  fmt : List Word
  ld : List QEntry
  st : List QEntry
  /-- Sequence number of the next entry of each queue: ME, VE, CE, format, load, store. -/
  seqMe : BitVec 16
  seqVe : BitVec 16
  seqCe : BitVec 16
  seqFmt : BitVec 16
  seqLd : BitVec 16
  seqSt : BitVec 16
deriving DecidableEq, Repr

/-- The kinds of stored relations (R107). -/
inductive RelOp where
  | add | sub | mul | min | max | abs | neg | eq | ne | lt | le | alld
deriving DecidableEq, Repr

/-- An operand of a stored relation. -/
inductive Opd where
  | reg (r : DReg)
  | lit (l : Word)
deriving DecidableEq, Repr

/-- R110: one entry of the constraint store. -/
structure StoreEntry where
  op : RelOp
  args : List Opd
  pending : Bool
deriving DecidableEq, Repr

/-- R115: what a checkpoint holds. -/
structure Ckpt where
  d : Vector Dom 64
  /-- The alternative address as the slot holds it. -/
  alt : DWord
  sh : Nat
  budget : BitVec 16
  pxf : Bool
  pending : List Bool
deriving DecidableEq, Repr

/-- R110-R117: the relational state of a strand. -/
structure Rel where
  store : List StoreEntry
  /-- The newest sixteen checkpoints, newest first. -/
  cks : List Ckpt
  /-- The depth, spilled entries included. -/
  ckd : Nat
  pxf : Bool
  budget : BitVec 16
  bkc : BitVec 16
  ple : Bool
  ab : Bool
  ckSlots : BitVec 8
  ckBase : BitVec 14
deriving DecidableEq, Repr

/-- R169: one active hardware loop. -/
structure LoopFrame where
  start : BitVec 17
  last : BitVec 17
  left : Nat
deriving DecidableEq, Repr

/-- R170: the part of a loop record that runs. -/
inductive Part where
  | prologue | kernel | epilogue
deriving DecidableEq, Repr

/-- R170, R225: the running loop record. -/
structure Run where
  record : BitVec 256
  part : Part
  /-- The kernel execution under way, counted from 0 (R225). -/
  iter : Nat
  /-- When the record was made ready (R35), and the clk at which it began to run (R300). -/
  order : Nat
  begun : Nat
  /-- The count that the kernel execution with this number read first (R39). -/
  row : Option (Nat × Word)
deriving DecidableEq, Repr

/-- R222-R224, R237, R239: the VE registers of a strand. -/
structure VeRegs where
  ports : Vector (BitVec 512) 8
  shape : Word
  rrb : BitVec 5
  pred : BitVec 16
  fmt : Word
  amax : Vector Word 4
deriving DecidableEq, Repr

/-- R177: the shadow nest table's state. -/
inductive Shadow where
  | empty | filled | armed
deriving DecidableEq, Repr

/-- R177, R195: the nest tables and pointers. -/
structure NestRegs where
  shadow : BitVec 1536
  st : Shadow
  active : BitVec 1536
  ptrA : Word
  ptrB : Word
  ptrC : Word
  ptrI : Word
deriving DecidableEq, Repr

/-- R260, R305, R306: the trap state. `ret` is the state the trap left and its wait. -/
structure TrapRegs where
  hm : Bool
  ret : SlotState
  retWait : Wait
  tpc : BitVec 17
  tvec : BitVec 17
  part : Bool
  ptile : BitVec 4
  arg : BitVec 8
  agent : BitVec 3
  code : BitVec 8
  tval : DWord
  tseq : BitVec 16
  /-- The queues stand at the cut of a trap until RTT (R306). -/
  cut : Bool
  /-- What the cut set aside: the queues and the cursors of the three engines. -/
  aside : Option (Queues × Option Cursor × Option Cursor × Option Cursor)
  /-- The strand's po at that trap: queue entries of a lower po issued before the cut. -/
  cutPo : Nat
deriving DecidableEq, Repr

/-- R305, R311, R313: SYS.TAGW, the watermark and the context. -/
structure TagRegs where
  next : BitVec 28
  auto : Bool
  wmark : BitVec 28
  ctx : BitVec 20
deriving DecidableEq, Repr

/-- R188, R321, R336: the power lease; `again` marks a level to ask for after a resumption. -/
structure Lease where
  pend : Bool
  held : Bool
  level : BitVec 4
  again : Bool
  /-- A trap has left the PACQ whose request is pending: the grant no longer issues it (R306). -/
  left : Bool
deriving DecidableEq, Repr

/-- R356: trace and debug registers; R331: SYS.RFHOLD. -/
structure TraceRegs where
  wmin : BitVec 8
  smp : Bool
  wre : Bool
  tre : Bool
  bke : Bool
  base : BitVec 57
  pages : BitVec 16
  prod : Word
  drop : Word
  smpint : Word
  rfhold : Word
  /-- Records this strand has written, and records dropped since the last one written (R357, R359). -/
  count : Word
  gap : Word
  /-- clk of the last sample. -/
  last : Nat
deriving DecidableEq, Repr

/-- R189, R364: dead registers of one kind, and the duplicates they hold: dead register, live register, whether the
copy is valid. -/
structure Dead (w : Nat) where
  mask : BitVec w
  dup : List (Nat × Nat × Bool)
deriving DecidableEq, Repr

/-- A launch: the core of its mailbox and the step of its GO. -/
abbrev LaunchId := Nat × Nat

/-- R337: the clocks of the draw window for which an engine is busy for a strand, and the clk until which it is. -/
structure Busy where
  now : Nat
  upto : Nat
deriving DecidableEq, Repr
/-- R295, R337: the issue slots and the engine-busy clocks of a strand in the draw window. -/
structure Effort where
  slots : Nat
  me : Busy
  ve : Busy
  ce : Busy
deriving DecidableEq, Repr
def Effort.none : Effort := { slots := 0, me := { now := 0, upto := 0 }, ve := { now := 0, upto := 0 }, ce := { now := 0, upto := 0 } }

/-- R367: a counter whose increments of a clk follow the clears of that clk: its value before the clk's increments, and their
number. -/
structure Count where
  base : Nat
  inc : Nat
deriving DecidableEq, Repr

/-- One strand slot. -/
structure Strand where
  st : SlotState
  wait : Wait
  /-- Step at which the wait began, which orders the waiters (R25), and the clk at which it began (R358). -/
  since : Nat
  sinceClk : Nat
  /-- The state parked or frozen from (R23), and its wait. -/
  back : SlotState
  backWait : Wait
  pc : BitVec 17
  /-- Instructions issued since the slot left DORMANT: the po number of the next one. -/
  po : Nat
  d : Vector Dom 64
  a : Vector DWord 32
  deadD : Dead 64
  deadA : Dead 32
  /-- Outstanding parity errors (R364): 0 domain register, 1 address register, 2 token counter; and its number. -/
  bad : List (Nat × Nat)
  rel : Rel
  loops : List LoopFrame
  run : Option Run
  /-- Priority class (R37) and the launch that the work belongs to. -/
  prio : BitVec 3
  owner : Option LaunchId
  eff : Effort
  /-- The strand was started by the launch itself, whose completion waits for it (R292). -/
  launched : Bool
  q : Queues
  tokens : Vector (BitVec 8) 12
  ve : VeRegs
  nest : NestRegs
  curMe : Option Cursor
  curVe : Option Cursor
  curCe : Option Cursor
  trap : TrapRegs
  tag : TagRegs
  lease : Lease
  /-- The largest magnitudes that the engines have committed to AMAX0-AMAX3 in this clk: an SRW of the clk goes first (R239). -/
  amaxClk : Vector Word 4
  trace : TraceRegs
  /-- A pending LIGHT request and its save area (R315). -/
  light : Option DWord
  /-- The record that an LREC or TREL has read while it waits for room (R171, R184). -/
  got : Option (BitVec 256)
  viol : Bool
deriving DecidableEq, Repr

/-- A port or strand snapshot that holds nothing. -/
def Snap.zero : Snap := { ports := Vector.replicate 8 0, shape := 0x00027C1F, fmt := 0, rrb := 0, pred := 0 }

/-- Empty queues, numbered from 0. -/
def Queues.empty : Queues :=
  { me := [], ve := [], ce := [], fmt := [], ld := [], st := [],
    seqMe := 0, seqVe := 0, seqCe := 0, seqFmt := 0, seqLd := 0, seqSt := 0 }

/-- R195: bases 0, extents 128, no used level. -/
def NestRegs.idleTable : BitVec 1536 := (128#32 ++ 128#32 ++ 128#32 ++ 0#128).setWidth 1536

/-- A slot at reset, and what a slot holds when it leaves DORMANT before its start gives it more (R26-R28, R105, R117,
R177, R195, R222, R305, R356). -/
def Strand.fresh : Strand :=
  { st := .dormant, wait := .none, since := 0, sinceClk := 0, back := .dormant, backWait := .none
    pc := 0, po := 0
    d := Vector.replicate 64 (Dom.single 0), a := Vector.replicate 32 0
    deadD := { mask := 0, dup := [] }, deadA := { mask := 0, dup := [] }, bad := []
    rel := { store := [], cks := [], ckd := 0, pxf := false, budget := 64, bkc := 0, ple := false, ab := false,
             ckSlots := 0, ckBase := 0 }
    loops := [], run := none, prio := 0, owner := none, eff := Effort.none, launched := false
    q := Queues.empty
    tokens := Vector.replicate 12 0
    ve := { ports := Vector.replicate 8 0, shape := 0x00027C1F, rrb := 0, pred := 0, fmt := 0,
            amax := Vector.replicate 4 0 }
    nest := { shadow := 0, st := .empty, active := NestRegs.idleTable, ptrA := 0, ptrB := 0, ptrC := 0, ptrI := 0 }
    curMe := none, curVe := none, curCe := none
    trap := { hm := false, ret := .dormant, retWait := .none, tpc := 0, tvec := 0, part := false, ptile := 0, arg := 0,
              agent := 0, code := 0, tval := 0, tseq := 0, cut := false, aside := none, cutPo := 0 }
    tag := { next := 0, auto := true, wmark := 0, ctx := 0 }
    lease := { pend := false, held := false, level := 0, again := false, left := false }
    amaxClk := Vector.replicate 4 0
    trace := { wmin := 0, smp := false, wre := false, tre := false, bke := false, base := 0, pages := 1, prod := 0,
               drop := 0, smpint := 1024, rfhold := 0, count := 0, gap := 0, last := 0 }
    light := none, got := none, viol := false }

/-! ### The core -/

/-- R63: the places that keep order among the accesses of one core. -/
inductive Place where
  | scratch
  | tile
  | partner
  | bank (b : Nat)
  | vault (v : Nat)
  | host
  /-- The target core's port, which accepts REQ and SEND. -/
  | port (c : Nat)
  /-- The near-memory unit of a stack. -/
  | nmu (h : Nat)
  /-- The control space, which is one place (R346). -/
  | control
deriving DecidableEq, Repr

/-- R308: idempotence classes. -/
inductive Cls where
  | pure | coreLocal | tagged | resumable
deriving DecidableEq, Repr

/-- What a place answered to an entry. -/
inductive Answer where
  | none
  | value (v : DWord)
  /-- A deque operation: status and entry. -/
  | deque (status : Nat) (v : DWord)
  /-- A reel operation that lets the strand go on, or makes it wait. -/
  | go
  | wait
  /-- The place refused the entry with a trap cause (R31, R56, R365). -/
  | trap (code : BitVec 8)
deriving DecidableEq, Repr

/-- R64, R219: a write event of an access of several. -/
inductive Put where
  /-- Bytes of one row. -/
  | bytes (key : Nat) (bs : List Byte)
  /-- FAddX into a cell. -/
  | add (key : Nat) (v : Word)
  /-- One update of a row of a value table: its weight and the gradients of its elements. -/
  | fma (key : Nat) (w : Word) (gs : List Word)
deriving DecidableEq, Repr

/-- R308-R310: an entry of the in-flight record of a core. -/
structure Flight where
  /-- Issue order on this core (R65). -/
  n : Nat
  slot : Nat
  /-- Store queue (true) or load queue. -/
  st : Bool
  e : QEntry
  cls : Cls
  tag : Option Tag
  /-- The resolved bytes as memory keys with lengths (R309, log entry 2, DESIGN CHOICE); more than one where pages meet. -/
  ra : List (Nat × Nat)
  place : Place
  done : Bool
  /-- The value has been written to its register. -/
  written : Bool
  ans : Answer
  /-- R64: moments of the read events of an access of several that have come: model steps, with memory as it was then. -/
  reads : List (Nat × Memory)
  /-- R64: the write events of an access of several that are still to be performed, in their order; none before the first. -/
  out : Option (List Put)
deriving DecidableEq, Repr

/-- What waits for a slot (R37): a message, a launch or a record. -/
structure Message where
  payload : List Byte
  handler : BitVec 17
  prio : BitVec 3
  owner : Option LaunchId
  /-- The issuer: core, slot, and its issue number. -/
  src : Nat × Nat × Nat
deriving DecidableEq, Repr

/-- R36: the state a switch keeps with a record's ready-list entry. -/
structure Kept where
  strand : Strand
deriving DecidableEq, Repr

/-- R35: a ready record. -/
structure Ready where
  record : BitVec 256
  prio : BitVec 3
  owner : Option LaunchId
  order : Nat
  kept : Option Kept
deriving DecidableEq, Repr

/-- R38: a pending release. -/
structure Release where
  record : BitVec 256
  time : BitVec 64
  /-- Its slot of the wheel has come, and it waits for room in the ready list. -/
  late : Bool
  prio : BitVec 3
  owner : Option LaunchId
deriving DecidableEq, Repr

/-- R41, R294: a launch placed on a core and waiting for its start. -/
structure Placed where
  record : BitVec 256
  argb : DWord
  prio : BitVec 3
  owner : LaunchId
  ctx : BitVec 20
deriving DecidableEq, Repr

/-- A translation held in a TLB (R324, R325). -/
structure TlbEntry where
  part : Nat
  va : DWord
  /-- log2 of the page's bytes. -/
  log : Nat
  pa : DWord
  w : Bool
deriving DecidableEq, Repr

/-- R27: which slot an engine serves, and the slot it served last. -/
structure EngState where
  serving : Option Nat
  last : Nat
  /-- R63, R64, R76: moments of the reads of the next repetition or unit that have come: model steps, with memory as it was then. -/
  apart : List (Nat × Memory)
deriving DecidableEq, Repr

/-- R362: a captured launch has ended, and its record is to be made final before its status reads. -/
structure Ending where
  status : BitVec 4
  refused : Bool
  /-- The checksum region as it stood when the launch ended: its address and its length. -/
  at_ : Nat
  len : Nat
  /-- The rows read so far; `lost` where some row cannot be read. -/
  got : List Byte
  lost : Bool
  /-- The PTP time at its completion or refusal. -/
  time : BitVec 64
deriving DecidableEq, Repr

/-- R290: the boot mailbox. -/
structure Mailbox where
  go : Bool
  ecls : BitVec 3
  status : BitVec 4
  doneseq : BitVec 16
  enused : Word
  rtgt : Word
  rctr : DWord
  kind : Bool
  prio : BitVec 3
  seq : BitVec 16
  energy : Word
  argb : DWord
  image : DWord
  /-- Nonzero bits that were last written to reserved fields (R291). -/
  rsvd : BitVec 512
  /-- The step of the launch's GO, which names the launch (R292). -/
  launch : Nat
  /-- The capture slot of this launch and the PTP time at its GO (R362). -/
  capture : Option (Nat × BitVec 64)
  /-- A GO has been performed in this clk, at whose end it is judged (R294, R355). -/
  fresh : Bool
  fin : Option Ending
deriving DecidableEq, Repr

/-- R314: the pre-emption block. -/
structure PreBlock where
  port : Bool
  status : BitVec 4
  go : Bool
  mode : BitVec 3
  mask : BitVec 8
  save : DWord
deriving DecidableEq, Repr

/-- R279, R275: an image loaded on a core: its launch, the instruction-memory ranges (TEXT first) and scratchpad ranges
that it occupies as offsets with lengths, and its boundary maps (PC, AMASK, DMASK). -/
structure Img where
  launch : LaunchId
  imem : List (Nat × Nat)
  spad : List (Nat × Nat)
  maps : List (Nat × BitVec 32 × BitVec 64)
deriving DecidableEq, Repr

structure Core where
  /-- Slots 0-7; index 8 is the chain that a TRANSFER of this core's mailbox runs (R293). -/
  strands : Vector Strand 9
  /-- R24: the slot that issued last, and the clk in which it did. -/
  rr : Nat
  issuedAt : Option Nat
  /-- R37: the clk in which a strand of the core was started last. -/
  startedAt : Option Nat
  me : EngState
  ve : EngState
  ce : EngState
  flags : BitVec 256
  /-- R175: the clk of the last set of a flag; the flags set in it, and whether each read 1 before. -/
  flagClk : Nat
  flagSets : List (BitVec 8 × Bool)
  /-- The strand number and the agent that set each flag last (R358). -/
  flagBy : SMap (BitVec 16 × Nat)
  /-- Full-empty bits and partial marks of T0-T15 (R29, R198). -/
  full : BitVec 16
  part : BitVec 16
  /-- The strand number of each tile's last commit (R358). -/
  feBy : Vector (BitVec 16) 16
  seedM : Word
  seedV : Word
  /-- What SRWs of this clk wrote to the generators; it takes effect at the end of the clk, after every draw (R91). -/
  seedNextM : Option Word
  seedNextV : Option Word
  msgBase : BitVec 9
  act : Bool
  dark : Bool
  /-- R298: the launch for which the core is to be parked and takes no new work. -/
  closing : Option LaunchId
  pfdrop : Word
  ptph : Word
  /-- Radii of levels 0-14 (R71). -/
  scope : Vector Byte 15
  flights : List Flight
  issueNo : Nat
  ready : List Ready
  /-- R38: the pending releases: those whose slot has come, then the others, each in scheduling order. -/
  wheel : List Release
  /-- The time of the wheel slot that the core has served. -/
  wheelAt : BitVec 64
  messages : List Message
  placed : List Placed
  images : List Img
  tlb : List TlbEntry
  mbox : Mailbox
  pre : PreBlock
  parkBase : DWord
  /-- R303: which of SYS.SCOPE0-SYS.SCOPE3 firmware has written since reset. -/
  scopeSet : BitVec 4
  corr : Count
  repair : Count
  unc : Count
  vskip : Count
deriving DecidableEq, Repr

def EngState.idle : EngState := { serving := none, last := 7, apart := [] }

/-- A core at reset. -/
def Core.fresh : Core :=
  { strands := Vector.replicate 9 Strand.fresh, rr := 7, issuedAt := none, startedAt := none
    me := EngState.idle, ve := EngState.idle, ce := EngState.idle
    flags := 0, flagClk := 0, flagSets := [], flagBy := [], full := 0, part := 0, feBy := Vector.replicate 16 0, seedM := 1, seedV := 1, seedNextM := none, seedNextV := none, msgBase := 0x1FF, act := false, dark := false, closing := none
    pfdrop := 0, ptph := 0
    scope := #v[0, 1, 2, 3, 4, 5, 6, 7, 8, 9, 10, 11, 12, 13, 0xFF]
    flights := [], issueNo := 0, ready := [], wheel := [], wheelAt := 0, messages := [], placed := [], images := [], tlb := []
    mbox := { go := false, ecls := 0, status := 0, doneseq := 0, enused := 0, rtgt := 0, rctr := 0, kind := false,
              prio := 0, seq := 0, energy := 0, argb := 0, image := 0, rsvd := 0, launch := 0, capture := none, fresh := false, fin := none }
    pre := { port := false, status := 0, go := false, mode := 0, mask := 0, save := 0 }
    parkBase := 0, scopeSet := 0, corr := { base := 0, inc := 0 }, repair := { base := 0, inc := 0 }, unc := { base := 0, inc := 0 },
    vskip := { base := 0, inc := 0 } }

/-! ### The package -/

/-- R312: a tag recorded at a place, its result and its released mark. -/
structure TagRec where
  place : Place
  tag : Tag
  ans : Answer
  released : Bool
  /-- The partition whose entry left it, under the number of its translations. -/
  part : Nat
deriving DecidableEq, Repr

/-- R32: an arrival or a held join that waits at a cell: cell key, join, tag, and its return path. -/
structure ReelWait where
  cell : Nat
  join : Bool
  tag : Tag
  core : Nat
  n : Nat
deriving DecidableEq, Repr

/-- A REQ in the network (R33): the block and the queue it asks for. -/
structure Request where
  src : Nat × Nat × Nat
  core : Nat
  slot : Nat
  eng : Eng
  addr : DWord
  /-- The step at which it reached the target's port, which orders it among the waiters of the queue (R25). -/
  since : Nat
deriving DecidableEq, Repr

/-- R326, R329: a translation fault that awaits an answer. -/
structure Fid where
  fid : Nat
  part : Nat
  core : Nat
  slot : Nat
  cause : BitVec 8
  va : DWord
deriving DecidableEq, Repr

/-- R329: one event record, as its four 64-bit words. -/
abbrev EventRec := BitVec 256

/-- R293: an entry of a die's scoreboard. -/
structure Launch where
  core : Nat
  /-- Order of its GO. -/
  order : Nat
  resident : Bool
  /-- clk at which it became RESIDENT. -/
  since : Nat
deriving DecidableEq, Repr

structure Die where
  board : List Launch
  tlb : List TlbEntry
  age : BitVec 5
  rth : Byte
  rhyst : Byte
  rotq : Byte
  rotc : BitVec 16
  qcol : Vector Word 8
  /-- Colours written while lending, applied when it ends (R297). -/
  qcolNext : Vector Word 8
  ctx : BitVec 18
  /-- The clk of the distributor's last issue (R294). -/
  issuedAt : Option Nat
deriving DecidableEq, Repr

structure Partition where
  ptroot : DWord
  tlbinvGo : Bool
  tlbinv : DWord
  evbase : DWord
  evprod : Byte
  evcons : Byte
  tfres : DWord
  tagspill : DWord
  cols : DWord
  ball : DWord
  en : Bool
  link : Bool
  err : Bool
  scrub : Bool
  tds : BitVec 2
  capEn : Bool
  capOvf : Bool
  capProd : Byte
  capCons : Byte
  capbase : DWord
  csbase : DWord
  cslen : Word
  degr : Bool
  thr : Byte
  mck : BitVec 16
  /-- R369: mJ that the partition's segments have drawn since EN went to 1. -/
  parten : BitVec 64
  /-- Events not yet written, oldest first (R329). -/
  kept : List EventRec
  key : Bool
  /-- IDE keys delivered (R353). -/
  ide : Bool
  /-- The spill region is full and its event has been produced (R312). -/
  spillFull : Bool
deriving DecidableEq, Repr

structure LeaseReq where
  core : Nat
  slot : Nat
  level : BitVec 4
deriving DecidableEq, Repr

structure Segment where
  ove : Bool
  thr : BitVec 4
  /-- The THR in force (R338). -/
  thrIn : BitVec 4
  cap : Byte
  held : Byte
  vmv : Byte
  temp : BitVec 16
  en : Word
  reqs : List LeaseReq
  trimmed : Bool
  /-- clk of the last rotation out of the segment (R300). -/
  lastRot : Option Nat
deriving DecidableEq, Repr

structure Group where
  temp : BitVec 16
  layer : BitVec 5
deriving DecidableEq, Repr

structure Stack where
  trained : Bool
  corr : BitVec 24
  unc : BitVec 16
  scrint : Byte
  doubled : Bool
  /-- Postponed per-bank refreshes of each pseudo-channel, by vault × 24 + pseudo-channel. -/
  postponed : SMap Nat
  /-- Banks held by a refresh: pseudo-channel and bank (64 for all) with the clk at which the hold ends. -/
  holds : List (Nat × Nat × Nat)
  /-- Pseudo-channels in self-refresh, and the clk of the last access to each. -/
  asleep : List Nat
  lastUse : SMap Nat
deriving DecidableEq, Repr

structure Vault where
  n : BitVec 5
  busy : Bool
deriving DecidableEq, Repr

/-- R352: where an SPDM responder stands. -/
inductive Spdm where
  | start | version | capabilities | negotiated | handshake | session
deriving DecidableEq, Repr

structure Responder where
  phase : Spdm
  /-- Responses given, newest first: the request's code and the response's body. -/
  out : List (Nat × BitVec 256)
deriving DecidableEq, Repr

/-- R354: one Alabin stream. -/
structure Stream where
  fails : Nat
  closed : Bool
  groups : Nat
deriving DecidableEq, Repr

/-- R341, R343, R344, R302, R355: single registers of the package. -/
structure Package where
  ptp : BitVec 64
  /-- Fraction of a ns, in units of 2^-32 ns. -/
  ptpFrac : BitVec 32
  ptprate : Word
  ptpsrc : BitVec 5
  full : Bool
  /-- FULL has been written and the switch waits (R355). -/
  fullPend : Bool
  talrtEn : Bool
  trip : Byte
  alerting : Nat
  /-- clk at which the alert falls again. -/
  alertAt : Nat
  /-- An alert held for strand 0 of the management core. -/
  alertHeld : Bool
  rcapSeq : Word
  rcapCap : BitVec 16
  rcapFlr : Bool
  rcapSeen : Bool
  /-- PTP-free expiry in clk of the cap's lease. -/
  rcapExpiry : Option Nat
  pthr : BitVec 4
  /-- The LVL in force (R338). -/
  pthrIn : BitVec 4
  /-- R302, R303: firmware has started the PTP time; the messages received from the source that SYS.PTPSRC names. -/
  ptpOn : Bool
  ptpMsgs : List DWord
  mptroot : DWord
  mtlbinvGo : Bool
  mtlbinv : DWord
  mevbase : DWord
  mevprod : Byte
  mevcons : Byte
  mtfres : DWord
  mkept : List EventRec
  /-- R370: the 16-byte units of vaults and slices, by key, whose contents stand under the management core's own key. -/
  mkeyed : List Nat
  /-- R327: invalidations from the host that are not complete. -/
  atsInv : List (DWord × BitVec 3)
deriving DecidableEq, Repr

/-- What moves next (log entry 3, DESIGN CHOICE). -/
inductive Turn where
  /-- The sequencer of core `c` issues from slot `k`. -/
  | issue (c k : Nat)
  /-- Engine `e` of core `c` advances by one repetition or unit. -/
  | engine (c : Nat) (e : Eng)
  /-- One of the steps without an encoding. -/
  | event (i : Instr)
  /-- A clock in which no sequencer issues. -/
  | tick
  /-- A parity error appears: core, slot, kind (0 domain register, 1 address register, 2 token counter), number. -/
  | parity (c k kind r : Nat)
  /-- A moment of the reads of the next repetition or unit of engine `e` of core `c` comes (R63, R76). -/
  | apart (c : Nat) (e : Eng)
  /-- A moment of access `n` of core `c`, one of several events, comes: of its reads, or with `write` of one of its writes (R64). -/
  | part (c n : Nat) (write : Bool)
  /-- A bit error appears in the 64-byte row at a memory key: double (true) or single. -/
  | biterr (key : Nat) (double : Bool)
  /-- A bit error in a queue, an in-flight record or a tag table of slot `k` of core `c` is found (R365). -/
  | queueErr (c k : Nat) (double : Bool)
  /-- R362: the record of the captured launch of core `c` that has ended is brought forward. -/
  | finish (c : Nat)
deriving DecidableEq, Repr

/-- Why the machine stops with a fault. -/
inductive Fault where
  /-- The package firmware failed its checks, so that nothing runs (R354). Raised by every turn; safe. -/
  | noService
deriving DecidableEq, Repr

/-- Why an instruction has no meaning. -/
inductive Refusal where
  /-- An instruction whose meaning this model does not give. Raised by its arm of `exec`; safe. -/
  | notModelled (mnemonic : String)
deriving DecidableEq, Repr

/-- What a strand that stands in a save area belongs to, by its context number, which is saved with it (R311, R320), and
what the cut left of it beside the bytes of its record (log entry 51, DESIGN CHOICE). -/
structure Saved where
  ctx : BitVec 20
  prio : BitVec 3
  owner : Option LaunchId
  launched : Bool
  part : Part
  order : Nat
  begun : Nat
  /-- The images that it belongs to: that of its launch, and that in whose TEXT it stands (R279). -/
  imgs : List Img
  /-- The strand at the cut, its queues beginning with the entries of the in-flight record. -/
  strand : Strand
deriving DecidableEq, Repr

/-- R18, R342: a row that a unit of the package has written for core `c` and that waits for its bank. -/
structure LateRow where
  core : Nat
  key : Nat
  bytes : List Byte
deriving DecidableEq, Repr

/-- R18, R359: a trace record whose page waits for its table walk: the slot and context of its strand, its type and words, and the
PTP time at which it was made. -/
structure LateTrace where
  core : Nat
  slot : Nat
  ctx : BitVec 20
  type : Nat
  w2 : DWord
  w3 : DWord
  time : BitVec 64
deriving DecidableEq, Repr

structure State where
  /-- The acting core and slot of the sequencer, engine or chain whose turn it is (the model's own). -/
  core : Nat
  slot : Fin 9
  /-- The turns to come (the model's own, log entry 3, DESIGN CHOICE). -/
  agenda : List Turn
  /-- Steps taken: orders waiters and feeds free values (the model's own). -/
  steps : Nat
  /-- R63, R64: the moments of the reads of the repetition or unit that runs, but for the present one: model steps, with memory as
  it was then (the model's own, log entry 12, DESIGN CHOICE). -/
  view : List (Nat × Memory)
  /-- False after a refused firmware (R354). -/
  service : Bool
  clk : Nat
  mem : Memory
  /-- Keys of poisoned 64-byte rows (R365). -/
  poison : List Nat
  /-- Bit errors of rows that no access and no scrub has met yet: the row's key, and whether it is a double error
  (R365, R366). -/
  flaws : List (Nat × Bool)
  cores : SMap Core
  late : List LateRow
  lateTrace : List LateTrace
  /-- R295: the efforts of strands that have left their slots in the draw window: core, launch, effort. -/
  spent : List (Nat × LaunchId × Effort)
  /-- R337: the clk at which the draw estimates were formed last. -/
  drawnAt : Nat
  tags : List TagRec
  /-- Live reel cells by key (R31). -/
  reels : List Nat
  reelWaits : List ReelWait
  /-- Reel releases under way (R32). -/
  releases : List ReelWait
  /-- The clk of the last steal at each bank (R57). -/
  steals : SMap Nat
  net : List Request
  fids : List Fid
  nextFid : Nat
  saved : List Saved
  dies : Vector Die 4
  parts : Vector Partition 16
  segs : SMap Segment
  groups : SMap Group
  hbm : Vector Stack 8
  vaults : SMap Vault
  pkg : Package
  spdm : SMap Responder
  streams : SMap Stream
deriving DecidableEq, Repr

def Die.fresh : Die :=
  { board := [], tlb := [], age := 20, rth := 16, rhyst := 16, rotq := 8, rotc := 0, qcol := Vector.replicate 8 0,
    qcolNext := Vector.replicate 8 0, ctx := 0, issuedAt := none }

def Partition.fresh : Partition :=
  { ptroot := 0, tlbinvGo := false, tlbinv := 0, evbase := 0, evprod := 0, evcons := 0, tfres := 0, tagspill := 0,
    cols := 0, ball := 0, en := false, link := false, err := false, scrub := false, tds := 0, capEn := false,
    capOvf := false, capProd := 0, capCons := 0, capbase := 0, csbase := 0, cslen := 0, degr := false, thr := 16,
    mck := 0, parten := 0, kept := [], key := false, ide := false, spillFull := false }

def Segment.fresh : Segment :=
  { ove := false, thr := 0, thrIn := 0, cap := 240, held := 0, vmv := 0, temp := 0, en := 0, reqs := [],
    trimmed := false, lastRot := none }

def Group.fresh : Group := { temp := 0, layer := 0 }

def Stack.fresh : Stack :=
  { trained := false, corr := 0, unc := 0, scrint := 24, doubled := false, postponed := [], holds := [], asleep := [],
    lastUse := [] }

def Vault.fresh : Vault := { n := 24, busy := false }
def Responder.fresh : Responder := { phase := .start, out := [] }
def Stream.fresh : Stream := { fails := 0, closed := false, groups := 0 }

def Package.fresh : Package :=
  { ptp := 0, ptpFrac := 0, ptprate := 0, ptpsrc := 18, full := false, fullPend := false, talrtEn := false, trip := 16,
    alerting := 0, alertAt := 0, alertHeld := false, rcapSeq := 0, rcapCap := 2400, rcapFlr := true, rcapSeen := false, rcapExpiry := none,
    pthr := 0, pthrIn := 0, ptpOn := false, ptpMsgs := [], mptroot := 0, mtlbinvGo := false, mtlbinv := 0, mevbase := 0, mevprod := 0,
    mevcons := 0, mtfres := 0, mkept := [], mkeyed := [], atsInv := [] }

/-- The machine right after reset. -/
def State.reset : State :=
  { core := 0, slot := 0, agenda := [], steps := 0, view := [], service := true, clk := 0, mem := [], poison := [], flaws := []
    cores := [], late := [], lateTrace := [], spent := [], drawnAt := 0, tags := [], reels := [], reelWaits := [], releases := [], steals := [], net := [], fids := [], nextFid := 0, saved := []
    dies := Vector.replicate 4 Die.fresh, parts := Vector.replicate 16 Partition.fresh
    segs := [], groups := [], hbm := Vector.replicate 8 Stack.fresh, vaults := [], pkg := Package.fresh
    spdm := [], streams := [] }

end Sys2Proof.Machine
end

