-- ==== Sys2Proof/Machine/Domains.lean ====
section
/-! DEFINITION. Domains and the sets they stand for (R102-R104), and the supports and runs of the relations
(R106-R109, R144-R147). A finite set of integers is a list of progressions. -/
namespace Sys2Proof.Machine

/-- The integers lo, lo + step, ... up to hi; none when hi lies below lo. -/
structure Prog where
  lo : Int
  hi : Int
  step : Nat
deriving DecidableEq, Repr

/-- A finite set as a union of progressions. -/
abbrev Ints := List Prog

/-- The integers from `a` to `b`. -/
def interval (a b : Int) : Prog := { lo := a, hi := b, step := 1 }
def Prog.nonempty (p : Prog) : Bool := decide (p.lo ≤ p.hi)
def Prog.has (p : Prog) (v : Int) : Bool :=
  decide (p.lo ≤ v) && decide (v ≤ p.hi) && (v - p.lo) % (max p.step 1 : Nat) == 0
/-- The members of a progression from `a` to `b`. -/
def Prog.cut (p : Prog) (a b : Int) : Prog :=
  let st : Int := (max p.step 1 : Nat)
  let lo := if a ≤ p.lo then p.lo else p.lo + st * (-(Int.fdiv (-(a - p.lo)) st))
  let top := min p.hi b
  { p with lo := lo, hi := if top < lo then lo - 1 else lo + st * Int.fdiv (top - lo) st }
def Prog.shift (p : Prog) (k : Int) : Prog := { p with lo := p.lo + k, hi := p.hi + k }
def Prog.neg (p : Prog) : Prog := { p with lo := -p.hi, hi := -p.lo }

def Ints.has (s : Ints) (v : Int) : Bool := s.any fun p => p.has v
/-- The set with empty progressions dropped. -/
def Ints.clean (s : Ints) : Ints := s.filter Prog.nonempty
/-- The members that lie in one of the intervals of `t` (whose steps are 1). -/
def Ints.inter (t s : Ints) : Ints :=
  Ints.clean (t.flatMap fun i => s.map fun p => p.cut i.lo i.hi)
def Ints.cut (s : Ints) (a b : Int) : Ints := Ints.clean (s.map fun p => p.cut a b)
def Ints.neg (s : Ints) : Ints := s.map Prog.neg
/-- Sums of members of two unions of intervals. -/
def Ints.sum (s t : Ints) : Ints := s.flatMap fun p => t.map fun q => interval (p.lo + q.lo) (p.hi + q.hi)
/-- Multiples by `k` of a union of intervals. -/
def Ints.scale (k : Int) (s : Ints) : Ints :=
  s.map fun p => { lo := min (k * p.lo) (k * p.hi), hi := max (k * p.lo) (k * p.hi), step := max k.natAbs 1 }
/-- The values whose multiple by `k` lies in a union of intervals, for `k` other than 0. -/
def Ints.over (k : Int) (s : Ints) : Ints :=
  let t := if k < 0 then s.neg else s
  let k := (k.natAbs : Int)
  Ints.clean (t.map fun p => interval (-(Int.fdiv (-p.lo) k)) (Int.fdiv p.hi k))
/-- The least and the greatest member. -/
def Ints.least : Ints → Option Int
  | [] => none
  | p :: s => match Ints.least s with
    | none => some p.lo
    | some m => some (min p.lo m)
def Ints.greatest : Ints → Option Int
  | [] => none
  | p :: s => match Ints.greatest s with
    | none => some p.hi
    | some m => some (max p.hi m)

/-! ### Domains -/

def Dom.l (d : Dom) : Int := d.lo.toInt
def Dom.h (d : Dom) : Int := d.hi.toInt

/-- R102: Set(d), as intervals. -/
def Dom.set (d : Dom) : Ints :=
  let win := (List.range 64).filter fun i => d.mask.getLsbD i && decide (d.l + (i : Int) ≤ d.h)
  win.map (fun (i : Nat) => interval (d.l + (i : Int)) (d.l + (i : Int))) ++
    (if d.l + 64 ≤ d.h then [interval (d.l + 64) d.h] else [])
/-- Membership in Set(d). -/
def Dom.has (d : Dom) (v : Int) : Bool :=
  decide (d.l ≤ v) && decide (v ≤ d.h) && (decide (64 ≤ v - d.l) || d.mask.getLsbD (v - d.l).toNat)
/-- R108: Iv(x). -/
def Dom.iv (d : Dom) : Ints := [interval d.l d.h]
/-- R104: Sng(d). -/
def Dom.sng (d : Dom) : Bool := d.lo == d.hi
/-- The one member of a singleton. -/
def Dom.val (d : Dom) : Option Word := if d.sng then some d.lo else none

/-- The number of set bits. -/
def popCount {w : Nat} (x : BitVec w) : Nat := ((List.range w).filter fun i => x.getLsbD i).length

/-- R104: Card(d). -/
def Dom.card (d : Dom) : Nat :=
  if d.h - d.l < 64 then popCount d.mask else popCount d.mask + (d.h - d.l - 63).toNat

/-- A mask of 64 bits from a test of the positions. -/
def maskOf (f : Nat → Bool) : DWord :=
  (List.range 64).foldl (fun m i => if f i then m ||| (1#64 <<< i) else m) 0

/-- R104: Tight of the set that `has` decides, with least member `lo` and greatest member `hi`. -/
def Dom.tightOf (lo hi : Int) (has : Int → Bool) : Dom :=
  { lo := BitVec.ofInt 32 lo, hi := BitVec.ofInt 32 hi,
    mask := maskOf fun i => decide (lo + (i : Int) ≤ hi) && has (lo + (i : Int)) }

/-- R104: Tight(S); none for the empty set. -/
def Dom.tight (s : Ints) : Option Dom :=
  match s.least, s.greatest with
  | some lo, some hi => some (Dom.tightOf lo hi s.has)
  | _, _ => none

/-- R104: Range(a, b), for a at most b. -/
def Dom.range (a b : Int) : Dom := Dom.tightOf a b fun _ => true
/-- The full 32-bit range (R103). -/
def Dom.full : Dom := Dom.range minI32 maxI32

/-- R104: Normalise(lo, hi, mask). -/
def Dom.normalise (d : Dom) : Option Dom := Dom.tight d.set
/-- R104: Meet(d, e). -/
def Dom.meet (d e : Dom) : Option Dom := Dom.tight (Ints.inter d.set e.set)
/-- Meet with an interval. -/
def Dom.meetRange (d : Dom) (a b : Int) : Option Dom := Dom.tight (Ints.cut d.set a b)
/-- Tight(Set(d) \ {v}). -/
def Dom.remove (d : Dom) (v : Int) : Option Dom :=
  Dom.tight (Ints.clean (d.set.flatMap fun p => [interval p.lo (min p.hi (v - 1)), interval (max p.lo (v + 1)) p.hi]))

/-- R103: the canonical form. -/
def Dom.canonical (d : Dom) : Bool :=
  decide (d.l ≤ d.h) && d.mask.getLsbD 0 &&
    (decide (64 ≤ d.h - d.l) || decide (2 ^ (d.h - d.l).toNat ≤ d.mask.toNat ∧ d.mask.toNat < 2 ^ ((d.h - d.l).toNat + 1)))

/-- A canonical domain made of three raw fields (log entry 5, DESIGN CHOICE). -/
def Dom.ofRaw (lo hi : Word) (mask : DWord) : Dom :=
  let a := min lo.toInt hi.toInt
  let b := max lo.toInt hi.toInt
  Dom.tightOf a b fun v => decide (v = a) || decide (v = b) || decide (64 ≤ v - a) || mask.getLsbD (v - a).toNat

/-! ### Functional mode (R106) -/

/-- A result over the bounds intervals, or the full range. -/
def Dom.bounds (l h : Int) : Dom := if l < minI32 ∨ maxI32 < h then Dom.full else Dom.range l h

def Dom.addF (a b : Dom) : Dom :=
  if a.sng && b.sng then Dom.single (a.lo + b.lo) else Dom.bounds (a.l + b.l) (a.h + b.h)
def Dom.subF (a b : Dom) : Dom :=
  if a.sng && b.sng then Dom.single (a.lo - b.lo) else Dom.bounds (a.l - b.h) (a.h - b.l)
def Dom.minF (a b : Dom) : Dom :=
  if a.sng && b.sng then Dom.single (BitVec.ofInt 32 (min a.l b.l)) else Dom.bounds (min a.l b.l) (min a.h b.h)
def Dom.maxF (a b : Dom) : Dom :=
  if a.sng && b.sng then Dom.single (BitVec.ofInt 32 (max a.l b.l)) else Dom.bounds (max a.l b.l) (max a.h b.h)
def Dom.negF (a : Dom) : Dom := if a.sng then Dom.single (-a.lo) else Dom.bounds (-a.h) (-a.l)
def Dom.absF (a : Dom) : Dom :=
  if a.sng then Dom.single (BitVec.ofInt 32 a.l.natAbs)
  else Dom.bounds (if 0 ≤ a.l then a.l else if a.h ≤ 0 then -a.h else 0)
    (if 0 ≤ a.l then a.h else if a.h ≤ 0 then -a.l else max (-a.l) a.h)

/-! ### Supports (R107, R108) -/

/-- The whole 32-bit range. -/
def allInts : Ints := [interval minI32 maxI32]

def single1 (v : Int) : Ints := [interval v v]

/-- The members of a set at most `v`, at least `v`; none where `v` is absent. -/
def Ints.upTo (s : Ints) (v : Option Int) : Ints := match v with
  | none => []
  | some v => s.cut minI32 v
def Ints.downTo (s : Ints) (v : Option Int) : Ints := match v with
  | none => []
  | some v => s.cut v maxI32

/-- The one member of a set that has just one. -/
def Ints.only (s : Ints) : Option Int :=
  match s.least, s.greatest with
  | some a, some b => if a = b then some a else none
  | _, _ => none

/-- Everything but `k`. -/
def butOne (k : Int) : Ints := [interval minI32 (k - 1), interval (k + 1) maxI32]

/-- Supports of d = min(a, b): of d, and of a given d and b. -/
def suppMinD (a b : Ints) : Ints := a.upTo b.greatest ++ b.upTo a.greatest
def suppMinA (d b : Ints) : Ints :=
  d.upTo b.greatest ++ allInts.downTo (Ints.inter b d).least
/-- Supports of d = max(a, b). -/
def suppMaxD (a b : Ints) : Ints := a.downTo b.least ++ b.downTo a.least
def suppMaxA (d b : Ints) : Ints :=
  d.downTo b.least ++ allInts.upTo (Ints.inter b d).greatest

/-- Supports of d = |a|. -/
def suppAbsD (a : Ints) : Ints := a.cut 0 (2 ^ 32) ++ (a.cut (-(2 ^ 32)) 0).neg
def suppAbsA (d : Ints) : Ints := d.cut 0 (2 ^ 32) ++ (d.cut 0 (2 ^ 32)).neg

/-- R146, R147: the reified compares: which comparison. -/
inductive Cmp where
  | eq | ne | lt | le
deriving DecidableEq, Repr

def Cmp.holds (c : Cmp) (a b : Int) : Bool :=
  match c with
  | .eq => decide (a = b)
  | .ne => decide (a ≠ b)
  | .lt => decide (a < b)
  | .le => decide (a ≤ b)

/-- Some members of the two sets are equal; some differ. -/
def anyEq (a b : Ints) : Bool := !(Ints.inter a b).isEmpty
def anyNe (a b : Ints) : Bool := match a.only, b.only with
  | some x, some y => decide (x ≠ y)
  | _, _ => !a.isEmpty && !b.isEmpty
/-- Some a lies below some b. -/
def anyLt (a b : Ints) : Bool := match a.least, b.greatest with
  | some x, some y => decide (x < y)
  | _, _ => false
def anyLe (a b : Ints) : Bool := match a.least, b.greatest with
  | some x, some y => decide (x ≤ y)
  | _, _ => false

/-- The comparison, or its negation, holds for some members. -/
def Cmp.some (c : Cmp) (want : Bool) (a b : Ints) : Bool :=
  match c, want with
  | .eq, true => anyEq a b
  | .eq, false => anyNe a b
  | .ne, true => anyNe a b
  | .ne, false => anyEq a b
  | .lt, true => anyLt a b
  | .lt, false => anyLe b a
  | .le, true => anyLe a b
  | .le, false => anyLt b a

/-- Values of a that stand in a comparison, or its negation, to some member of b. -/
def neOf (b : Ints) : Ints := match b.only with
  | some k => butOne k
  | none => if b.isEmpty then [] else allInts
def Cmp.suppA (c : Cmp) (want : Bool) (b : Ints) : Ints :=
  match c, want with
  | .eq, true => b
  | .eq, false => neOf b
  | .ne, true => neOf b
  | .ne, false => b
  | .lt, true => allInts.upTo (b.greatest.map (· - 1))
  | .lt, false => allInts.downTo b.least
  | .le, true => allInts.upTo b.greatest
  | .le, false => allInts.downTo (b.least.map (· + 1))
/-- The same for values of b. -/
def Cmp.suppB (c : Cmp) (want : Bool) (a : Ints) : Ints :=
  match c, want with
  | .eq, true => a
  | .eq, false => neOf a
  | .ne, true => neOf a
  | .ne, false => a
  | .lt, true => allInts.downTo (a.least.map (· + 1))
  | .lt, false => allInts.upTo a.greatest
  | .le, true => allInts.downTo a.least
  | .le, false => allInts.upTo (a.greatest.map (· - 1))

/-- Support of operand `i` of a reified compare. -/
def Cmp.supp (c : Cmp) (i : Nat) (d a b : Ints) : Ints :=
  match i with
  | 0 => (if c.some true a b then single1 1 else []) ++ (if c.some false a b then single1 0 else [])
  | 1 => (if d.has 1 then c.suppA true b else []) ++ (if d.has 0 then c.suppA false b else [])
  | _ => (if d.has 1 then c.suppB true a else []) ++ (if d.has 0 then c.suppB false a else [])

/-! #### Products -/

/-- The positive divisors of a number other than 0. -/
def divisors (n : Nat) : List Nat :=
  let small := ((List.range (min (n + 1) 46342)).filter fun i => decide (0 < i) && n % i == 0)
  small ++ small.map fun i => n / i

/-- The integers that divide `c`, with both signs. -/
def factors (c : Int) : List Int := (divisors c.natAbs).flatMap fun (i : Nat) => [(i : Int), -(i : Int)]

/-- Some a times some b gives `v`. -/
def isProduct (v : Int) (a b : Ints) : Bool :=
  if v = 0 then (a.has 0 && !b.isEmpty) || (b.has 0 && !a.isEmpty)
  else (factors v).any fun x => a.has x && b.has (Int.fdiv v x)

/-- Some b makes the product with `v` a member of d. -/
def isFactor (v : Int) (d b : Ints) : Bool :=
  if v = 0 then d.has 0 && !b.isEmpty else !(Ints.inter (Ints.over v d) b).isEmpty

/-- The first integer from `v` upward, at most `fuel` of them, that passes a test. -/
def firstUp (p : Int → Bool) : Nat → Int → Option Int
  | 0, _ => none
  | n + 1, v => if p v then some v else firstUp p n (v + 1)
def firstDown (p : Int → Bool) : Nat → Int → Option Int
  | 0, _ => none
  | n + 1, v => if p v then some v else firstDown p n (v - 1)

/-- The least and greatest values between `lo` and `hi` that pass a test, as an interval. -/
def spanOf (p : Int → Bool) (lo hi : Int) : Ints :=
  match firstUp p (hi - lo + 1).toNat lo, firstDown p (hi - lo + 1).toNat hi with
  | some a, some b => [interval a b]
  | _, _ => []

/-- Bounds within which a factor of members of d lies, by the corners of the quotients. -/
def quotientHull (d b : Ints) : Int × Int :=
  match d.least, d.greatest, b.least, b.greatest with
  | some dl, some dh, some bl, some bh =>
    let m : Int := max dl.natAbs dh.natAbs
    if bl ≤ 0 ∧ 0 ≤ bh then (if dl ≤ 0 ∧ 0 ≤ dh then (minI32, maxI32) else (-m, m))
    else
      let lo q r := -(Int.fdiv (-q) r)
      (min (min (lo dl bl) (lo dl bh)) (min (lo dh bl) (lo dh bh)),
       max (max (Int.fdiv dl bl) (Int.fdiv dl bh)) (max (Int.fdiv dh bl) (Int.fdiv dh bh)))
  | _, _, _, _ => (0, -1)

/-- Bounds within which a product lies. -/
def productHull (a b : Ints) : Int × Int :=
  match a.least, a.greatest, b.least, b.greatest with
  | some al, some ah, some bl, some bh =>
    (min (min (al * bl) (al * bh)) (min (ah * bl) (ah * bh)), max (max (al * bl) (al * bh)) (max (ah * bl) (ah * bh)))
  | _, _, _, _ => (0, -1)

/-- Support of the product d = a × b in d, where a or b has one member, or else d has. -/
def suppMulD (d a b : Ints) : Ints :=
  match a.only, b.only with
  | some k, _ => if k = 0 then (if b.isEmpty then [] else single1 0) else Ints.scale k b
  | _, some k => if k = 0 then (if a.isEmpty then [] else single1 0) else Ints.scale k a
  | none, none => match d.only with
    | some c => if isProduct c a b then single1 c else []
    | none => []

/-- Support of one factor given d and the other factor, where one of the three has one member. -/
def suppMulA (d a b : Ints) : Ints :=
  match b.only with
  | some k => if k = 0 then (if d.has 0 then allInts else []) else Ints.over k d
  | none => match d.only with
    | some c =>
      if c = 0 then (if b.has 0 then allInts else if b.isEmpty then [] else single1 0)
      else (factors c).flatMap fun x => if b.has (Int.fdiv c x) then single1 x else []
    | none => match a.only with
      | some k => if isFactor k d b then single1 k else []
      | none => []

/-! ### Runs (R108, R109) -/

/-- The support of operand `i` (0 DST, 1 SRC1, 2 SRC2), for the sets of the three operands. -/
def RelOp.supp (op : RelOp) (i : Nat) (d a b : Ints) : Ints :=
  match op, i with
  | .add, 0 => Ints.sum a b
  | .add, 1 => Ints.sum d b.neg
  | .add, _ => Ints.sum d a.neg
  | .sub, 0 => Ints.sum a b.neg
  | .sub, 1 => Ints.sum d b
  | .sub, _ => Ints.sum a d.neg
  | .mul, 0 => suppMulD d a b
  | .mul, 1 => suppMulA d a b
  | .mul, _ => suppMulA d b a
  | .min, 0 => suppMinD a b
  | .min, 1 => suppMinA d b
  | .min, _ => suppMinA d a
  | .max, 0 => suppMaxD a b
  | .max, 1 => suppMaxA d b
  | .max, _ => suppMaxA d a
  | .abs, 0 => suppAbsD a
  | .abs, _ => suppAbsA d
  | .neg, 0 => a.neg
  | .neg, _ => d.neg
  | .eq, i => Cmp.supp .eq i d a b
  | .ne, i => Cmp.supp .ne i d a b
  | .lt, i => Cmp.supp .lt i d a b
  | .le, i => Cmp.supp .le i d a b
  | .alld, _ => allInts

/-- The interval from the least to the greatest member of Set(x) that the bounds intervals of the others support
(R108, the second branch). -/
def RelOp.span (op : RelOp) (i : Nat) (x : Dom) (d a b : Ints) : Ints :=
  match op, i with
  | .mul, 0 =>
    let h := productHull a b
    spanOf (fun v => x.has v && isProduct v a b) (Max.max x.l h.1) (Min.min x.h h.2)
  | .mul, 1 =>
    let h := quotientHull d b
    spanOf (fun v => x.has v && isFactor v d b) (Max.max x.l h.1) (Min.min x.h h.2)
  | .mul, _ =>
    let h := quotientHull d a
    spanOf (fun v => x.has v && isFactor v d a) (Max.max x.l h.1) (Min.min x.h h.2)
  | op, i =>
    let s := Ints.inter x.set (op.supp i d a b)
    match s.least, s.greatest with
    | some l, some g => [interval l g]
    | _, _ => []

/-- The domains of a strand's registers. -/
abbrev DFile := Vector Dom 64

/-- The domain of an operand; a literal is a constant singleton (R107). -/
def Opd.dom (f : DFile) : Opd → Dom
  | .reg r => f[r.toNat]
  | .lit l => Dom.single l

/-- R108: Exact(c). -/
def exact (op : RelOp) (f : DFile) (args : List Opd) : Bool :=
  match op with
  | .abs => true
  | .neg => true
  | _ => args.any fun x => (x.dom f).sng

/-- R108: the new domain of operand `i`; none when it would be empty. -/
def narrow (op : RelOp) (f : DFile) (args : List Opd) (i : Nat) (x : Dom) : Option Dom :=
  let get (k : Nat) := (args.getD k (.lit 0)).dom f
  if exact op f args then Dom.tight (Ints.inter x.set (op.supp i (get 0).set (get 1).set (get 2).set))
  else match op.span i x (get 0).iv (get 1).iv (get 2).iv with
    | [p] => x.meetRange p.lo p.hi
    | _ => none

/-- One pass over the operands from position `i`: the file, the registers narrowed in order, whether any changed. -/
def runPass (op : RelOp) (args : List Opd) : List Opd → Nat → DFile → List DReg → Option (DFile × List DReg)
  | [], _, f, ch => some (f, ch)
  | .lit _ :: rest, i, f, ch => runPass op args rest (i + 1) f ch
  | .reg r :: rest, i, f, ch =>
    match narrow op f args i f[r.toNat] with
    | none => none
    | some n =>
      if n = f[r.toNat] then runPass op args rest (i + 1) f ch
      else runPass op args rest (i + 1) (f.set r.toNat n) (ch ++ [r])

/-- R109: one pass of RunAllD's inner loop: remove `v` from every register but the one at position `i`. -/
def alldRemove (v : Int) (i : Nat) : List DReg → Nat → DFile → List DReg → Option (DFile × List DReg)
  | [], _, f, ch => some (f, ch)
  | r :: rest, j, f, ch =>
    if j = i then alldRemove v i rest (j + 1) f ch
    else match f[r.toNat].remove v with
      | none => none
      | some n =>
        if n = f[r.toNat] then alldRemove v i rest (j + 1) f ch
        else alldRemove v i rest (j + 1) (f.set r.toNat n) (ch ++ [r])

/-- R109: one pass of RunAllD's outer loop. -/
def alldPass (regs : List DReg) : List DReg → Nat → DFile → List DReg → Option (DFile × List DReg)
  | [], _, f, ch => some (f, ch)
  | r :: rest, i, f, ch =>
    if f[r.toNat].sng then
      match alldRemove f[r.toNat].l i regs 0 f ch with
      | none => none
      | some (f, ch) => alldPass regs rest (i + 1) f ch
    else alldPass regs rest (i + 1) f ch

/-- The registers among operands. -/
def regsOf : List Opd → List DReg
  | [] => []
  | .reg r :: rest => r :: regsOf rest
  | .lit _ :: rest => regsOf rest

/-- One pass of a relation's run. -/
def relPass (e : StoreEntry) (f : DFile) : Option (DFile × List DReg) :=
  match e.op with
  | .alld => alldPass (regsOf e.args) (regsOf e.args) 0 f []
  | op => runPass op e.args e.args 0 f []

/-- R108: passes until one changes nothing. Every pass that changes something removes a member, so `fuel` members
suffice. -/
def runRel (e : StoreEntry) : Nat → DFile → List DReg → Option (DFile × List DReg)
  | 0, f, ch => some (f, ch)
  | n + 1, f, ch =>
    match relPass e f with
    | none => none
    | some (g, []) => some (g, ch)
    | some (g, new) => runRel e n g (ch ++ new)

/-- The members of all domains of a file: a bound on the changes that narrowing can make. -/
def members (f : DFile) : Nat := f.toList.foldl (fun n d => n + d.card) 1

/-- R108, R109: Run(c) to its fixed point, with the registers that it narrowed, in order; none when it fails. -/
def runFix (e : StoreEntry) (f : DFile) : Option (DFile × List DReg) := runRel e (members f) f []

end Sys2Proof.Machine
end

