-- ==== Sys2Proof/Machine/Ops.lean ====
section
/-! DEFINITION. The named operations over the state: access to strands, cores and registers, the geometry of the
package, places and translation, event and trace records, waits, taking a trap and returning from it, freezing. -/
namespace Sys2Proof.Machine

/-- What a meaning answers. -/
abbrev Out := Host.Outcome State Fault Refusal

/-! ### Access to the parts of the state -/

def State.coreAt (s : State) (c : Nat) : Core := SMap.get Core.fresh s.cores c
def State.putCore (s : State) (c : Nat) (x : Core) : State := { s with cores := SMap.put s.cores c x }
def State.strandAt (s : State) (c : Nat) (k : Fin 9) : Strand := (s.coreAt c).strands[k.val]
def State.putStrand (s : State) (c : Nat) (k : Fin 9) (x : Strand) : State :=
  s.putCore c { s.coreAt c with strands := (s.coreAt c).strands.set k.val x }
/-- The acting strand and its core. -/
def State.self (s : State) : Strand := s.strandAt s.core s.slot
def State.own (s : State) : Core := s.coreAt s.core
def State.putSelf (s : State) (x : Strand) : State := s.putStrand s.core s.slot x
def State.upd (s : State) (f : Strand → Strand) : State := s.putSelf (f s.self)
def State.updAt (s : State) (c : Nat) (k : Fin 9) (f : Strand → Strand) : State := s.putStrand c k (f (s.strandAt c k))
def State.updCore (s : State) (c : Nat) (f : Core → Core) : State := s.putCore c (f (s.coreAt c))
/-- Every listed core that `sel` names, changed. -/
def State.mapCores (s : State) (sel : Nat → Bool) (f : Nat → Core → Core) : State :=
  { s with cores := s.cores.map fun e => if sel e.1 then (e.1, f e.1 e.2) else e }
/-- A slot number as the index of a core's strands. -/
def slotIx (k : Nat) : Fin 9 := ⟨k % 9, Nat.mod_lt _ (by decide)⟩

def State.seg (s : State) (g : Nat) : Segment := SMap.get Segment.fresh s.segs g
def State.putSeg (s : State) (g : Nat) (x : Segment) : State := { s with segs := SMap.put s.segs g x }
def State.group (s : State) (h g : Nat) : Group := SMap.get Group.fresh s.groups (32 * h + g)
def State.putGroup (s : State) (h g : Nat) (x : Group) : State := { s with groups := SMap.put s.groups (32 * h + g) x }
def State.vault (s : State) (h v : Nat) : Vault := SMap.get Vault.fresh s.vaults (16 * h + v)
def State.putVault (s : State) (h v : Nat) (x : Vault) : State := { s with vaults := SMap.put s.vaults (16 * h + v) x }
def State.part (s : State) (p : Nat) : Partition := s.parts[p % 16]'(Nat.mod_lt _ (by decide))
def State.putPart (s : State) (p : Nat) (x : Partition) : State :=
  { s with parts := s.parts.set (p % 16) x (Nat.mod_lt _ (by decide)) }
def State.die (s : State) (d : Nat) : Die := s.dies[d % 4]'(Nat.mod_lt _ (by decide))
def State.putDie (s : State) (d : Nat) (x : Die) : State :=
  { s with dies := s.dies.set (d % 4) x (Nat.mod_lt _ (by decide)) }
def State.stack (s : State) (h : Nat) : Stack := s.hbm[h % 8]'(Nat.mod_lt _ (by decide))
def State.putStack (s : State) (h : Nat) (x : Stack) : State :=
  { s with hbm := s.hbm.set (h % 8) x (Nat.mod_lt _ (by decide)) }

/-! ### Geometry (R11, R16, R22, R48, R50, R60) -/

/-- The management core's index (log entry 2, DESIGN CHOICE). -/
def mgmtCore : Nat := 2048
def dieOf (c : Nat) : Nat := c / 512
def gcolOf (c : Nat) : Nat := c / 32
def rowOf (c : Nat) : Nat := c % 32
/-- The column segment of a core (R335's numbering). -/
def segOf (c : Nat) : Nat := gcolOf c * 16 + rowOf c / 2
/-- The other core of a column segment. -/
def partnerOf (c : Nat) : Nat := if c % 2 = 0 then c + 1 else c - 1
/-- The stack and vault that serve a core. -/
def homeStack (c : Nat) : Nat := 2 * dieOf c + (if rowOf c < 16 then 0 else 1)
def homeVault (c : Nat) : Nat := gcolOf c % 16
/-- The layer group nearest a core (R339). -/
def homeGroup (c : Nat) : Nat := 2 * homeVault c + rowOf c % 16 / 8
/-- R22: the strand number. -/
def strandNumber (c k : Nat) : BitVec 16 :=
  if c = mgmtCore then 0x4000 + BitVec.ofNat 16 k else BitVec.ofNat 16 (8 * c + k)
/-- The global column that a vault serves. -/
def vaultCol (h v : Nat) : Nat := h / 2 * 16 + v

def natDist (a b : Nat) : Nat := (a - b) + (b - a)
/-- Router hops between the routers of two cores. -/
def hops (a b : Nat) : Nat := natDist (gcolOf a) (gcolOf b) + natDist (rowOf a) (rowOf b)
/-- Rows from a row to the nearest that a stack serves. -/
def rowsTo (h r : Nat) : Nat := if h % 2 = 0 then r - 15 else 16 - r

/-- R60, R71, R371: hops from a core to a place; none for what only level 15 covers. -/
def placeHops (c : Nat) (p : Place) : Option Nat :=
  let o := if c = mgmtCore then 0 else c
  let more := if c = mgmtCore then 1 else 0
  match p with
  | .scratch => some 0
  | .tile => some 0
  | .control => some 0
  | .partner => some 1
  | .bank b => some (hops o (b / 16) + more)
  | .vault v => some (natDist (gcolOf o) (vaultCol (v / 16) (v % 16)) + rowsTo (v / 16) (rowOf o) + 1 + more)
  | .nmu h => some (natDist (gcolOf o) (vaultCol h 0) + rowsTo h (rowOf o) + 1 + more)
  | .port t => some (hops o t + more)
  | .host => none

/-! ### Memory keys (R309, log entry 2, DESIGN CHOICE) -/

def hostBase : Nat := 2 ^ 52
def ballBase : Nat := 2 ^ 53
def localBase : Nat := 2 ^ 54
def imemBase : Nat := 2 ^ 55
def vregBase : Nat := 2 ^ 56
/-- Byte `o` of a core's scratchpad (below 1 MiB) and tiles. -/
def localKey (c o : Nat) : Nat := localBase + c * 2 ^ 22 + o
def tileKey (c t : Nat) : Nat := localKey c (0x100000 + t * 0x10000)
def imemKey (c o : Nat) : Nat := imemBase + c * 2 ^ 17 + o
/-- Byte `o` of physical vector register `v`. -/
def vregKey (c v o : Nat) : Nat := vregBase + c * 2 ^ 18 + v * 4096 + o
def hbmKey (h v o : Nat) : Nat := h * 2 ^ 37 + v * 2 ^ 33 + o

/-- The place of a key as core `c` reaches it. -/
def placeOf (c key : Nat) : Place :=
  if key < hostBase then .vault (key / 2 ^ 37 % 8 * 16 + key / 2 ^ 33 % 16)
  else if key < ballBase then .host
  else if key < localBase then .bank ((key - ballBase) / 65536)
  else if (key - localBase) / 2 ^ 22 = c then (if (key - localBase) % 2 ^ 22 < 0x100000 then .scratch else .tile)
  else .partner

def State.read (s : State) (key n : Nat) : List Byte := s.mem.read key n
def State.readNat (s : State) (key n : Nat) : Nat := leNat (s.read key n)
def State.write (s : State) (key : Nat) (bs : List Byte) : State := { s with mem := s.mem.write key bs }
def State.writeNat (s : State) (key n v : Nat) : State := s.write key (leBytes n v)

/-- R365: a write of a whole 64-byte row clears the row's poison. -/
def clearPoison (rows : List Nat) (key n : Nat) : List Nat :=
  rows.filter fun r => !(decide (key ≤ r) && decide (r + 64 ≤ key + n))
/-- Such a write replaces the row's check code with it. -/
def clearFlaws (rows : List (Nat × Bool)) (key n : Nat) : List (Nat × Bool) :=
  rows.filter fun r => !(decide (key ≤ r.1) && decide (r.1 + 64 ≤ key + n))
/-- A write with its effect on poison. -/
def State.store (s : State) (key : Nat) (bs : List Byte) : State :=
  { s with mem := s.mem.write key bs, poison := clearPoison s.poison key bs.length,
           flaws := clearFlaws s.flaws key bs.length }
/-- `n` bytes written as zeros. -/
def State.clear (s : State) (key n : Nat) : State :=
  { s with mem := s.mem.splice key n [], poison := clearPoison s.poison key n, flaws := clearFlaws s.flaws key n }
/-- Some byte of a range lies in a poisoned row, or in one with an uncorrectable error that its read will find. -/
def State.poisoned (s : State) (key n : Nat) : Bool :=
  (s.poison.any fun r => decide (r < key + n) && decide (key < r + 64)) ||
    s.flaws.any fun f => f.2 && decide (f.1 < key + n) && decide (key < f.1 + 64)

/-! ### Partitions (R51, R349, R370) -/

/-- The enabled partition that holds a global column. -/
def State.partOfCol (s : State) (g : Nat) : Option Nat :=
  (List.range 16).find? fun p => (s.part p).en && (s.part p).cols.getLsbD g
def State.partOf (s : State) (c : Nat) : Option Nat := if c = mgmtCore then none else s.partOfCol (gcolOf c)
/-- A column is held while EN or SCRUB of its partition is 1. -/
def State.colHeld (s : State) (g : Nat) : Bool :=
  (List.range 16).any fun p => ((s.part p).en || (s.part p).scrub) && (s.part p).cols.getLsbD g
/-- R349, R351, R370: a Ballroom slice is assigned while EN or SCRUB of a partition that has its column, or that BALL grants it, is 1. -/
def State.ballHeld (s : State) (g : Nat) : Bool :=
  (List.range 16).any fun p => ((s.part p).en || (s.part p).scrub) && ((s.part p).cols ||| (s.part p).ball).getLsbD g
/-- Core `c` may reach the Ballroom slices, or the vaults, of column `g`. -/
def State.ballOk (s : State) (c g : Nat) : Bool :=
  if c = mgmtCore then !s.ballHeld g
  else match s.partOf c with
    | some p => (s.part p).cols.getLsbD g || (s.part p).ball.getLsbD g
    | none => false
def State.vaultOk (s : State) (c g : Nat) : Bool :=
  if c = mgmtCore then !s.colHeld g
  else match s.partOf c with
    | some p => (s.part p).cols.getLsbD g
    | none => false

/-! ### Refresh and self-refresh at the vaults (R18, R340, R342, R353) -/

/-- A pseudo-channel of a stack: vault × 24 + number. -/
def pcIx (v pc : Nat) : Nat := v * 24 + pc
/-- A bank number that stands for every bank of a pseudo-channel: the model gives a pseudo-channel the banks 0 to 63 (log
entry 53, DESIGN CHOICE). -/
def allBanks : Nat := 64
/-- A bank number for the wake of a whole pseudo-channel from self-refresh, which is no refresh (R331, R342). -/
def waking : Nat := 65

/-- A hold on a bank, or on all, for `n` clocks. -/
def Stack.hold (x : Stack) (clk pc bank n : Nat) : Stack :=
  { x with holds := (x.holds.filter fun h => decide (clk < h.2.2)) ++ [(pc, bank, clk + n)] }

/-- R342: 320 MiB. -/
def pcSpan : Nat := 320 * 2 ^ 20
/-- R342: the pseudo-channel of a vault offset. -/
def Vault.channel (x : Vault) (off : Nat) : Nat :=
  if off < x.n.toNat * pcSpan then off / 256 % x.n.toNat else off / pcSpan

/-- R18, R342: the vault byte of a key is held: by a refresh, or with `wakes` by the wake of its pseudo-channel too. -/
def State.holdsKey (s : State) (wakes : Bool) (key : Nat) : Bool :=
  if hostBase ≤ key then false
  else
    let h := key / 2 ^ 37
    if (s.stack h).holds.isEmpty then false
    else
      let v := key / 2 ^ 33 % 16
      let o := key % 2 ^ 33
      let i := pcIx v ((s.vault h v).channel o)
      (s.stack h).holds.any fun x =>
        x.1 == i && (x.2.1 == allBanks || (wakes && x.2.1 == waking) || x.2.1 == Config.bankOf o % 64) && decide (s.clk < x.2.2)
/-- The 64-byte rows of chunks. -/
def rowsOf (l : List (Nat × Nat)) : List Nat :=
  l.flatMap fun x => (List.range ((x.1 + (x.2 - 1)) / 64 - x.1 / 64 + 1)).map fun j => 64 * (x.1 / 64 + j)
/-- Some row of chunks is held at its vault. -/
def State.holdsAny (s : State) (wakes : Bool) (l : List (Nat × Nat)) : Bool := (rowsOf l).any (s.holdsKey wakes)

/-- R342: an access to pseudo-channel `i` of stack `h` wakes it, and waits 320 clk where it slept; true where it need not wait. -/
def State.touchChannel (s : State) (h i : Nat) : State × Bool :=
  let x := s.stack h
  let x := { x with lastUse := SMap.put x.lastUse i s.clk }
  if x.asleep.contains i then
    (s.putStack h ({ x with asleep := x.asleep.filter (· != i) }.hold s.clk i waking 320), false)
  else (s.putStack h x, true)
/-- The same for a key. -/
def State.touchVault (s : State) (key : Nat) : State × Bool :=
  if hostBase ≤ key then (s, true)
  else
    let h := key / 2 ^ 37
    let v := key / 2 ^ 33 % 16
    s.touchChannel h (pcIx v ((s.vault h v).channel (key % 2 ^ 33)))

/-- R342: the accesses of a list of rows wake their pseudo-channels; true where none slept. -/
def State.touchRows (s : State) : List Nat → State × Bool
  | [] => (s, true)
  | x :: l =>
    let a := s.touchVault x
    let b := State.touchRows a.1 l
    (b.1, a.2 && b.2)
def State.touchAll (s : State) (l : List (Nat × Nat)) : State × Bool := s.touchRows (rowsOf l)
/-- The touches of an access that is performed. -/
def State.touched (s : State) (l : List (Nat × Nat)) : State := (s.touchAll l).1
/-- R342: a pseudo-channel of these chunks is in self-refresh. -/
def State.sleeping (s : State) (l : List (Nat × Nat)) : Bool := !(s.touchAll l).2

/-- R353: the partition's DMA has stopped. -/
def State.dmaStopped (s : State) (c : Nat) (p : Place) : Bool :=
  p == .host && (match s.partOf c with
    | some i => (s.part i).tds == 3
    | none => false)

/-- R18, R342, R353: chunks that an access of core `c` would reach are held by a refresh, asleep, or in host memory after the
partition's DMA has stopped. -/
def State.heldUp (s : State) (c : Nat) (l : List (Nat × Nat)) : Bool :=
  (l.any fun x => s.dmaStopped c (placeOf c x.1)) || s.holdsAny true l || s.sleeping l

/-! ### Areas that a unit of the package reads or writes (R18, R342) -/

/-- The pseudo-channels of a vault that a chunk of it reaches, a bit for each: the blocks of 256 bytes lie in turn over its N
channels, and behind them channel by channel. -/
def Vault.chunkMask (x : Vault) (off n : Nat) : Nat :=
  let m := x.n.toNat
  if off < m * pcSpan then
    let w := (2 ^ min ((off + (n - 1)) / 256 - off / 256 + 1) m - 1) * 2 ^ (off / 256 % m)
    w % 2 ^ m ||| w / 2 ^ m
  else 2 ^ (off / pcSpan)
/-- The pseudo-channels that chunks reach: stack and number. -/
def State.channelsOf (s : State) (l : List (Nat × Nat)) : List (Nat × Nat) :=
  let masks : SMap Nat := (l.filter fun x => decide (x.1 < hostBase) && x.2 != 0).foldl (fun m x =>
    let v := x.1 / 2 ^ 33
    SMap.put m v (SMap.get 0 m v ||| (s.vault (v / 16) (v % 16)).chunkMask (x.1 % 2 ^ 33) x.2)) []
  masks.flatMap fun e => ((List.range 24).filter e.2.testBit).map fun i => (e.1 / 16, pcIx (e.1 % 16) i)
/-- Some row of an area is held at its vault, or asleep. -/
def State.areaBusy (s : State) (l : List (Nat × Nat)) : Bool :=
  ((s.channelsOf l).any fun x => (s.stack x.1).asleep.contains x.2) ||
    l.any fun x => decide (x.1 < hostBase) && !(s.stack (x.1 / 2 ^ 37)).holds.isEmpty && s.holdsAny true [x]
/-- The accesses of an area wake its pseudo-channels. -/
def State.areaTouched (s : State) (l : List (Nat × Nat)) : State :=
  (s.channelsOf l).foldl (fun s x => (s.touchChannel x.1 x.2).1) s

/-- What reads or writes an area waits until no bank of it is held and no pseudo-channel sleeps. -/
def State.onArea (s : State) (l : List (Nat × Nat)) (f : State → Out) : Out :=
  if s.areaBusy l then .next (s.areaTouched l) else f (s.areaTouched l)

/-! ### Trap causes (R304) -/

namespace Code
def illegal : BitVec 8 := 0x01
def operand : BitVec 8 := 0x02
def indeterminate : BitVec 8 := 0x03
def address : BitVec 8 := 0x04
def fail : BitVec 8 := 0x05
def limit : BitVec 8 := 0x06
def storeFull : BitVec 8 := 0x07
def overflow : BitVec 8 := 0x08
def ckEmpty : BitVec 8 := 0x09
def ckOver : BitVec 8 := 0x0A
def ckSpill : BitVec 8 := 0x0B
def loopOver : BitVec 8 := 0x0C
def rowPtr : BitVec 8 := 0x0D
def loopRecord : BitVec 8 := 0x0E
def nestTable : BitVec 8 := 0x0F
def portParam : BitVec 8 := 0x10
def shape : BitVec 8 := 0x11
def software : BitVec 8 := 0x12
def overdraw : BitVec 8 := 0x13
def range : BitVec 8 := 0x14
def align : BitVec 8 := 0x15
def unsupported : BitVec 8 := 0x16
def partner : BitVec 8 := 0x17
def deque : BitVec 8 := 0x18
def reel : BitVec 8 := 0x19
def notPresent : BitVec 8 := 0x1A
def permission : BitVec 8 := 0x1B
def tableError : BitVec 8 := 0x1C
def engine : BitVec 8 := 0x1D
def formatEmpty : BitVec 8 := 0x1E
def formatWord : BitVec 8 := 0x1F
def schedule : BitVec 8 := 0x20
def sparse : BitVec 8 := 0x21
def poison : BitVec 8 := 0x22
def chain : BitVec 8 := 0x23
def nmDesc : BitVec 8 := 0x24
def nmPlace : BitVec 8 := 0x25
def machine : BitVec 8 := 0x26
def thermal : BitVec 8 := 0x27
end Code

/-! ### Translation (R58, R324, R325) -/

/-- What an address reaches. -/
inductive Reach where
  /-- The bytes, as keys with lengths. -/
  | at (chunks : List (Nat × Nat))
  /-- The control space at this offset (R345). -/
  | control (off : Nat)
  | cause (code : BitVec 8)
  /-- No TLB holds the page of this address. -/
  | miss (va : Nat)
  /-- The page lies in host memory and no completion is cached (R325). -/
  | ats (va : Nat)
  | violation
deriving DecidableEq, Repr

/-- What a walk of the tables gives: a page's base, its log2 size and its W bit, or a cause. -/
inductive Walk where
  | page (pa log : Nat) (w : Bool)
  | cause (code : BitVec 8)
  /-- A table lies in a vault of another partition, or for the management core of any (R51, R370). -/
  | violation
deriving DecidableEq, Repr

/-- An HBM PA that is no hole and has no reserved bit (R58). -/
def hbmPa (pa : Nat) : Bool := decide (pa < 2 ^ 40) && decide (pa % 2 ^ 33 < 0x1E0000000)
/-- A PA that R58 does not reserve. -/
def paOk (pa : Nat) : Bool := hbmPa pa || (decide (hostBase ≤ pa) && decide (pa < ballBase))

/-- The reserved bits of an entry: [63:53], [11:5], [1], and C above level 0. -/
def pteReserved (level e : Nat) : Bool :=
  decide (2 ^ 53 ≤ e) || e / 32 % 128 != 0 || e / 2 % 2 == 1 || (e / 16 % 2 == 1 && level != 0)
def pteAddr (e : Nat) : Nat := e / 4096 % 2 ^ 41 * 4096

/-- R51, R349, R370: the tables under number `p`, a partition or 16 for the management core, may lie in the vaults of column `g`. -/
def State.tableCol (s : State) (p g : Nat) : Bool :=
  if p = 16 then !s.colHeld g else (s.part p).en && (s.part p).cols.getLsbD g

/-- A page-table entry. -/
def State.pteAt (s : State) (tab i : Nat) : Nat := leNat (s.mem.read (tab + 8 * i) 8)
/-- What holds of an entry at every level: its table stands in the partition's HBM, its row is not poisoned (R365), it is present and
keeps its reserved bits clear; `k` goes on with it. -/
def State.walkEntry (s : State) (p tab level i : Nat) (k : Nat → Walk) : Walk :=
  if !hbmPa tab then .cause Code.tableError
  else if !s.tableCol p (vaultCol (tab / 2 ^ 37) (tab / 2 ^ 33 % 16)) then .violation
  else if s.poisoned (tab + 8 * i) 8 then .cause Code.poison
  else if s.pteAt tab i % 2 = 0 then .cause Code.notPresent
  else if pteReserved level (s.pteAt tab i) then .cause Code.tableError
  else k (s.pteAt tab i)
/-- A leaf of level 0: a page of 4 KiB, or of 64 KiB whose 16 entries agree. -/
def State.walkLeaf (s : State) (tab i e : Nat) : Walk :=
  if e / 4 % 2 ≠ 1 then .cause Code.tableError
  else if e / 16 % 2 = 1 then
    if s.poisoned (tab + 8 * (i / 16 * 16)) 128 then .cause Code.poison
    else if pteAddr e % 2 ^ 16 ≠ 0 ∨ (List.range 16).any (fun j => s.pteAt tab (i / 16 * 16 + j) != e)
    then .cause Code.tableError else .page (pteAddr e) 16 (e / 8 % 2 == 1)
  else .page (pteAddr e) 12 (e / 8 % 2 == 1)
/-- R324: the walk under number `p` from the table at `tab` of level `level`; a table entry in a poisoned row raises the
poisoned-operand fault (R365). -/
def State.walkFrom (s : State) (p va : Nat) : Nat → Nat → Walk
  | 0, tab => s.walkEntry p tab 0 (va / 2 ^ 12 % 512) fun e => s.walkLeaf tab (va / 2 ^ 12 % 512) e
  | level + 1, tab => s.walkEntry p tab (level + 1) (va / 2 ^ (12 + 9 * (level + 1)) % 512) fun e =>
    if e / 4 % 2 = 1 then
      if 2 ≤ level ∨ pteAddr e % 2 ^ (12 + 9 * (level + 1)) ≠ 0 then .cause Code.tableError
      else .page (pteAddr e) (12 + 9 * (level + 1)) (e / 8 % 2 == 1)
    else s.walkFrom p va level (pteAddr e)
/-- The table entries that such a walk reads. -/
def State.walkCells (s : State) (va : Nat) : Nat → Nat → List (Nat × Nat)
  | level, tab =>
    if !hbmPa tab then []
    else
      let i := va / 2 ^ (12 + 9 * level) % 512
      let e := leNat (s.mem.read (tab + 8 * i) 8)
      (tab + 8 * i, 8) :: (match level with
        | 0 => if e / 16 % 2 = 1 then [(tab + 8 * (i / 16 * 16), 128)] else []
        | l + 1 => if e % 2 = 0 || e / 4 % 2 = 1 || pteReserved (l + 1) e then [] else State.walkCells s va l (pteAddr e))

/-- The root register and its enable: a partition's SYS.PTROOT, or SYS.MPTROOT (R328, R370). -/
def State.root (s : State) (c : Nat) : Option DWord :=
  if c = mgmtCore then some s.pkg.mptroot else (s.partOf c).map fun p => (s.part p).ptroot

/-- The number under which a core's translations are cached: its partition, or 16 for the management core. -/
def State.asid (s : State) (c : Nat) : Nat := if c = mgmtCore then 16 else (s.partOf c).getD 17

/-- The walk for an address of core `c`. -/
def State.walk (s : State) (c va : Nat) : Walk :=
  match s.root c with
  | some r => if r.getLsbD 0 then s.walkFrom (s.asid c) va 4 (pteAddr r.toNat) else .cause Code.notPresent
  | none => .cause Code.notPresent

def TlbEntry.covers (t : TlbEntry) (p va : Nat) : Bool := t.part == p && t.va.toNat / 2 ^ t.log == va / 2 ^ t.log

/-- A translation held in the core's TLB or its die's. -/
def State.tlbFind (s : State) (c va : Nat) : Option TlbEntry :=
  match (s.coreAt c).tlb.find? fun t => t.covers (s.asid c) va with
  | some t => some t
  | none => if c = mgmtCore then none else (s.die (dieOf c)).tlb.find? fun t => t.covers (s.asid c) va

/-- R326: the page of `va` that core `c` holds lies in host memory. -/
def State.hostPage (s : State) (c va : Nat) : Bool := (s.tlbFind c va).any fun t => decide (hostBase ≤ t.pa.toNat)
/-- R326: a permission fault on host memory, for which the host is asked. -/
def State.asksHost (s : State) (c va : Nat) (code : BitVec 8) : Bool := code == Code.permission && s.hostPage c va
/-- The translation of `va` leaves the TLBs of core `c` and of its die: the host is to give it anew. -/
def State.forgetPage (s : State) (c va : Nat) : State :=
  let gone (t : TlbEntry) : Bool := t.covers (s.asid c) va
  let s := s.updCore c fun y => { y with tlb := y.tlb.filter fun t => !gone t }
  if c = mgmtCore then s
  else s.putDie (dieOf c) { s.die (dieOf c) with tlb := (s.die (dieOf c)).tlb.filter fun t => !gone t }

/-- The checks on a translated byte in the order of R374: reserved PAs and trained hbm (R355), then permission and the
partition (R330, R370). -/
def State.paCheck (s : State) (c pa : Nat) (w write : Bool) : Reach :=
  if !paOk pa then .cause Code.range
  else if pa < hostBase ∧ !s.pkg.full ∧ !(s.stack (pa / 2 ^ 37)).trained then .cause Code.range
  else if write && !w then .cause Code.permission
  else if pa < hostBase ∧ !s.vaultOk c (vaultCol (pa / 2 ^ 37) (pa / 2 ^ 33 % 16)) then .violation
  else .at [(pa, 1)]

/-- The table entries that walks for `n` bytes from an address of core `c` read: none for a page that a TLB holds. -/
def State.tableCells (s : State) (c va n : Nat) : List (Nat × Nat) :=
  match s.root c with
  | some r =>
    if !r.getLsbD 0 || decide (va < 0x400000000) then []
    else (List.range ((va % 4096 + (n - 1)) / 4096 + 1)).flatMap fun j =>
      let a := if j = 0 then va else (va / 4096 + j) * 4096
      if (s.tlbFind c a).isSome then [] else s.walkCells a 4 (pteAddr r.toNat)
  | none => []

/-- R328: while EN of the root is 0, every translated access is not present, whatever a TLB holds. -/
def State.rootOn (s : State) (c : Nat) : Bool := (s.root c).any fun r => r.getLsbD 0

/-- One address of translated space; with `now` a page that no TLB holds is walked at once. -/
def State.translate (s : State) (c va : Nat) (write now : Bool) : Reach :=
  if !s.rootOn c then .cause Code.notPresent
  else match s.tlbFind c va with
  | some t => s.paCheck c (t.pa.toNat + va % 2 ^ t.log) t.w write
  | none =>
    if now then
      match s.walk c va with
      | .cause e => .cause e
      | .violation => .violation
      | .page pa log w =>
        if pa < hostBase then s.paCheck c (pa + va % 2 ^ log) w write
        else if !paOk pa then .cause Code.range else .ats va
    else .miss va

/-- R374: of what two pages of one access meet, the first is reported, but for an address range cause of the second,
which goes before a translation fault and a violation. -/
def Reach.orRange (first rest : Reach) : Reach :=
  match rest with
  | .cause e => if e = Code.range then rest else first
  | _ => first

/-- The bytes of an access in translated space, page by page (4 KiB steps hold whole pages of every size). -/
def State.translateRange (s : State) (c : Nat) (write now : Bool) : Nat → Nat → Nat → Reach
  | 0, _, _ => .at []
  | fuel + 1, va, n =>
    if n = 0 then .at []
    else
      let here := min n (4096 - va % 4096)
      match s.translate c va write now with
      | .at [(pa, _)] => match s.translateRange c write now fuel (va + here) (n - here) with
        | .at rest => .at ((pa, here) :: rest)
        | r => r
      | .at l => .at l
      | r => r.orRange (s.translateRange c write now fuel (va + here) (n - here))

/-- R44: the ranges of the device address space, the partner's scratchpad and its tiles each one of its own. -/
inductive Range where
  | scratch | tile | partner | partnerTile | ball | home | translated | control | hole
deriving DecidableEq, Repr

def rangeOf (c va : Nat) : Range :=
  if c = mgmtCore then
    if va < 0x100000 then .scratch
    else if 0x8000000 ≤ va ∧ va < 0x10000000 then .control
    else if 0x100000000 ≤ va ∧ va < 0x180000000 then .ball
    else if 0x400000000 ≤ va ∧ va < 2 ^ 57 then .translated
    else .hole
  else if va < 0x100000 then .scratch
  else if va < 0x200000 then .tile
  else if va < 0x300000 then .partner
  else if va < 0x400000 then .partnerTile
  else if va < 0x100000000 then .hole
  else if va < 0x180000000 then .ball
  else if va < 0x200000000 then .hole
  else if va < 0x3E0000000 then .home
  else if va < 0x400000000 then .hole
  else if va < 2 ^ 57 then .translated
  else .hole

/-- R49: what an access of the partner window reaches. -/
def State.reachPartner (s : State) (c va n : Nat) : Reach :=
  if (s.coreAt c).act then .at [(localKey (partnerOf c) (va - 0x200000), n)] else .cause Code.partner

/-- R51: core `c` may reach the Ballroom slice of every column that `n` bytes from offset `o` touch. -/
def State.ballSpan (s : State) (c o n : Nat) : Bool :=
  (List.range ((o + (n - 1)) / 2 ^ 20 - o / 2 ^ 20 + 1)).all fun j => s.ballOk c (gcolOf (o / 2 ^ 20 + j))

/-- R44, R45, R48, R51, R58, R59: what `n` bytes from an address reach for core `c`. -/
def State.reach (s : State) (c va n : Nat) (write now : Bool) : Reach :=
  let r := rangeOf c va
  if rangeOf c (va + (n - 1)) ≠ r then .cause Code.range
  else match r with
    | .hole => .cause Code.range
    | .scratch => .at [(localKey c va, n)]
    | .tile => if write then .cause Code.range else .at [(localKey c va, n)]
    | .partner => s.reachPartner c va n
    | .partnerTile => s.reachPartner c va n
    | .ball =>
      let o := va - 0x100000000
      if s.ballSpan c o n then .at [(ballBase + o, n)] else .violation
    | .home => .at [(hbmKey (homeStack c) (homeVault c) (va - 0x200000000), n)]
    | .control => .control (va - 0x8000000)
    | .translated => s.translateRange c write now (n / 4096 + 2) va n

/-- The bytes that chunks name. -/
def State.readChunks (s : State) : List (Nat × Nat) → List Byte
  | [] => []
  | (k, n) :: rest => s.read k n ++ State.readChunks s rest
/-- The keys of the bytes of chunks. -/
def chunkKeys (l : List (Nat × Nat)) : List Nat := l.flatMap fun x => (List.range x.2).map (x.1 + ·)
/-- R64: the memory in which the read event at key `k` of an access binds: at one of the moments that have come, or as it stands. -/
def State.moment (s : State) (l : List (Nat × Memory)) (k : Nat) : Memory :=
  match l with
  | [] => s.mem
  | (n, m) :: rest => ((m :: rest.map (·.2))[Config.eventMoment k n % (rest.length + 2)]?).getD s.mem
/-- R64, R76: what an engine or the sequencer reads now; of a repetition or unit whose reads have several moments, each 64-byte row as
it stands at one of them (log entry 12, DESIGN CHOICE). -/
def State.seen (s : State) (l : List (Nat × Nat)) : List Byte :=
  if s.view.isEmpty then s.readChunks l
  else (chunkKeys l).map fun k => (s.moment s.view (k / 64 * 64)).byte k
/-- Bytes written to chunks in order. -/
def State.storeChunks (s : State) : List (Nat × Nat) → List Byte → State
  | [], _ => s
  | (k, n) :: rest, bs => State.storeChunks (s.store k (bs.take n)) rest (bs.drop n)
def State.poisonedChunks (s : State) (l : List (Nat × Nat)) : Bool := l.any fun x => s.poisoned x.1 x.2

/-! ### Event records (R329, R373) -/

def eventRec (kind addr fid core slot agent : Nat) : EventRec :=
  BitVec.ofNat 256 (addr % 2 ^ 64 * 2 ^ 192 + fid % 2 ^ 16 * 2 ^ 176 + core % 2 ^ 11 * 2 ^ 165 + slot % 8 * 2 ^ 162 +
    agent % 8 * 2 ^ 159 + kind)

/-- R370: the management core writes chunks of unassigned vaults and slices under its own key: their 16-byte units. -/
def State.keyed (s : State) (l : List (Nat × Nat)) : State :=
  let units := (l.filter fun x => decide (x.1 < hostBase) || decide (ballBase ≤ x.1)).flatMap fun x =>
    (List.range ((x.1 + (x.2 - 1)) / 16 - x.1 / 16 + 1)).map fun i => 16 * (x.1 / 16 + i)
  { s with pkg := { s.pkg with mkeyed := s.pkg.mkeyed ++ units.filter fun k => !s.pkg.mkeyed.contains k } }

/-- A row that waits lies in one 64-byte row with some of these bytes. -/
def State.behindLate (s : State) (key n : Nat) : Bool :=
  s.late.any fun r => decide (r.key / 64 ≤ (key + (n - 1)) / 64) && decide (key / 64 ≤ (r.key + (r.bytes.length - 1)) / 64)
/-- R18, R342: a unit of the package writes bytes of one row for core `c`: at once, or once the bank is free; rows keep their
order. What would go to host memory after the partition's DMA has stopped is not written (R353). -/
def State.unitWrite (s : State) (c key : Nat) (bs : List Byte) : State :=
  let l := [(key, bs.length)]
  if s.dmaStopped c (placeOf c key) then s
  else if s.behindLate key bs.length || s.holdsAny true l || s.sleeping l then
    { s.touched l with late := s.late ++ [{ core := c, key := key, bytes := bs }] }
  else (if c = mgmtCore then (s.touched l).keyed l else s.touched l).store key bs
/-- The rows that wait, in order. -/
def State.flushLate (s : State) : State :=
  s.late.foldl (fun s r => s.unitWrite r.core r.key r.bytes) { s with late := [] }

/-- Write kept records of a ring while it has room and its bank is free (R18, R342): the state, PROD, and what stays kept. `own`
marks the management core's ring, which is written under its key (R370). -/
def flushRing (base : Nat) (cons : Byte) (own : Bool) : List EventRec → State → Byte → State × Byte × List EventRec
  | [], s, prod => (s, prod, [])
  | e :: rest, s, prod =>
    let key := base + 32 * prod.toNat
    if prod + 1 = cons then (s, prod, e :: rest)
    else if s.holdsAny true [(key, 32)] || s.sleeping [(key, 32)] then (s.touched [(key, 32)], prod, e :: rest)
    else
      let s := s.touched [(key, 32)]
      flushRing base cons own rest ((if own then s.keyed [(key, 32)] else s).write key (leBytes 32 e.toNat)) (prod + 1)

/-- The kept events of KIND 6 of a list. -/
def kind6 (l : List EventRec) : Nat := (l.filter fun e => e.setWidth 8 == 6#8).length

/-- An event is kept in order, unless it is of KIND 6 and 256 such wait. -/
def keepEvent (l : List EventRec) (e : EventRec) : List EventRec :=
  if e.setWidth 8 = 6#8 ∧ 256 ≤ kind6 l then l else l ++ [e]

/-- Write the kept events of a partition's ring while it has room. -/
def State.flushPart (s : State) (p : Nat) : State :=
  let x := s.part p
  let base := pteAddr x.evbase.toNat
  if x.tds == 3 && decide (hostBase ≤ base) then s
  else
    let r := flushRing base x.evcons false x.kept s x.evprod
    r.1.putPart p { x with evprod := r.2.1, kept := r.2.2 }

/-- The same for the management core's ring, which waits while its base is 0. -/
def State.flushMgmt (s : State) : State :=
  if s.pkg.mevbase = 0 then s
  else
    let r := flushRing (pteAddr s.pkg.mevbase.toNat) s.pkg.mevcons true s.pkg.mkept s s.pkg.mevprod
    { r.1 with pkg := { r.1.pkg with mevprod := r.2.1, mkept := r.2.2 } }
/-- The rings whose events wait. -/
def State.flushRings (s : State) : State :=
  let s := (List.range 16).foldl (fun s p => if (s.part p).kept.isEmpty then s else s.flushPart p) s
  if s.pkg.mkept.isEmpty then s else s.flushMgmt

/-- An event of a partition. -/
def State.emitPart (s : State) (p : Nat) (e : EventRec) : State :=
  (s.putPart p { s.part p with kept := keepEvent (s.part p).kept e }).flushPart p

/-- An event of a strand of core `c`. -/
def State.emit (s : State) (c slot kind addr fid agent : Nat) : State :=
  if c = mgmtCore then
    { s with pkg := { s.pkg with mkept := keepEvent s.pkg.mkept (eventRec kind addr fid 0 slot agent) } }.flushMgmt
  else match s.partOf c with
    | some p => s.emitPart p (eventRec kind addr fid c slot agent)
    | none => s

/-- R312: the first refusal of a full place writes a tag-spill event of the partition. -/
def State.spillEvent (s : State) (c : Nat) : State :=
  match s.partOf c with
  | none => s
  | some p => if (s.part p).spillFull then s
    else (s.putPart p { s.part p with spillFull := true }).emitPart p (eventRec 4 0 0 0 0 0)

/-! ### Bit errors (R365-R368) -/

/-- The address that an event gives for the row at a key: a PA, a Ballroom address, or an offset in its core. -/
def rowAddr (key : Nat) : Nat :=
  if key < ballBase then key
  else if key < localBase then 0x100000000 + (key - ballBase)
  else if key < imemBase then (key - localBase) % 2 ^ 22
  else if key < vregBase then (key - imemBase) % 2 ^ 17
  else (key - vregBase) % 2 ^ 18
/-- The core whose SRAM holds a key. -/
def sramCore (key : Nat) : Nat :=
  if key < localBase then (key - ballBase) / 2 ^ 20
  else if key < imemBase then (key - localBase) / 2 ^ 22
  else if key < vregBase then (key - imemBase) / 2 ^ 17
  else (key - vregBase) / 2 ^ 18

/-- The enabled partition whose vaults or Ballroom share a key lies in: its columns, and the slices that BALL grants (R349). -/
def State.partOfKey (s : State) (key : Nat) : Option Nat :=
  if key < hostBase then s.partOfCol (vaultCol (key / 2 ^ 37) (key / 2 ^ 33 % 16))
  else if key < localBase then
    (List.range 16).find? fun p => (s.part p).en && ((s.part p).cols ||| (s.part p).ball).getLsbD (gcolOf (sramCore key))
  else s.partOfCol (gcolOf (sramCore key))

/-- R365, R373: the row at a key is poisoned, with its event for the ring of its partition; in the management core's own memory,
and in a vault or slice that no partition has, for the management core's ring where an access of its strand `by_` met the error. -/
def State.poisonRow (s : State) (key : Nat) (by_ : Option Nat) : State :=
  let s : State := { s with poison := if s.poison.contains key then s.poison else key :: s.poison }
  let core := if key < hostBase then 0 else sramCore key
  if hostBase ≤ key ∧ core = mgmtCore then s.emit mgmtCore (by_.getD 0) 6 (rowAddr key) 0 0
  else match s.partOfKey key, by_ with
    | some p, _ => s.emitPart p (eventRec 6 (rowAddr key) 0 core 0 0)
    | none, some k => s.emit mgmtCore k 6 (rowAddr key) 0 0
    | none, none => s

/-- R367: the value of a counter that saturates at `max`. -/
def Count.value (x : Count) (max : Nat) : Nat := min (x.base + x.inc) max
def Count.up (x : Count) (n : Nat) : Count := { x with inc := x.inc + n }
/-- A W1C write of the clk goes before the increments of the clk. -/
def Count.clear (x : Count) (w : DWord) : Count := { x with base := (BitVec.ofNat 64 x.base &&& ~~~w).toNat }
/-- The clk ends. -/
def Count.settle (x : Count) (max : Nat) : Count := { base := x.value max, inc := 0 }

/-- R365, R366, R368: a bit error of a row is found: corrected, or the row poisoned; counted by its stack or its core. -/
def State.findFlaw (s : State) (key : Nat) (double : Bool) (by_ : Option Nat) : State :=
  let s : State := { s with flaws := s.flaws.filter fun f => f.1 != key }
  if key < hostBase then
    let h := key / 2 ^ 37
    let x := s.stack h
    if double then
      (s.putStack h { x with unc := if x.unc = 0xFFFF then x.unc else x.unc + 1 }).poisonRow key by_
    else s.putStack h { x with corr := if x.corr = 0xFFFFFF then x.corr else x.corr + 1 }
  else if double then (s.updCore (sramCore key) fun y => { y with unc := y.unc.up 1 }).poisonRow key by_
  else s.updCore (sramCore key) fun y => { y with corr := y.corr.up 1 }
/-- An access of strand `k` of core `c` to chunks finds the bit errors of their rows. -/
def State.meetFlaws (s : State) (c k : Nat) (l : List (Nat × Nat)) : State :=
  (s.flaws.filter fun f => l.any fun x => decide (f.1 < x.1 + x.2) && decide (x.1 < f.1 + 64)).foldl
    (fun s f => s.findFlaw f.1 f.2 (if c = mgmtCore then some k else none)) s

/-- What an access of strand `k` of core `c` does on its way to chunks: it wakes their pseudo-channels, and once none slept and no
refresh holds them it finds their bit errors (R18, R342, R366). -/
def State.arriveAt (s : State) (c k : Nat) (l : List (Nat × Nat)) : State :=
  if (l.any fun x => s.dmaStopped c (placeOf c x.1)) || s.holdsAny true l then s
  else if s.sleeping l then s.touched l
  else (s.touched l).meetFlaws c k l

/-! ### Trace records (R357-R359) -/

/-- The address of record `n` of a strand's trace buffer. -/
def TraceRegs.slotAddr (t : TraceRegs) (n : Nat) : Nat := t.base.toNat + 32 * (n % (128 * t.pages.toNat))

/-- log2 of the bytes that SIZE of an invalidation names; 57 covers the whole space. -/
def invLog (size : Nat) : Nat := if size = 0 then 12 else if size = 1 then 16 else if size = 2 then 21 else if size = 3 then 30 else 57
/-- log2 of the bytes of the page of `va`. -/
def State.pageLog (s : State) (c va : Nat) : Nat :=
  match s.tlbFind c va, s.walk c va with
  | some t, _ => t.log
  | none, .page _ log _ => log
  | none, _ => 12
/-- R327, R359: the page of `va` lies under an invalidation that has not completed. -/
def State.underInv (s : State) (c va : Nat) : Bool :=
  let under (reg : DWord) : Bool :=
    let log := invLog (reg.toNat / 2 ^ 60 % 8)
    let l := max (s.pageLog c va) log
    decide (57 ≤ log) || va / 2 ^ l == reg.toNat / 4096 % 2 ^ 45 * 4096 / 2 ^ l
  if c = mgmtCore then s.pkg.mtlbinvGo && under s.pkg.mtlbinv
  else match s.partOf c with
    | some p => (s.part p).tlbinvGo && under (s.part p).tlbinv
    | none => false

/-- Write one record of 32 bytes at index IDX, where its page is mapped in HBM and under no invalidation. -/
def State.traceTarget (s : State) (c : Nat) (t : TraceRegs) : Option Nat :=
  let va := t.slotAddr t.prod.toNat
  if s.underInv c va then none
  else match rangeOf c va, s.reach c va 32 true true with
    | .translated, .at [(k, _)] => if k < hostBase then some k else none
    | _, _ => none

/-- The first index of the next page of the buffer. -/
def TraceRegs.nextPage (t : TraceRegs) : Word := BitVec.ofNat 32 ((t.prod.toNat / 128 + 1) * 128)

/-- Words 0 and 1 of a record made at PTP time `at_`, then words 2 and 3. -/
def traceRec (c k : Nat) (t : TraceRegs) (at_ : BitVec 64) (type : Nat) (w2 w3 : DWord) : List Byte :=
  leBytes 8 at_.toNat ++
    leBytes 8 (type * 2 ^ 56 + (strandNumber c k).toNat * 2 ^ 32 + t.count.toNat) ++ leBytes 8 w2.toNat ++ leBytes 8 w3.toNat

/-- One record attempted, without the gap record. -/
def State.traceOne (s : State) (c : Nat) (k : Fin 9) (at_ : BitVec 64) (type : Nat) (w2 w3 : DWord) : State :=
  let t := (s.strandAt c k).trace
  match s.traceTarget c t with
  | some key =>
    (s.unitWrite c key (traceRec c k t at_ type w2 w3)).updAt c k fun x =>
      { x with trace := { t with prod := t.prod + 1, count := t.count + 1, gap := 0 } }
  | none =>
    s.updAt c k fun x =>
      { x with trace := { t with prod := t.nextPage, drop := if t.drop = 0xFFFFFFFF then t.drop else t.drop + 1,
                                 gap := t.gap + 1 } }

/-- The table entries that the walk for the next record of a strand reads. -/
def State.traceCells (s : State) (c : Nat) (t : TraceRegs) : List (Nat × Nat) :=
  let va := t.slotAddr t.prod.toNat
  if rangeOf c va = .translated && !s.underInv c va then s.tableCells c va 32 else []
/-- R359: a record, preceded by a gap record where records were dropped and the page is mapped again. -/
def State.traceNow (s : State) (c : Nat) (k : Fin 9) (at_ : BitVec 64) (type : Nat) (w2 w3 : DWord) : State :=
  let x := s.strandAt c k
  let s := s.arriveAt c k.val (s.traceCells c x.trace)
  let s := match s.traceTarget c x.trace with
    | some _ => if x.trace.gap = 0 then s else s.traceOne c k at_ 4 (x.trace.gap.setWidth 64) 0
    | none => s
  s.traceOne c k at_ type w2 w3
/-- Records of the strand wait, or the walk for its next one does (R18, R342). -/
def State.traceHeld (s : State) (c : Nat) (k : Fin 9) : Bool :=
  (s.lateTrace.any fun r => r.core == c && r.slot == k.val) || s.heldUp c (s.traceCells c (s.strandAt c k).trace)
/-- R359, R18, R342: a record of a strand, at once or once the rows of its table walk are free; records keep their order. -/
def State.traceRecord (s : State) (c : Nat) (k : Fin 9) (type : Nat) (w2 w3 : DWord) : State :=
  let x := s.strandAt c k
  if !x.trace.tre || x.st == .frozen || x.st == .parked then s
  else if s.traceHeld c k then
    let s := s.arriveAt c k.val (s.traceCells c x.trace)
    { s with lateTrace := s.lateTrace ++ [{ core := c, slot := k.val, ctx := x.tag.ctx, type := type, w2 := w2, w3 := w3, time := s.pkg.ptp }] }
  else s.traceNow c k s.pkg.ptp type w2 w3
/-- A record that has waited: written, or waiting on; a slot that has gone on to another context drops it. -/
def State.traceAgain (s : State) (r : LateTrace) : State :=
  let k := slotIx r.slot
  if (s.strandAt r.core k).tag.ctx ≠ r.ctx then s
  else if s.traceHeld r.core k then { s with lateTrace := s.lateTrace ++ [r] }
  else s.traceNow r.core k r.time r.type r.w2 r.w3
/-- The records that wait, in order. -/
def State.flushTrace (s : State) : State := s.lateTrace.foldl State.traceAgain { s with lateTrace := [] }

/-- R358: the record of a wait that has ended. `kind` 0 flag, 1 token, 2 full-empty; `agent` 0 SQ, 1 ME, 2 VE. -/
def State.traceWait (s : State) (c : Nat) (k : Fin 9) (kind agent num since : Nat) (setter : BitVec 16)
    (setAgent off : Nat) (ended : Bool) : State :=
  let t := (s.strandAt c k).trace
  let clks := min (s.clk - since) (2 ^ 32 - 1)
  if (t.wre && decide (max t.wmin.toNat 1 ≤ clks)) || !ended then
    s.traceRecord c k 1
      (BitVec.ofNat 64 (kind * 2 ^ 56 + agent * 2 ^ 53 + num * 2 ^ 32 + clks))
      (BitVec.ofNat 64 (setter.toNat * 2 ^ 48 + setAgent * 2 ^ 45 + off % 2 ^ 32))
  else s

/-! ### Registers of the strand (R141, R189, R364) -/

/-- A write to register `r` of one kind: it is live, its own pairing ends, copies of it become valid. -/
def Dead.write {w : Nat} (x : Dead w) (r : Nat) : Dead w :=
  { mask := x.mask &&& ~~~(1#w <<< r),
    dup := (x.dup.filter fun p => p.1 != r).map fun p => if p.2.1 = r then (p.1, p.2.1, true) else p }

/-- A dead register whose value nobody reads. -/
def Strand.isDead (x : Strand) (p : Nat × Nat) : Bool :=
  (p.1 == 0 && x.deadD.mask.getLsbD p.2) || (p.1 == 1 && x.deadA.mask.getLsbD p.2)
/-- A live register has a valid copy. -/
def Strand.hasCopy (x : Strand) (p : Nat × Nat) : Bool :=
  (if p.1 = 0 then x.deadD.dup else if p.1 = 1 then x.deadA.dup else []).any fun d => d.2.1 == p.2 && d.2.2
/-- R364: what leaves a slot is read with its errors: those with a valid copy are repaired and counted. -/
def State.mend (s : State) (c : Nat) (k : Fin 9) : State :=
  let x := s.strandAt c k
  let l := x.bad.filter fun p => x.hasCopy p && !x.isDead p
  if l.isEmpty then s
  else (s.updAt c k fun x => { x with bad := x.bad.filter fun p => !l.contains p }).updCore c fun y =>
    { y with repair := y.repair.up l.length }

/-- R295: the launch's work leaves the slot: its issue slots and engine-busy clocks of the window stay charged to the launch. -/
def State.spend (s : State) (c : Nat) (k : Fin 9) : State :=
  let x := s.strandAt c k
  match x.owner with
  | some l => if x.eff = Effort.none then s
    else { s with spent := s.spent ++ [(c, l, x.eff)] }.updAt c k fun x => { x with eff := Effort.none }
  | none => s

/-- A stored relation mentions a register (R110). -/
def StoreEntry.mentions (e : StoreEntry) (r : DReg) : Bool := e.args.any fun x => x == .reg r

/-- R113: mark pending every entry that mentions a register. -/
def markPending (store : List StoreEntry) (r : DReg) : List StoreEntry :=
  store.map fun e => if e.mentions r then { e with pending := true } else e

/-- R141: a replacing write to a domain register. -/
def Strand.setD (x : Strand) (r : DReg) (v : Dom) : Strand :=
  { x with d := x.d.set r.toNat v, deadD := x.deadD.write r.toNat, bad := x.bad.filter (· != (0, r.toNat)),
           rel := { x.rel with store := markPending x.rel.store r } }
/-- A write to an address register. -/
def Strand.setA (x : Strand) (r : AReg) (v : DWord) : Strand :=
  { x with a := x.a.set r.toNat v, deadA := x.deadA.write r.toNat, bad := x.bad.filter (· != (1, r.toNat)) }

/-- A read of a domain register; a dead one yields a free value in canonical form (R189, log entry 5, DESIGN CHOICE). -/
def State.rd (s : State) (r : DReg) : Dom :=
  if s.self.deadD.mask.getLsbD r.toNat then
    Dom.ofRaw (Config.freeDomLo r.toNat s.steps) (Config.freeDomHi r.toNat s.steps) (Config.freeDomMask r.toNat s.steps)
  else s.self.d[r.toNat]
/-- A read of an address register. -/
def State.ra (s : State) (r : AReg) : DWord :=
  if s.self.deadA.mask.getLsbD r.toNat then Config.freeAddr r.toNat s.steps else s.self.a[r.toNat]

/-! ### Going on, waiting -/

/-- R169: where execution goes after the word at `pc`, and the loop stack then. -/
def afterWord (pc : BitVec 17) : List LoopFrame → BitVec 17 × List LoopFrame
  | [] => (pc + 8, [])
  | f :: rest =>
    if f.last = pc then
      if 1 < f.left then (f.start, { f with left := f.left - 1 } :: rest) else afterWord pc rest
    else (pc + 8, f :: rest)

/-- The strand has issued its word and goes on with the next in sequence. -/
def Strand.retire (x : Strand) : Strand :=
  let n := afterWord x.pc x.loops
  { x with pc := n.1, loops := n.2, po := x.po + 1, st := .ready, wait := .none }

/-- The strand has issued its word and goes on at `pc`. -/
def Strand.jump (x : Strand) (pc : BitVec 17) : Strand :=
  { x with pc := pc, po := x.po + 1, st := .ready, wait := .none }

def State.retire (s : State) : State := s.upd Strand.retire
/-- The word has issued. -/
def State.done (s : State) : Out := .next s.retire

/-- R25: the strand stays at its word and waits; a wait that goes on keeps its place, also where the strand was READY
for it in vain. -/
def Strand.waitFor (x : Strand) (w : Wait) (step clk : Nat) : Strand :=
  if x.wait = w then { x with st := .waiting } else { x with st := .waiting, wait := w, since := step, sinceClk := clk }
/-- R23: the wait of a WAITING strand. A strand that became READY when its wait was met keeps the wait in its field until
its word issues, for its place among the waiters (R25) and its record (R358). -/
def Strand.waitNow (x : Strand) : Wait := if x.st = .waiting then x.wait else .none
def State.await (s : State) (w : Wait) : Out := .next (s.upd fun x => x.waitFor w s.steps s.clk)
/-- The word has issued and the strand waits for what it started. -/
def State.issuedWait (s : State) (w : Wait) : State := s.upd fun x => x.retire.waitFor w s.steps s.clk

/-! ### Taking a trap and returning from it (R42, R260, R305-R307) -/

/-- What a trap reports. `part` names a tile that it marks partial (R198). -/
structure Cause where
  code : BitVec 8
  arg : BitVec 8
  agent : BitVec 3
  addr : DWord
  seq : BitVec 16
  part : Option (BitVec 4)
deriving DecidableEq, Repr

/-- A cause at a sequencer instruction. -/
def Cause.plain (code : BitVec 8) : Cause := { code := code, arg := 0, agent := 0, addr := 0, seq := 0, part := none }
def Cause.addr' (code : BitVec 8) (a : Nat) : Cause := { Cause.plain code with addr := BitVec.ofNat 64 a }

/-- R306: the waits whose instruction has issued go on while a handler runs. -/
def Wait.issued : Wait → Bool
  | .accept => true
  | .reelPhase => true
  | .reelHeld => true
  | _ => false

/-- The state that RTT returns to. -/
def Strand.returnState (x : Strand) : SlotState × Wait :=
  match x.st with
  | .ending => (.ending, .none)
  | .waiting => if x.wait.issued || (x.wait == .lease && x.lease.pend) then (.waiting, x.wait) else (.ready, .none)
  | _ => (.ready, .none)

/-- What stands in the queues of a strand: what a cut set aside stands between what issued before it and the handler's own.
Their room, their heads, their overlaps and their drains are those of the whole (R42, R260). -/
def Strand.allQueued (x : Strand) : Queues :=
  match x.trap.aside with
  | some (q, _) =>
    let mix (old new : List QEntry) : List QEntry :=
      (new.filter fun e => decide (e.po < x.trap.cutPo)) ++ old ++ new.filter fun e => decide (x.trap.cutPo ≤ e.po)
    { x.q with me := q.me ++ x.q.me, ve := q.ve ++ x.q.ve, ce := q.ce ++ x.q.ce, fmt := q.fmt ++ x.q.fmt,
               ld := mix q.ld x.q.ld, st := mix q.st x.q.st }
  | none => x.q
/-- The entries of a load or store queue that a cut set aside. -/
def Strand.asideQ (x : Strand) (st : Bool) : List QEntry :=
  match x.trap.aside with
  | some (q, _) => if st then q.st else q.ld
  | none => []

/-- R306: a PACQ whose request is pending has issued. -/
def Strand.atPacq (x : Strand) : Bool := x.st == .waiting && x.wait == .lease && x.lease.pend && !x.lease.again
/-- A PACQ that has issued stands behind the strand, and the grant will not issue it again (R306). -/
def Strand.leavePacq (x : Strand) : Strand :=
  let n := if x.atPacq then afterWord x.pc x.loops else (x.pc, x.loops)
  { x with pc := n.1, loops := n.2, po := if x.atPacq then x.po + 1 else x.po, lease := { x.lease with left := x.lease.left || x.atPacq } }

/-- A translation cause of R324. -/
def isTranslation (code : BitVec 8) : Bool :=
  code == Code.notPresent || code == Code.permission || code == Code.tableError
/-- R326: a hold by a translation cause that the driver has refused. -/
def Held.refused : Held → Bool
  | .cause code _ => isTranslation code
  | _ => false
/-- R306, R307: an entry held at the cut for a cause that traps stays held until RTT, after which it issues again; one that the driver
has refused has its trap to come (R326). -/
def Held.atCut (h : Held) : Held :=
  match h with
  | .cause _ _ => if h.refused then h else .taken
  | _ => h
def Held.afterCut : Held → Held
  | .taken => .no
  | h => h
/-- R310: the entry waits on a fault, or has met one that trapped. -/
def Held.onFault : Held → Bool
  | .no => false
  | .walk => false
  | .ats _ => false
  | .wheel _ => false
  | _ => true
/-- R25: a TREL that waits for room in the timer wheel: since when. -/
def Held.wheelSince : Held → Option Nat
  | .wheel n => some n
  | _ => none
/-- An entry that goes on to issue: free, or waiting for room in the timer wheel. -/
def Held.free (h : Held) : Bool := h == .no || h.wheelSince.isSome
/-- A change of the hold of the head of a queue. -/
def holdHead (f : Held → Held) : List QEntry → List QEntry
  | [] => []
  | e :: l => { e with held := f e.held } :: l
/-- A change of the holds of all entries. -/
def holdAll (f : Held → Held) (l : List QEntry) : List QEntry := l.map fun e => { e with held := f e.held }
/-- An entry that a replay has still to issue again has issued before the cut, and goes on (R80). -/
def QEntry.goesOn (e : QEntry) : Bool := e.replay.isSome && e.held == .no

/-- R42: the strand's queues and cursors stand at the cut and are set aside; what a replay issues again has issued before. -/
def Strand.cutQueues (x : Strand) : Strand :=
  { x with
    trap := { x.trap with
      cut := true, cutPo := x.po
      aside := some ({ x.q with ld := holdHead Held.atCut (x.q.ld.filter fun e => !e.goesOn)
                                st := holdHead Held.atCut (x.q.st.filter fun e => !e.goesOn) }, x.curMe, x.curVe,
                     x.curCe.map fun u => { u with held := u.held.atCut }) }
    q := { x.q with me := [], ve := [], ce := [], fmt := [], ld := x.q.ld.filter QEntry.goesOn, st := x.q.st.filter QEntry.goesOn }
    curMe := none, curVe := none, curCe := none }

/-- R260: the strand enters handler mode with the return address `ret`; behind a PACQ that has issued it is the next word. -/
def Strand.enterTrap (x : Strand) (e : Cause) (ret : BitVec 17) : Strand :=
  let r := x.returnState
  let ret := if x.atPacq then x.leavePacq.pc else ret
  let y := x.leavePacq.cutQueues
  { y with
    trap := { y.trap with hm := true, ret := r.1, retWait := r.2, tpc := ret &&& 0x1FFF8, code := e.code, arg := e.arg,
                          agent := e.agent, tval := e.addr, tseq := e.seq, part := e.part.isSome,
                          ptile := e.part.getD 0 }
    pc := y.trap.tvec, st := .ready, wait := .none, got := none }

/-- Engine `e` of a core. -/
def Core.eng (x : Core) : Eng → EngState
  | .me => x.me
  | .ve => x.ve
  | .ce => x.ce
def Core.putEng (x : Core) (e : Eng) (v : EngState) : Core :=
  match e with
  | .me => { x with me := v }
  | .ve => { x with ve := v }
  | .ce => { x with ce := v }

/-- The engines that serve a slot serve no slot, but for the one whose entry has faulted, by its AGENT: a held faulting
entry blocks its engine (R27). -/
def Core.dropEnginesBut (x : Core) (k : Nat) (agent : BitVec 3) : Core :=
  let f (n : Nat) (e : EngState) : EngState :=
    if e.serving = some k ∧ agent.toNat ≠ n then { e with serving := none, apart := [] } else e
  { x with me := f 1 x.me, ve := f 2 x.ve, ce := f 3 x.ce }
def Core.dropEngines (x : Core) (k : Nat) : Core := x.dropEnginesBut k 0

/-- R23: a strand goes to FROZEN, its queues, cursors and record intact; the wait of a PARKED one tells READY from
WAITING. -/
def Strand.freeze (x : Strand) : Strand :=
  if x.st = .frozen then x
  else if x.st = .parked then { x with st := .frozen, back := .parked }
  else { x with st := .frozen, back := x.st, backWait := x.waitNow }
def State.freezeAt (s : State) (c : Nat) (k : Fin 9) : State :=
  (s.updAt c k Strand.freeze).updCore c fun y => y.dropEngines k.val

/-- R369: MCK stands at THR or above; 0 disables it. -/
def Partition.reached (x : Partition) : Bool := x.thr != 0 && decide (x.thr.toNat ≤ x.mck.toNat)
/-- R369: DEGR is set, with its event, where MCK has come to reach THR: it did not in the block `old`. -/
def State.degrade (s : State) (p : Nat) (old : Partition) : State :=
  let x := s.part p
  if x.reached && !old.reached && !x.degr then (s.putPart p { x with degr := true }).emitPart p (eventRec 6 0 0 0 0 0) else s
/-- R369: machine checks and poisoned-operand faults count for the partition, and may degrade it. -/
def State.countMck (s : State) (c : Nat) (code : BitVec 8) : State :=
  if code = Code.machine ∨ code = Code.poison then
    match s.partOf c with
    | none => s
    | some p =>
      let x := s.part p
      let n := if x.mck = 0xFFFF then x.mck else x.mck + 1
      (s.putPart p { x with mck := n }).degrade p x
  else s

/-- R367: UNC counts machine checks. -/
def State.countUnc (s : State) (c : Nat) (code : BitVec 8) : State :=
  if code = Code.machine then s.updCore c fun x => { x with unc := x.unc.up 1 } else s

/-- A pending lease request of a strand is dropped: a PACQ stopped at the cut is issued again, and the lease of one that a
trap has left behind is asked for again (R321). -/
def State.dropLeaseReq (s : State) (c : Nat) (k : Fin 9) : State :=
  if (s.strandAt c k).lease.pend then
    let g := s.seg (segOf c)
    let mine (r : LeaseReq) : Bool := r.core == c && r.slot == k.val
    let level := (g.reqs.find? mine).map (·.level)
    (s.putSeg (segOf c) { g with reqs := g.reqs.filter fun r => !mine r }).updAt c k fun x =>
      if x.lease.left then
        { x with lease := { x.lease with pend := false, left := false, again := true, level := level.getD x.lease.level } }
      else { x with lease := { x.lease with pend := false } }
  else s

/-- R260, R305, R306: strand `k` of core `c` takes a trap: in handler mode it freezes with a double-trap event,
otherwise it enters its handler. -/
def State.trapAt (s : State) (c : Nat) (k : Fin 9) (e : Cause) (ret : BitVec 17) : State :=
  let s := (s.countMck c e.code).countUnc c e.code
  let s := match e.part with
    | some t => s.updCore c fun x => { x with part := x.part ||| (1#16 <<< t.toNat) }
    | none => s
  if (s.strandAt c k).trap.hm then (s.freezeAt c k).emit c k.val 3 0 0 e.agent.toNat
  else (s.updAt c k fun x => x.enterTrap e ret).updCore c fun y => y.dropEnginesBut k.val e.agent

/-- A trap precise at the acting strand's word: SYS.TPC points at the word. -/
def State.trapHere (s : State) (code : BitVec 8) : Out := .next (s.trapAt s.core s.slot (Cause.plain code) s.self.pc)
/-- The same with a faulting address. -/
def State.trapAddr (s : State) (code : BitVec 8) (addr : DWord) : Out :=
  .next (s.trapAt s.core s.slot { Cause.plain code with addr := addr } s.self.pc)

/-- A cursor that a cut set aside goes on. -/
def Cursor.leaves (u : Option Cursor) : Option Cursor := u.map fun u => { u with held := u.held.afterCut }
/-- R306: RTT's restoration: the queues restart from the cut, the strand goes to its return state. -/
def Strand.leaveTrap (x : Strand) : Strand :=
  let y := match x.trap.aside with
    | some (_, m, v, c) =>
      { x with q := { x.allQueued with ld := holdAll Held.afterCut x.allQueued.ld, st := holdAll Held.afterCut x.allQueued.st }
               curMe := (Cursor.leaves m).orElse fun _ => x.curMe, curVe := (Cursor.leaves v).orElse fun _ => x.curVe
               curCe := (Cursor.leaves c).orElse fun _ => x.curCe }
    | none => x
  { y with
    trap := { y.trap with hm := false, cut := false, aside := none }
    pc := y.trap.tpc, po := y.po + 1, st := y.trap.ret, wait := y.trap.retWait }

/-- R330: the strand is frozen in place with VIOL, and the event names the address. -/
def State.violate (s : State) (c : Nat) (k : Fin 9) (addr agent : Nat) : State :=
  ((s.updAt c k fun x => { x.freeze with viol := true }).updCore c fun y => y.dropEngines k.val).emit c k.val 2 addr 0
    agent

/-- R341: a held alert traps strand 0 of the management core, unless the strand is in handler mode, DORMANT or ENDING. -/
def State.deliverAlert (s : State) : State :=
  let x := s.strandAt mgmtCore 0
  if s.pkg.alertHeld && (x.st == .ready || x.st == .waiting) && !x.trap.hm then
    { s with pkg := { s.pkg with alertHeld := false } }.trapAt mgmtCore 0 (Cause.plain Code.thermal) x.pc
  else s
/-- The alert is raised; alerts that fall while one is held merge into it. -/
def State.raiseAlert (s : State) : State := { s with pkg := { s.pkg with alertHeld := true } }.deliverAlert

end Sys2Proof.Machine
end

