-- ==== Sys2Proof/Machine/Descriptor.lean ====
section
/-! DEFINITION. The descriptors of near-memory entries, exact cells, and write events (R54, R55, R64, R194, R214, R215, R219, R220). -/
namespace Sys2Proof.Machine

/-! ### Descriptors (R214, R215) -/

inductive NmKind where
  | nmv | pks | pkg | pka
deriving DecidableEq, Repr

def nmKind : Instr → Option NmKind
  | .nmv _ => some .nmv
  | .pks _ => some .pks
  | .pkg _ => some .pkg
  | .pka _ => some .pka
  | _ => none

namespace Nm
def field (d lo w : Nat) : Nat := d / 2 ^ lo % 2 ^ w
def row0 (d : Nat) : Nat := field d 448 32
def n2 (d : Nat) : Nat := field d 416 32
def n1 (d : Nat) : Nat := field d 384 32
def wid (d : Nat) : Nat := field d 368 16
def kc (d : Nat) : Nat := field d 352 16
def pitch (d : Nat) : Nat := field d 320 32
def addr (d i : Nat) : Nat := field d (64 + 64 * i) 64
def tf (d : Nat) : Nat := field d 28 4
def sc (d : Nat) : Nat := field d 26 2
def om (d : Nat) : Bool := d.testBit 24
def fn (d : Nat) : BitVec 8 := BitVec.ofNat 8 (field d 10 8)
def setf (d : Nat) : Bool := d.testBit 9
/-- The table's format: its code, block scales, block length. A descriptor has no SV field: an E2M1 table is decoded with SV = 0, which
R216 does not say (log entry 85, DESIGN CHOICE). -/
def fmt (d : Nat) : Fmt :=
  { Fmt.unpack 0 with af := tf d, sc := sc d, bk := if d.testBit 25 then 32 else 16 }
def elemBytes (d : Nat) : Nat := (wid d * fmtWidth (tf d) + 7) / 8
/-- Elements, then scale entries. -/
def rowBytes (d : Nat) : Nat := elemBytes d + (if (fmt d).scaled (tf d) then 2 * (wid d / (fmt d).bk) else 0)
def between (lo x hi : Nat) : Bool := decide (lo ≤ x) && decide (x ≤ hi)

/-- R215: the fields and limits of each form, but for its addresses. -/
def fieldsOk (k : NmKind) (d : Nat) : Bool :=
  field d 480 32 == 0 && field d 32 32 == 0 && field d 18 6 == 0 && field d 0 9 == 0 && decide (tf d < 8) &&
    decide (rowBytes d ≤ pitch d) &&
    (match k with
      | .nmv => between 1 (n1 d) (2 ^ 24) && n2 d == 0 && between 1 (wid d) 16384 && kc d == 0 && row0 d == 0 && addr d 3 == 0 &&
          (sc d == 0 || (sc d == 2 && wid d % (fmt d).bk == 0))
      | .pks => between 1 (n1 d) 32768 && between 1 (n2 d) 256 && between 1 (wid d) 256 && between 1 (kc d) 32 &&
          decide (kc d ≤ n1 d) && (tf d == 0 || tf d == 1 || tf d == 3 || tf d == 4) && sc d == 0 && !d.testBit 25 &&
          row0 d == 0 && !om d
      | .pkg => between 1 (n1 d) (2 ^ 30) && between 1 (n2 d) 256 && between 1 (wid d) 4096 && between 1 (kc d) 32 &&
          decide (tf d ≤ 1) && sc d == 0 && !d.testBit 25 && decide (row0 d < 2 ^ 30)
      | .pka => between 1 (n1 d) (2 ^ 30) && between 1 (n2 d) 256 && between 1 (wid d) 4096 && between 1 (kc d) 32 &&
          tf d == 0 && sc d == 0 && !d.testBit 25 && decide (row0 d < 2 ^ 30) && !om d && addr d 0 % 64 == 0 &&
          pitch d % 64 == 0)

/-- Bytes of the table. -/
def tableBytes (d : Nat) : Nat := pitch d * (n1 d - 1) + rowBytes d
/-- The tables: addresses and lengths. -/
def tables (k : NmKind) (d : Nat) : List (Nat × Nat) :=
  match k with
  | .pks => [(addr d 0, tableBytes d), (addr d 1, tableBytes d)]
  | _ => [(addr d 0, tableBytes d)]
/-- The inputs in the own scratchpad. A candidate record counts with all its 256 bytes, for its place, for poison and for what it
overlaps, although the slots from k on, and for PKG and PKA the scores, are not used: R215 and R220 do not say which bytes are read
(log entry 83, DESIGN CHOICE). -/
def inputs (k : NmKind) (d : Nat) : List (Nat × Nat) :=
  match k with
  | .nmv => [(addr d 1, 4 * wid d)]
  | .pks => [(addr d 2, 8 * wid d * n2 d)]
  | .pkg => [(addr d 1, 256 * n2 d), (addr d 2, 4 * n2 d * kc d)]
  | .pka => [(addr d 1, 256 * n2 d), (addr d 2, 4 * n2 d * kc d), (addr d 3, 4 * n2 d * wid d)]
/-- The output: its address, the count of its results, and the bytes of each. -/
def output (k : NmKind) (d : Nat) : Option (Nat × Nat × Nat) :=
  let cell := if om d then 64 else 4
  match k with
  | .nmv => some (addr d 2, n1 d, cell)
  | .pks => some (addr d 3, n2 d, 256)
  | .pkg => some (addr d 3, n2 d * wid d, cell)
  | .pka => none
/-- Every byte in one range of the device address space. -/
def inRange (c : Nat) (r : Range) (a n : Nat) : Bool := rangeOf c a == r && rangeOf c (a + (n - 1)) == r
/-- R215: the places of the addresses. -/
def placesOk (c : Nat) (k : NmKind) (d : Nat) : Bool :=
  (tables k d).all (fun t => inRange c .translated t.1 t.2) && (inputs k d).all (fun t => inRange c .scratch t.1 t.2) &&
    (match output k d with
      | none => true
      | some (a, n, w) =>
        if w = 64 then inRange c .ball a (64 * n) && a % 64 == 0
        else if w = 256 then inRange c .scratch a (256 * n)
        else inRange c .scratch a (4 * n) || inRange c .ball a (4 * n))
/-- R220: the class. -/
def tagged (k : NmKind) (d : Nat) : Bool :=
  match k with
  | .nmv => om d
  | .pkg => om d
  | .pks => false
  | .pka => true
end Nm

/-! ### Exact cells (R54, R55) -/

/-- FAddX of a cell's 64 bytes, as a number. -/
def faddX (cell : Nat) (x : Word) : Nat :=
  let v := BitVec.ofNat 512 cell
  let set (b : Nat) : Nat := (v ||| (1#512 <<< b)).toNat
  match ofF32 x with
  | .nan => set 322
  | .inf n => if n then set 321 else set 320
  | .fin n m e =>
    if v.getLsbD 322 || v.getLsbD 321 || v.getLsbD 320 then cell
    else
      let t : Int := (v.extractLsb' 0 320).toInt + Ext.units (-160) (.fin n m e)
      if 2 ^ 319 ≤ t then set 320
      else if t < -(2 ^ 319) then set 321
      else cell / 2 ^ 320 * 2 ^ 320 + (BitVec.ofInt 320 t).toNat

/-- ReadCell of a cell's 64 bytes. -/
def readCell (cell : Nat) : Word :=
  let v := BitVec.ofNat 512 cell
  if v.getLsbD 322 || (v.getLsbD 320 && v.getLsbD 321) then 0x7FC00000
  else if v.getLsbD 320 then 0x7F800000
  else if v.getLsbD 321 then 0xFF800000
  else
    let t := (v.extractLsb' 0 320).toInt
    if t = 0 then 0 else toF32 (Ext.ofUnits (-160) t)

/-! ### The table rows that an entry reads (R216-R219, R331) -/

/-- The chunks of `n` bytes from offset `off` of an area. -/
def chunkSlice : List (Nat × Nat) → Nat → Nat → List (Nat × Nat)
  | [], _, _ => []
  | (k, len) :: rest, off, n =>
    if n = 0 then []
    else if len ≤ off then chunkSlice rest (off - len) n
    else (k + off, min (len - off) n) :: chunkSlice rest 0 (n - min (len - off) n)
namespace Nm
/-- The rows of a value table that a query's candidates name within the rows held. -/
def heldRows (d : Nat) (inp : List Byte) (q : Nat) : List Nat :=
  (((List.range (kc d)).map fun t => leNat ((inp.drop (256 * q + 4 * t)).take 4)).filter fun r =>
    decide (row0 d ≤ r) && decide (r < row0 d + n1 d)).map (· - row0 d)
/-- The rows that an entry reads of its tables: offsets in their bytes, one table behind the other. -/
def rowsAt (k : NmKind) (d : Nat) (inp : List Byte) : List Nat :=
  match k with
  | .nmv => (List.range (n1 d)).map (pitch d * ·)
  | .pks => (List.range (n1 d)).flatMap fun r => [pitch d * r, tableBytes d + pitch d * r]
  | _ => ((List.range (n2 d)).flatMap (heldRows d inp)).map (pitch d * ·)
end Nm
/-- The bytes of memory that an access reads or writes at its place: of a near-memory entry, the rows of its tables. -/
def Flight.reached (f : Flight) : List (Nat × Nat) :=
  match nmKind f.e.i with
  | some k =>
    let d := leNat (f.e.data.take 64)
    (Nm.rowsAt k d (f.e.data.drop 64)).flatMap fun o => chunkSlice f.ra o (Nm.rowBytes d)
  | none => f.ra

/-! ### Write events (R64, R219) -/

def Put.key : Put → Nat
  | .bytes k _ => k
  | .add k _ => k
  | .fma k _ _ => k
/-- R219: one update of element `g.2` of the row at a key. -/
def State.fma1 (s : State) (key : Nat) (w : Word) (g : Word × Nat) : State :=
  let k := key + 4 * g.2
  s.store k (leBytes 4 (toF32 (Ext.sum [ofF32 (BitVec.ofNat 32 (s.readNat k 4)), (ofF32 w).mul (ofF32 g.1)])).toNat)
/-- One write event is performed. What it reaches in a live reel cell or a poisoned row raises nothing (log entry 84, DESIGN
CHOICE). -/
def State.put (s : State) : Put → State
  | .bytes k bs => s.store k bs
  | .add k v => s.store k (leBytes 64 (faddX (s.readNat k 64) v))
  | .fma k w gs => gs.zipIdx.foldl (State.fma1 · k w ·) s
def State.putAll (s : State) (l : List Put) : State := l.foldl State.put s
/-- The write events that may come next: those to one row keep their order. -/
def frontPuts (seen : List Nat) : List Put → List Put
  | [] => []
  | p :: l => if seen.contains p.key then frontPuts seen l else p :: frontPuts (p.key :: seen) l
/-- The write event that model step `n` performs. -/
def nextPut (l : List Put) (n : Nat) : Option Put :=
  let f := frontPuts [] l
  f[Config.eventMoment 0 n % (f.length + (if f.isEmpty then 1 else 0))]?

end Sys2Proof.Machine
end

