-- ==== Sys2Proof/Machine/Operands.lean ====
section
/-! DEFINITION. Every operand form of the sequencer words (R119, R140, R160, R163, R165) and what an entry of a load or
store queue touches. -/
namespace Sys2Proof

/-- Bytes of a plain width (R125). -/
def Width.bytes : Width → Nat
  | .w8 => 1
  | .w16 => 2
  | .w32 => 4
  | .w64 => 8
def AForm.bytes : AForm → Nat
  | .s _ _ _ => 4
  | .a _ _ => 8
def CasForm.bytes : CasForm → Nat
  | .s _ _ _ _ => 4
  | .a _ _ _ => 8

/-- R165: the width of an atomic. -/
def Instr.atomBytes : Instr → Option Nat
  | .atomAdd f _ => some f.bytes
  | .atomMin f _ => some f.bytes
  | .atomMax f _ => some f.bytes
  | .atomAnd f _ => some f.bytes
  | .atomOr f _ => some f.bytes
  | .atomXor f _ => some f.bytes
  | .atomXchg f _ => some f.bytes
  | .atomCas f _ => some f.bytes
  | _ => none

/-- The operands of a relation, DST first (R107, R145). -/
def Src2.opds (d : DReg) : Src2 → List Machine.Opd
  | .reg a b => [.reg d, .reg a, .reg b]
  | .lit2 a l => [.reg d, .reg a, .lit l]
  | .lit1 l b => [.reg d, .lit l, .reg b]
end Sys2Proof

namespace Sys2Proof.Machine

/-- R119: the domains of two sources. -/
def State.src1 (s : State) : Src2 → Dom
  | .reg a _ => s.rd a
  | .lit2 a _ => s.rd a
  | .lit1 l _ => Dom.single l
def State.src2 (s : State) : Src2 → Dom
  | .reg _ b => s.rd b
  | .lit2 _ l => Dom.single l
  | .lit1 _ b => s.rd b
/-- A domain source SRC2. -/
def State.srcV (s : State) : SrcV → Dom
  | .reg b => s.rd b
  | .lit l => Dom.single l
/-- An address source SRC2; a literal is sign-extended. -/
def State.srcA (s : State) : SrcA → DWord
  | .reg b => s.ra b
  | .lit l => l.signExtend 64

/-- R140: go on with the value of a source, or take the indeterminate-source trap. -/
def State.withVal (s : State) (d : Dom) (k : Word → Out) : Out :=
  match d.val with
  | some v => k v
  | none => s.trapHere Code.indeterminate
/-- The values of two sources. -/
def State.withVals (s : State) (a b : Dom) (k : Word → Word → Out) : Out :=
  s.withVal a fun x => s.withVal b fun y => k x y

/-- R141: the word replaces a domain register and has issued. -/
def State.putD (s : State) (r : DReg) (v : Dom) : Out := .next (s.upd fun x => (x.setD r v).retire)
/-- The word replaces an address register and has issued. -/
def State.putA (s : State) (r : AReg) (v : DWord) : Out := .next (s.upd fun x => (x.setA r v).retire)

/-- R160: the effective address of LD, ST and PREF. -/
def State.ea (s : State) (base : AReg) (off : BitVec 20) : DWord := s.ra base + off.signExtend 64

/-- R68: how many bytes from its address an entry reads or writes at its place. A deque operation counts with its header and all the
4,095 entries that CAP may give: the spec does not say what it overlaps before its bank has read CAP (log entry 80, DESIGN CHOICE). -/
def QEntry.span (e : QEntry) : Nat :=
  match e.i with
  | .ld w _ _ _ _ => w.bytes
  | .ldWcell _ _ _ => 64
  | .pref _ _ => 1
  | .st w _ _ _ => w.bytes
  | .rowUpdate _ _ _ _ => 64
  | .atomFaddx _ _ => 64
  | .dqPush _ _ _ => 16 + 8 * 4095
  | .dqPop _ _ _ => 16 + 8 * 4095
  | .dqSteal _ _ _ => 16 + 8 * 4095
  | .reelj _ => 16
  | .reell _ => 16
  | .reels _ => 16
  | .send _ _ _ _ => e.c.toNat % 65536
  | .trel _ _ => 32
  | .nmv _ => 64
  | .pks _ => 64
  | .pkg _ => 64
  | .pka _ => 64
  | i => i.atomBytes.getD 0

/-- Two lists of chunks share a byte. -/
def chunksMeet (a b : List (Nat × Nat)) : Bool :=
  a.any fun x => b.any fun y => decide (x.1 < y.1 + y.2) && decide (y.1 < x.1 + x.2)

/-- `n` bytes at a scratchpad or Ballroom address, as keys; none elsewhere. -/
def plainKeys (c a n : Nat) : List (Nat × Nat) :=
  match rangeOf c a with
  | .scratch => [(localKey c a, n)]
  | .ball => [(ballBase + (a - 0x100000000), n)]
  | _ => []

/-- The bytes at an entry's address, as keys; none where it faults. -/
def State.atAddress (s : State) (c : Nat) (e : QEntry) : List (Nat × Nat) :=
  if e.span = 0 then []
  else match s.reach c e.ea.toNat e.span false true with
    | .at l => l
    | .control o => [(2 ^ 57 + o, e.span)]
    | _ => match s.reach c e.ea.toNat 1 false true with
      | .at [(k, _)] => [(k, e.span)]
      | _ => []

/-- R156, R220: an entry that stands before this one in its store queue may write its descriptor. -/
def State.descriptorOpen (s : State) (c : Nat) (e : QEntry) : Bool :=
  (List.range 8).any fun k =>
    let q := ((s.coreAt c).strands[k % 9]'(Nat.mod_lt _ (by decide))).allQueued.st
    q.contains e && q.any fun o => decide (o.po < e.po) && ((nmKind o.i).isSome || chunksMeet (plainKeys c e.ea.toNat 64) (s.atAddress c o))

/-- Bytes that an entry reads or writes beside those at its address: the operand row of a row update, the inputs and the
output of a near-memory entry, which reads its descriptor at its issue: one that may still change names any byte. -/
def State.besides (s : State) (c : Nat) (e : QEntry) : List (Nat × Nat) :=
  match e.i, nmKind e.i with
  | .rowUpdate _ _ _ _, _ => plainKeys c e.v.toNat 64
  | _, some k =>
    let d := s.readNat (localKey c e.ea.toNat) 64
    if s.descriptorOpen c e then [(localKey c 0, 2 ^ 20), (ballBase, 2 ^ 31)]
    else if e.ea.toNat % 64 = 0 ∧ rangeOf c e.ea.toNat = .scratch ∧ Nm.fieldsOk k d then
      (Nm.inputs k d).flatMap (fun x => plainKeys c x.1 x.2) ++
        (match Nm.output k d with
          | some (a, n, w) => plainKeys c a (n * w)
          | none => [])
    else []
  | _, none => []

/-- The bytes an entry of core `c` touches, as keys. -/
def State.touches (s : State) (c : Nat) (e : QEntry) : List (Nat × Nat) := s.atAddress c e ++ s.besides c e

end Sys2Proof.Machine
end

