-- ==== Sys2Proof/Machine/Flags.lean ====
section
/-! DEFINITION. Every flag computation of the spec: the flags F0-F255 with their hand-over (R175), token counters (R28),
full-empty bits (R29), compare results (R146), and the status fields that are computed when read (R117, R188). -/
namespace Sys2Proof.Machine

/-- R146: a comparison's result as a domain. -/
def boolDom (b : Bool) : Dom := Dom.single (if b then 1 else 0)

/-! ### Flags F0-F255 (R175) -/

def Core.flag (x : Core) (n : BitVec 8) : Bool := x.flags.getLsbD n.toNat
def Core.putFlag (x : Core) (n : BitVec 8) (v : Bool) : Core :=
  { x with flags := if v then x.flags ||| (1#256 <<< n.toNat) else x.flags &&& ~~~(1#256 <<< n.toNat) }

/-- R175: a set of flag `n` in the present clk, where it happened: whether the flag read 1 before. -/
def Core.setIn (x : Core) (clk : Nat) (n : BitVec 8) : Option Bool :=
  if x.flagClk = clk then (x.flagSets.find? fun p => p.1 == n).map (·.2) else none
/-- A flag reads 1, from the present clk on. -/
def Core.raiseFlag (x : Core) (clk : Nat) (n : BitVec 8) : Core :=
  let old := if x.flagClk = clk then x.flagSets else []
  { x.putFlag n true with
    flagClk := clk, flagSets := if old.any fun p => p.1 == n then old else (n, x.flag n) :: old }
/-- R175: a clear of a flag; in one clock it is applied before a set. -/
def Core.clearFlag (x : Core) (clk : Nat) (n : BitVec 8) : Core :=
  if (x.setIn clk n).isSome then x else x.putFlag n false
/-- R175: a WAITF takes a flag; one that read 1 and was set again in this clock reads 1 again. -/
def Core.takeFlag (x : Core) (clk : Nat) (n : BitVec 8) : Core :=
  if x.setIn clk n = some true then x else x.putFlag n false

/-- The slots of a core whose strand waits as `p` says, with the step at which each began. -/
def Core.waiters (x : Core) (p : Strand → Bool) : List (Nat × Nat) :=
  (List.range 8).filterMap fun k =>
    let y := x.strands[k % 9]'(Nat.mod_lt _ (by decide))
    if p y then some (k, y.since) else none

/-- The first of a list by the second component. -/
def earliest : List (Nat × Nat) → Option (Nat × Nat)
  | [] => none
  | a :: rest => match earliest rest with
    | none => some a
    | some b => if b.2 < a.2 then some b else some a

/-- The strand that began first to wait for a flag. -/
def Core.flagWaiter (x : Core) (n : BitVec 8) : Option Nat :=
  (earliest (x.waiters fun y => (y.st == .waiting || y.st == .ready) && y.wait == .flag n.toNat)).map (·.1)

/-- R173: a flag set wakes the strands at IDLE. -/
def Core.wakeIdle (x : Core) : Core :=
  { x with strands := x.strands.map fun y =>
      if y.st = .waiting ∧ y.wait = .idle then { y with st := .ready, wait := .none }
      else y }

/-- R175: a set of a flag by `setter` and its agent: the strand that waits longest consumes it, else it reads 1. -/
def State.setFlag (s : State) (c : Nat) (n : BitVec 8) (setter : BitVec 16) (agent : Nat) : State :=
  let s := s.updCore c Core.wakeIdle
  match (s.coreAt c).flagWaiter n with
  | some k =>
    let y := s.strandAt c (slotIx k)
    (s.updAt c (slotIx k) Strand.retire).traceWait c (slotIx k) 0 0 n.toNat y.sinceClk setter agent y.pc.toNat true
  | none => s.updCore c fun x => { x.raiseFlag s.clk n with flagBy := SMap.put x.flagBy n.toNat (setter, agent) }

/-! ### Token counters (R28) -/

/-- The agents in the order SQ, ME, VE, CE. -/
def engIx : Eng → Nat
  | .me => 1
  | .ve => 2
  | .ce => 3
/-- The counter from agent `a` to agent `b`. -/
def tokenIx (a b : Nat) : Nat := 3 * a + (if a < b then b - 1 else b)
/-- The peers of an engine, in the order of the bits of POP and PUSH from the most significant. -/
def peers (e : Eng) : List Nat := (List.range 4).filter (· != engIx e)
/-- The counters that POP or PUSH names. -/
def popTokens (e : Eng) (f : BitVec 3) : List Nat :=
  ((peers e).zip [2, 1, 0]).filterMap fun p => if f.getLsbD p.2 then some (tokenIx p.1 (engIx e)) else none
def pushTokens (e : Eng) (f : BitVec 3) : List Nat :=
  ((peers e).zip [2, 1, 0]).filterMap fun p => if f.getLsbD p.2 then some (tokenIx (engIx e) p.1) else none

def Strand.token (x : Strand) (i : Nat) : BitVec 8 := x.tokens[i % 12]'(Nat.mod_lt _ (by decide))
def Strand.putToken (x : Strand) (i : Nat) (v : BitVec 8) : Strand :=
  { x with tokens := x.tokens.set (i % 12) v (Nat.mod_lt _ (by decide)), bad := x.bad.filter (· != (2, i)) }
/-- Every counter of a list is nonzero; every one is below 255. -/
def Strand.canPop (x : Strand) (l : List Nat) : Bool := l.all fun i => x.token i != 0
def Strand.canPush (x : Strand) (l : List Nat) : Bool := l.all fun i => x.token i != 255
/-- R364: a parity error stands in a counter of a list. -/
def Strand.badToken (x : Strand) (l : List Nat) : Bool := l.any fun i => x.bad.contains (2, i)
def Strand.pop (x : Strand) (l : List Nat) : Strand := l.foldl (fun y i => y.putToken i (y.token i - 1)) x
def Strand.push (x : Strand) (l : List Nat) : Strand := l.foldl (fun y i => y.putToken i (y.token i + 1)) x

/-! ### Status fields computed when read (R117, R188) -/

/-- PSTAT: CKD, SH, PND, PXF. -/
def Rel.pstat (r : Rel) : Word :=
  BitVec.ofNat 32 (r.ckd % 256 * 2 ^ 16 + r.store.length % 512 * 2 ^ 7 +
    (if r.store.any (·.pending) then 4 else 0) + (if r.pxf then 2 else 0))

end Sys2Proof.Machine
end

