-- ==== Sys2Proof/Machine/AddressForms.lean ====
section
/-! DEFINITION. Address forms (R157, R158). -/
namespace Sys2Proof.Machine

def execAadd (d a : AReg) (v : SrcV) (s : State) : Out :=
  s.withVal (s.srcV v) fun w => s.putA d (s.ra a + w.signExtend 64)
def execAsub (d a : AReg) (v : SrcV) (s : State) : Out :=
  s.withVal (s.srcV v) fun w => s.putA d (s.ra a - w.signExtend 64)
/-- A shift above 6 is illegal (R143). -/
def execAscl (d a : AReg) (v : DReg) (sh : BitVec 3) (s : State) : Out :=
  if sh.toNat ≤ 6 then s.withVal (s.rd v) fun w => s.putA d (s.ra a + w.signExtend 64 <<< sh.toNat)
  else s.trapHere Code.illegal
def execAlo (d : DReg) (a : AReg) (s : State) : Out := s.putD d (Dom.single ((s.ra a).extractLsb' 0 32))
def execAhi (d : DReg) (a : AReg) (s : State) : Out := s.putD d (Dom.single ((s.ra a).extractLsb' 32 32))
def execAmov (d a : AReg) (s : State) : Out := s.putA d (s.ra a)
def execAmovL2 (d : AReg) (l : Word) (s : State) : Out := s.putA d (l.signExtend 64)
def execAfromd (d : AReg) (v : DReg) (s : State) : Out := s.withVal (s.rd v) fun w => s.putA d (w.signExtend 64)
/-- R158: an address outside 32 signed bits raises the integer-overflow trap. -/
def execDfroma (d : DReg) (a : AReg) (s : State) : Out :=
  let w := s.ra a
  if ((w.setWidth 32 : Word).signExtend 64) = w then s.putD d (Dom.single (w.setWidth 32))
  else s.trapHere Code.overflow
def State.acmp (s : State) (f : DWord → DWord → Bool) (d : DReg) (a b : AReg) : Out :=
  s.putD d (boolDom (f (s.ra a) (s.ra b)))
def execAcmpEq (d : DReg) (a b : AReg) (s : State) : Out := s.acmp (fun x y => x == y) d a b
def execAcmpNe (d : DReg) (a b : AReg) (s : State) : Out := s.acmp (fun x y => x != y) d a b
def execAcmpLt (d : DReg) (a b : AReg) (s : State) : Out := s.acmp (fun x y => decide (x.toNat < y.toNat)) d a b
def execAcmpLe (d : DReg) (a b : AReg) (s : State) : Out := s.acmp (fun x y => decide (x.toNat ≤ y.toNat)) d a b

end Sys2Proof.Machine
end

