-- ==== Sys2Proof/Machine/Propagate.lean ====
section
/-! DEFINITION. The constraint store, propagation, failure and checkpoints (R110-R116, R152-R156). -/
namespace Sys2Proof.Machine

/-- R111: Wake(x) from constraint `c`: the entries that mention `r`, not `c` and not queued, in store order. -/
def wake (store : List StoreEntry) (c : Option Nat) (q : List Nat) (r : DReg) : List Nat :=
  q ++ (List.range store.length).filter fun j =>
    (match store[j]? with
      | some e => e.mentions r
      | none => false) && c != some j && !q.contains j

/-- R112: the wake queue served within a budget: the file, the registers narrowed, and the entries left over. -/
def serve (store : List StoreEntry) : Nat → List Nat → DFile → List DReg → Option (DFile × List DReg × List Nat)
  | _, [], f, ch => some (f, ch, [])
  | 0, q, f, ch => some (f, ch, q)
  | n + 1, c :: q, f, ch =>
    match store[c]? with
    | none => serve store n q f ch
    | some e => match runFix e f with
      | none => none
      | some (g, new) => serve store n (new.foldl (wake store (some c)) q) g (ch ++ new)

/-- The pending entries of a store, in store order. -/
def pendingOf (store : List StoreEntry) : List Nat :=
  (List.range store.length).filter fun j => match store[j]? with
    | some e => e.pending
    | none => false
/-- A store whose pending marks are exactly the entries of a list. -/
def withPending (store : List StoreEntry) (q : List Nat) : List StoreEntry :=
  (store.zip (List.range store.length)).map fun p => { p.1 with pending := q.contains p.2 }

/-- What one propagation leaves: the file, the registers narrowed, the store, and whether the budget stopped it. -/
structure Propagated where
  file : DFile
  changed : List DReg
  store : List StoreEntry
  stopped : Bool
deriving DecidableEq, Repr

/-- R112: Propagate, with the new relation `c0` or an own narrowing (R152); `first` is
what the new relation or the own narrowing gave. -/
def propagate (store : List StoreEntry) (budget : Nat) (c0 : Option StoreEntry)
    (first : Option (DFile × List DReg)) : Option Propagated :=
  let all := match c0 with
    | some e => store ++ [e]
    | none => store
  let own := match c0 with
    | some _ => some store.length
    | none => none
  match first with
  | none => none
  | some (g, ch) =>
    match serve all budget (ch.foldl (wake all own) (pendingOf store)) g ch with
    | none => none
    | some (h, ch, left) => some { file := h, changed := ch, store := withPending all left, stopped := !left.isEmpty }

/-- The file as a propagation reads it: a dead register holds a free value (R189). -/
def State.file (s : State) : DFile := Vector.ofFn fun (i : Fin 64) => s.rd (BitVec.ofFin i)

/-- R112: the narrowings of a propagation are committed; the registers it wrote are live (R189). -/
def Strand.commit (x : Strand) (p : Propagated) : Strand :=
  let y := p.changed.foldl (fun y r => { y with
      d := y.d.set r.toNat p.file[r.toNat], deadD := y.deadD.write r.toNat,
      bad := y.bad.filter (· != (0, r.toNat)) }) x
  { y with rel := { y.rel with store := p.store, pxf := y.rel.pxf || p.stopped } }

/-! ### Checkpoints -/

/-- R115: the scratchpad offset of spill slot `p`. -/
def Rel.slot (r : Rel) (p : Nat) : Nat := 64 * r.ckBase.toNat + 1088 * p
/-- The slot lies in the 1 MiB scratchpad. -/
def Rel.slotOk (r : Rel) (p : Nat) : Bool := decide (r.slot p + 1088 ≤ 0x100000)

def domBytes (d : Dom) : List Byte := leBytes 4 d.lo.toNat ++ leBytes 4 d.hi.toNat ++ leBytes 8 d.mask.toNat
/-- A number from a list of bits, the first the least significant. -/
def bitsNat : List Bool → Nat
  | [] => 0
  | b :: bs => (if b then 1 else 0) + 2 * bitsNat bs

/-- R115: the bytes of a spill slot. -/
def Ckpt.bytes (k : Ckpt) : List Byte :=
  k.d.toList.flatMap domBytes ++ leBytes 8 k.alt.toNat ++ leBytes 2 k.sh ++ leBytes 2 k.budget.toNat ++
    leBytes 4 (if k.pxf then 1 else 0) ++ leBytes 32 (bitsNat k.pending) ++ leBytes 16 0

def leAt (bs : List Byte) (off n : Nat) : Nat := leNat ((bs.drop off).take n)

def domAt (bs : List Byte) (off : Nat) : Dom :=
  { lo := BitVec.ofNat 32 (leAt bs off 4), hi := BitVec.ofNat 32 (leAt bs (off + 4) 4),
    mask := BitVec.ofNat 64 (leAt bs (off + 8) 8) }

/-- R115: a spill slot's contents, where they pass the check under store height `height`. -/
def Ckpt.ofBytes (bs : List Byte) (height : Nat) : Option Ckpt :=
  let sh := leAt bs 1032 2
  let marks := leAt bs 1040 32
  if (List.range 64).all (fun i => (domAt bs (16 * i)).canonical) && decide (sh ≤ height) &&
      decide (marks < 2 ^ sh) && decide (leAt bs 1036 4 < 2) && leAt bs 1072 16 == 0 then
    some { d := Vector.ofFn fun (i : Fin 64) => domAt bs (16 * i.val), alt := BitVec.ofNat 64 (leAt bs 1024 8), sh := sh
           budget := BitVec.ofNat 16 (leAt bs 1034 2), pxf := leAt bs 1036 4 == 1
           pending := (List.range sh).map fun j => marks.testBit j }
  else none

/-- R115, R189: the checkpoint that a push would hold; of a dead register it holds a free value. -/
def State.checkpoint (s : State) (alt : BitVec 17) : Ckpt :=
  let r := s.self.rel
  { d := s.file, alt := alt.setWidth 64, sh := r.store.length, budget := r.budget, pxf := r.pxf,
    pending := r.store.map (·.pending) }

/-- R116: everything in a checkpoint is restored; the store is truncated, every domain register is live (R189). One whose saved SH
lies above the height of the store, which a program can have lowered since, restores the lower height: the spec speaks of a
truncation alone (log entry 73, DESIGN CHOICE). -/
def Strand.restore (x : Strand) (k : Ckpt) : Strand :=
  { x with
    d := k.d
    deadD := (List.range 64).foldl (fun y r => y.write r) x.deadD
    bad := x.bad.filter (fun b => b.1 != 0)
    rel := { x.rel with
      store := (x.rel.store.take k.sh).zipWith (fun e p => { e with pending := p }) k.pending
      budget := k.budget, pxf := k.pxf } }

/-- R155, CKPOP: the stack without its top entry; an entry spilled at depth CKD - 17 is read back, from bytes `bs`. -/
def Rel.pop (r : Rel) (bs : List Byte) (height : Nat) : Option Rel :=
  if 16 < r.ckd then
    match Ckpt.ofBytes bs height with
    | some k => some { r with cks := r.cks.tail ++ [k], ckd := r.ckd - 1 }
    | none => none
  else some { r with cks := r.cks.tail, ckd := r.ckd - 1 }

/-- The bytes of the spill slot that a pop of the acting strand would read; none where it lies outside. A row with an
uncorrectable error raises nothing here (log entry 54, DESIGN CHOICE). -/
def State.popSlot (s : State) : Option (List Byte) :=
  let r := s.self.rel
  if r.ckd ≤ 16 then some []
  else if r.slotOk (r.ckd - 17) then some (s.read (localKey s.core (r.slot (r.ckd - 17))) 1088) else none

/-- R365: that read finds the errors of the slot's rows. -/
def State.slotMet (s : State) : State :=
  let r := s.self.rel
  if 16 < r.ckd ∧ r.slotOk (r.ckd - 17) then s.meetFlaws s.core s.slot.val [(localKey s.core (r.slot (r.ckd - 17)), 1088)] else s

/-- R155, CKBACK: the restored strand and its branch target; none for the checkpoint-spill fault. Of an alternative that was
read back, bits [16:0] are the target (log entry 54, DESIGN CHOICE). -/
def State.back (s : State) : Option (Strand × BitVec 17) :=
  match s.self.rel.cks, s.popSlot with
  | k :: _, some bs =>
    let y := s.self.restore k
    match y.rel.pop bs y.rel.store.length with
    | some r => some ({ y with rel := r }, k.alt.setWidth 17)
    | none => none
  | _, _ => none

/-- R156: an earlier entry of the strand's queues overlaps a spill slot. -/
def State.slotBusy (s : State) (p : Nat) : Bool :=
  let at_ := [(localKey s.core (s.self.rel.slot p), 1088)]
  let q := s.self.allQueued
  (q.ld ++ q.st).any fun e => chunksMeet at_ (s.touches s.core e)

/-- R114, R156: the failure of the acting strand's word: CKBACK in hardware, which waits as CKBACK does (log entry 54, DESIGN
CHOICE), or FAIL. -/
def State.failHere (s : State) : Out :=
  let r := s.self.rel
  if r.ab ∧ 0 < r.ckd then
    if 16 < r.ckd ∧ s.slotBusy (r.ckd - 17) then s.await .spill
    else match s.back with
    | some (y, alt) =>
      .next (s.slotMet.putSelf ({ y with rel := { y.rel with bkc := if y.rel.bkc = 0xFFFF then 0xFFFF else y.rel.bkc + 1 } }.jump
        alt))
    | none => s.slotMet.trapHere Code.ckSpill
  else s.trapHere Code.fail

/-- R112, R114: the outcome of a propagation of the acting strand's word. The propagation-limit trap returns to the
next instruction. -/
def State.settle (s : State) (p : Option Propagated) : Out :=
  match p with
  | none => s.failHere
  | some p =>
    let t := s.upd fun x => (x.commit p).retire
    if p.stopped ∧ s.self.rel.ple then
      .next (t.trapAt t.core t.slot (Cause.plain Code.limit) t.self.pc)
    else .next t

/-- R107, R110, R112: post a relation. -/
def State.post (s : State) (op : RelOp) (args : List Opd) : Out :=
  let r := s.self.rel
  if 256 ≤ r.store.length then s.trapHere Code.storeFull
  else
    let e : StoreEntry := { op := op, args := args, pending := false }
    s.settle (propagate r.store r.budget.toNat (some e) (runFix e s.file))

/-- R152: a narrowing domain instruction: `f` gives the new domain of `d`, none when it would be empty. -/
def State.narrowD (s : State) (d : DReg) (f : Dom → Option Dom) : Out :=
  let r := s.self.rel
  let old := s.rd d
  let first := match f old with
    | none => none
    | some n => some (if n = old then (s.file, []) else (s.file.set d.toNat n, [d]))
  s.settle (propagate r.store r.budget.toNat none first)

end Sys2Proof.Machine
end

