-- ==== Sys2Proof/Machine/DomainForms.lean ====
section
/-! DEFINITION. Domain forms, propagation control and checkpoints (R151-R156). -/
namespace Sys2Proof.Machine

/-- R151, R152: with l above h DSET changes nothing and fails. -/
def execDset (d : DReg) (x : Src2) (s : State) : Out :=
  s.withVals (s.src1 x) (s.src2 x) fun l h =>
    if l.toInt ≤ h.toInt then s.putD d (Dom.range l.toInt h.toInt) else s.failHere
def execDmsk (d : DReg) (a : AReg) (s : State) : Out :=
  let m := s.ra a
  s.narrowD d fun x => Dom.normalise { x with mask := x.mask &&& m }
def execDexc (d : DReg) (v : SrcV) (s : State) : Out :=
  s.withVal (s.srcV v) fun w => s.narrowD d fun x => x.remove w.toInt
def execDint (d a : DReg) (s : State) : Out :=
  let y := s.rd a
  s.narrowD d fun x => x.meet y
def execDlo (d a : DReg) (s : State) : Out := s.putD d (Dom.single (s.rd a).lo)
def execDhi (d a : DReg) (s : State) : Out := s.putD d (Dom.single (s.rd a).hi)
/-- R158: a count above 2^31 - 1 raises the integer-overflow trap. -/
def execDcard (d a : DReg) (s : State) : Out :=
  let n := (s.rd a).card
  if 2 ^ 31 ≤ n then s.trapHere Code.overflow else s.putD d (Dom.single (BitVec.ofNat 32 n))
/-- The midpoint of DPICK. -/
def Dom.mid (d : Dom) : Int := Int.fdiv (d.l + d.h) 2
/-- The lower half; the midpoint is at least lo, so it is not empty. -/
def Dom.lower (d : Dom) : Dom := (d.meetRange d.l d.mid).getD d
/-- The upper half, or the domain itself when it is a singleton. -/
def Dom.upper (d : Dom) : Dom := if d.sng then d else (d.meetRange (d.mid + 1) d.h).getD d
def execDpickLo (d a : DReg) (s : State) : Out := s.putD d (s.rd a).lower
def execDpickHi (d a : DReg) (s : State) : Out := s.putD d (s.rd a).upper
def execDtst (d a : DReg) (v : SrcV) (s : State) : Out :=
  s.withVal (s.srcV v) fun w => s.putD d (boolDom ((s.rd a).has w.toInt))
def execMov (d a : DReg) (s : State) : Out := s.putD d (s.rd a)

/-- R153: Propagate(none); with no entry pending nothing changes. -/
def execPfix (s : State) : Out :=
  let r := s.self.rel
  s.settle (propagate r.store r.budget.toNat none (some (s.file, [])))

/-- R154: the store and the checkpoint stack are emptied. -/
def Strand.pclr (x : Strand) : Strand := { x with rel := { x.rel with store := [], cks := [], ckd := 0 } }
def execPclr (s : State) : Out := (s.upd Strand.pclr).done

/-- A byte offset `8 × off` from the acting strand's word, as an integer. -/
def State.wordAt (s : State) (off : BitVec 20) : Int := s.self.pc.toNat + 8 * off.toInt
/-- R121: a target in instruction memory. -/
def targetOk (t : Int) : Bool := decide (0 ≤ t) && decide (t ≤ 0x1FFF8)

/-- R155, CKPT; a spill slot is written at one moment (log entry 12, DESIGN CHOICE). -/
def execCkpt (off : BitVec 20) (s : State) : Out :=
  let r := s.self.rel
  let alt := s.wordAt off
  if !targetOk alt then s.trapAddr Code.address (BitVec.ofInt 64 alt)
  else if 16 + r.ckSlots.toNat ≤ r.ckd then s.trapHere Code.ckOver
  else
    let k := s.checkpoint (BitVec.ofInt 17 alt)
    if r.ckd < 16 then
      (s.upd fun x => { x with rel := { x.rel with cks := k :: x.rel.cks, ckd := x.rel.ckd + 1 } }).done
    else if !r.slotOk (r.ckd - 16) then s.trapHere Code.ckSpill
    else if s.slotBusy (r.ckd - 16) then s.await .spill
    else
      let old := (r.cks.getLast?.map Ckpt.bytes).getD []
      let s := s.store (localKey s.core (r.slot (r.ckd - 16))) old
      (s.upd fun x => { x with rel := { x.rel with cks := k :: x.rel.cks.take 15, ckd := x.rel.ckd + 1 } }).done

/-- R155, CKPOP. -/
def execCkpop (s : State) : Out :=
  let r := s.self.rel
  if r.ckd = 0 then s.trapHere Code.ckEmpty
  else if 16 < r.ckd ∧ s.slotBusy (r.ckd - 17) then s.await .spill
  else match s.popSlot with
    | none => s.trapHere Code.ckSpill
    | some bs => match r.pop bs r.store.length with
      | none => s.slotMet.trapHere Code.ckSpill
      | some r => (s.slotMet.upd fun x => { x with rel := r }).done

/-- R155, CKRST. -/
def execCkrst (s : State) : Out :=
  match s.self.rel.ckd, s.self.rel.cks with
  | 0, _ => s.trapHere Code.ckEmpty
  | _, [] => s.trapHere Code.ckEmpty
  | _, k :: _ => (s.upd fun x => x.restore k).done

/-- R155, CKBACK. -/
def execCkback (s : State) : Out :=
  let r := s.self.rel
  if r.ckd = 0 then s.trapHere Code.ckEmpty
  else if 16 < r.ckd ∧ s.slotBusy (r.ckd - 17) then s.await .spill
  else match s.back with
    | some (y, alt) => .next (s.slotMet.putSelf (y.jump alt))
    | none => s.slotMet.trapHere Code.ckSpill

end Sys2Proof.Machine
end

