-- ==== Sys2Proof/Machine/Nest.lean ====
section
/-! DEFINITION. The nest table's fields, its checks and its index vectors (R135, R136, R195, R211). -/
namespace Sys2Proof.Machine

/-! ### The nest table (R135, R136, R177) -/

namespace Nest
def field (t : BitVec 1536) (lo w : Nat) : Nat := t.toNat / 2 ^ lo % 2 ^ w
/-- Field of level `l`: its lowest bit within the level entry, and its width. -/
def level (t : BitVec 1536) (l lo w : Nat) : Nat := field t (256 + 192 * l + lo) w
def iuse (t : BitVec 1536) : Bool := t.getLsbD 228
def body (t : BitVec 1536) : Nat := field t 224 4
def extK (t : BitVec 1536) : Nat := field t 192 32
def extN (t : BitVec 1536) : Nat := field t 160 32
def extM (t : BitVec 1536) : Nat := field t 128 32
/-- Bases and strides of pointers A, B, C, I, numbered 0-3. -/
def base (t : BitVec 1536) (p : Nat) : Nat := field t (32 * p) 32
def count (t : BitVec 1536) (l : Nat) : Nat := level t l 0 16
def dim (t : BitVec 1536) (l : Nat) : Nat := level t l 16 2
def stride (t : BitVec 1536) (l p : Nat) : Nat := level t l (32 + 32 * p) 32
/-- How many levels are used, from level 0 up. -/
def used (t : BitVec 1536) : Nat := ((List.range 6).takeWhile fun l => count t l != 0).length
def extOk (n : Nat) : Bool := decide (1 ≤ n) && decide (n ≤ 2 ^ 31 - 1)
/-- A base in the own-tile range. -/
def tileBase (b : Nat) : Bool := decide (0x100000 ≤ b) && decide (b < 0x200000)
/-- R136. -/
def ok (t : BitVec 1536) : Bool :=
  field t 229 27 == 0 && ((List.range 6).all fun l => level t l 18 14 == 0 && level t l 160 32 == 0) && field t 1408 128 == 0 &&
    decide (1 ≤ body t) && decide (body t ≤ 5) && extOk (extK t) && extOk (extN t) && extOk (extM t) &&
    ((List.range 4).all fun p => decide (base t p < 0x400000) &&
      (!tileBase (base t p) || (List.range 6).all fun l => stride t l p % 0x10000 == 0)) &&
    (iuse t || body t != 2) && count t 0 != 0 && ((List.range 6).all fun l => decide (l < used t) || count t l == 0)
/-- Counts of the used levels, level 0 first. -/
def counts (t : BitVec 1536) : List Nat := (List.range (used t)).map (count t)
def executions (t : BitVec 1536) : Nat := (counts t).foldl (· * ·) 1
/-- The index vector of execution `n`, level 0 fastest. -/
def digits : List Nat → Nat → List Nat
  | [], _ => []
  | c :: l, n => n % c :: digits l (n / c)
def index (t : BitVec 1536) (n : Nat) : List Nat := digits (counts t) n
/-- The number of the execution that an index vector names. -/
def rank : List Nat → List Nat → Nat
  | c :: l, i :: ix => i + c * rank l ix
  | _, _ => 0
end Nest

end Sys2Proof.Machine
end

