-- ==== Sys2Proof/Machine/Queues.lean ====
section
/-! DEFINITION. The load and store queues and the in-flight record: entering, ordering waits, issue, tags and watermarks
(R63-R72, R160-R162, R305, R307-R313). -/
namespace Sys2Proof

/-! ### Kinds of entries -/

/-- Reel and deque operations, which hold later entries until the bank has answered (R31, R166). -/
def Instr.isReel : Instr → Bool
  | .reelj _ => true
  | .reell _ => true
  | .reels _ => true
  | _ => false
def Instr.isDeque : Instr → Bool
  | .dqPush _ _ _ => true
  | .dqPop _ _ _ => true
  | .dqSteal _ _ _ => true
  | _ => false
def Instr.isAtom (i : Instr) : Bool := i.atomBytes.isSome
def Instr.isLoad : Instr → Bool
  | .ld _ _ _ _ _ => true
  | .ldWcell _ _ _ => true
  | _ => false
/-- R243: the chain entries whose units are atomic actions. -/
def Instr.isStrike : Instr → Bool
  | .cpost _ => true
  | .catom _ => true
  | _ => false
def Instr.isPref : Instr → Bool
  | .pref _ _ => true
  | _ => false
/-- Stores, atomics and bank operations: entries that write at a place (R70). -/
def Instr.isWrite (i : Instr) : Bool :=
  i.isReel || i.isDeque || i.isAtom || (match i with
    | .st _ _ _ _ => true
    | .rowUpdate _ _ _ _ => true
    | .atomFaddx _ _ => true
    | _ => false)
/-- The registers an entry writes when its value returns: address register (true) or domain register, and number. -/
def AForm.dst : AForm → List (Bool × Nat)
  | .s _ d _ => [(false, d.toNat)]
  | .a d _ => [(true, d.toNat)]
def Instr.results : Instr → List (Bool × Nat)
  | .ld _ t dst _ _ => [(t == .ta, dst.toNat)]
  | .ldWcell dst _ _ => [(false, dst.toNat)]
  | .atomAdd f _ => AForm.dst f
  | .atomMin f _ => AForm.dst f
  | .atomMax f _ => AForm.dst f
  | .atomAnd f _ => AForm.dst f
  | .atomOr f _ => AForm.dst f
  | .atomXor f _ => AForm.dst f
  | .atomXchg f _ => AForm.dst f
  | .atomCas (.s _ d _ _) _ => [(false, d.toNat)]
  | .atomCas (.a d _ _) _ => [(true, d.toNat)]
  | .dqPush d _ _ => [(false, d.toNat)]
  | .dqPop d _ v => [(false, d.toNat), (true, v.toNat)]
  | .dqSteal d _ v => [(false, d.toNat), (true, v.toNat)]
  | _ => []

end Sys2Proof

namespace Sys2Proof.Machine

/-! ### Entering a queue (R26, R191, R305) -/

def Strand.entry (x : Strand) (i : Instr) (q : BitVec 16) (ea v c : DWord) : QEntry :=
  { i := i, po := x.po, qseq := q, ea := ea, v := v, c := c, data := [], held := .no, tag := none, ra := none, replay := none }
def Strand.pushLd (x : Strand) (i : Instr) (ea v c : DWord) : Strand :=
  { x with q := { x.q with ld := x.q.ld ++ [x.entry i x.q.seqLd ea v c], seqLd := x.q.seqLd + 1 } }
def Strand.pushSt (x : Strand) (i : Instr) (ea v c : DWord) : Strand :=
  { x with q := { x.q with st := x.q.st ++ [x.entry i x.q.seqSt ea v c], seqSt := x.q.seqSt + 1 } }

/-- The word enters the load queue, or waits while it is full. -/
def State.enterLd (s : State) (i : Instr) (ea v c : DWord) : Out :=
  if 64 ≤ s.self.allQueued.ld.length then s.await .loadQueue
  else .next (s.upd fun x => (x.pushLd i ea v c).retire)
/-- The word enters the store queue, or waits while it is full. -/
def State.enterSt (s : State) (i : Instr) (ea v c : DWord) : Out :=
  if 64 ≤ s.self.allQueued.st.length then s.await .storeQueue
  else .next (s.upd fun x => (x.pushSt i ea v c).retire)
/-- The word enters the store queue and the strand then waits for an answer (R181-R183). -/
def State.enterStWait (s : State) (i : Instr) (ea v c : DWord) (w : Wait) : Out :=
  if 64 ≤ s.self.allQueued.st.length then s.await .storeQueue
  else .next (s.upd fun x => ((x.pushSt i ea v c).retire).waitFor w s.steps s.clk)

/-! ### The in-flight record of a strand -/

def Core.flightsOf (x : Core) (k : Nat) : List Flight := x.flights.filter fun f => f.slot == k
/-- The entries of engines in progress for a strand: one for each of its cursors. -/
def Strand.engaged (x : Strand) : Nat :=
  ([x.curMe, x.curVe, x.curCe].filter (·.isSome)).length + (match x.trap.aside with
    | some (_, m, v, e) => ([m, v, e].filter (·.isSome)).length
    | none => 0)
/-- R13, R308: the entries of a core's in-flight records and its outstanding requests, together, against the 4,096 it has. -/
def Core.entries (y : Core) : Nat := y.flights.length + (y.strands.toList.map Strand.engaged).sum
def Core.crowded (y : Core) : Bool := decide (4096 ≤ y.entries)
/-- R69: the entry is done. -/
def Flight.over (f : Flight) : Bool :=
  if !f.e.i.results.isEmpty then f.written
  else if f.e.i.isReel then f.ans == .go
  else true
/-- R308: nothing more will come of the entry: it may retire. -/
def Flight.ended (f : Flight) : Bool :=
  if !f.e.i.results.isEmpty then f.written
  else match f.e.i with
    | .reelj _ => f.ans == .go
    | .reels _ => f.ans == .go
    | .reqMe _ _ => f.ans == .go
    | .reqVe _ _ => f.ans == .go
    | .reqCe _ _ => f.ans == .go
    | .send _ _ _ _ => f.ans == .go
    | _ => f.done

/-- R69: a marker passes when every entry before it, in every queue it names, is done. -/
def cmdMarker (id : Nat) (q : List Cmd) : Bool :=
  let here (x : Cmd) : Bool := match x.kind with
    | .marker n _ => n == id
    | _ => false
  match q with
  | [] => true
  | h :: rest => here h || rest.all fun x => !here x
def qMarker (id : Nat) (q : List QEntry) : Bool :=
  let here (e : QEntry) : Bool := (match e.i with
    | .mark _ => true
    | _ => false) && e.v.toNat == id
  match q with
  | [] => true
  | h :: rest => here h || rest.all fun e => !here e
def Core.markerClear (x : Core) (k : Fin 9) (id : Nat) (q : BitVec 5) : Bool :=
  let y := x.strands[k.val].allQueued
  let fl := x.flightsOf k.val
  (!q.getLsbD 4 || (qMarker id y.ld && fl.all fun f => f.st || decide (id ≤ f.e.po) || f.over)) &&
  (!q.getLsbD 3 || (qMarker id y.st && fl.all fun f => !f.st || decide (id ≤ f.e.po) || f.over)) &&
  (!q.getLsbD 2 || cmdMarker id y.me) && (!q.getLsbD 1 || cmdMarker id y.ve) && (!q.getLsbD 0 || cmdMarker id y.ce)

/-- R72: every earlier store-queue entry has been performed and every earlier load is done. -/
def Core.priorDone (x : Core) (k : Fin 9) (po : Nat) : Bool :=
  let y := x.strands[k.val].allQueued
  (y.ld.all fun e => decide (po ≤ e.po) || !(e.i.isLoad || e.i.isPref)) && (y.st.all fun e => decide (po ≤ e.po)) &&
    (x.flightsOf k.val).all fun f => decide (po ≤ f.e.po) || (if f.st then f.done else f.over)

/-- The places of a chunk of keys as core `c` reaches it: every bank that it touches, or the place of its first byte. -/
def chunkPlaces (c : Nat) (x : Nat × Nat) : List Place :=
  if ballBase ≤ x.1 ∧ x.1 < localBase then
    let o := x.1 - ballBase
    (List.range ((o + (x.2 - 1)) / 65536 - o / 65536 + 1)).map fun j => .bank (o / 65536 + j)
  else [placeOf c x.1]
/-- R65: the places on whose paths an access keeps its order. -/
def Flight.places (f : Flight) (c : Nat) : List Place :=
  match f.place with
  | .port t => [.port t]
  | .nmu h => [.nmu h]
  | .control => [.control]
  | _ => f.ra.flatMap (chunkPlaces c)
/-- R65: an access of the core that has issued to one of these places has not been performed. -/
def Core.pathBusy (x : Core) (c : Nat) (l : List (Nat × Nat)) : Bool :=
  x.flights.any fun g => !g.done && (g.places c).any (l.flatMap (chunkPlaces c)).contains

/-- An access of core `c` to its partner window is in flight. -/
def Core.windowBusy (y : Core) : Bool := y.flights.any fun f => f.place == .partner && !f.done

/-- R243: the atomic actions under way of the chains at the strand's cursors: those that a cut set aside, then the handler's. -/
def Strand.strikes (x : Strand) : List Struck :=
  ((x.trap.aside.bind (·.2.2.2)).bind (·.atom)).toList ++ (x.curCe.bind (·.atom)).toList
/-- R80: such an action that a replay has still to issue again. -/
def Struck.goesOn (a : Struck) : Bool := a.replay.isSome && !a.hit
/-- R243: an atomic action of the slot's chains is on its way. -/
def Core.striking (y : Core) (k : Nat) : Bool := y.flights.any fun f => f.slot == k && f.e.i.isStrike && !f.done
/-- R243: this atomic action is on its way. -/
def Core.strikeOut (y : Core) (k : Nat) (a : Struck) : Bool :=
  y.flights.any fun f => f.slot == k && f.e.i.isStrike && !f.done && f.tag == a.tag
/-- R80: entries and atomic actions that a replay issues again stand at slot `k`, or have issued and not been performed: every later
access of the strand is ordered behind them. -/
def Core.replaying (x : Core) (k : Nat) : Bool :=
  let y := x.strands[k % 9]'(Nat.mod_lt _ (by decide))
  let port (p : Place) : Bool := match p with
    | .port _ => true
    | _ => false
  (y.q.ld ++ y.q.st).any QEntry.goesOn || y.strikes.any Struck.goesOn ||
    (x.flightsOf k).any fun f => f.e.replay.isSome && !f.done && !port f.place
/-- R80, R320: an entry or an atomic action of slot `k` stands before place `n` in the order of the replay. -/
def Core.replayBefore (x : Core) (k : Nat) (n : Option Nat) : Bool :=
  let y := x.strands[k % 9]'(Nat.mod_lt _ (by decide))
  let before (m : Option Nat) : Bool := match n, m with
    | some n, some m => decide (m < n)
    | _, _ => false
  ((y.q.ld ++ y.q.st).any fun g => g.goesOn && before g.replay) ||
    y.strikes.any fun a => a.goesOn && !x.strikeOut k a && before a.replay
/-- R171: every earlier store-queue entry has been performed. -/
def Core.storesDone (x : Core) (k : Fin 9) : Bool :=
  x.strands[k.val].allQueued.st.isEmpty && (x.flightsOf k.val).all fun f => !f.st || f.done

/-- R68: an entry of the other queue, earlier in po, overlaps. -/
def State.overlaps (s : State) (c : Nat) (e : QEntry) (other : List QEntry) : Bool :=
  let mine := s.touches c e
  other.any fun o => decide (o.po < e.po) && chunksMeet mine (s.touches c o)

/-! ### Tags and watermarks (R311-R313) -/

/-- The tags of a context with SEQ in [wmark, w) are released at every place. -/
def releaseTags (tags : List TagRec) (ctx : BitVec 20) (wmark w : BitVec 28) : List TagRec :=
  tags.filter fun t => !(t.tag.ctx == ctx && decide ((t.tag.seq - wmark).toNat < (w - wmark).toNat))

/-- A watermark for a strand's context. -/
def State.watermark (s : State) (c : Nat) (k : Fin 9) (w : BitVec 28) : State :=
  let t := (s.strandAt c k).tag
  let s := { s with tags := releaseTags s.tags t.ctx t.wmark w }
  let s := match s.partOf c with
    | some p => s.putPart p { s.part p with spillFull := false }
    | none => s
  s.updAt c k fun x => { x with tag := { x.tag with wmark := w } }

/-- The tags of entries that have not retired: those in flight, and those that stand in a queue or at a cut and issue
again under their tag (R80, R307). -/
def Core.openTags (x : Core) (k : Fin 9) : List Tag :=
  let y := x.strands[k.val]
  let chain (u : Option Cursor) : List Tag := (((u.bind (·.atom)).filter (!·.hit)).bind (·.tag)).toList
  (x.flightsOf k.val).filterMap (·.tag) ++ (y.allQueued.ld ++ y.allQueued.st).filterMap (·.tag) ++ chain y.curCe ++
    chain (y.trap.aside.bind (·.2.2.2))

/-- The SEQ of a strand's oldest TAGGED entry that has not retired, counted from WMARK, or NEXT. -/
def Core.oldestTag (x : Core) (k : Fin 9) : BitVec 28 :=
  let t := x.strands[k.val].tag
  let ages := (x.openTags k).map fun g => (g.seq - t.wmark).toNat
  match ages with
  | [] => t.next
  | a :: rest => t.wmark + BitVec.ofNat 28 (rest.foldl min a)

/-- R313: the automatic watermark, when it passes a multiple of 1,024. -/
def State.autoMark (s : State) (c : Nat) (k : Fin 9) : State :=
  let t := (s.strandAt c k).tag
  let w := (s.coreAt c).oldestTag k
  if t.auto ∧ w.toNat / 1024 ≠ t.wmark.toNat / 1024 then s.watermark c k w else s

/-- R311: no TAGGED entry issues while NEXT runs 2^27 past WMARK. -/
def TagRegs.room (t : TagRegs) : Bool := decide ((t.next - t.wmark).toNat < 2 ^ 27)

/-- The tag of an entry that issues, and the registers after it: a replayed entry keeps its tag (R80). -/
def TagRegs.take (t : TagRegs) (old : Option Tag) : Tag × TagRegs :=
  match old with
  | some g => (g, t)
  | none => ({ ctx := t.ctx, seq := t.next }, { t with next := t.next + 1 })

/-- What a place keeps of a tag. -/
def State.tagFound (s : State) (p : Place) (t : Tag) : Option TagRec := s.tags.find? fun r => r.place == p && r.tag == t
/-- R312: how many tags a place holds by itself. -/
def Place.tagCap : Place → Nat
  | .bank _ => 64
  | _ => 4096
/-- The tags that have spilled, `seen` before them: each found its place full. -/
def spilledTags (seen : List Place) : List TagRec → List TagRec
  | [] => []
  | r :: l =>
    let rest := spilledTags (r.place :: seen) l
    if r.place.tagCap ≤ (seen.filter (· == r.place)).length then r :: rest else rest
/-- How many tags of partition `p` stand in its spill region. -/
def State.spilled (s : State) (p : Nat) : Nat := ((spilledTags [] s.tags).filter fun r => r.part == p).length
/-- The place has room for one more tag of core `c`'s partition. -/
def State.tagRoom (s : State) (c : Nat) (pl : Place) : Bool :=
  decide ((s.tags.filter fun r => r.place == pl).length < pl.tagCap) ||
    (match s.partOf c with
      | some p => decide (s.spilled p < Config.tagSpillCap)
      | none => true)

/-! ### Issue (R45, R52, R53, R63, R161, R308) -/

/-- The alignment an entry needs at its place (R53); 1 for plain loads and stores. -/
def QEntry.alignment (e : QEntry) : Nat :=
  match e.i with
  | .ldWcell _ _ _ => 64
  | .rowUpdate _ _ _ _ => 64
  | .atomFaddx _ _ => 64
  | .dqPush _ _ _ => 16
  | .dqPop _ _ _ => 16
  | .dqSteal _ _ _ => 16
  | .reelj _ => 16
  | .reell _ => 16
  | .reels _ => 16
  | i => i.atomBytes.getD 1
/-- How many bytes the access itself spans (a deque's header is 16 bytes). -/
def QEntry.size (e : QEntry) : Nat := if e.i.isDeque then 16 else e.span
/-- R52: only the Ballroom performs the operation. -/
def QEntry.ballOnly (e : QEntry) : Bool :=
  e.i.isReel || e.i.isDeque || (match e.i with
    | .ldWcell _ _ _ => true
    | .rowUpdate _ _ _ _ => true
    | .atomFaddx _ _ => true
    | _ => false)
/-- R52: the place performs the entry's operation. -/
def QEntry.placeOk (e : QEntry) (p : Place) : Bool :=
  match p with
  | .bank _ => true
  | .scratch => !e.ballOnly
  | .tile => !e.ballOnly && !e.i.isAtom
  | .partner => !e.ballOnly && !e.i.isAtom
  | .vault _ => !e.ballOnly
  | .host => !e.ballOnly && !e.i.isAtom
  | _ => false

/-- What stops an entry of core `c` by its range alone, before any translation (R374): an access that leaves its range, an
operation that no place of the range performs, the widths of the control space. -/
def QEntry.early (e : QEntry) (c : Nat) : Option (BitVec 8) :=
  let r := rangeOf c e.ea.toNat
  if rangeOf c (e.ea.toNat + (e.size - 1)) ≠ r then some Code.range
  else match r with
    | .translated => if e.ballOnly then some Code.unsupported else none
    | .control =>
      if e.ballOnly || e.i.isAtom then some Code.unsupported
      else if (e.size = 4 ∨ e.size = 8) ∧ e.ea.toNat % e.size = 0 then none else some Code.align
    | _ => none

/-- What an entry's address comes to at its issue. -/
inductive Aim where
  | go (chunks : List (Nat × Nat)) (place : Place)
  | control (off : Nat)
  | cause (code : BitVec 8)
  | miss
  | violation
deriving DecidableEq, Repr


/-- R44-R53, R374: what `n` bytes at an address, whose operand is aligned to `al`, come to for core `c` where the places that
`ok` names perform the operation. The range and the partner window go first, then an unsupported place, then the alignment,
then what the translation or the partition refuses. -/
def State.aimAt (s : State) (c va n al : Nat) (write now : Bool) (ok : Place → Bool) : Aim :=
  let aligned (x : Aim) : Aim := if va % al ≠ 0 then .cause Code.align else x
  let placed (p : Place) (x : Aim) : Aim := if ok p then aligned x else .cause Code.unsupported
  match s.reach c va n write now with
  | .cause x =>
    if isTranslation x then
      match s.reach c va n false now with
      | .at ((k, _) :: _) => placed (placeOf c k) (.cause x)
      | _ => aligned (.cause x)
    else .cause x
  | .violation => aligned .violation
  | .miss _ => .miss
  | .ats _ => placed .host .miss
  | .control o => .control o
  | .at [] => .cause Code.range
  | .at ((k, m) :: rest) => placed (placeOf c k) (.go ((k, m) :: rest) (placeOf c k))

/-- R161: the checks on an entry's address, in order. -/
def State.aim (s : State) (c : Nat) (e : QEntry) : Aim :=
  match e.early c with
  | some x => .cause x
  | none => s.aimAt c e.ea.toNat e.size e.alignment e.i.isWrite false e.placeOk

/-- R59, R320: a replayed entry keeps the bytes that it resolved, but for those of the partner window, which lie with the
core that it goes on with. -/
def State.aimAgain (s : State) (c : Nat) (e : QEntry) : Aim :=
  match e.ra with
  | some ((k, n) :: rest) => if k < localBase then .go ((k, n) :: rest) (placeOf c k) else s.aim c e
  | _ => s.aim c e

/-- The queue without its head; the head replaced. -/
def Strand.dropHead (x : Strand) (st : Bool) : Strand :=
  if st then { x with q := { x.q with st := x.q.st.tail } } else { x with q := { x.q with ld := x.q.ld.tail } }
def Strand.setHead (x : Strand) (st : Bool) (e : QEntry) : Strand :=
  if st then { x with q := { x.q with st := e :: x.q.st.tail } } else { x with q := { x.q with ld := e :: x.q.ld.tail } }
def Strand.queue (x : Strand) (st : Bool) : List QEntry := if st then x.q.st else x.q.ld

/-- R326: a translation fault holds the head entry under a fault number and is reported; one on host memory first asks the
host for the page. -/
def State.holdFid (s : State) (c : Nat) (k : Fin 9) (st : Bool) (e : QEntry) (code : BitVec 8) (va : Nat) : State :=
  let n := s.nextFid % 65536
  if s.asksHost c va code then
    { s.forgetPage c va with nextFid := s.nextFid + 1 }.updAt c k fun x => x.setHead st { e with held := .pri n va code }
  else
  let f : Fid := { fid := n, part := s.asid c, core := c, slot := k.val, cause := code, va := BitVec.ofNat 64 va }
  let s := { s with fids := s.fids ++ [f], nextFid := s.nextFid + 1 }
  (s.updAt c k fun x => x.setHead st { e with held := .fid n }).emit c (k.val % 8) 1 va n (if st then 5 else 4)

/-- The address of an entry whose page refuses it: its first, or its last where its first page does not. -/
def State.faultAt (s : State) (c : Nat) (e : QEntry) : Nat :=
  match s.translate c e.ea.toNat e.i.isWrite false with
  | .cause _ => e.ea.toNat
  | _ => e.ea.toNat + (e.size - 1)
/-- A fault of the head entry: a store-queue trap is taken at once, a load is held until it is needed (R307); a
translation fault is held and reported (R326). -/
def State.entryFault (s : State) (c : Nat) (k : Fin 9) (st : Bool) (e : QEntry) (code : BitVec 8) : State :=
  if isTranslation code then s.holdFid c k st e code (s.faultAt c e)
  else if st then
    (s.updAt c k fun x => x.setHead true { e with held := .taken }).trapAt c k
      { code := code, arg := 0, agent := 5, addr := e.ea, seq := e.qseq, part := none } (s.strandAt c k).pc
  else s.updAt c k fun x => x.setHead st { e with held := .cause code e.ea }

/-! ### The writes of engines (R63, R64) -/

/-- The form under which the in-flight record holds a row that an engine has written: none of the sequencer's. -/
def rowForm : Instr := .cnop (CEntry.unpack 0)
/-- Bytes from a key on, cut into the 64-byte rows that they lie in. -/
def rowPieces (key : Nat) (bs : List Byte) : List (Nat × List Byte) :=
  (List.range ((key + (bs.length - 1)) / 64 - key / 64 + 1)).map fun j =>
    let a := max key (64 * (key / 64 + j))
    (a, (bs.drop (a - key)).take (64 * (key / 64 + j + 1) - a))
/-- R63, R64: a row that an engine of slot `k` of core `c` has written issues to its place; `set` numbers the repetition or unit
whose rows are one set, and `va` is the address of its first byte. -/
def Core.sendRow (c k set va : Nat) (y : Core) (r : Nat × List Byte) : Core :=
  let e : QEntry := { i := rowForm, po := set, qseq := 0, ea := BitVec.ofNat 64 va, v := 0, c := 0, data := r.2, held := .no,
                      tag := none, ra := none, replay := none }
  { y with
    issueNo := y.issueNo + 1
    flights := y.flights ++ [{ n := y.issueNo, slot := k, st := false, e := e, cls := .resumable, tag := none,
                               ra := [(r.1, r.2.length)], place := placeOf c r.1, done := false, written := false, ans := .none,
                               reads := [], out := none }] }
/-- A key outside core `c`'s own scratchpad, tiles and vector registers. -/
def further (c key : Nat) : Bool :=
  decide (key < localBase) || (decide (key < imemBase) && decide ((key - localBase) / 2 ^ 22 ≠ c))
/-- A write of the acting repetition or unit: performed in the clock in which it issues at the own scratchpad, tiles and registers
(R63), and elsewhere where the repetition is performed at one moment (log entry 12, DESIGN CHOICE). -/
def State.engWrite (s : State) (va k : Nat) (bs : List Byte) : State :=
  if !s.view.isEmpty && further s.core k then
    s.updCore s.core fun y =>
      (rowPieces k bs).foldl (fun y r => Core.sendRow s.core s.slot.val s.steps (va + (r.1 - k)) y r) y
  else s.store k bs
def State.engWrites (s : State) (va : Nat) : List (Nat × Nat) → List Byte → State
  | [], _ => s
  | (k, n) :: rest, bs => State.engWrites (s.engWrite va k (bs.take n)) (va + n) rest (bs.drop n)
/-- Rows that the engines have written for slot `k` are on their way. -/
def Core.rowsOut (x : Core) (k : Nat) : Bool := x.flights.any fun f => f.slot == k && f.cls == .resumable && !f.done
/-- R31: bytes of a live reel cell. -/
def State.inReel (s : State) (l : List (Nat × Nat)) : Bool := l.any fun x => s.reels.any fun r => decide (r < x.1 + x.2) && decide (x.1 < r + 16)

/-! ### What a cut finds on its way (R42, R64, R312) -/

/-- A tag recorded at a place, and the result of its operation beside it (R312). -/
def State.recordTag (s : State) (c : Nat) (p : Place) (t : Tag) : State :=
  { s with tags := s.tags ++ [{ place := p, tag := t, ans := .none, released := false, part := s.asid c }] }
def State.tagResult (s : State) (p : Place) (t : Tag) (a : Answer) : State :=
  { s with tags := s.tags.map fun (r : TagRec) => if r.place = p ∧ r.tag = t then { r with ans := a } else r }
/-- R221: the completion flag of a near-memory entry. -/
def State.nmFlag (s : State) (c : Nat) (f : Flight) : State :=
  let d := leNat (f.e.data.take 64)
  if (nmKind f.e.i).isSome && Nm.setf d then s.setFlag c (Nm.fn d) (strandNumber c f.slot) 6 else s

/-- A row that an engine has written and that is on its way. -/
def Flight.rowOut (f : Flight) : Bool := f.cls == .resumable && !f.done
/-- An access of several events some of whose writes have been performed. -/
def Flight.begun (f : Flight) : Bool := f.out.isSome && !f.done
/-- Such a row is performed: written at its place once its bank is free (R18), or dropped where it meets a live reel cell, whose
fault its unit has met at its issue. -/
def State.settleRow (s : State) (c : Nat) (f : Flight) : State :=
  match f.ra with
  | (k, _) :: _ => if s.inReel f.ra then s else s.unitWrite c k f.e.data
  | [] => s
/-- Such an access is performed to its end with its tag and its flag, but for host memory once the DMA has stopped (R353). -/
def State.settleAccess (s : State) (c : Nat) (f : Flight) : State :=
  let t := if s.dmaStopped c f.place then s else s.putAll (f.out.getD [])
  let t := match f.tag with
    | some g => t.tagResult f.place g .go
    | none => t
  t.nmFlag c f
/-- What a cut performs of core `c` before it saves or copies memory: the rows that its engines have written, and the rest of each
access whose writes have begun. -/
def State.settleRows (s : State) (c : Nat) : State :=
  let t := ((s.coreAt c).flights.filter Flight.rowOut).foldl (State.settleRow · c ·) s
  let t := ((s.coreAt c).flights.filter Flight.begun).foldl (State.settleAccess · c ·) t
  t.updCore c fun y => { y with flights := y.flights.map fun f =>
    if f.rowOut || f.begun then { f with done := true, ans := .go, out := f.out.map fun _ => [] } else f }
/-- The bytes that it performs them at: a cut waits until no bank of them is held or asleep. -/
def State.onWay (s : State) (c : Nat) : List (Nat × Nat) :=
  ((s.coreAt c).flights.filter fun f => (f.rowOut || f.begun) && !s.dmaStopped c f.place).flatMap (·.ra)

/-- R308: the class of an entry at its place. -/
def QEntry.cls (e : QEntry) (p : Place) : Cls :=
  if !e.i.isWrite then .pure
  else match p with
    | .partner => .coreLocal
    | _ => .tagged

/-- The head entry leaves its queue and becomes an in-flight entry. -/
def State.launchEntry (s : State) (c : Nat) (k : Fin 9) (st : Bool) (e : QEntry) (cls : Cls) (chunks : List (Nat × Nat))
    (p : Place) : State :=
  let x := s.strandAt c k
  let t := x.tag.take e.tag
  let tagged := cls = .tagged
  let s := s.updAt c k fun x => { x.dropHead st with tag := if tagged then t.2 else x.tag }
  s.updCore c fun y =>
    { y with
      issueNo := y.issueNo + 1
      flights := y.flights ++ [{ n := y.issueNo, slot := k.val, st := st, e := e, cls := cls,
                                 tag := if tagged then some t.1 else none, ra := chunks, place := p, done := false,
                                 written := false, ans := .none, reads := [], out := none }] }

end Sys2Proof.Machine
end

