-- ==== Sys2Proof/Machine/OrderForms.lean ====
section
/-! DEFINITION. Markers, fences and watermarks (R69-R71, R75, R167). -/
namespace Sys2Proof.Machine

/-- What a command entry takes with it (R176, R226). -/
def VeRegs.snap (v : VeRegs) : Snap := { ports := v.ports, shape := v.shape, fmt := v.fmt, rrb := v.rrb, pred := v.pred }

def Queues.cmds (q : Queues) : Eng → List Cmd
  | .me => q.me
  | .ve => q.ve
  | .ce => q.ce
/-- A command enters its queue under the queue's next number (R305). -/
def Queues.pushCmd (q : Queues) (e : Eng) (kind : CmdKind) (addr : DWord) (snap : Snap) : Queues :=
  match e with
  | .me => { q with me := q.me ++ [{ kind, addr, qseq := q.seqMe, snap }], seqMe := q.seqMe + 1 }
  | .ve => { q with ve := q.ve ++ [{ kind, addr, qseq := q.seqVe, snap }], seqVe := q.seqVe + 1 }
  | .ce => { q with ce := q.ce ++ [{ kind, addr, qseq := q.seqCe, snap }], seqCe := q.seqCe + 1 }
def Strand.pushCmd (x : Strand) (e : Eng) (kind : CmdKind) (addr : DWord) : Strand :=
  { x with q := x.q.pushCmd e kind addr x.ve.snap }
def Queues.cmdRoom (q : Queues) (e : Eng) : Bool := decide ((q.cmds e).length < 64)

/-- The bit of an engine among three. -/
def Eng.bit : Eng → BitVec 3
  | .me => 4
  | .ve => 2
  | .ce => 1
/-- The engines that three bits name, ME first. -/
def engsOf (b : BitVec 3) : List Eng :=
  (if b.getLsbD 2 then [Eng.me] else []) ++ (if b.getLsbD 1 then [Eng.ve] else []) ++
    (if b.getLsbD 0 then [Eng.ce] else [])

/-- R25: the acting strand has begun earlier than step `t` to wait for room in the queue of engine `e`. -/
def Strand.waitsFor (x : Strand) (e : Eng) (t : Nat) : Bool :=
  (x.st == .waiting || x.st == .ready) && decide (x.since < t) && (match x.wait with
    | .queueFull q => q &&& Eng.bit e != 0
    | _ => false)
/-- R25: a REQ that began earlier to wait for the queue of engine `e` of the acting strand goes first. -/
def State.reqFirst (s : State) (e : Eng) : Bool :=
  s.net.any fun r => r.core == s.core && r.slot == s.slot.val && r.eng == e && !(s.coreAt r.core).dark && (s.coreAt r.core).closing.isNone &&
    !s.self.waitsFor e r.since

/-- R69, R167: the marker, numbered by its position in po, goes into every named queue at once. -/
def Strand.mark (x : Strand) (q : BitVec 5) : Strand :=
  let i := Instr.mark q
  let n := BitVec.ofNat 64 x.po
  let x := if q.getLsbD 4 then x.pushLd i 0 n 0 else x
  let x := if q.getLsbD 3 then x.pushSt i 0 n 0 else x
  (engsOf (q.setWidth 3)).foldl (fun y e => y.pushCmd e (.marker y.po q) 0) x

def execMark (q : BitVec 5) (s : State) : Out :=
  let x := s.self.allQueued
  if (!q.getLsbD 4 || decide (x.ld.length < 64)) && (!q.getLsbD 3 || decide (x.st.length < 64)) &&
      (engsOf (q.setWidth 3)).all x.cmdRoom && !(engsOf (q.setWidth 3)).any s.reqFirst
  then .next (s.upd fun y => (y.mark q).retire)
  else s.await (.queueFull (q.setWidth 3))

/-- R75, R167: a FENCE entry in every named queue at once. -/
def execQfen (q : BitVec 3) (s : State) : Out :=
  if (engsOf q).all s.self.allQueued.cmdRoom && !(engsOf q).any s.reqFirst then
    .next (s.upd fun y => ((engsOf q).foldl (fun z e =>
      z.pushCmd e (.fence z.po (q.getLsbD 2) (q.getLsbD 1) (q.getLsbD 0)) 0) y).retire)
  else s.await (.queueFull q)

/-- R71: the effective radius of a scope level; 256 for level 15, which covers every place. -/
def Core.radius (x : Core) (n : BitVec 4) : Nat :=
  if n = 15 then 256 else ((x.scope.toList.take (n.toNat + 1)).map fun b => b.toNat).foldl max 0
/-- R71: a place lies within a radius of core `c`; 0xFF covers every place of the package. -/
def withinRadius (c r : Nat) (p : Place) : Bool :=
  if 256 ≤ r then true
  else match placeHops c p with
    | none => false
    | some h => decide (255 ≤ r) || decide (h ≤ r)
/-- The places of `n` bytes from an address; none where the address reaches none yet. -/
def State.placesAt (s : State) (c a n : Nat) : Option (List Place) :=
  match s.reach c a n true true with
  | .at l => some (l.flatMap (chunkPlaces c))
  | .control _ => some [.control]
  | .ats _ => some [.host]
  | _ => none
/-- R216-R219: the places that a near-memory entry with descriptor `d` writes: those of its output, or of its tables. -/
def State.nmWrites (s : State) (c : Nat) (k : NmKind) (d : Nat) : Option (List Place) :=
  match Nm.output k d with
  | some (a, n, w) => s.placesAt c a (n * w)
  | none => (Nm.tables k d).foldr (fun t r => r.bind fun l => (s.placesAt c t.1 t.2).map (· ++ l)) (some [])
/-- The places that a store-queue entry writes before it has issued, none where its address reaches none yet. -/
def State.entryPlaces (s : State) (c : Nat) (e : QEntry) : Option (List Place) :=
  match nmKind e.i with
  | some k => s.nmWrites c k (s.readNat (localKey c e.ea.toNat) 64)
  | none => s.placesAt c e.ea.toNat (max e.size 1)
/-- The places that an issued entry writes. -/
def State.flightPlaces (s : State) (c : Nat) (f : Flight) : Option (List Place) :=
  match nmKind f.e.i with
  | some .pka => some (f.ra.flatMap (chunkPlaces c))
  | some k => s.nmWrites c k (leNat (f.e.data.take 64))
  | none => some (f.places c)
/-- Some of these places lies within a radius, or may. -/
def anyWithin (c r : Nat) (l : Option (List Place)) : Bool :=
  match l with
  | some l => l.any (withinRadius c r)
  | none => true
/-- R70: every earlier store-queue write within the radius has been performed. -/
def State.sfenClear (s : State) (c : Nat) (k : Fin 9) (r : Nat) : Bool :=
  ((s.strandAt c k).allQueued.st.all fun e => !(e.i.isWrite || (nmKind e.i).isSome) || !anyWithin c r (s.entryPlaces c e)) &&
    ((s.coreAt c).flightsOf k.val).all fun f =>
      !f.st || !(f.e.i.isWrite || (nmKind f.e.i).isSome) || f.done || !anyWithin c r (s.flightPlaces c f)

def execSfen (n : BitVec 4) (s : State) : Out :=
  let r := match s.self.wait with
    | .sfen r => r
    | _ => s.own.radius n
  if s.sfenClear s.core s.slot r then s.done else s.await (.sfen r)

/-- R167, R313: the watermark travels as a store-queue entry; a value outside its range is an illegal operand. -/
def execReltag (w : DReg) (s : State) : Out :=
  s.withVal (s.rd w) fun v =>
    if v.toInt < 0 ∨ 2 ^ 28 ≤ v.toInt then s.trapHere Code.operand
    else s.enterSt (.reltag w) 0 (v.setWidth 64) 0

end Sys2Proof.Machine
end

