-- ==== Sys2Proof/Machine/Work.lean ====
section
/-! DEFINITION. Loop records, the task sequencer, strand starts, switches and ends, the timer wheel
(R23, R34-R39, R137, R138, R170, R225, R292). -/
namespace Sys2Proof.Machine

/-! ### The loop record (R137, R138, R225) -/

namespace Rec
def field (r : BitVec 256) (lo w : Nat) : Nat := r.toNat / 2 ^ lo % 2 ^ w
def nepi (r : BitVec 256) : Bool := r.getLsbD 254
def npro (r : BitVec 256) : Bool := r.getLsbD 253
def rrb (r : BitVec 256) : BitVec 5 := r.extractLsb' 248 5
def rp (r : BitVec 256) : Bool := r.getLsbD 246
def hc (r : BitVec 256) : Nat := field r 244 2
def stages (r : BitVec 256) : Nat := field r 240 4 + 1
def livea (r : BitVec 256) : BitVec 16 := r.extractLsb' 224 16
def lived (r : BitVec 256) : BitVec 32 := r.extractLsb' 192 32
def rps (r : BitVec 256) : Nat := field r 128 64
def trip (r : BitVec 256) : Nat := field r 96 32
def epi (r : BitVec 256) : Nat := field r 64 32
def ker (r : BitVec 256) : Nat := field r 32 32
def pro (r : BitVec 256) : Nat := field r 0 32
/-- R225: how often the kernel runs. -/
def executions (r : BitVec 256) : Nat := if trip r = 0 then 0 else trip r + (stages r - 1)
/-- HC2 and HC3 records. -/
def hot (r : BitVec 256) : Bool := decide (2 ≤ hc r)
/-- An offset that R137 admits. -/
def offOk (o : Nat) : Bool := o % 8 == 0 && decide (o < 0x20000)
/-- R137: nothing in the record breaks its layout. -/
def ok (r : BitVec 256) : Bool :=
  !r.getLsbD 255 && !r.getLsbD 247 && offOk (pro r) && offOk (ker r) && offOk (epi r) &&
    (!nepi r || epi r == 0) && (!npro r || pro r == 0) &&
    (if rp r then rps r % 4 == 0 && rps r != 0 else rps r == 0)
end Rec

/-- R297: a strand runs an HC2 or HC3 record. -/
def Strand.hot (x : Strand) : Bool := x.st != .dormant && (match x.run with
  | some r => Rec.hot r.record
  | none => false)

/-- R225: the stage predicates of kernel execution `k`. -/
def stagePreds (trip k : Nat) : BitVec 16 :=
  (List.range 16).foldl (fun p t => if t ≤ k ∧ k - t < trip then p ||| (1#16 <<< t) else p) 0
/-- R225: the rotating base of kernel execution `k`. -/
def stageBase (r : BitVec 256) (k : Nat) : BitVec 5 := Rec.rrb r - BitVec.ofNat 5 (k % 32)

/-- R225: the stage state at the boundary that ends kernel execution `k`. -/
def Strand.turnStage (x : Strand) (r : Run) (k : Nat) : Strand :=
  { x with ve := { x.ve with pred := (x.ve.pred <<< 1) ||| (if k + 1 < Rec.trip r.record then 1 else 0),
                             rrb := x.ve.rrb - 1 } }
/-- The strand stands at the first word of the kernel. -/
def Strand.toKernel (x : Strand) (r : Run) (k : Nat) : Strand :=
  { x with run := some { r with part := .kernel, iter := k }, pc := BitVec.ofNat 17 (Rec.ker r.record), st := .ready,
           wait := .none }
/-- The strand goes to ENDING. -/
def Strand.toEnding (x : Strand) : Strand := { x with st := .ending, wait := .none }
/-- R225, R36: the strand goes on with kernel execution `k`, its stage state rebuilt from the index. -/
def Strand.atKernel (x : Strand) (r : Run) (k : Nat) : Strand :=
  { x with ve := { x.ve with rrb := stageBase r.record k, pred := stagePreds (Rec.trip r.record) k } }.toKernel r k
/-- The strand stands at the epilogue of its record, or ends where there is none. -/
def Strand.atEpilogue (x : Strand) (r : Run) : Strand :=
  if Rec.nepi r.record then { x with run := some { r with part := .epilogue } }.toEnding
  else { x with run := some { r with part := .epilogue }, pc := BitVec.ofNat 17 (Rec.epi r.record), st := .ready,
                wait := .none }
/-- After the prologue: the first kernel execution, or the epilogue where the kernel does not run (R170). -/
def Strand.afterPrologue (x : Strand) (r : Run) : Strand :=
  if 0 < Rec.executions r.record then x.toKernel r 0 else x.atEpilogue r
/-- R35, R225: the strand begins its record. -/
def Strand.begin (x : Strand) (record : BitVec 256) (order clk : Nat) : Strand :=
  let r : Run := { record := record, part := .prologue, iter := 0, order := order, begun := clk, row := none }
  let x := { x with ve := { x.ve with rrb := Rec.rrb record, pred := if 0 < Rec.trip record then 1 else 0 } }
  if Rec.npro record then x.afterPrologue r
  else { x with run := some r, pc := BitVec.ofNat 17 (Rec.pro record), st := .ready, wait := .none }

/-! ### Reads that an instruction makes itself -/

/-- What bytes an address gives. -/
inductive Got where
  | bytes (bs : List Byte)
  | cause (code : BitVec 8)
  /-- A host page whose translation has not come back (R325), an earlier access of the core to the place (R65), or a row that is
  held or asleep (R18, R342, R353). -/
  | wait
  | violation
deriving DecidableEq, Repr

/-- `n` bytes at a device address of core `c`, with the faults of R44-R53, R324, R330 and R365. The read keeps its order behind
the accesses of the core that have issued to the place (R65). -/
def State.peek (s : State) (c va n : Nat) : Got :=
  if s.heldUp c (s.tableCells c va n) then .wait
  else match s.reach c va n false true with
  | .at l =>
    if (s.coreAt c).pathBusy c l || s.heldUp c l then .wait
    else if s.poisonedChunks l then .cause Code.poison else .bytes (s.seen l)
  | .control _ => .cause Code.align
  | .cause x => .cause x
  | .miss _ => .wait
  | .ats _ => .wait
  | .violation => .violation

/-- What such a read of strand `k` of core `c` does on its way (R18, R342, R366). -/
def State.peeked (s : State) (c k va n : Nat) : State :=
  let l := s.tableCells c va n
  if s.heldUp c l then s.arriveAt c k l
  else
    let t := s.arriveAt c k l
    match t.reach c va n false true with
    | .at l => if (t.coreAt c).pathBusy c l then t else t.arriveAt c k l
    | _ => t

/-! ### The row-pointer port (R39) -/

inductive RowCount where
  | count (n : Nat)
  | cause (code : BitVec 8) (addr : Nat)
  | wait
  | violation (addr : Nat)
deriving DecidableEq, Repr

/-- R39: the count that a reader of this kernel execution has read already. -/
def Run.latched (r : Run) : Option Word :=
  match r.row with
  | some (i, v) => if r.part = .kernel ∧ i = r.iter then some v else none
  | none => none
/-- R39: every later reader of the kernel execution sees the count `n`. -/
def Strand.latchRow (x : Strand) (n : Nat) : Strand :=
  { x with run := x.run.map fun r =>
      if r.part = .kernel ∧ r.iter < Rec.trip r.record then { r with row := some (r.iter, BitVec.ofNat 32 n) } else r }

/-- The address of the pair of row pointers that the port reads for a strand, where it has to read it. -/
def Strand.rowAddr (x : Strand) : Option Nat :=
  match x.run with
  | none => none
  | some r =>
    if !Rec.rp r.record ∨ r.part ≠ .kernel ∨ Rec.trip r.record ≤ r.iter ∨ r.latched.isSome then none
    else some ((Rec.rps r.record + 4 * r.iter) % 2 ^ 64)
/-- What the port's read does on its way. -/
def State.rowRead (s : State) (c : Nat) (k : Fin 9) : State :=
  match (s.strandAt c k).rowAddr with
  | some a => s.peeked c k.val a 8
  | none => s
/-- R39: c(i), or why the port gives none. -/
def State.rowCount (s : State) (c : Nat) (x : Strand) : RowCount :=
  match x.run with
  | none => .cause Code.rowPtr 0
  | some r =>
    if !Rec.rp r.record then .cause Code.rowPtr 0
    else if r.part ≠ .kernel ∨ Rec.trip r.record ≤ r.iter then .count 0
    else
      let a := (Rec.rps r.record + 4 * r.iter) % 2 ^ 64
      match r.latched with
      | some v => .count v.toNat
      | none => match s.peek c a 8 with
      | .bytes bs =>
        let p (k : Nat) : Int := (BitVec.ofNat 32 (leNat (bs.drop k))).toInt
        let d := p 4 - p 0
        if d < 0 ∨ 2 ^ 31 - 1 < d then .cause Code.rowPtr 0 else .count d.toNat
      | .cause e => .cause e a
      | .wait => .wait
      | .violation => .violation a

/-! ### Contexts (R311) -/

/-- The first number of a counter, from `n`, whose tags no place holds. -/
def freshCtx (tags : List TagRec) (d : Nat) : Nat → BitVec 18 → BitVec 18
  | 0, n => n
  | fuel + 1, n => if tags.any fun t => t.tag.ctx == (BitVec.ofNat 2 d ++ n : BitVec 20) then freshCtx tags d fuel (n + 1) else n

/-- The distributor of core `c`'s die gives a context number. -/
def State.newCtx (s : State) (c : Nat) : BitVec 20 × State :=
  let d := if c = mgmtCore then 0 else dieOf c
  let n := freshCtx s.tags d (s.tags.length + 1) (s.die d).ctx
  (BitVec.ofNat 2 d ++ n, s.putDie d { s.die d with ctx := n + 1 })

/-! ### Starts (R23, R34, R35, R37, R292) -/

def Queues.allEmpty (q : Queues) : Bool :=
  q.me.isEmpty && q.ve.isEmpty && q.ce.isEmpty && q.fmt.isEmpty && q.ld.isEmpty && q.st.isEmpty
/-- The queues with no entry, their numbers going on. -/
def Queues.emptied (q : Queues) : Queues := { q with me := [], ve := [], ce := [], fmt := [], ld := [], st := [] }
/-- R170: all but the format queue. -/
def Queues.drained (q : Queues) : Bool :=
  q.me.isEmpty && q.ve.isEmpty && q.ce.isEmpty && q.ld.isEmpty && q.st.isEmpty

/-- R37: a slot that is free for a start. -/
def Core.slotFree (x : Core) (k : Nat) : Bool :=
  let y := x.strands[k % 9]'(Nat.mod_lt _ (by decide))
  y.st == .dormant && y.q.allEmpty
def Core.freeSlot (x : Core) : Option Nat := (List.range 8).find? x.slotFree

/-- A strand that leaves DORMANT: every register and counter at its reset value (R26-R28, R105, R292). -/
def Strand.born (prio : BitVec 3) (owner : Option LaunchId) (ctx : BitVec 20) : Strand :=
  { Strand.fresh with st := .ready, prio := prio, owner := owner, tag := { Strand.fresh.tag with ctx := ctx } }

/-- R34: the handler strand of a message in slot `k`. -/
def Strand.handler (m : Message) (ctx : BitVec 20) (area : Nat) : Strand :=
  let x := Strand.born m.prio m.owner ctx
  { x with pc := m.handler, d := x.d.set 0 (Dom.single (BitVec.ofNat 32 m.payload.length)),
           a := x.a.set 0 (BitVec.ofNat 64 area) }

/-- The wait of a strand ends: at once, in its return state, or in the state it was parked or frozen from (R23, R306). -/
def Strand.wake (x : Strand) (w : Wait) : Strand :=
  if x.st = .waiting ∧ x.wait = w then { x with st := .ready, wait := .none }
  else if x.trap.hm ∧ x.trap.ret = .waiting ∧ x.trap.retWait = w then
    { x with trap := { x.trap with ret := .ready, retWait := .none } }
  else if (x.st = .parked ∨ x.st = .frozen) ∧ x.back = .waiting ∧ x.backWait = w then { x with back := .ready, backWait := .none }
  else if x.st = .frozen ∧ x.back = .parked ∧ x.backWait = w then { x with backWait := .none }
  else x

/-- R322: a KILL of slot `k` is under way. -/
def Core.killing (x : Core) (k : Nat) : Bool := x.pre.go && x.pre.mode == 4 && x.pre.status == 2 && x.pre.mask.getLsbD k

/-- The in-flight entry of an issuer gets an answer. -/
def Core.answer (x : Core) (n : Nat) (a : Answer) : Core :=
  { x with flights := x.flights.map fun f => if f.n = n then { f with done := true, ans := a } else f }

/-- The tag of the REQ or SEND that an issuer sent. -/
def State.sourceTag (s : State) (src : Nat × Nat × Nat) : Option Tag :=
  ((s.coreAt src.1).flights.find? fun f => f.n == src.2.2).bind fun f => f.tag
/-- R312: the port of core `c` has room for the tag, or has recorded it. -/
def State.portRoom (s : State) (src : Nat × Nat × Nat) (c : Nat) : Bool :=
  match s.sourceTag src with
  | some t => (s.tagFound (.port c) t).isSome || s.tagRoom src.1 (.port c)
  | none => true

/-- R33, R34, R312: core `c` accepts a REQ or SEND: its tag is recorded with the answer, and the issuer goes on. -/
def State.accepted (s : State) (src : Nat × Nat × Nat) (c : Nat) : State :=
  let s : State := match s.sourceTag src with
    | some t => { s with tags := s.tags ++ [{ place := .port c, tag := t, ans := .go, released := false, part := s.asid src.1 }] }
    | none => s
  (s.updCore src.1 fun x => x.answer src.2.2 .go).updAt src.1 (slotIx src.2.1) fun x => x.wake .accept

/-- The scratchpad offset of the receive area of slot `k` (R34). -/
def Core.msgArea (x : Core) (k : Nat) : Nat := x.msgBase.toNat * 2048 + 256 * k

/-- R34: the oldest message held for core `c` starts its handler in slot `k`; the receive area is written at one moment (log
entry 12, DESIGN CHOICE). -/
def State.startMessage (s : State) (c k : Nat) (m : Message) (rest : List Message) : State :=
  let area := (s.coreAt c).msgArea k
  let s := s.store (localKey c (area % 0x100000)) m.payload
  let n := s.newCtx c
  let s := n.2.updCore c fun x => { x with messages := rest }
  (s.putStrand c (slotIx k) (Strand.handler m n.1 area)).accepted m.src c

/-- R35, R36: the order in which records are made ready: those of one step by their index. -/
def readyOrder (step i : Nat) : Nat := 512 * step + i
/-- R41, R292: a placed launch starts in slot `k`. Its record counts as made ready at its start, not at its placement, for its place
among the records of its class after a switch (R36 does not say: log entry 67, DESIGN CHOICE). -/
def State.startPlaced (s : State) (c k : Nat) (p : Placed) (rest : List Placed) : State :=
  let x := Strand.born p.prio (some p.owner) p.ctx
  let x := ({ x with launched := true, a := x.a.set 0 p.argb }).begin p.record (readyOrder s.steps 0) s.clk
  (s.updCore c fun y => { y with placed := rest }).putStrand c (slotIx k) x

/-- R36: the strand that a switched-out record goes on with, before its lease comes back: with its next kernel execution, or with
the epilogue after the last. -/
def Kept.resumed (k : Kept) (r : Run) : Strand :=
  if r.iter < Rec.executions r.record then k.strand.atKernel r r.iter else (k.strand.atKernel r r.iter).atEpilogue r

/-- R35: the ready record that the task sequencer places next: the lowest class, then the one made ready first. -/
def pickReady : List Ready → Option Ready
  | [] => none
  | a :: rest => match pickReady rest with
    | none => some a
    | some b => if b.prio.toNat < a.prio.toNat ∨ (b.prio = a.prio ∧ b.order < a.order) then some b else some a

/-- The list without the first entry that equals `r`. -/
def dropReady (r : Ready) : List Ready → List Ready
  | [] => []
  | a :: rest => if a = r then rest else a :: dropReady r rest

/-- R321: a lease that a resumption asks for again, at its level. -/
def State.askAgain (s : State) (c : Nat) (k : Fin 9) : State :=
  let x := s.strandAt c k
  if !x.lease.again then s
  else if c = mgmtCore then s.updAt c k fun y => { y with lease := { y.lease with held := true, again := false } }
  else
    let g := s.seg (segOf c)
    (s.putSeg (segOf c) { g with reqs := g.reqs ++ [{ core := c, slot := k.val, level := x.lease.level }] }).updAt c k
      fun y => { y with lease := { y.lease with pend := true } }

/-- R35: a ready record starts, or goes on, in slot `k`. -/
def State.startReady (s : State) (c k : Nat) (r : Ready) : State :=
  let s := s.updCore c fun y => { y with ready := dropReady r y.ready }
  match r.kept with
  | some kept =>
    let x := match kept.strand.run with
      | some run => kept.resumed run
      | none => kept.strand
    let ask := x.lease.again && c != mgmtCore
    let x := { x with prio := r.prio, st := if ask then .waiting else x.st,
                      wait := if ask then .lease else x.wait, since := s.steps, sinceClk := s.clk }
    (s.putStrand c (slotIx k) x).askAgain c (slotIx k)
  | none =>
    let n := s.newCtx c
    n.2.putStrand c (slotIx k) ((Strand.born r.prio r.owner n.1).begin r.record r.order s.clk)

/-- R351, R353: the strands of the core's partition are frozen for good: its interface is in error, or its columns are being cleared. -/
def State.halted (s : State) (c : Nat) : Bool :=
  match s.partOf c with
  | some p => (s.part p).tds == 3
  | none => c != mgmtCore && s.colHeld (gcolOf c)
/-- R37: the core serves one start in a clock, in the order message, launch, ready list; a dark core, one that is about to be
parked, and one of a partition whose strands are frozen, take none (R298, R351, R353). -/
def State.startOne (s : State) (c : Nat) : State :=
  let x := s.coreAt c
  let taken (m : Message) : Bool := s.portRoom m.src c
  if x.dark || x.closing.isSome || s.halted c || x.startedAt == some s.clk then s
  else match x.freeSlot with
    | none => s
    | some k =>
      let s := s.updCore c fun y => { y with startedAt := some s.clk }
      let s := match x.messages.find? (fun m => !taken m) with
        | some m => s.spillEvent m.src.1
        | none => s
      match x.messages.find? taken, x.placed, pickReady x.ready with
      | some m, _, _ => s.startMessage c k m (x.messages.erase m)
      | none, p :: rest, _ => s.startPlaced c k p rest
      | none, [], some r => s.startReady c k r
      | none, [], none => s.updCore c fun y => { y with startedAt := x.startedAt }

/-- R35: a record enters the ready list. -/
def Core.makeReady (x : Core) (r : Ready) : Core := { x with ready := x.ready ++ [r] }

/-! ### Power leases given back (R186, R321, R336) -/

/-- R336: a held lease returns its units. -/
def State.freeLease (s : State) (c : Nat) (k : Fin 9) : State :=
  let x := s.strandAt c k
  if !x.lease.held then s
  else
    let s := if c = mgmtCore then s else
      let g := s.seg (segOf c)
      s.putSeg (segOf c) { g with held := g.held - x.lease.level.setWidth 8 }
    s.updAt c k fun y => { y with lease := { y.lease with held := false, level := 0 } }
/-- R321: a held lease is suspended: its units return and its level stays to be asked for again. -/
def State.suspendLease (s : State) (c : Nat) (k : Fin 9) : State :=
  let x := s.strandAt c k
  if !x.lease.held then s
  else (s.freeLease c k).updAt c k fun y => { y with lease := { y.lease with level := x.lease.level, again := true } }

/-! ### HALT (R170, R225, R306) -/

/-- PCLR: the constraint store and the checkpoint stack are emptied. -/
def Rel.cleared (r : Rel) : Rel := { r with store := [], cks := [], ckd := 0 }

/-- R170: the slot goes to ENDING. -/
def Strand.end (x : Strand) : Strand :=
  { x with q := { x.q with fmt := [] }, loops := [], rel := x.rel.cleared }.toEnding

/-- R170: where a HALT takes a strand; none where it takes the slot to ENDING. -/
def Strand.halt (x : Strand) : Option Strand :=
  match x.run with
  | none => none
  | some r => match r.part with
    | .prologue => if Rec.executions r.record = 0 ∧ Rec.nepi r.record then none else some (x.afterPrologue r)
    | .kernel =>
      let x := x.turnStage r r.iter
      if r.iter + 1 < Rec.executions r.record then some (x.toKernel r (r.iter + 1))
      else if Rec.nepi r.record then none else some (x.atEpilogue r)
    | .epilogue => none

/-- R36: the registers that a live mask names; the others hold their reset values. -/
def liveD (m : BitVec 32) (d : Vector Dom 64) : Vector Dom 64 :=
  Vector.ofFn fun i => if m.getLsbD (i.val / 2) then d[i] else Dom.single 0
def liveA (m : BitVec 16) (a : Vector DWord 32) : Vector DWord 32 :=
  Vector.ofFn fun i => if m.getLsbD (i.val / 2) then a[i] else 0

/-- R36: what a switch saves of a strand, at the kernel execution it goes on with. -/
def Strand.keep (x : Strand) (r : Run) (k : Nat) : Kept :=
  let f := Strand.born x.prio x.owner x.tag.ctx
  { strand :=
    { f with
      run := some { r with part := .kernel, iter := k }
      d := liveD (Rec.lived r.record) x.d, a := liveA (Rec.livea r.record) x.a
      bad := x.bad.filter fun p => !(x.isDead p) && (match p.1 with
        | 0 => (Rec.lived r.record).getLsbD (p.2 / 2)
        | 1 => (Rec.livea r.record).getLsbD (p.2 / 2)
        | _ => false)
      q := { f.q with fmt := x.q.fmt }
      rel := { f.rel with budget := x.rel.budget, bkc := x.rel.bkc, ple := x.rel.ple, ab := x.rel.ab,
                          ckSlots := x.rel.ckSlots, ckBase := x.rel.ckBase }
      trap := { f.trap with tvec := x.trap.tvec }
      ve := { f.ve with ports := x.ve.ports, shape := x.ve.shape, fmt := x.ve.fmt, amax := x.ve.amax }
      nest := { f.nest with shadow := x.nest.shadow, st := x.nest.st }
      lease := { f.lease with level := if x.lease.again then x.lease.level else 0, again := x.lease.again }
      trace := x.trace, tag := x.tag, launched := x.launched } }

/-- R36: a boundary at which the task sequencer may switch. -/
def Strand.qualifies (x : Strand) : Bool :=
  !x.trap.hm && x.rel.store.isEmpty && x.rel.ckd == 0 && x.loops.isEmpty

/-- R36: a ready record of a lower class waits and no slot is free. -/
def Core.wantsSwitch (x : Core) (p : BitVec 3) : Bool :=
  x.freeSlot.isNone && x.ready.any fun r => decide (r.prio.toNat < p.toNat)

/-- R170, R36: the strand stands drained at the HALT that ends a kernel execution, and does not end there. -/
def Strand.atBoundary (x : Strand) : Option (Run × Nat) :=
  match x.run with
  | some r =>
    if r.part = .kernel ∧ (r.iter + 1 < Rec.executions r.record ∨ !Rec.nepi r.record) then some (r, r.iter + 1) else none
  | none => none

/-- A switched-out record goes before the records of its class that were made ready later. -/
def insertReady (r : Ready) : List Ready → List Ready
  | [] => [r]
  | a :: rest => if a.prio = r.prio ∧ r.order < a.order then r :: a :: rest else a :: insertReady r rest

/-- R36: the switch: the record returns to the ready list and the slot is DORMANT, free for a start; R37's order then holds, so
a held message or a placed launch may take it first (log entry 61, DESIGN CHOICE). Where the list holds its 64 records, the record
that leaves the slot makes them 65 until a start takes one: R36 does not say what a switch does there (log entry 78, DESIGN CHOICE). -/
def State.switchOut (s : State) (c : Nat) (k : Fin 9) (r : Run) (next : Nat) : State :=
  let s := ((s.mend c k).suspendLease c k).spend c k
  let x := s.strandAt c k
  let e : Ready := { record := r.record, prio := x.prio, owner := x.owner, order := r.order,
                     kept := some (x.keep r next) }
  (s.updCore c fun y => { y with ready := insertReady e y.ready }).updAt c k fun y =>
    { y with st := .dormant, wait := .none, run := none, q := Queues.empty, launched := false, owner := none }

/-- R38, R302: the wheel slot of a PTP time. -/
def wheelSlot (ptp : BitVec 64) : BitVec 64 := BitVec.ofNat 64 (ptp.toNat / 256 * 256)

/-- R38: the slot comes: the releases whose time it has reached go behind those of the slots before it. -/
def Core.slotComes (x : Core) (slot : BitVec 64) : Core :=
  if x.wheelAt = slot then x
  else
    let due (r : Release) : Bool := !r.late && decide (r.time.toNat ≤ slot.toNat)
    { x with
      wheelAt := slot
      wheel := x.wheel.filter (·.late) ++ ((x.wheel.filter due).map fun r => { r with late := true }) ++
        x.wheel.filter fun r => !r.late && !due r }

/-- R38, R302: the releases whose slot has come enter the ready list in scheduling order while it has room; one that waits for
room is due again only once the time has reached it, also after a step back. -/
def Core.releaseDue (x : Core) (ptp : BitVec 64) (step : Nat) : Core :=
  let slot := wheelSlot ptp
  let x := x.slotComes slot
  let due := x.wheel.filter fun r => r.late && decide (r.time.toNat ≤ slot.toNat)
  let room := 64 - x.ready.length
  { x with
    ready := x.ready ++ (due.take room).zipIdx.map fun (r : Release × Nat) =>
      { record := r.1.record, prio := r.1.prio, owner := r.1.owner, order := readyOrder step r.2, kept := none }
    wheel := due.drop room ++ (x.wheel.filter fun r => r.late && decide (slot.toNat < r.time.toNat)) ++ x.wheel.filter fun r => !r.late }

/-- R38, R184: a release is scheduled; one whose time is past waits for the next slot. -/
def Core.schedule (x : Core) (r : Release) (ptp : BitVec 64) : Core :=
  { x with wheel := x.wheel ++ [r], wheelAt := if x.wheel.isEmpty then wheelSlot ptp else x.wheelAt }

/-! ### Whose image a strand runs (R275, R279) -/

/-- The TEXT of an image covers a PC. -/
def Img.runs (i : Img) (pc : BitVec 17) : Bool := i.imem.head?.any fun r => decide (r.1 ≤ pc.toNat) && decide (pc.toNat < r.1 + r.2)
/-- A strand is an image's: its launch started it, or it stands in the image's TEXT, or its handler returns there (log entry 72,
DESIGN CHOICE). -/
def Strand.ofImage (x : Strand) (i : Img) : Bool := x.owner == some i.launch || i.runs x.pc || (x.trap.hm && i.runs x.trap.tpc)

end Sys2Proof.Machine
end

