-- ==== Sys2Proof/Machine/SysRegs.lean ====
section
/-! DEFINITION. The system registers that SRR and SRW reach (R3, R4, R22, R34, R48, R71, R91, R117, R187, R188, R222, R224,
R237-R240, R260, R305, R331, R356, R372). -/
namespace Sys2Proof.Machine

def bit (b : Bool) (n : Nat) : Word := if b then 1#32 <<< n else 0

/-- R48: SYS.PARTNER. -/
def State.partnerReg (s : State) (c : Nat) : Word :=
  let p := partnerOf c
  bit (s.coreAt c).act 15 ||| bit (s.coreAt c).dark 14 ||| BitVec.ofNat 32 (dieOf p % 4 * 4096 + gcolOf p % 16 * 256 + rowOf p * 8)
/-- R71: SYS.SCOPEk. -/
def Core.scopeReg (x : Core) (k : Nat) : Word :=
  BitVec.ofNat 32 (leNat ((x.scope.toList.drop (4 * k)).take 4))
/-- R305: SYS.TCAUSE. -/
def TrapRegs.cause (t : TrapRegs) : Word :=
  bit t.hm 31 ||| bit t.part 30 ||| (t.ptile.setWidth 32 <<< 26) ||| (t.arg.setWidth 32 <<< 16) |||
    (t.agent.setWidth 32 <<< 8) ||| t.code.setWidth 32
/-- R356: SYS.DBGCTL. -/
def TraceRegs.ctl (t : TraceRegs) : Word :=
  (t.wmin.setWidth 32 <<< 8) ||| bit t.smp 3 ||| bit t.wre 2 ||| bit t.tre 1 ||| bit t.bke 0
/-- R117: SYS.PCTL and SYS.CKSPILL. -/
def Rel.pctl (r : Rel) : Word := (r.bkc.setWidth 32 <<< 16) ||| bit r.ple 1 ||| bit r.ab 0
def Rel.ckspill (r : Rel) : Word := (r.ckSlots.setWidth 32 <<< 20) ||| (r.ckBase.setWidth 32 <<< 6)
/-- R188: SYS.LEASE; the level of a suspended lease stays (R321). -/
def Lease.reg (l : Lease) : Word := bit l.pend 5 ||| bit l.held 4 ||| l.level.setWidth 32
/-- R305: SYS.TAGW. -/
def TagRegs.reg (t : TagRegs) : Word := bit t.auto 31 ||| t.next.setWidth 32

/-- The registers of a strand, by number (R187); none where the number is not one of them. -/
def Strand.reg (x : Strand) (num : Nat) : Option Word :=
  match num with
  | 0x010 => some x.rel.pstat
  | 0x011 => some (x.rel.budget.setWidth 32)
  | 0x012 => some x.rel.pctl
  | 0x013 => some x.rel.ckspill
  | 0x014 => some (BitVec.ofNat 32 x.loops.length)
  | 0x030 => some x.ve.shape
  | 0x031 => some (x.ve.rrb.setWidth 32)
  | 0x032 => some x.ve.fmt
  | 0x033 => some (x.ve.pred.setWidth 32)
  | 0x034 => some x.ve.amax[0]
  | 0x035 => some x.ve.amax[1]
  | 0x036 => some x.ve.amax[2]
  | 0x037 => some x.ve.amax[3]
  | 0x042 => some x.lease.reg
  | 0x080 => some (x.trap.tpc.setWidth 32)
  | 0x081 => some (x.trap.tvec.setWidth 32)
  | 0x082 => some x.trap.cause
  | 0x083 => some (x.trap.tval.setWidth 32)
  | 0x084 => some ((x.trap.tval >>> 32).setWidth 32)
  | 0x085 => some (x.trap.tseq.setWidth 32)
  | 0x086 => some x.tag.reg
  | 0x0C0 => some x.trace.ctl
  | 0x0C1 => some (x.trace.base.setWidth 32)
  | 0x0C2 => some ((x.trace.base >>> 32).setWidth 32)
  | 0x0C3 => some (x.trace.pages.setWidth 32)
  | 0x0C4 => some x.trace.prod
  | 0x0C5 => some x.trace.drop
  | 0x0C6 => some x.trace.smpint
  | 0x0CB => some x.trace.rfhold
  | _ => none

/-- R372: the numbers that the management core does not assign. -/
def mgmtLacks (num : Nat) : Bool :=
  num == 0x001 || num == 0x002 || num == 0x020 || num == 0x021 || (decide (0x030 ≤ num) && decide (num < 0x040))

/-- What SRR reads of register `num` for strand `k` of core `c`; none for a number that is not assigned. -/
def State.sysRead (s : State) (c k num : Nat) : Option Word :=
  let y := s.coreAt c
  if c = mgmtCore ∧ mgmtLacks num then none
  else match num with
  | 0x000 => some ((strandNumber c k).setWidth 32)
  | 0x001 => some (y.msgBase.setWidth 32 <<< 11)
  | 0x002 => some (s.partnerReg c)
  | 0x004 => some (y.scopeReg 0)
  | 0x005 => some (y.scopeReg 1)
  | 0x006 => some (y.scopeReg 2)
  | 0x007 => some (y.scopeReg 3)
  | 0x020 => some (y.seedNextM.getD y.seedM)
  | 0x021 => some (y.seedNextV.getD y.seedV)
  | 0x022 => some y.pfdrop
  | 0x040 => some (s.pkg.ptp.setWidth 32)
  | 0x041 => some y.ptph
  | n => (s.strandAt c (slotIx k)).reg n

/-- The effect of an SRR beside its result: SYS.PTPL latches the upper half of the time (R188). -/
def State.sysReadEffect (s : State) (c num : Nat) : State :=
  if num = 0x040 then s.updCore c fun y => { y with ptph := (s.pkg.ptp >>> 32).setWidth 32 } else s

/-- R222: a shape that the shape fault refuses. -/
def shapeWidth (v : Word) : Nat :=
  match (v.extractLsb' 16 2).toNat with
  | 0 => 8
  | 1 => 16
  | _ => 32
def shapeRows (v : Word) : Nat := (v.extractLsb' 10 6).toNat + 1
def shapeCols (v : Word) : Nat := (v.extractLsb' 0 10).toNat + 1
def shapeOk (v : Word) : Bool :=
  v.extractLsb' 18 14 == 0 && v.extractLsb' 16 2 != 3 && decide (shapeRows v * shapeCols v * shapeWidth v ≤ 32768)

/-- R239: the greater of two magnitudes, as their bits order them. -/
def amaxMax (a b : Word) : Word := if a.toNat < b.toNat then b else a
/-- R239: an SRW of an AMAX register stores +0.0 for a negative value or a NaN. -/
def amaxStore (v : Word) : Word := if v.getLsbD 31 ∨ 0x7F800000 < v.toNat then 0 else v

/-- R356: a write to the trace buffer's place or length starts its index again. -/
def TraceRegs.place (t : TraceRegs) (base : BitVec 57) (pages : BitVec 16) : TraceRegs :=
  { t with base := base, pages := if pages = 0 then 1 else pages, prod := 0 }

/-- The strand registers that SRW writes, under their access codes (R3, R4). -/
def Strand.putReg (x : Strand) (num : Nat) (v : Word) : Strand :=
  match num with
  | 0x010 => { x with rel := { x.rel with pxf := x.rel.pxf && !v.getLsbD 1 } }
  | 0x011 => { x with rel := { x.rel with budget := v.setWidth 16 } }
  | 0x012 => { x with rel := { x.rel with bkc := v.extractLsb' 16 16, ple := v.getLsbD 1, ab := v.getLsbD 0 } }
  | 0x013 =>
    if 16 < x.rel.ckd then x
    else { x with rel := { x.rel with ckSlots := if 239 < (v.extractLsb' 20 8).toNat then 239 else v.extractLsb' 20 8,
                                      ckBase := v.extractLsb' 6 14 } }
  | 0x030 => { x with ve := { x.ve with shape := v } }
  | 0x031 => { x with ve := { x.ve with rrb := v.setWidth 5 } }
  | 0x032 => { x with ve := { x.ve with fmt := v &&& 0x000FFF00 } }
  | 0x033 => { x with ve := { x.ve with pred := v.setWidth 16 } }
  | 0x034 => { x with ve := { x.ve with amax := x.ve.amax.set 0 (amaxMax (amaxStore v) x.amaxClk[0]) } }
  | 0x035 => { x with ve := { x.ve with amax := x.ve.amax.set 1 (amaxMax (amaxStore v) x.amaxClk[1]) } }
  | 0x036 => { x with ve := { x.ve with amax := x.ve.amax.set 2 (amaxMax (amaxStore v) x.amaxClk[2]) } }
  | 0x037 => { x with ve := { x.ve with amax := x.ve.amax.set 3 (amaxMax (amaxStore v) x.amaxClk[3]) } }
  | 0x080 => { x with trap := { x.trap with tpc := v.setWidth 17 &&& 0x1FFF8 } }
  | 0x081 => { x with trap := { x.trap with tvec := v.setWidth 17 &&& 0x1FFF8 } }
  | 0x0C0 => { x with trace := { x.trace with wmin := v.extractLsb' 8 8, smp := v.getLsbD 3, wre := v.getLsbD 2,
                                              tre := v.getLsbD 1, bke := v.getLsbD 0 } }
  | 0x0C1 => { x with trace := x.trace.place (x.trace.base.extractLsb' 32 25 ++ (v &&& 0xFFFFF000)) x.trace.pages }
  | 0x0C2 => { x with trace := x.trace.place (v.setWidth 25 ++ x.trace.base.extractLsb' 0 32) x.trace.pages }
  | 0x0C3 => { x with trace := x.trace.place x.trace.base (v.setWidth 16) }
  | 0x0C5 => { x with trace := { x.trace with drop := x.trace.drop &&& ~~~v } }
  | 0x0C6 => { x with trace := { x.trace with smpint := if v.toNat < 256 then 256 else v } }
  | 0x0CB => { x with trace := { x.trace with rfhold := x.trace.rfhold &&& ~~~v } }
  | _ => x

/-- The core registers that SRW writes; the generators take theirs at the end of the clk (R91). -/
def Core.putReg (y : Core) (num : Nat) (v : Word) : Core :=
  match num with
  | 0x001 => { y with msgBase := v.extractLsb' 11 9 }
  | 0x020 => { y with seedNextM := some (if v = 0 then 1 else v) }
  | 0x021 => { y with seedNextV := some (if v = 0 then 1 else v) }
  | 0x022 => { y with pfdrop := y.pfdrop &&& ~~~v }
  | _ => y

/-- The effect of an SRW to an assigned number; a number whose fields are RO is left as it is. -/
def State.sysWrite (s : State) (c : Nat) (k : Fin 9) (num : Nat) (v : Word) : State :=
  (s.updCore c fun y => y.putReg num v).updAt c k fun x => x.putReg num v

/-- R187. -/
def execSrr (d : DReg) (num : BitVec 12) (s : State) : Out :=
  match s.sysRead s.core s.slot.val num.toNat with
  | some v => (s.sysReadEffect s.core num.toNat).putD d (Dom.single v)
  | none => s.trapHere Code.illegal
/-- R187; an SRW of VSHAPE acts as SHAPE (R226). -/
def execSrw (d : DReg) (num : BitVec 12) (s : State) : Out :=
  match s.sysRead s.core s.slot.val num.toNat with
  | some _ => s.withVal (s.rd d) fun v =>
      if num = 0x030 ∧ !shapeOk v then s.trapHere Code.shape
      else (s.sysWrite s.core s.slot num.toNat v).done
  | none => s.trapHere Code.illegal

end Sys2Proof.Machine
end

