-- ==== Sys2Proof/Machine/Save.lean ====
section
/-! DEFINITION. Save areas: their bytes, the cut, saving, light pre-emption at NODE, restoring
(R42, R286, R309-R321, R332). -/
namespace Sys2Proof.Machine

/-! ### Areas of translated memory -/

/-- R314: the chunks of an area in the HBM of core `c`'s partition; none where some page is not there. -/
def State.area (s : State) (c va n : Nat) : Option (List (Nat × Nat)) :=
  if rangeOf c va ≠ .translated then none
  else match s.reach c va n true true with
    | .at l => if l.all fun x => decide (x.1 < hostBase) then some l else none
    | _ => none

def State.areaRead (s : State) (l : List (Nat × Nat)) (off n : Nat) : List Byte := s.readChunks (chunkSlice l off n)
def State.areaNat (s : State) (l : List (Nat × Nat)) (off n : Nat) : Nat := leNat (s.areaRead l off n)
def State.areaPut (s : State) (l : List (Nat × Nat)) (off : Nat) (bs : List Byte) : State :=
  s.storeChunks (chunkSlice l off bs.length) bs
/-- Zeros written to chunks. -/
def State.zeroChunks (s : State) : List (Nat × Nat) → State
  | [] => s
  | (k, n) :: rest =>
    State.zeroChunks { s with mem := SMap.splice s.mem k n [], poison := clearPoison s.poison k n, flaws := clearFlaws s.flaws k n } rest
def State.areaZero (s : State) (l : List (Nat × Nat)) (off n : Nat) : State := s.zeroChunks (chunkSlice l off n)
def State.areaPieces (s : State) (l : List (Nat × Nat)) (base : Nat) (ps : List (Nat × List Byte)) : State :=
  ps.foldl (fun s p => s.areaPut l (base + p.1) p.2) s

/-- R18, R342, R366: the walks for an area of core `c` arrive at the table entries that they read, and find their errors. -/
def State.areaCells (s : State) (c va n : Nat) : List (Nat × Nat) := if rangeOf c va = .translated then s.tableCells c va n else []
/-- What walks tables waits until no row of them is held or asleep. -/
def State.onWalk (s : State) (c k : Nat) (cells : List (Nat × Nat)) (f : State → Out) : Out :=
  if s.heldUp c cells then .next (s.arriveAt c k cells) else f (s.arriveAt c k cells)

/-- Rows that stand poisoned. -/
def State.poisonRows (s : State) (rows : List Nat) : State := { s with poison := s.poison ++ rows.filter fun r => !s.poison.contains r }
/-- R365: the poisoned rows of `n` bytes from a key, as offsets from it. -/
def State.poisonOf (s : State) (key n : Nat) : List Nat :=
  (s.poison.filter fun r => decide (key ≤ r) && decide (r < key + n)).map (· - key)
/-- A range of keys of core `c` copied to an area, and back: the rows that are read find their errors (R365), and a copy of a poisoned
row stands poisoned (log entry 87, DESIGN CHOICE). -/
def State.copyOut (s : State) (c : Nat) (l : List (Nat × Nat)) (off key n : Nat) : State :=
  let s := s.meetFlaws c 0 [(key, n)]
  let bad := s.poisonOf key n
  ((s.areaZero l off n).areaPieces l off (((s.mem.window key n).map fun e => (e.1 - key, [e.2])))).poisonRows
    (bad.flatMap fun o => rowsOf (chunkSlice l (off + o) 64))
def State.copyIn (s : State) (c : Nat) (l : List (Nat × Nat)) (off key n : Nat) : State :=
  let s := s.meetFlaws c 0 (chunkSlice l off n)
  let bad := (List.range (if s.poison.isEmpty then 0 else n / 64)).filter fun j => s.poisonedChunks (chunkSlice l (off + 64 * j) 64)
  { s with mem := s.mem.write key (s.areaRead l off n), poison := clearPoison s.poison key n,
           flaws := clearFlaws s.flaws key n }.poisonRows (bad.map fun j => key + 64 * j)

/-! ### Words of a record (R309, R310, R318, R319) -/

/-- R319: the wait kinds, in the order of the rows of R191. -/
def Wait.kind : Wait → Nat
  | .none => 0
  | .loadQueue => 1
  | .storeQueue => 2
  | .accept => 3
  | .reelPhase => 4
  | .reelHeld => 5
  | .sfen _ => 6
  | .queueFull _ => 7
  | .shadowArmed _ => 8
  | .formatFull => 9
  | .token _ => 10
  | .flag _ => 11
  | .lrec => 12
  | .trel => 13
  | .drain => 14
  | .idle => 15
  | .lease => 16
  | .operand => 17
  | .progress => 18
  | .spill => 19

def SlotState.code : SlotState → Nat
  | .ready => 1
  | .waiting => 2
  | .ending => 3
  | .parked => 4
  | _ => 0

/-- R309: the resolved address of a key for core `c`. -/
def resolved (c key : Nat) : Nat :=
  if key < ballBase then key
  else if key < localBase then key
  else
    let o := key - localBase
    2 * ballBase + (if o / 2 ^ 22 = c then o % 2 ^ 22 else 0x200000 + o % 2 ^ 22)

def Cls.code : Cls → Nat
  | .pure => 0
  | .coreLocal => 1
  | .tagged => 2
  | .resumable => 3

/-- R310: the 16 bytes of an in-flight entry. -/
def flightBytes (tag : Option Tag) (qseq cls queue : Nat) (held : Bool) (ra : Nat) : List Byte :=
  let t := match tag with
    | some g => g.ctx.toNat * 2 ^ 28 + g.seq.toNat
    | none => 0
  leBytes 8 (cls * 2 ^ 62 + queue * 2 ^ 59 + (if held then 2 ^ 58 else 0) + 2 ^ 57 + ra % 2 ^ 57) |> fun lo =>
    -- [79:64] QSEQ, [63:0] the rest; the upper half holds TAG above QSEQ
    lo ++ leBytes 8 (t * 2 ^ 16 + qseq)

def Flight.bytes (c : Nat) (f : Flight) : List Byte :=
  flightBytes f.tag f.e.qseq.toNat f.cls.code (if f.e.i.isStrike then 4 else if f.st then 1 else 0) false ((f.ra.head?.map fun x => resolved c x.1).getD 0)

/-- The relation of a stored entry: opcode (R124). -/
def RelOp.opc : RelOp → Nat
  | .add => 0x00
  | .sub => 0x01
  | .mul => 0x02
  | .min => 0x0E
  | .max => 0x0F
  | .abs => 0x10
  | .neg => 0x11
  | .eq => 0x18
  | .ne => 0x19
  | .lt => 0x1A
  | .le => 0x1B
  | .alld => 0x1C
def relOpOf (n : Nat) : RelOp :=
  match [RelOp.add, .sub, .mul, .min, .max, .abs, .neg, .eq, .ne, .lt, .le, .alld].find? fun o => o.opc == n with
  | some o => o
  | none => .add

/-- R318: a constraint-store entry in 32 bytes: opcode, SUB, pending mark, count, registers (0xFF for a literal), then the
literals of the first three operands (log entry 14, DESIGN CHOICE). -/
def StoreEntry.bytes (e : StoreEntry) : List Byte :=
  let regs := e.args.map fun a => match a with
    | .reg r => r.setWidth 8
    | .lit _ => (0xFF : Byte)
  let lits : List Word := (e.args.take 3).map fun a => match a with
    | .reg _ => 0
    | .lit l => l
  ([BitVec.ofNat 8 e.op.opc, 0, if e.pending then 1 else 0, BitVec.ofNat 8 e.args.length] ++ (regs ++ List.replicate 8 0).take 8 ++
    leBytes 4 0 ++ (lits.flatMap fun (l : Word) => leBytes 4 l.toNat) ++ List.replicate 16 0).take 32
def storeEntryOf (bs : List Byte) : StoreEntry :=
  let n := min (leAt bs 3 1) 8
  { op := relOpOf (leAt bs 0 1), pending := leAt bs 2 1 == 1
    args := (List.range n).map fun i =>
      if leAt bs (4 + i) 1 = 0xFF then .lit (BitVec.ofNat 32 (leAt bs (16 + 4 * i) 4)) else .reg (BitVec.ofNat 6 (leAt bs (4 + i) 1)) }

/-- The data of an entry, bytes 16-23 of its slot: a W32 compare value and a SEND's length stand above the operand. -/
def QEntry.dataWord (e : QEntry) : DWord :=
  match e.i with
  | .atomCas (.s _ _ _ _) _ => e.v ||| (e.c <<< 32)
  | .send _ _ _ _ => e.v ||| (e.c <<< 32)
  | _ => e.v
/-- R318: a load or store queue slot of 32 bytes; a marker has no address. -/
def QEntry.bytes (st : Bool) (e : QEntry) : List Byte :=
  let w := match encode e.i with
    | some (_, bs) => bs
    | none => leBytes 8 0
  let mark := match e.i with
    | .mark _ => true
    | _ => false
  w ++ leBytes 8 (if mark then 0 else e.ea.toNat) ++ leBytes 8 (if st && !mark then e.dataWord.toNat else 0) ++
    leBytes 2 e.qseq.toNat ++ leBytes 6 0
/-- The entry that a slot holds, with position `po`; none where its word is illegal. -/
def qentryOf (st : Bool) (bs : List Byte) (po : Nat) (a : Vector DWord 32) : Option QEntry :=
  match decode .seq bs with
  | .error _ => none
  | .ok i =>
    let data := BitVec.ofNat 64 (leAt bs 16 8)
    let ea := BitVec.ofNat 64 (leAt bs 8 8)
    let e : QEntry := { i := i, po := po, qseq := BitVec.ofNat 16 (leAt bs 24 2), ea := ea, v := if st then data else 0,
                        c := 0, data := [], held := .no, tag := none, ra := none, replay := none }
    some (match i with
      | .atomCas (.s _ _ _ _) _ => { e with v := data &&& 0xFFFFFFFF, c := data >>> 32 }
      | .atomCas (.a _ _ cr) _ => { e with c := a[cr.toNat] }
      | .send _ _ _ _ => { e with v := data &&& 0xFFFFFFFF, c := data >>> 32 }
      | _ => e)

/-- R318: kind and address of a command entry in 8 bytes (log entry 14, DESIGN CHOICE). -/
def Cmd.word (k : Cmd) : Nat :=
  match k.kind with
  | .stream none => k.addr.toNat % 2 ^ 57
  | .nest => 1 * 2 ^ 60
  | .fence id me ve ce => 2 * 2 ^ 60 + (if me then 2 ^ 34 else 0) + (if ve then 2 ^ 33 else 0) + (if ce then 2 ^ 32 else 0) + id % 2 ^ 32
  | .marker id q => 3 * 2 ^ 60 + q.toNat * 2 ^ 32 + id % 2 ^ 32
  | .stream (some c) => 4 * 2 ^ 60 + c % 4096 * 2 ^ 32 + k.addr.toNat % 2 ^ 32
def Cmd.bytes (k : Cmd) : List Byte :=
  leBytes 8 k.word ++ leBytes 8 0 ++ (k.snap.ports.toList.flatMap fun p => leBytes 64 p.toNat) ++ leBytes 4 k.snap.shape.toNat ++
    leBytes 4 k.snap.fmt.toNat ++ leBytes 4 k.snap.rrb.toNat ++ leBytes 4 k.snap.pred.toNat ++ leBytes 32 0
def cmdOf (bs : List Byte) (qseq : BitVec 16) : Cmd :=
  let w := leAt bs 0 8
  let kind : CmdKind := match w / 2 ^ 60 with
    | 1 => .nest
    | 2 => .fence (w % 2 ^ 32) (w.testBit 34) (w.testBit 33) (w.testBit 32)
    | 3 => .marker (w % 2 ^ 32) (BitVec.ofNat 5 (w / 2 ^ 32))
    | 4 => .stream (some (w / 2 ^ 32 % 4096))
    | _ => .stream none
  { kind := kind, qseq := qseq
    addr := if w / 2 ^ 60 = 4 then BitVec.ofNat 64 (w % 2 ^ 32) else if w / 2 ^ 60 = 0 then BitVec.ofNat 64 w else 0
    snap := { ports := Vector.ofFn fun i => BitVec.ofNat 512 (leAt bs (16 + 64 * i.val) 64)
              shape := BitVec.ofNat 32 (leAt bs 528 4), fmt := BitVec.ofNat 32 (leAt bs 532 4)
              rrb := BitVec.ofNat 5 (leAt bs 536 4), pred := BitVec.ofNat 16 (leAt bs 540 4) } }

/-- R318: a cursor of 256 bytes: the address of its word or entry, the repetition index, the popped format word and the held
bit, the nest index vector, the port row counters, the working predicates, the unit of a chain entry, and zeros. -/
def Cursor.bytes (u : Cursor) : List Byte :=
  leBytes 8 u.addr.toNat ++ leBytes 8 u.rep ++ leBytes 4 u.fmt.toNat ++ leBytes 4 (if u.held = .no then 0 else 1) ++
    ((u.idx ++ List.replicate 6 0).take 6).flatMap (leBytes 4) ++ u.rows.toList.flatMap (leBytes 8) ++ leBytes 8 u.pw.toNat ++
    leBytes 8 u.unit ++ List.replicate 128 0
/-- What the bytes of a cursor say, over the cursor `g` that the cut left (log entry 51, DESIGN CHOICE); the index vector of a
nest of these counts says which execution is next (R211). -/
def Cursor.rejoin (g : Cursor) (counts : List Nat) (bs : List Byte) : Cursor :=
  { g with
    addr := BitVec.ofNat 64 (leAt bs 0 8)
    rep := if g.idx.isEmpty ∨ g.rep = g.total then leAt bs 8 8 else Nest.rank counts ((List.range 6).map fun i => leAt bs (24 + 4 * i) 4)
    fmt := BitVec.ofNat 32 (leAt bs 16 4)
    idx := if g.idx.isEmpty then [] else ((List.range 6).map fun i => leAt bs (24 + 4 * i) 4).take counts.length
    rows := Vector.ofFn fun i => leAt bs (48 + 8 * i.val) 8
    pw := BitVec.ofNat 16 (leAt bs 112 2), unit := leAt bs 120 8, held := if g.held = .taken then .taken else .no, heldAt := [] }
/-- A cursor of which only the bytes are known: the word or entry at its address begins. -/
def Cursor.blank : Cursor :=
  { addr := 0, word := 0, phase := .fetch, popped := false, rep := 0, total := 0, fmt := 0, idx := [], nestEntry := false
    rows := Vector.replicate 8 0, pw := 0, unit := 0, seen := [], reads := 0, writes := 0, acc := false, linked := false
    pushed := [], rowBuf := [], heldAt := [], atom := none, held := .no, since := none }

/-! ### The strand record (R318, R319) -/

/-- An issued entry as it issues again at the replay (R80, R320). -/
def Flight.replay (f : Flight) : QEntry :=
  { f.e with tag := f.tag, ra := some f.ra, held := .no, data := [], replay := some f.n }
/-- Replays that have still to issue keep their order behind those that have issued again. -/
def renumber (n : Nat) (l : List QEntry) : List QEntry := l.map fun e => { e with replay := e.replay.map (n + ·) }
/-- An atomic action under way takes its place in that order: by its issue, or behind what has issued again. -/
def Struck.forReplay (a : Struck) (y : Core) (k : Nat) : Struck :=
  if a.hit then a
  else match (y.flightsOf k).find? fun f => f.e.i.isStrike && !f.done && f.tag == a.tag with
    | some f => { a with replay := some f.n }
    | none => { a with replay := a.replay.map (y.issueNo + ·) }
def Cursor.forReplay (u : Cursor) (y : Core) (k : Nat) : Cursor := { u with atom := u.atom.map fun a => a.forReplay y k }
/-- The strand with its issued entries, in the order of their issue, before those that have not issued. -/
def Strand.forReplay (x : Strand) (y : Core) (k : Nat) : Strand :=
  let again (st : Bool) : List QEntry :=
    ((y.flightsOf k).filter fun f => f.st == st && !f.ended && f.cls != .resumable && !f.e.i.isStrike).map Flight.replay
  let x := { x with q := { x.q with ld := renumber y.issueNo x.q.ld, st := renumber y.issueNo x.q.st } }
  { x with
    q := { x.q with ld := again false ++ x.q.ld, st := again true ++ x.q.st }
    curCe := x.curCe.map fun u => u.forReplay y k
    trap := { x.trap with aside := x.trap.aside.map fun a => (a.1, a.2.1, a.2.2.1, a.2.2.2.map fun u => u.forReplay y k) } }
/-- The cursors that stand at a strand's cut: ME, VE, CE. -/
def Strand.cursors (x : Strand) : Option Cursor × Option Cursor × Option Cursor :=
  match x.trap.aside with
  | some (_, m, v, e) => (m.orElse fun _ => x.curMe, v.orElse fun _ => x.curVe, e.orElse fun _ => x.curCe)
  | none => (x.curMe, x.curVe, x.curCe)

/-- R318: the 32 system registers of the block, in its order; a lease to be asked for again reads as held (R320). -/
def Strand.regBlock (x : Strand) : List Word :=
  let x := if x.lease.again then { x with lease := { x.lease with held := true } } else x
  ([0x010, 0x011, 0x012, 0x013, 0x080, 0x081, 0x082, 0x083, 0x084, 0x085, 0x030, 0x031, 0x032, 0x033, 0x034, 0x035, 0x036,
    0x037, 0x042, 0x014] ++ (List.range 12).map (0x0C0 + ·)).map fun n => (x.reg n).getD 0

/-- R318: the valid slots of a load or store queue are the first 64; the head and tail of the control block span them (log
entry 51, DESIGN CHOICE). -/
def slots64 (l : List QEntry) : List QEntry := l.take 64

/-- R319: the state and the wait at the freeze. -/
def Strand.stateWord (x : Strand) : Nat :=
  if x.st = .frozen then x.back.code + x.backWait.kind * 256
  else if x.st = .parked then x.st.code + x.backWait.kind * 256
  else x.st.code + x.waitNow.kind * 256

/-- R319: the control block of strand `k` of core `c`, whose queues are `q`. -/
def Strand.control (x : Strand) (c k : Nat) (light portable : Bool) (q : Queues) (inflight : Nat) : List Byte :=
  let ends (tail : BitVec 16) (n valid : Nat) : List Byte :=
    leBytes 2 (tail - BitVec.ofNat 16 n).toNat ++ leBytes 2 (tail - BitVec.ofNat 16 n + BitVec.ofNat 16 valid).toNat
  let all (tail : BitVec 16) (n : Nat) : List Byte := ends tail n n
  leBytes 8 x.pc.toNat ++ leBytes 4 x.stateWord ++
    leBytes 4 ((if x.trap.hm then 1 else 0) + (if light then 2 else 0) + (if portable then 4 else 0) + (if x.viol then 8 else 0) +
      (if x.run.isSome then 16 else 0)) ++
    leBytes 4 x.tag.ctx.toNat ++ leBytes 4 x.tag.reg.toNat ++ leBytes 4 x.tag.wmark.toNat ++ leBytes 4 inflight ++
    leBytes 4 (strandNumber c k).toNat ++ leBytes 4 ((x.run.map (·.iter)).getD 0) ++ leBytes 8 0 ++
    all q.seqMe q.me.length ++ all q.seqVe q.ve.length ++ all q.seqCe q.ce.length ++ all q.seqFmt q.fmt.length ++
    ends q.seqLd q.ld.length (slots64 q.ld).length ++ ends q.seqSt q.st.length (slots64 q.st).length ++
    leBytes 8 (match x.nest.st with
      | .empty => 0
      | .filled => 1
      | .armed => 2) ++
    leBytes 32 ((x.run.map fun r => r.record.toNat).getD 0) ++
    ((x.loops.reverse.flatMap fun (f : LoopFrame) => leBytes 4 f.start.toNat ++ leBytes 4 f.last.toNat ++ leBytes 4 f.left) ++
      List.replicate 64 0).take 64 ++
    leBytes 4 x.nest.ptrA.toNat ++ leBytes 4 x.nest.ptrB.toNat ++ leBytes 4 x.nest.ptrC.toNat ++ leBytes 4 x.nest.ptrI.toNat ++
    x.tokens.toList ++ leBytes 52 0

/-- R308: the class of an entry that has not issued, by its form and the range of its address; that of a near-memory entry by
its descriptor (R220). -/
def State.rangeCls (s : State) (c : Nat) (e : QEntry) : Cls :=
  if e.i.isLoad || e.i.isPref then .pure
  else if e.i.isStrike then .tagged
  else match e.i, nmKind e.i with
    | .reltag _, _ => .pure
    | .send _ _ _ _, _ => .tagged
    | _, some n => if Nm.tagged n (s.readNat (localKey c e.ea.toNat) 64) then .tagged else .pure
    | _, none => match rangeOf c e.ea.toNat with
      | .scratch => if e.i.isWrite then .coreLocal else .tagged
      | .tile => .coreLocal
      | .partner => .coreLocal
      | .partnerTile => .coreLocal
      | _ => .tagged

/-- An entry of queue 0, 1 or 4 in its place by the order of the replay. -/
def insertReplay (e : Nat × QEntry) : List (Nat × QEntry) → List (Nat × QEntry)
  | [] => [e]
  | a :: l => if (a.2.replay.getD 0) ≤ (e.2.replay.getD 0) then a :: insertReplay e l else e :: a :: l
/-- The entries that a replay has still to issue again, in its order, then those that are held on a fault (R307, R320): of the queues
and of the atomic actions under way. -/
def pending (ld st strikes : List QEntry) : List (Nat × QEntry) :=
  let all := ld.map (0, ·) ++ st.map (1, ·) ++ strikes.map (4, ·)
  ((all.filter fun e => e.2.goesOn).foldl (fun l e => insertReplay e l) []) ++
    all.filter fun e => !e.2.goesOn && (e.2.held.onFault || e.2.tag.isSome)
/-- R310: their in-flight entries. -/
def State.pendingBytes (s : State) (c : Nat) (ld st strikes : List QEntry) : List (List Byte) :=
  (pending ld st strikes).map fun e =>
    flightBytes e.2.tag e.2.qseq.toNat (s.rangeCls c e.2).code e.1 e.2.held.onFault
      (((e.2.ra.bind List.head?).map fun x => resolved c x.1).getD 0)

/-- R310, R309: the address of a chain entry as an in-flight entry holds it. -/
def State.chainRa (s : State) (c a : Nat) : Nat :=
  if a < 0x400000 then 2 * ballBase + a
  else match s.reach c a 1 false true with
    | .at ((k, _) :: _) => resolved c k
    | _ => a
/-- R310: the in-flight entry of an engine's entry in progress. -/
def State.runningBytes (s : State) (c queue : Nat) (u : Option Cursor) (q : List Cmd) : List (List Byte) :=
  match u, q with
  | some u, e :: _ =>
    [flightBytes none e.qseq.toNat Cls.resumable.code queue u.held.onFault (if queue = 4 then s.chainRa c u.addr.toNat else 0)]
  | _, _ => []

/-- The atomic action under way of a cursor, whose chain is the head of a command queue, as the entry that it issued: not one that has
been performed or is on its way. -/
def Cursor.struck (u : Cursor) (y : Core) (k : Nat) (q : List Cmd) : List QEntry :=
  match u.atom, q with
  | some a, e :: _ =>
    if a.hit || y.strikeOut k a then []
    else [{ i := .cpost (CEntry.unpack u.word), po := 0, qseq := e.qseq, ea := 0, v := 0, c := 0, data := [], held := u.held,
            tag := a.tag, ra := some a.ra, replay := a.replay }]
  | _, _ => []
/-- R308, R310: the in-flight entries of strand `k` of core `c`, in issue order. -/
def State.inflight (s : State) (c : Nat) (k : Fin 9) : List (List Byte) :=
  let y := s.coreAt c
  let x := s.strandAt c k
  let q := x.allQueued
  let u := x.cursors
  let strikes := ((u.2.2).map fun v => v.struck y k.val q.ce).getD []
  (((y.flightsOf k.val).filter fun f => !f.ended && f.cls != .resumable).map (Flight.bytes c) ++ s.pendingBytes c q.ld q.st strikes ++
    s.runningBytes c 2 u.1 q.me ++ s.runningBytes c 3 u.2.1 q.ve ++ s.runningBytes c 4 u.2.2 q.ce).take 4096

/-- R318: the pieces of a full strand record. -/
def State.record (s : State) (c : Nat) (k : Fin 9) (portable : Bool) : List (Nat × List Byte) :=
  let x := s.strandAt c k
  let q := (x.forReplay (s.coreAt c) k.val).allQueued
  let fl := s.inflight c k
  let cur (u : Option Cursor) : List Byte := (u.map Cursor.bytes).getD []
  let u := x.cursors
  [ (0, x.control c k.val false portable q fl.length),
    (0x100, x.d.toList.flatMap domBytes), (0x500, x.a.toList.flatMap fun v => leBytes 8 v.toNat),
    (0x600, x.regBlock.flatMap fun v => leBytes 4 v.toNat),
    (0x680, leBytes 192 x.nest.shadow.toNat ++ leBytes 192 x.nest.active.toNat),
    (0x800, x.ve.ports.toList.flatMap fun p => leBytes 64 p.toNat),
    (0xA00, x.rel.store.flatMap StoreEntry.bytes), (0x2A00, x.rel.cks.reverse.flatMap Ckpt.bytes),
    (0x6E00, q.fmt.flatMap fun v => leBytes 4 v.toNat), (0x6E80, (slots64 q.ld).flatMap (QEntry.bytes false)),
    (0x7680, (slots64 q.st).flatMap (QEntry.bytes true)), (0x8000, q.me.flatMap Cmd.bytes), (0x8000 + 36864, q.ve.flatMap Cmd.bytes),
    (0x8000 + 2 * 36864, q.ce.flatMap Cmd.bytes), (0x23000, cur u.1), (0x23100, cur u.2.1), (0x23200, cur u.2.2),
    (0x30000, fl.flatten) ]

/-- R286, R315: the pieces of a light record; a register that the boundary map names is written as zero. -/
def Strand.lightRecord (x : Strand) (c k : Nat) (map : BitVec 32 × BitVec 64) : List (Nat × List Byte) :=
  [ (0, x.control c k true true { x.q with me := [], ve := [], ce := [], fmt := [], ld := [], st := [] } 0),
    (0x100, (List.range 64).flatMap fun i => if map.2.getLsbD i then leBytes 16 0 else domBytes (x.d[i % 64]'(Nat.mod_lt _ (by decide)))),
    (0x500, (List.range 32).flatMap fun i => if map.1.getLsbD i then leBytes 8 0 else
      leBytes 8 (x.a[i % 32]'(Nat.mod_lt _ (by decide))).toNat),
    (0x600, x.regBlock.flatMap fun v => leBytes 4 v.toNat) ]

/-- R309: the key of a resolved address for core `c`. -/
def unresolved (c ra : Nat) : Nat :=
  if ra < 2 * ballBase then ra
  else if ra - 2 * ballBase < 0x200000 then localKey c (ra - 2 * ballBase) else localKey (partnerOf c) (ra - 2 * ballBase - 0x200000)

/-- R320: what the in-flight entries of a record say of the queue entries that they name: the class, the tag, the address. -/
structure Named where
  queue : Nat
  cls : Nat
  qseq : Nat
  tag : Tag
  ra : Nat
  held : Bool
deriving DecidableEq, Repr
def namedOf (get : Nat → Nat → List Byte) : List Named :=
  (List.range (min (leNat (get 0x1C 4)) 4096)).map fun i =>
    let lo := leNat (get (0x30000 + 16 * i) 8)
    let hi := leNat (get (0x30000 + 16 * i + 8) 8)
    { queue := lo / 2 ^ 59 % 8, cls := lo / 2 ^ 62, qseq := hi % 65536, held := lo.testBit 58
      tag := { ctx := BitVec.ofNat 20 (hi / 2 ^ 44), seq := BitVec.ofNat 28 (hi / 2 ^ 16) }, ra := lo % 2 ^ 57 }
/-- R80, R320: an entry that an in-flight entry names issues again, in its order, under its tag and at its address; one that was
held for a fault issues as it would have, at the bytes that it had reached. -/
def QEntry.named (e : QEntry) (c queue : Nat) (l : List Named) : QEntry :=
  match (l.zipIdx).find? fun n => n.1.queue == queue && n.1.qseq == e.qseq.toNat with
  | some (n, i) =>
    { e with tag := if n.cls = 2 ∧ (!n.held ∨ n.tag.ctx ≠ 0 ∨ n.tag.seq ≠ 0) then some n.tag else none
             ra := match e.ra with
               | some r => some r
               | none => if n.held && n.ra == 0 then none else some [(unresolved c n.ra, e.size)]
             replay := if n.held then none else some i }
  | none => { e with replay := none }

/-- R80, R320: the place of the atomic action under way of a cursor in the order of the replay, as the in-flight entries name it. -/
def Cursor.renamed (u : Cursor) (l : List Named) : Cursor :=
  let at_ (a : Struck) : Option Nat :=
    ((l.zipIdx).find? fun n => n.1.queue == 4 && n.1.cls == 2 && !n.1.held && a.tag == some n.1.tag).map (·.2)
  { u with atom := u.atom.map fun a => { a with replay := if a.hit then none else at_ a } }

/-- A strand from the bytes of its record; `get` reads bytes from an offset of the record. A domain that breaks R103 reads as
{0} (log entry 57, DESIGN CHOICE). -/
def strandOf (c : Nat) (get : Nat → Nat → List Byte) : Strand :=
  let n (off len : Nat) : Nat := leNat (get off len)
  let x := Strand.fresh
  let flags := n 0x0C 4
  let reg (i : Nat) : Word := BitVec.ofNat 32 (n (0x600 + 4 * i) 4)
  let cnt (i : Nat) : Nat := min ((n (0x30 + 4 * i + 2) 2 + 65536 - n (0x30 + 4 * i) 2) % 65536) 64
  let tail (i : Nat) : BitVec 16 := BitVec.ofNat 16 (n (0x30 + 4 * i + 2) 2)
  let head (i : Nat) : BitVec 16 := BitVec.ofNat 16 (n (0x30 + 4 * i) 2)
  let cmds (base i : Nat) : List Cmd := (List.range (cnt i)).map fun j => cmdOf (get (base + 576 * j) 576) (head i + BitVec.ofNat 16 j)
  let a : Vector DWord 32 := Vector.ofFn fun i => BitVec.ofNat 64 (n (0x500 + 8 * i.val) 8)
  let ents (st : Bool) (base i po : Nat) : List QEntry :=
    (List.range (cnt i)).filterMap fun j => qentryOf st (get (base + 32 * j) 32) (po + j) a
  let d : Vector Dom 64 := Vector.ofFn fun i =>
    let v := domAt (get (0x100 + 16 * i.val) 16) 0
    if v.canonical then v else Dom.single 0
  let pstat := n 0x600 4
  let sh := pstat / 128 % 512
  let ckd := pstat / 65536 % 256
  let store := (List.range (min sh 256)).map fun i => storeEntryOf (get (0xA00 + 32 * i) 32)
  let cks := ((List.range (min ckd 16)).filterMap fun i => Ckpt.ofBytes (get (0x2A00 + 1088 * i) 1088) 256).reverse
  let loops := ((List.range 4).filterMap fun i =>
    let l := n (0x70 + 12 * i + 8) 4
    if l = 0 then none
    else some ({ start := BitVec.ofNat 17 (n (0x70 + 12 * i) 4), last := BitVec.ofNat 17 (n (0x70 + 12 * i + 4) 4), left := l } : LoopFrame)).reverse
  let named := namedOf get
  let cursor (queue off : Nat) : Option Cursor :=
    if named.any fun f => f.queue == queue && f.cls == 3 then
      some { Cursor.blank.rejoin [] (get off 256) with
        atom := (named.find? fun f => f.queue == queue && f.cls == 2).map fun f =>
          { tag := some f.tag, ra := [(unresolved c f.ra, 8)], hit := false, replay := none } }
    else none
  let cause := reg 6
  let lease := reg 18
  let word (base len : Nat) : Nat := n base len
  let y : Strand :=
    { x with
      pc := BitVec.ofNat 17 (n 0 8), po := 64 + cnt 4 + cnt 5, d := d, a := a, loops := loops
      tag := { next := BitVec.ofNat 28 (n 0x14 4), auto := false, wmark := BitVec.ofNat 28 (n 0x18 4), ctx := BitVec.ofNat 20 (n 0x10 4) }
      run := if flags.testBit 4 then
          some { record := BitVec.ofNat 256 (n 0x50 32), part := .kernel, iter := n 0x24 4, order := 0, begun := 0, row := none }
        else none
      rel := { x.rel with store := store, cks := cks, ckd := ckd, pxf := pstat.testBit 1 }
      tokens := Vector.ofFn fun i => BitVec.ofNat 8 (n (0xC0 + i.val) 1)
      ve := { x.ve with ports := Vector.ofFn fun i => BitVec.ofNat 512 (word (0x800 + 64 * i.val) 64) }
      nest := { shadow := BitVec.ofNat 1536 (word 0x680 192), active := BitVec.ofNat 1536 (word 0x740 192)
                st := match n 0x48 8 with
                  | 1 => .filled
                  | 2 => .armed
                  | _ => .empty
                ptrA := BitVec.ofNat 32 (n 0xB0 4), ptrB := BitVec.ofNat 32 (n 0xB4 4), ptrC := BitVec.ofNat 32 (n 0xB8 4)
                ptrI := BitVec.ofNat 32 (n 0xBC 4) }
      q := { me := cmds 0x8000 0, ve := cmds (0x8000 + 36864) 1, ce := cmds (0x8000 + 2 * 36864) 2
             fmt := (List.range (min (cnt 3) 32)).map fun j => BitVec.ofNat 32 (n (0x6E00 + 4 * j) 4)
             ld := ents false 0x6E80 4 64, st := ents true 0x7680 5 0
             seqMe := tail 0, seqVe := tail 1, seqCe := tail 2, seqFmt := tail 3, seqLd := tail 4, seqSt := tail 5 }
      curMe := cursor 2 0x23000, curVe := cursor 3 0x23100, curCe := cursor 4 0x23200
      trap := { x.trap with hm := flags.testBit 0, ret := if flags.testBit 0 then .ready else .dormant
                            part := cause.getLsbD 30, ptile := cause.extractLsb' 26 4, arg := cause.extractLsb' 16 8
                            agent := cause.extractLsb' 8 3, code := cause.setWidth 8, tval := reg 8 ++ reg 7, tseq := (reg 9).setWidth 16 }
      lease := { pend := false, held := false, level := lease.setWidth 4, again := lease.getLsbD 4, left := false }
      trace := { x.trace with prod := reg 24, drop := reg 25, rfhold := reg 31 }
      viol := flags.testBit 3 }
  -- the registers that SRW writes come back through their own layouts
  let z := ([(0x011, 1), (0x012, 2), (0x080, 4), (0x081, 5), (0x030, 10), (0x031, 11), (0x032, 12), (0x033, 13), (0x034, 14),
      (0x035, 15), (0x036, 16), (0x037, 17), (0x0C0, 20), (0x0C1, 21), (0x0C2, 22), (0x0C3, 23), (0x0C6, 26)] : List (Nat × Nat)).foldl
    (fun z p => z.putReg p.1 (reg p.2)) { y with rel := { y.rel with ckd := 0 } }
  let z := z.putReg 0x013 (reg 3)
  { z with rel := { z.rel with ckd := ckd }, trace := { z.trace with prod := reg 24 } }

/-- An entry from the bytes of its slot, over the entry of the same number that the cut left. -/
def QEntry.rejoin (pool : List QEntry) (e : QEntry) : QEntry :=
  match pool.find? fun g => g.qseq == e.qseq && g.i == e.i with
  | none => e
  | some g =>
    let g : QEntry := { g with ea := e.ea, held := if g.held = .taken then .taken else .no, data := [] }
    match e.i with
    | .mark _ => g
    | .atomCas (.a _ _ _) _ => { g with v := e.v }
    | _ => { g with v := e.v, c := e.c }

/-- R320: the strand that its bytes give, over the strand `g` that the cut left: positions in po, what a trap set aside, the
cursors, and what no byte of the record holds (log entry 51, DESIGN CHOICE). -/
def Strand.rejoin (x g : Strand) (c : Nat) (get : Nat → Nat → List Byte) : Strand :=
  let named := namedOf get
  let whole := g.allQueued
  let aside := (g.trap.aside.map (·.1)).getD Queues.empty
  let ents (queue : Nat) (bytes all : List QEntry) : List QEntry :=
    (bytes.map (QEntry.rejoin all) ++ (if bytes.length = 64 then all.drop 64 else [])).map fun e => e.named c queue named
  let ld := ents 0 x.q.ld whole.ld
  let st := ents 1 x.q.st whole.st
  let wasAside (l : List QEntry) (e : QEntry) : Bool := l.any fun a => a.qseq == e.qseq && a.i == e.i
  let cmdAside (l : List Cmd) (e : Cmd) : Bool := l.any fun a => a.qseq == e.qseq
  let counts := Nest.counts x.nest.active
  let stand (k : Option Cursor) (off : Nat) : Option Cursor := k.map fun u => (u.rejoin counts (get off 256)).renamed named
  let cur (k : Option Cursor) (off : Nat) : Option Cursor := (stand k off).map fun u => { u with held := .no }
  let old (k : Option Cursor) : Option Cursor := k.map fun u => { u with held := .no, heldAt := [] }.renamed named
  let u := g.cursors
  let q : Queues :=
    { x.q with
      me := x.q.me.filter fun e => !cmdAside aside.me e, ve := x.q.ve.filter fun e => !cmdAside aside.ve e
      ce := x.q.ce.filter fun e => !cmdAside aside.ce e, fmt := x.q.fmt.drop aside.fmt.length
      ld := holdAll Held.afterCut (ld.filter fun e => !wasAside aside.ld e)
      st := holdAll Held.afterCut (st.filter fun e => !wasAside aside.st e)
      seqLd := g.q.seqLd, seqSt := g.q.seqSt }
  let y : Strand :=
    { x with
      po := g.po, q := q
      deadD := { mask := g.deadD.mask, dup := [] }, deadA := { mask := g.deadA.mask, dup := [] }
      trap := { x.trap with ret := g.trap.ret, retWait := g.trap.retWait, cut := g.trap.cut, cutPo := g.trap.cutPo }
      trace := { x.trace with count := g.trace.count, gap := g.trace.gap, last := g.trace.last }
      bad := g.bad, sinceClk := g.sinceClk }
  match g.trap.aside with
  | none => { y with curMe := cur u.1 0x23000, curVe := cur u.2.1 0x23100, curCe := cur u.2.2 0x23200 }
  | some (_, m, v, e) =>
    let set : Queues :=
      { aside with
        me := x.q.me.filter (cmdAside aside.me), ve := x.q.ve.filter (cmdAside aside.ve), ce := x.q.ce.filter (cmdAside aside.ce)
        fmt := x.q.fmt.take aside.fmt.length, ld := ld.filter (wasAside aside.ld), st := st.filter (wasAside aside.st) }
    let own (a b : Option Cursor) (off : Nat) : Option Cursor := if a.isSome then old b else cur b off
    { y with
      curMe := own m g.curMe 0x23000, curVe := own v g.curVe 0x23100, curCe := own e g.curCe 0x23200
      trap := { y.trap with aside := some (set, stand m 0x23000, stand v 0x23100, stand e 0x23200) } }

/-! ### The cut and the save (R42, R316, R317, R321) -/

/-- R42, R23: strand `k` of core `c` goes to FROZEN at its cut; a pre-emption ends IDLE (R173). -/
def State.cutAt (s : State) (c : Nat) (k : Fin 9) : State :=
  (((s.mend c k).dropLeaseReq c k).updAt c k fun x => (x.wake .idle).freeze).updCore c fun y => y.dropEngines k.val

/-- R279: the images that a strand belongs to (log entry 72). -/
def Strand.images (x : Strand) (y : Core) : List Img := y.images.filter x.ofImage
/-- What the strand belongs to, and what the cut left of it, stays with its context number. -/
def Strand.saved (x : Strand) (y : Core) (k : Nat) : Saved :=
  { imgs := x.images y
    ctx := x.tag.ctx, prio := x.prio, owner := x.owner, launched := x.launched
    part := (x.run.map (·.part)).getD .kernel, order := (x.run.map (·.order)).getD 0, begun := (x.run.map (·.begun)).getD 0
    strand := x.forReplay y k }
def State.keepSaved (s : State) (c : Nat) (k : Fin 9) : State :=
  let i := (s.strandAt c k).saved (s.coreAt c) k.val
  { s with saved := (s.saved.filter fun j => j.ctx != i.ctx) ++ [i] }

/-- R317: the header of a save of core `c`; a light pre-emption saves no generator (R91). -/
def State.header (s : State) (c mask : Nat) (portable partner seeds : Bool) : List Byte :=
  let y := s.coreAt c
  let seed (next : Option Word) (v : Word) : Nat := if seeds then (next.getD v).toNat else 0
  ([0x4B, 0x53, 0x41, 0x56] : List Byte) ++ leBytes 1 mask ++ leBytes 1 ((if portable then 1 else 0) + (if partner then 2 else 0)) ++
    leBytes 2 c ++ leBytes 56 0 ++ leBytes 32 y.flags.toNat ++ leBytes 2 y.full.toNat ++ leBytes 2 y.part.toNat ++
    leBytes 4 (seed y.seedNextM y.seedM) ++ leBytes 4 (seed y.seedNextV y.seedV) ++ leBytes 4 (y.msgBase.toNat * 2048)

/-- The record of strand `k` at offset `off` of an area. -/
def State.saveStrand (s : State) (c : Nat) (k : Fin 9) (l : List (Nat × Nat)) (off : Nat) (portable : Bool) : State :=
  ((s.areaZero l off 0x40000).areaPieces l off (s.record c k portable)).suspendLease c k

/-- Unaccepted requests and messages of entries that no longer stand leave the network. -/
def State.dropTraffic (s : State) (c : Nat) (k : Fin 9) : State :=
  let gone := ((s.coreAt c).flightsOf k.val).map (·.n)
  let s : State := { s with net := s.net.filter fun r => !(r.src.1 == c && gone.contains r.src.2.2)
                            fids := s.fids.filter fun f => !(f.core == c && f.slot == k.val) }
  s.mapCores (fun _ => true) fun _ y =>
    { y with messages := y.messages.filter fun m => !(m.src.1 == c && gone.contains m.src.2.2) }

/-- A slot whose contents have been saved or discarded: DORMANT, its entries gone from the record and the network. -/
def State.emptySlot (s : State) (c : Nat) (k : Fin 9) : State :=
  let s := (s.dropTraffic c k).spend c k
  (s.updCore c fun y => { y with flights := y.flights.filter fun f => f.slot != k.val || f.cls == .resumable }).putStrand c k
    { (s.strandAt c k) with st := .dormant, wait := .none, q := Queues.empty, curMe := none, curVe := none, curCe := none,
                            run := none, launched := false, owner := none, light := none, viol := false, got := none,
                            trap := Strand.fresh.trap, lease := Strand.fresh.lease }

def slotsOf (mask : Nat) : List (Fin 9) := ((List.range 8).filter mask.testBit).map slotIx
/-- The slots of a core that are not DORMANT. -/
def Core.busyMask (y : Core) : Nat :=
  ((List.range 8).map fun k => if (y.strands[k % 9]'(Nat.mod_lt _ (by decide))).st = .dormant then 0 else 2 ^ k).sum

/-- R316: the save is portable when the mask covers every slot that is not DORMANT. -/
def Core.portable (y : Core) (mask : Nat) : Bool := (List.range 8).all fun k => mask.testBit k || !y.busyMask.testBit k

/-- R317: the core image of a portable save. -/
def State.saveImage (s : State) (c : Nat) (l : List (Nat × Nat)) : State :=
  let s := s.copyOut c l 0x220000 (imemKey c 0) 0x20000
  let s := s.copyOut c l 0x240000 (localKey c 0) 0x200000
  s.copyOut c l 0x440000 (vregKey c 0 0) 0x40000
/-- R49, R317: the zeros of any save, and the partner memory while lending is active. -/
def State.savePartner (s : State) (c : Nat) (l : List (Nat × Nat)) (partner : Bool) : State :=
  let s := s.areaZero l 0x480000 0x80000
  if partner then s.copyOut c l 0x500000 (localKey (partnerOf c) 0) 0x200000 else s

/-- R316: the named strands of core `c` are cut at once, frozen and saved to an area; a portable save frees their slots. -/
def State.saveFull (s : State) (c mask : Nat) (l : List (Nat × Nat)) : State :=
  let ks := (slotsOf mask).filter fun k => (s.strandAt c k).st != .dormant
  let mask := (ks.map fun k => 2 ^ k.val).sum
  let portable := (s.coreAt c).portable mask
  let partner := (s.coreAt c).act
  let s := (ks.foldl (fun s k => s.cutAt c k) s).settleRows c
  let s := s.areaZero l 0 0x20000
  let s := s.areaPut l 0 (s.header c mask portable partner true)
  let s := ks.foldl (fun s k => (s.keepSaved c k).saveStrand c k l (0x20000 + 0x40000 * k.val) portable) s
  let s := (if portable then s.saveImage c l else s).savePartner c l partner
  let s := if portable then ks.foldl (fun s k => s.emptySlot c k) s else s
  s.updCore c fun y => { y with pre := { y.pre with port := portable } }

/-! ### Light pre-emption (R286, R315) -/

/-- R275: the boundary map of the NODE at `pc`, of an image whose TEXT holds it; without one nothing is named. -/
def Core.boundaryMap (y : Core) (pc : Nat) : BitVec 32 × BitVec 64 :=
  match ((y.images.filter fun i => i.runs (BitVec.ofNat 17 pc)).flatMap (·.maps)).find? fun m => m.1 == pc with
  | some m => m.2
  | none => (0, 0)

/-- R286: SH = 0, CKD = 0 and no power lease. -/
def Strand.lightOk (x : Strand) : Bool := x.rel.store.isEmpty && x.rel.ckd == 0 && !x.lease.held && !x.lease.again

/-- The area of a pending light request still stands. -/
def State.lightArea (s : State) (c : Nat) (v : DWord) : Option (List (Nat × Nat)) := s.area c v.toNat 0x700000

/-- R314: a LIGHT request is done once no named strand waits for its NODE. -/
def State.lightDone (s : State) (c : Nat) : State :=
  let y := s.coreAt c
  if y.pre.go && y.pre.mode == 1 && y.pre.status == 1 && y.strands.toList.all fun x => x.light.isNone then
    s.updCore c fun y => { y with pre := { y.pre with go := false, status := 3 } }
  else s

/-- R286, R315: strand `k`, after the NODE at `node`, is saved as its pending request asks. -/
def State.takeLight (s : State) (c : Nat) (k : Fin 9) (node : Nat) (v : DWord) : State :=
  let s := (s.mend c k).updAt c k fun x => { x with light := none }
  match s.lightArea c v with
  | none => s.updCore c fun y => { y with pre := { y.pre with go := false, status := 8 } }
  | some l =>
    let x := s.strandAt c k
    let s := if x.lightOk then
        let map := (s.coreAt c).boundaryMap node
        let s := s.updAt c k fun x => { x with bad := x.bad.filter fun p =>
          !((p.1 == 0 && map.2.getLsbD p.2) || (p.1 == 1 && map.1.getLsbD p.2)) }
        let mask := s.areaNat l 4 1
        let s := s.areaPut l 4 (leBytes 1 (if mask.testBit k.val then mask else mask + 2 ^ k.val))
        let s := s.areaPieces l (0x20000 + 0x40000 * k.val)
          (x.lightRecord c k.val map)
        ((s.keepSaved c k).settleRows c).emptySlot c k
      else
        let mask := s.areaNat l 4 1
        let t := s.saveFull c (2 ^ k.val) l
        t.areaPut l 4 (leBytes 1 (if mask.testBit k.val then mask else mask + 2 ^ k.val))
    s.lightDone c

/-! ### Restoring (R320) -/

/-- R319: the control block passes the checks of a resumption: its reserved zeros and its counts. -/
def State.recordOk (s : State) (l : List (Nat × Nat)) (off : Nat) : Bool :=
  let n (o len : Nat) : Nat := s.areaNat l (off + o) len
  let cnt (i : Nat) : Nat := (n (0x30 + 4 * i + 2) 2 + 65536 - n (0x30 + 4 * i) 2) % 65536
  n 0x0A 2 == 0 && decide (n 0x0C 4 < 32) && decide (n 0x10 4 < 2 ^ 20) && n 0x14 4 / 2 ^ 28 % 8 == 0 && decide (n 0x18 4 < 2 ^ 28) &&
    n 0x28 8 == 0 && n 0xA0 16 == 0 && n 0xCC 52 == 0 && decide (n 0x1C 4 ≤ 4096) &&
    (List.range 6).all fun i => decide (cnt i ≤ if i = 3 then 32 else 64)

/-- The return state of a handler whose strand is restored: the wait of an entry that has not been answered, else READY
(log entry 14, DESIGN CHOICE). -/
def returnOf (st : List QEntry) : SlotState × Wait :=
  let has (p : Instr → Bool) : Bool := st.any fun e => e.tag.isSome && p e.i
  if has fun i => match i with
      | .reels _ => true
      | _ => false then (.waiting, .reelPhase)
  else if has fun i => match i with
      | .reelj _ => true
      | _ => false then (.waiting, .reelHeld)
  else if has fun i => match i with
      | .send _ _ _ _ => true
      | .reqMe _ _ => true
      | .reqVe _ _ => true
      | .reqCe _ _ => true
      | _ => false then (.waiting, .accept)
  else (.ready, .none)

/-- The wait that a strand was cut in. -/
def Strand.cutWait (x : Strand) : Wait := if x.st = .frozen ∨ x.st = .parked then x.backWait else x.waitNow
/-- R319: the wait of a kind; `old` is the wait that the cut left, where it is of this kind. An IDLE has ended (R173). -/
def Wait.ofKind (kind : Nat) (old : Wait) : Wait :=
  if kind = 15 then .none
  else if old.kind = kind then old
  else match kind with
    | 1 => .loadQueue
    | 2 => .storeQueue
    | 3 => .accept
    | 4 => .reelPhase
    | 5 => .reelHeld
    | 6 => .sfen 256
    | 7 => .queueFull 0
    | 8 => .shadowArmed false
    | 9 => .formatFull
    | 10 => .token 0
    | 11 => .flag 0
    | 12 => .lrec
    | 13 => .trel
    | 14 => .drain
    | 16 => .lease
    | 17 => .operand
    | 18 => .progress
    | 19 => .spill
    | _ => .none
/-- R320: the state that a resumed strand goes on in, its saved one, with the wait `old` that the cut left; the clocks that it has
waited go on (R358). One that was PARKED, or resumes on a dark core, is PARKED while the core is dark. Its VIOL is over. -/
def Strand.resumeAs (x : Strand) (word : Nat) (old : Wait) (dark : Bool) (step clk : Nat) : Strand :=
  let w := Wait.ofKind (word / 256 % 256) old
  let r : SlotState × Wait := match word % 256 with
    | 1 => (.ready, .none)
    | 3 => (.ending, .none)
    | _ => if w = .none then (.ready, .none) else (.waiting, w)
  let y := { x with since := step, sinceClk := if w = old then x.sinceClk else clk, viol := false }
  if dark ∧ r.1 ≠ .ending then { y with st := .parked, wait := .none, back := r.1, backWait := r.2 }
  else { y with st := r.1, wait := r.2 }

/-- R320, R321: strand `k` of core `c` from the record at `off`, in its saved state, with what its context belongs to; a
light record brings what it holds and nothing else (R315). -/
def State.restoreStrand (s : State) (c : Nat) (k : Fin 9) (l : List (Nat × Nat)) (off : Nat) : State :=
  let light := (s.areaNat l (off + 0x0C) 4).testBit 1
  let portable := (s.areaNat l (off + 0x0C) 4).testBit 2
  let get (o n : Nat) : List Byte := if light ∧ 0x680 ≤ o then List.replicate n 0 else s.areaRead l (off + o) n
  let named := namedOf get
  let b := strandOf c get
  let again (queue : Nat) (q : List QEntry) : List QEntry := q.map fun e => e.named c queue named
  let b := { b with q := { b.q with ld := again 0 b.q.ld, st := again 1 b.q.st } }
  let r := returnOf b.q.st
  let b := { b with trap := { b.trap with ret := if b.trap.hm then r.1 else b.trap.ret, retWait := if b.trap.hm then r.2 else .none } }
  let info := s.saved.find? fun i => i.ctx == b.tag.ctx
  let x := match info with
    | some i =>
      let b := if light then { b with trace := { b.trace with count := i.strand.trace.count, gap := i.strand.trace.gap }, bad := i.strand.bad }
        else b.rejoin i.strand c get
      { b with prio := i.prio, owner := i.owner, launched := i.launched
               run := b.run.map fun (r : Run) =>
                 { r with part := i.part, order := i.order, begun := i.begun, row := i.strand.run.bind (·.row) } }
    | none => b
  let old := (info.map fun i => i.strand.cutWait).getD .none
  let x := x.resumeAs (leNat (get 8 4)) old (s.coreAt c).dark s.steps s.clk
  let imgs := if portable && !light then (info.map (·.imgs)).getD [] else []
  let s := s.updCore c fun y => { y with images := (imgs.filter fun i => !y.images.contains i) ++ y.images }
  (s.putStrand c k x).askAgain c k

/-- What is held of a strand issues again; a trap that has been taken at a cut stays taken until RTT, and a refused entry has its trap
to come (R326). -/
def Strand.unheld (x : Strand) : Strand :=
  let free (h : Held) : Held := if h = .taken ∨ h.refused then h else .no
  let now (h : Held) : Held := if h.refused then h else .no
  let cur (u : Option Cursor) : Option Cursor := u.map fun v => { v with held := now v.held }
  { x with
    q := { x.q with ld := holdAll now x.q.ld, st := holdAll now x.q.st }
    curMe := cur x.curMe, curVe := cur x.curVe, curCe := cur x.curCe
    trap := { x.trap with aside := x.trap.aside.map fun a =>
      let old (u : Option Cursor) : Option Cursor := u.map fun v => { v with held := free v.held }
      ({ a.1 with ld := holdAll free a.1.ld, st := holdAll free a.1.st }, old a.2.1, old a.2.2.1, old a.2.2.2) } }
/-- R320, R321: a strand in place goes on under the replay order: its entries issue again, its lease is asked for. -/
def State.replayInPlace (s : State) (c : Nat) (k : Fin 9) (st : SlotState) (w : Wait) : State :=
  let x := ((s.strandAt c k).forReplay (s.coreAt c) k.val).unheld
  let x := { x with st := st, wait := w, since := s.steps, tag := { x.tag with auto := false } }
  let s := s.dropTraffic c k
  ((s.updCore c fun y => { y with flights := y.flights.filter fun f => f.slot != k.val || f.cls == .resumable }).putStrand c k x).askAgain c k

end Sys2Proof.Machine
end

