-- ==== Sys2Proof/Machine/ControlForms.lean ====
section
/-! DEFINITION. Branches, calls, loops, loop records, NODE, IDLE, HALT, software traps (R168-R174, R260, R306). -/
namespace Sys2Proof.Machine

/-! ### Branches and calls (R168, R169) -/

/-- R169: a target lies in the body of a loop. -/
def LoopFrame.holds (f : LoopFrame) (t : BitVec 17) : Bool := decide (f.start.toNat ≤ t.toNat) && decide (t.toNat ≤ f.last.toNat)
/-- R169: the loops that a taken branch leaves active: it pops every loop whose body it leaves, and those inside. -/
def leaveLoops (t : BitVec 17) : List LoopFrame → List LoopFrame
  | [] => []
  | f :: rest =>
    let r := leaveLoops t rest
    if r.length < rest.length then r else if f.holds t then f :: rest else rest

/-- A taken branch to the byte offset `t`, or the instruction-address fault (R121, R168). -/
def State.branch (s : State) (t : Int) : Out :=
  if targetOk t then .next (s.upd fun x => { x with loops := leaveLoops (BitVec.ofInt 17 t) x.loops }.jump (BitVec.ofInt 17 t))
  else s.trapAddr Code.address (BitVec.ofInt 64 t)
/-- A conditional branch. A taken BSNG leaves the loops that its target leaves, as the compare branches do: R169 does not name it
(log entry 82, DESIGN CHOICE). -/
def State.branchIf (s : State) (taken : Bool) (off : BitVec 20) : Out :=
  if taken then s.branch (s.wordAt off) else s.done
/-- R168: a target in an address register: bits [63:17] and [2:0] are 0. -/
def regTargetOk (a : DWord) : Bool := decide (a.toNat < 0x20000) && a.toNat % 8 == 0

def execBr (off : BitVec 20) (s : State) : Out := s.branch (s.wordAt off)
def execBri (a : AReg) (s : State) : Out :=
  if regTargetOk (s.ra a) then s.branch (s.ra a).toNat else s.trapAddr Code.address (s.ra a)
def execBeq (a b : DReg) (off : BitVec 20) (s : State) : Out :=
  s.withVals (s.rd a) (s.rd b) fun x y => s.branchIf (x == y) off
def execBne (a b : DReg) (off : BitVec 20) (s : State) : Out :=
  s.withVals (s.rd a) (s.rd b) fun x y => s.branchIf (x != y) off
def execBlt (a b : DReg) (off : BitVec 20) (s : State) : Out :=
  s.withVals (s.rd a) (s.rd b) fun x y => s.branchIf (decide (x.toInt < y.toInt)) off
def execBle (a b : DReg) (off : BitVec 20) (s : State) : Out :=
  s.withVals (s.rd a) (s.rd b) fun x y => s.branchIf (decide (x.toInt ≤ y.toInt)) off
def execBsngS (a : DReg) (off : BitVec 20) (s : State) : Out := s.branchIf (s.rd a).sng off
def execBsngN (a : DReg) (off : BitVec 20) (s : State) : Out := s.branchIf (!(s.rd a).sng) off
/-- R168: CALL writes its link only when the target is legal, and pops no loop. -/
def execCall (l : AReg) (off : BitVec 20) (s : State) : Out :=
  let t := s.wordAt off
  if targetOk t then
    .next (s.upd fun x => (x.setA l (BitVec.ofNat 64 (s.self.pc.toNat + 8))).jump (BitVec.ofInt 17 t))
  else s.trapAddr Code.address (BitVec.ofInt 64 t)
def execRet (a : AReg) (s : State) : Out :=
  if regTargetOk (s.ra a) then .next (s.upd fun x => x.jump ((s.ra a).setWidth 17)) else s.trapAddr Code.address (s.ra a)

/-! ### Hardware loops (R169, R374) -/

/-- The control forms, OPC 0x60-0x70. -/
def controlOpc (o : Byte) : Bool := decide (0x60 ≤ o.toNat) && decide (o.toNat ≤ 0x70)

/-- What stops a loop instruction before its count: an IMM20 below 1, a control word as last, a last outside
instruction memory. -/
def State.loopFault (s : State) (off : BitVec 20) : Option (BitVec 8 × DWord) :=
  let t := s.wordAt off
  if off.toInt < 1 then some (Code.illegal, 0)
  else if !targetOk t then some (Code.address, BitVec.ofInt 64 t)
  else if controlOpc ((s.read (imemKey s.core (t.toNat + 7)) 1).headD 0) then some (Code.illegal, 0)
  else none

/-- A loop of `n` trips from the word after this one to the word at `off`. -/
def State.enterLoop (s : State) (n : Int) (off : BitVec 20) : State :=
  s.upd fun x =>
    let last := BitVec.ofInt 17 (s.wordAt off)
    if n < 1 then { (x.jump (last + 8)) with loops := x.loops }
    else { (x.jump (x.pc + 8)) with loops := { start := x.pc + 8, last := last, left := n.toNat } :: x.loops }

def execLoop (c : DReg) (last : BitVec 20) (s : State) : Out :=
  match s.loopFault last with
  | some e => s.trapAddr e.1 e.2
  | none => s.withVal (s.rd c) fun n =>
      if 4 ≤ s.self.loops.length then s.trapHere Code.loopOver else .next (s.enterLoop n.toInt last)
def execLooprp (last : BitVec 20) (s : State) : Out :=
  match s.loopFault last with
  | some e => s.trapAddr e.1 e.2
  | none =>
    if 4 ≤ s.self.loops.length then s.trapHere Code.loopOver
    else
      let t := s.rowRead s.core s.slot
      if s.own.replaying s.slot.val then s.await .operand
      else match s.rowCount s.core s.self with
      | .count n => .next ((t.upd fun x => x.latchRow n).enterLoop n last)
      | .cause e a => t.trapAddr e (BitVec.ofNat 64 a)
      | .wait => t.await .operand
      | .violation a => .next (s.violate s.core s.slot a 0)

/-! ### LREC, NODE, IDLE, HALT (R170-R173) -/

/-- R25: another strand of core `c` than `k` has waited longer for the same room. -/
def State.behindAt (s : State) (c : Nat) (k : Fin 9) (p : Strand → Bool) : Bool :=
  ((s.coreAt c).waiters fun y => (y.st == .waiting || y.st == .ready) && p y).any fun w => w.1 != k.val &&
    (!p (s.strandAt c k) || decide (w.2 < (s.strandAt c k).since))
def State.behind (s : State) (p : Strand → Bool) : Bool := s.behindAt s.core s.slot p
/-- R25, R184: since when the strand waits for room in the timer wheel: with the TREL at the head of its store queue, or at one that
has not issued. -/
def Strand.wheelSince (x : Strand) : Option Nat :=
  match x.q.st.head?.bind (·.held.wheelSince) with
  | some n => if x.st = .frozen ∨ x.st = .parked then none else some n
  | none => if (x.st == .waiting || x.st == .ready) && x.wait == .trel then some x.since else none
/-- R25, R191: another strand of the core than `k` has waited longer for room in the wheel. -/
def Core.wheelBehind (y : Core) (k : Fin 9) : Bool :=
  (List.range 8).any fun j => j != k.val && (match (y.strands[j % 9]'(Nat.mod_lt _ (by decide))).wheelSince, y.strands[k.val].wheelSince with
    | some n, some m => decide (n < m)
    | some _, none => true
    | none, _ => false)

/-- R171: the record is ready, or the strand waits while the ready list is full or takes none (R298). -/
def State.lrecReady (s : State) (record : BitVec 256) : Out :=
  let x := s.self
  let late := s.behind fun y => y.wait == .lrec && y.got.isSome
  if 64 ≤ s.own.ready.length ∨ s.own.closing.isSome ∨ late then (s.upd fun x => { x with got := some record }).await .lrec
  else
    let r : Ready := { record := record, prio := x.prio, owner := x.owner, order := readyOrder s.steps 0, kept := none }
    ((s.updCore s.core fun y => y.makeReady r).upd fun x => { x with got := none }).done

def execLrec (a : AReg) (s : State) : Out :=
  match s.self.got with
  | some r => s.lrecReady r
  | none =>
    if !s.own.storesDone s.slot || s.own.replaying s.slot.val then s.await .lrec
    else
      let va := (s.ra a).toNat
      if va % 32 ≠ 0 then s.trapAddr Code.loopRecord (s.ra a)
      else
        let t := s.peeked s.core s.slot.val va 32
        match s.peek s.core va 32 with
        | .bytes bs =>
          let r := BitVec.ofNat 256 (leNat bs)
          if Rec.ok r then t.lrecReady r else t.trapAddr Code.loopRecord (s.ra a)
        | .cause e => t.trapAddr e (s.ra a)
        | .wait => t.await .lrec
        | .violation => .next (s.violate s.core s.slot va 0)

/-- Every in-flight entry of a slot has retired. -/
def Core.settled (y : Core) (k : Fin 9) : Bool := (y.flightsOf k.val).isEmpty

/-- R172: NODE waits for every queue and entry, and then takes a light pre-emption that has been asked for. -/
def execNode (s : State) : Out :=
  if !s.self.allQueued.allEmpty || !s.own.settled s.slot then s.await .drain
  else
    match s.self.light with
    | none => s.done
    | some v => s.onWalk s.core s.slot.val (s.areaCells s.core v.toNat 0x700000) fun s =>
      s.onArea ((s.lightArea s.core v).getD [] ++ s.onWay s.core) fun s => .next (s.retire.takeLight s.core s.slot s.self.pc.toNat v)

/-- R173: the strand goes on at the next instruction once it is woken. -/
def execIdle (s : State) : Out := .next (s.issuedWait .idle)

/-- R306: HALT in handler mode: what the cut set aside is discarded, with what the handler has queued behind it. -/
def Strand.dropAside (x : Strand) : Strand :=
  { x with trap := { x.trap with hm := false, cut := false, aside := none }, run := none, q := x.q.emptied
           curMe := none, curVe := none, curCe := none }
/-- R68, R73, R170, R306: the handler's queues are drained, but for what stands behind entries that the cut set aside. -/
def Strand.handlerDrained (x : Strand) : Bool :=
  let a := (x.trap.aside.map (·.1)).getD Queues.empty
  let eng (e : Eng) : Bool := !(a.cmds e).isEmpty || (x.q.cmds e).isEmpty
  let side (old new : List QEntry) : Bool := new.all fun e => !old.isEmpty && decide (x.trap.cutPo ≤ e.po)
  eng .me && eng .ve && eng .ce && side a.ld x.q.ld && side a.st x.q.st

/-- R170, R225, R306. -/
def execHalt (s : State) : Out :=
  let x := s.self
  if !(if x.trap.hm then x.handlerDrained else x.q.drained) || !s.own.settled s.slot then s.await .drain
  else if x.trap.hm then
    .next (((s.freeLease s.core s.slot).upd fun y => { y.dropAside.end with pc := y.pc + 8, po := y.po + 1 }).updCore s.core
      fun y => y.dropEngines s.slot.val)
  else if x.atBoundary.isSome && x.qualifies && s.own.wantsSwitch x.prio then s.await .drain
  else match x.halt with
    | some y => .next (s.putSelf { y with po := y.po + 1 })
    | none => .next ((s.freeLease s.core s.slot).upd fun y => { y.end with pc := y.pc + 8, po := y.po + 1 })

/-- R36: the strand stands at a qualifying boundary and is switched out. -/
def execTaskSwitch (c k : Nat) (s : State) : Out :=
  let ix := slotIx k
  let x := s.strandAt c ix
  let atHalt : Bool := match decode .seq (s.read (imemKey c x.pc.toNat) 8) with
    | .ok .halt => true
    | _ => false
  match x.atBoundary with
  | some (r, next) =>
    if x.st = .waiting ∧ x.wait = .drain ∧ atHalt = true ∧ x.q.drained ∧ (s.coreAt c).settled ix ∧ x.qualifies ∧
        (s.coreAt c).wantsSwitch x.prio
    then .next (s.switchOut c ix r next) else .next s
  | none => .next s

/-! ### Software traps and the return (R174, R260, R306) -/

/-- R174: the return address is the next instruction in sequence. -/
def execTrap (code : BitVec 8) (s : State) : Out :=
  let t := s.retire
  .next (t.trapAt s.core s.slot { Cause.plain Code.software with arg := code } t.self.pc)

def execRtt (s : State) : Out :=
  if s.self.trap.hm then .next (s.upd Strand.leaveTrap).deliverAlert else s.trapHere Code.illegal

/-- R304: a cause that is written for strand `k` of core `c`: a listed code, the thermal alert for strand 0 of the management core
alone. -/
def codeListed (c k : Nat) (code : BitVec 8) : Bool :=
  decide (1 ≤ code.toNat) && decide (code.toNat ≤ 0x27) && (code != Code.thermal || (c == mgmtCore && k == 0))

/-- R260, R304, R305, R307: strand `k` of core `c` takes a trap at its cut. -/
def execTrapEntry (c k : Nat) (code : BitVec 8) (agent : BitVec 3) (addr : DWord) (seq : BitVec 16) (s : State) : Out :=
  let ix := slotIx k
  let x := s.strandAt c ix
  if (x.st = .ready ∨ x.st = .waiting ∨ x.st = .ending) ∧ codeListed c ix.val code then
    .next (s.trapAt c ix { code := code, arg := 0, agent := agent, addr := addr, seq := seq, part := none } x.pc)
  else .next s

end Sys2Proof.Machine
end

