-- ==== Sys2Proof/Machine/EngineForms.lean ====
section
/-! DEFINITION. Flags, command queues, nest tables, format words, tokens, port sets and shapes from the sequencer
(R135, R136, R175-R180, R222, R227). -/
namespace Sys2Proof.Machine

/-! ### Flags (R175) -/

/-- The acting strand's wait has ended by a setter: its record, if it waited (R358). -/
def State.waitedFor (s : State) (kind num : Nat) (setter : BitVec 16) (setAgent : Nat) : State :=
  let x := s.self
  if x.wait ≠ .none then s.traceWait s.core s.slot kind 0 num x.sinceClk setter setAgent x.pc.toNat true else s
/-- A wait that the strand itself ends, by an engine of its own. -/
def State.waited (s : State) (kind num setAgent : Nat) : State := s.waitedFor kind num (strandNumber s.core s.slot.val) setAgent

/-- R175, R358: a flag that is 1 is consumed at once; where the word has waited for it, as after a resumption that tests the wait again
(R320), this ends the wait, with its record. -/
def execWaitf (n : BitVec 8) (s : State) : Out :=
  if s.own.flag n then
    let setter := SMap.get (0, 0) s.own.flagBy n.toNat
    let t := if s.self.wait = .flag n.toNat then s.waitedFor 0 n.toNat setter.1 setter.2 else s
    .next ((t.updCore s.core fun y => y.takeFlag s.clk n).retire)
  else s.await (.flag n.toNat)
def execSigf (n : BitVec 8) (s : State) : Out := s.enterSt (.sigf n) 0 0 0
def execClrf (n : BitVec 8) (s : State) : Out := s.enterSt (.clrf n) 0 0 0

/-! ### Command queues (R176) -/

/-- R176: a stream address of the ME or VE: bits [63:17] and [5:0] are 0. -/
def streamOk (a : DWord) : Bool := decide (a.toNat < 0x20000) && a.toNat % 64 == 0

/-- A STREAM entry enters the queue of an engine, or the strand waits while it is full. -/
def State.enq (s : State) (e : Eng) (addr : DWord) : Out :=
  if s.self.allQueued.cmdRoom e && !s.reqFirst e then .next (s.upd fun x => (x.pushCmd e (.stream none) addr).retire) 
  else s.await (.queueFull (Eng.bit e))

def execEnqMe (a : AReg) (s : State) : Out :=
  if streamOk (s.ra a) then s.enq .me (s.ra a) else s.trapAddr Code.address (s.ra a)
def execEnqVe (a : AReg) (s : State) : Out :=
  if streamOk (s.ra a) then s.enq .ve (s.ra a) else s.trapAddr Code.address (s.ra a)
def execEnqCe (a : AReg) (s : State) : Out := s.enq .ce (s.ra a)

/-! ### The nest table (R177) -/

/-- Earlier store-queue entries that overlap own-scratchpad bytes have not issued (R177, R180). -/
def State.scratchBusy (s : State) (va n : Nat) : Bool :=
  s.self.allQueued.st.any fun e => chunksMeet [(localKey s.core va, n)] (s.touches s.core e)

/-- R177, R180: an operand of `n` bytes in the own scratchpad, 64-byte aligned, read once it is clean; else the fault. -/
def State.scratchOperand (s : State) (a : DWord) (n : Nat) (fault : BitVec 8) (k : State → Nat → Out) : Out :=
  if a.toNat % 64 ≠ 0 ∨ 0x100000 < a.toNat + n then s.trapAddr fault a
  else if s.scratchBusy a.toNat n || s.own.replaying s.slot.val then s.await .spill
  else
    let s := s.meetFlaws s.core s.slot.val [(localKey s.core a.toNat, n)]
    if s.poisoned (localKey s.core a.toNat) n then s.trapAddr Code.poison a else k s (s.readNat (localKey s.core a.toNat) n)

def execNest (a : AReg) (s : State) : Out :=
  if s.self.nest.st = .armed then s.await (.shadowArmed false)
  else s.scratchOperand (s.ra a) 192 Code.nestTable fun s v =>
    let t := BitVec.ofNat 1536 v
    if Nest.ok t then .next (s.upd fun x => { x with nest := { x.nest with shadow := t, st := .filled } }.retire)
    else s.trapAddr Code.nestTable (s.ra a)

def execNgo (s : State) : Out :=
  match s.self.nest.st with
  | .empty => s.trapHere Code.nestTable
  | .armed => s.await (.shadowArmed true)
  | .filled =>
    if s.self.allQueued.cmdRoom .me && !s.reqFirst .me then
      .next (s.upd fun x => { (x.pushCmd .me .nest 0) with nest := { x.nest with st := .armed } }.retire)
    else s.await (.queueFull (Eng.bit .me))

/-! ### Format words and tokens (R178, R179) -/

def execFmtq (v : SrcV) (s : State) : Out :=
  s.withVal (s.srcV v) fun w =>
    if 32 ≤ s.self.allQueued.fmt.length then s.await .formatFull
    else .next (s.upd fun x => { x with q := { x.q with fmt := x.q.fmt ++ [w], seqFmt := x.q.seqFmt + 1 } }.retire)

def execTkpost (e : Eng) (s : State) : Out := s.enterSt (.tkpost e) 0 0 0
/-- R179: the counter from an engine to the sequencer. -/
def execTkwait (e : Eng) (s : State) : Out :=
  let n := tokenIx (engIx e) 0
  if s.self.token n = 0 then s.await (.token n)
  else .next (((s.waited 1 n (engIx e)).upd fun x => x.pop [n]).retire)

/-! ### Port sets and shapes (R180, R222, R227) -/

namespace PortSet
def field (p : BitVec 512) (lo w : Nat) : Nat := p.toNat / 2 ^ lo % 2 ^ w
def base (p : BitVec 512) : Nat := field p 0 64
def count (p : BitVec 512) (l : Nat) : Nat := field p (64 + 64 * l) 16
def stride (p : BitVec 512) (l : Nat) : Int := (p.extractLsb' (96 + 64 * l) 32).toInt
/-- How many levels are used, from level 0 up. -/
def used (p : BitVec 512) : Nat := ((List.range 4).takeWhile fun l => count p l != 0).length
/-- R227. -/
def ok (p : BitVec 512) : Bool :=
  field p 320 192 == 0 && ((List.range 4).all fun l => field p (80 + 64 * l) 16 == 0) && decide (base p < 0x400000) &&
    (List.range 4).all fun l => decide (l < used p) || count p l == 0
/-- R228: the address of row access `r`. -/
def rowAddr (p : BitVec 512) (r : Nat) : Nat :=
  let go := (List.range (used p)).foldl (fun (a : Int × Nat) l => (a.1 + (a.2 % count p l : Nat) * stride p l, a.2 / count p l))
    ((base p : Int), r)
  (BitVec.ofInt 64 go.1).toNat
end PortSet

def execPort (a : AReg) (p : BitVec 3) (s : State) : Out :=
  s.scratchOperand (s.ra a) 64 Code.portParam fun s v =>
    let t := BitVec.ofNat 512 v
    if PortSet.ok t then .next (s.upd fun x => { x with ve := { x.ve with ports := x.ve.ports.set p.toNat t } }.retire)
    else s.trapAddr Code.portParam (s.ra a)

def execShape (v : SrcV) (s : State) : Out :=
  s.withVal (s.srcV v) fun w =>
    if shapeOk w then .next (s.upd fun x => { x with ve := { x.ve with shape := w } }.retire) else s.trapHere Code.shape

end Sys2Proof.Machine
end

