-- ==== Sys2Proof/Machine/Engine.lean ====
section
/-! DEFINITION. How the three engines take queue entries, run engine words repetition by repetition and complete them
(R27-R29, R40, R74, R75, R93, R127, R195, R197-R199, R229, R244). -/
namespace Sys2Proof.Machine

/-! ### Cursors and queue heads -/

def Strand.cursor (x : Strand) : Eng → Option Cursor
  | .me => x.curMe
  | .ve => x.curVe
  | .ce => x.curCe
def Strand.putCursor (x : Strand) (e : Eng) (u : Option Cursor) : Strand :=
  match e with
  | .me => { x with curMe := u }
  | .ve => { x with curVe := u }
  | .ce => { x with curCe := u }
def State.putCursor (s : State) (e : Eng) (u : Cursor) : State := s.upd fun x => x.putCursor e (some u)
/-- The head of a command queue leaves it. -/
def Queues.dropCmd (q : Queues) (e : Eng) : Queues :=
  match e with
  | .me => { q with me := q.me.tail }
  | .ve => { q with ve := q.ve.tail }
  | .ce => { q with ce := q.ce.tail }
def Strand.head (x : Strand) (e : Eng) : Option Cmd := (x.q.cmds e).head?

/-- A cursor at the first word or entry of an address. -/
def Cursor.start (addr : DWord) (pred : BitVec 16) : Cursor :=
  { addr := addr, word := 0, phase := .fetch, popped := false, rep := 0, total := 0, fmt := 0, idx := [], nestEntry := false
    rows := Vector.replicate 8 0, pw := pred, unit := 0, reads := 0, writes := 0, acc := false, linked := false
    pushed := [], rowBuf := [], heldAt := [], atom := none, held := .no, since := none, seen := [] }
/-- The cursor at the next word; row counters and working predicates go on. -/
def Cursor.next (u : Cursor) (addr : DWord) : Cursor := { Cursor.start addr u.pw with rows := u.rows, linked := u.linked, rowBuf := u.rowBuf }

/-! ### Faults of an engine (R213, R241, R246) -/

/-- A fault found in a word, a repetition or a unit: its cause, its address and a tile that it marks partial; or an
access outside the partition (R330). -/
structure Fail where
  code : BitVec 8
  addr : DWord
  part : Option (BitVec 4)
  violation : Bool
  /-- No fault: an access waits for an earlier one of the core on the same path (R65). -/
  wait : Bool
deriving DecidableEq, Repr

def Fail.of (code : BitVec 8) : Fail := { code := code, addr := 0, part := none, violation := false, wait := false }
/-- R65: the access waits. -/
def Fail.behind : Fail := { Fail.of 0 with wait := true }
def Fail.at' (code : BitVec 8) (a : Nat) : Fail := { Fail.of code with addr := BitVec.ofNat 64 a }

/-- R310: the entry at the cursor of engine `e` is held. -/
def Strand.holdCursor (x : Strand) (e : Eng) (h : Held) : Strand := x.putCursor e ((x.cursor e).map fun u => { u with held := h })
/-- R23, R33, R367, R369: an entry that a REQ brought to a DORMANT slot faults, which counts as a fault: it is held where it stands
and blocks its engine, and the slot stays DORMANT (log entry 52, DESIGN CHOICE); a violation is reported (R330). -/
def State.holdDormant (s : State) (e : Eng) (f : Fail) : State :=
  let s := (((s.countMck s.core f.code).countUnc s.core f.code).upd fun x => x.holdCursor e (.cause f.code f.addr))
  if f.violation then s.emit s.core s.slot.val 2 f.addr.toNat 0 (engIx e) else s

/-- R42, R305, R310: the strand traps at its cut, its entry held, or is frozen. -/
def State.engFault (s : State) (e : Eng) (f : Fail) : State :=
  if s.self.st = .dormant then s.holdDormant e f
  else if f.violation then s.violate s.core s.slot f.addr.toNat (engIx e)
  else
    (s.upd fun x => x.holdCursor e .taken).trapAt s.core s.slot
      { code := f.code, arg := 0, agent := BitVec.ofNat 3 (engIx e), addr := f.addr
        seq := ((s.self.head e).map (·.qseq)).getD 0, part := f.part } s.self.pc

/-! ### Waits of a word (R28, R29, R199, R358) -/

/-- The word waits: the clk at which it began is kept. -/
def Cursor.blocked (u : Cursor) (kind num clk : Nat) : Cursor :=
  match u.since with
  | some (k, n, c) => if k = kind ∧ n = num then { u with since := some (k, n, c) } else { u with since := some (kind, num, clk) }
  | none => { u with since := some (kind, num, clk) }

/-- R358: the strand and agent whose push or tile commit ended the wait of a cursor. -/
def State.wokeBy (s : State) (u : Cursor) : BitVec 16 × Nat :=
  match u.since with
  | none => (0, 0)
  | some (kind, num, _) =>
    if kind = 1 then (strandNumber s.core s.slot.val, num / 3)
    else (s.own.feBy[num % 16]'(Nat.mod_lt _ (by decide)), 1)

/-- R358: the record of the wait that has ended, by a setter. -/
def State.engWoke (s : State) (e : Eng) (u : Cursor) (setter : BitVec 16 × Nat) : State :=
  match u.since with
  | none => s
  | some (kind, num, clk) =>
    s.traceWait s.core s.slot kind (engIx e) num clk setter.1 setter.2 u.addr.toNat true

/-- The word waits for number `num`; a wait for another number has ended. -/
def State.engWait (s : State) (e : Eng) (u : Cursor) (kind num : Nat) : State :=
  let s := if (u.since.map fun x => (x.1, x.2.1)) = some (kind, num) then s else s.engWoke e u (s.wokeBy u)
  s.putCursor e (u.blocked kind num s.clk)

/-- The ME words that have begun and not completed, but for the acting one: they hold their tiles. -/
def Core.others (x : Core) (k : Fin 9) : List Cursor :=
  ((List.range 8).filterMap fun j =>
    if j = k.val then none else (x.strands[j % 9]'(Nat.mod_lt _ (by decide))).curMe) ++
  (List.range 8).filterMap fun j =>
    ((x.strands[j % 9]'(Nat.mod_lt _ (by decide))).trap.aside).bind fun a => a.2.1

/-- A bit per tile. -/
def tileBit (t : Nat) : BitVec 16 := 1#16 <<< t
def tilesOf (l : List Nat) : BitVec 16 := l.foldl (fun m t => m ||| tileBit t) 0

/-- R29, R199: the first tile on which a word that begins to use tiles must wait. -/
def Core.tileWait (x : Core) (k : Fin 9) (u : Cursor) (reads writes : List Nat) (acc : Bool) : Option Nat :=
  let o := x.others k
  let readBy := o.foldl (fun m (v : Cursor) => m ||| v.reads) 0
  let accBy := o.foldl (fun m (v : Cursor) => if v.acc then m ||| v.writes else m) 0
  let rd := reads.find? fun t => !u.reads.getLsbD t && (!x.full.getLsbD t || accBy.getLsbD t)
  let wr := writes.find? fun t => !u.writes.getLsbD t &&
    (x.full.getLsbD t != acc || readBy.getLsbD t || accBy.getLsbD t)
  rd.orElse fun _ => wr

/-- R29: a tile becomes full or empty, by the acting strand. -/
def Core.putFull (x : Core) (by_ : BitVec 16) (tiles : BitVec 16) (v : Bool) : Core :=
  { x with
    full := if v then x.full ||| tiles else x.full &&& ~~~tiles
    feBy := Vector.ofFn fun i => if tiles.getLsbD i.val then by_ else x.feBy[i.val] }

/-! ### Running a word -/

/-- What one repetition comes to: its commit, with the cursor after it and the clocks it occupies the engine; a wait for
a tile; or a fault, with nothing committed. -/
inductive Rep where
  | commit (s : State) (u : Cursor) (clks : Nat)
  | block (tile : Nat)
  | fail (f : Fail)

/-- R337: `n` clocks from clk `clk` on, or from the end of what keeps the engine busy: those that fall into the window. -/
def Busy.add (b : Busy) (n clk : Nat) : Busy :=
  let start := max clk b.upto
  let stop := (clk / 256 + 1) * 256
  { now := b.now + (min (start + n) stop - min start stop), upto := start + n }
/-- R335, R337: the clocks for which the engine is busy for the strand, from its commit on. -/
def Strand.busy (x : Strand) (e : Eng) (n clk : Nat) : Strand :=
  match e with
  | .me => { x with eff := { x.eff with me := x.eff.me.add n clk } }
  | .ve => { x with eff := { x.eff with ve := x.eff.ve.add n clk } }
  | .ce => { x with eff := { x.eff with ce := x.eff.ce.add n clk } }

/-- The cursor after a repetition has committed: its pushes follow where EACH = 1 (R28). -/
def Cursor.turn (u : Cursor) (each : Bool) : Cursor :=
  { u with rep := u.rep + 1, since := none
           phase := if each then .push else if u.rep + 1 = u.total then .done else .run }

end Machine

/-- R129: the fields that STEP holds in a VE word. -/
def EWord.vb (w : EWord) : Nat := (w.step >>> 7).toNat
def EWord.pe (w : EWord) : Bool := w.step.getLsbD 6
def EWord.ps (w : EWord) : Nat := (w.step >>> 2).toNat % 16
/-- R224: some operand of a VE word is a vector register. -/
def EWord.onRegisters (w : EWord) : Bool := decide (8 ≤ w.x.toNat) || decide (8 ≤ w.y.toNat) || decide (8 ≤ w.z.toNat)

namespace Machine

/-- R226, R229: the word's predicate lets it run. -/
def Cursor.lets (u : Cursor) (w : EWord) : Bool := !w.pe || u.pw.getLsbD w.ps
/-- R366, R367: bytes of vector registers that a repetition of the VE leaves out because of their tag bits, saturating; one that
accesses no register leaves out none. -/
def State.skipBytes (s : State) (e : Eng) (w : EWord) (u : Cursor) : State :=
  if e = .ve ∧ u.lets w ∧ w.onRegisters then s.updCore s.core fun y =>
    { y with vskip := y.vskip.up (Config.vskipBytes s.steps) }
  else s

/-- What a repetition does is stopped by a poisoned row. -/
def Rep.poisoned : Rep → Bool
  | .fail f => !f.wait && f.code == Code.poison
  | _ => false
/-- R365, R366: the repetition finds the errors of the rows that it reads: a row is read where its poison would stop the
repetition. -/
def State.repMeets (s : State) (u : Cursor) (body : State → Cursor → Rep) : State :=
  let with_ (l : List Nat) : State := { s with poison := l, flaws := [] }
  if s.flaws.isEmpty || (body (with_ []) u).poisoned then s
  else (s.flaws.filter fun f => (body (with_ [f.1]) u).poisoned).foldl (fun s f => s.findFlaw f.1 f.2 (some s.slot.val)) s

/-- One repetition, its pops made. -/
def State.runRep (s : State) (e : Eng) (w : EWord) (u : Cursor) (body : State → Cursor → Rep) : Out :=
  let s := s.repMeets u body
  match body s u with
  | .commit t v n => .next ((((t.engWoke e u (s.wokeBy u)).putCursor e (v.turn w.each)).upd fun x => x.busy e n s.clk).skipBytes e w u)
  | .block t => .next (s.engWait e u 2 t)
  | .fail f => if f.wait then .next (s.putCursor e u) else .next (((s.engWoke e u (s.wokeBy u)).putCursor e { u with since := none }).engFault e f)

/-- R364: an engine reads a counter with a parity error, at the entry it runs: a machine check with AGENT 0. -/
def State.tokenParity (s : State) (e : Eng) : State :=
  if s.self.st = .dormant then s.holdDormant e (Fail.of Code.machine)
  else (s.upd fun x => x.holdCursor e .taken).trapAt s.core s.slot { Cause.plain Code.machine with seq := ((s.self.head e).map (·.qseq)).getD 0 } s.self.pc

/-- R28, R40: the pops, then a repetition. -/
def State.runReps (s : State) (e : Eng) (w : EWord) (u : Cursor) (body : State → Cursor → Rep) : Out :=
  let l := popTokens e w.pop
  if u.total = 0 ∧ w.each then .next (s.putCursor e { u with phase := .done })
  else if !u.popped && s.self.badToken l then .next (s.tokenParity e)
  else if u.popped then s.runRep e w u body
  else match l.find? fun i => s.self.token i == 0 with
    | some i => .next (s.engWait e u 1 i)
    | none =>
      let t := (s.engWoke e u (s.wokeBy u)).upd fun x => x.pop l
      let v := { u with popped := true, since := none }
      if u.total = 0 then .next (t.putCursor e { v with phase := .done }) else t.runRep e w v body

/-- R355: in the reduced service an ME format word names FP32 and BF16 alone. -/
def Fmt.reduced (f : Fmt) : Bool := decide (f.af < 2) && decide (f.bf < 2) && decide (f.of < 2)

/-- The oldest word of the format queue leaves it: what a cut set aside goes first. -/
def Strand.dropFmt (x : Strand) : Strand :=
  match x.trap.aside with
  | some (q, r) => match q.fmt with
    | [] => { x with q := { x.q with fmt := x.q.fmt.tail } }
    | _ :: l => { x with trap := { x.trap with aside := some ({ q with fmt := l }, r) } }
  | none => { x with q := { x.q with fmt := x.q.fmt.tail } }
/-- R26, R93, R197, R200: the format word that a word takes, checked before it leaves the queue. -/
def State.formatBad (s : State) (form : Option (Fmt → Bool)) : Option (BitVec 8) :=
  match form with
  | none => none
  | some ok => match s.self.allQueued.fmt with
    | [] => some Code.formatEmpty
    | f :: _ =>
      let v := Fmt.unpack f
      if v.ok && ok v && (s.pkg.full || v.reduced) then none else some Code.formatWord
/-- The word leaves the queue, or the fault is taken. -/
def State.takeFormat (s : State) (e : Eng) (form : Option (Fmt → Bool)) (k : State → Word → Out) : Out :=
  match s.formatBad form, form with
  | some code, _ => .next (s.engFault e (Fail.of code))
  | none, none => k s 0
  | none, some _ => k (s.upd Strand.dropFmt) (s.self.allQueued.fmt.headD 0)

/-- R39, R40, R374: the executions of a word, or the row pointer's fault: a bad count goes before what refuses the format, and this
before what an access to the row pointer meets. -/
def State.executions (s : State) (e : Eng) (w : EWord) (late : Option (BitVec 8)) (k : State → Nat → Out) : Out :=
  if w.rpt = 0x3FF then
    let t := s.rowRead s.core s.slot
    match s.rowCount s.core s.self with
    | .count n => k (t.upd fun x => x.latchRow n) n
    | .cause code a => .next (t.engFault e (match late with
      | some x => if code = Code.rowPtr then Fail.at' code a else Fail.of x
      | none => Fail.at' code a))
    | .wait => .next t
    | .violation a => .next (s.engFault e (match late with
      | some x => Fail.of x
      | none => { Fail.at' 0 a with violation := true }))
  else k s (w.rpt.toNat + 1)

/-- How a form runs: what refuses the word before anything is consumed, the executions where the word does not give
them, the format word it takes, and its repetition. -/
structure Form where
  bad : State → Option (BitVec 8)
  count : State → Option Nat
  format : State → Option (Fmt → Bool)
  body : State → Cursor → Rep
  /-- What refuses the format that the word's entry brought (R238). -/
  setting : State → Option (BitVec 8) := fun _ => none

/-- R197, R229: one advance of the word that an engine runs for the acting strand; a parity error in a counter that it
would pop is found before it consumes its format word (R364). -/
def State.runWord (s : State) (e : Eng) (w : EWord) (f : Form) : Out :=
  match s.self.cursor e with
  | none => .next s
  | some u => match u.phase with
    | .fetch =>
      match f.bad s with
      | some code => .next (s.engFault e (Fail.of code))
      | none =>
        let form := f.format s
        let go (r : State) (n : Nat) : Out := match f.setting s with
          | some code => .next (r.engFault e (Fail.of code))
          | none => r.takeFormat e form fun t v =>
            if r.self.badToken (popTokens e w.pop) ∧ ¬ (n = 0 ∧ w.each) then .next (r.tokenParity e)
            else t.runReps e w { u with phase := .run, popped := false, rep := 0, total := n, fmt := v } f.body
        match f.count s with
        | some n => go s n
        | none => s.executions e w ((f.setting s).orElse fun _ => s.formatBad form) go
    | .run => s.runReps e w u f.body
    | _ => .next s

/-- MSTOP, MNOP, VSTOP and VNOP: nothing but their tokens (R127, R212). -/
def Form.nothing : Form :=
  { bad := fun _ => none, count := fun _ => none, format := fun _ => none, body := fun s u => .commit s u 1 }

/-! ### Fetching a word (R127, R182) -/

/-- What stands at a cursor of the ME or VE. -/
inductive Fetched where
  /-- The word, and the rows of a REQ's block that have been read. -/
  | word (v : Nat) (buf : List (Nat × List Byte))
  | fail (f : Fail)
deriving DecidableEq, Repr

/-- R33, R64: `n` bytes of a block in the issuer's scratchpad, each of its 64-byte rows read once, with the rows read; none
where one of them holds an uncorrectable error. -/
def State.blockRead (s : State) (buf : List (Nat × List Byte)) (key n : Nat) : Option (Nat × List (Nat × List Byte)) :=
  let keys := (List.range ((key + (n - 1)) / 64 - key / 64 + 1)).map fun j => 64 * (key / 64 + j)
  if keys.any fun k => (buf.all fun p => p.1 != k) && s.poisoned k 64 then none
  else
    let rows := keys.map fun k => match buf.find? fun p => p.1 == k with
      | some p => p
      | none => (k, s.read k 64)
    some (leNat (((rows.flatMap (·.2)).drop (key % 64)).take n), rows)

/-- The 48-bit word of a stream in instruction memory, or of a block in the issuer's scratchpad. A word that would extend beyond the
issuer's 1 MiB is an illegal engine instruction, as one beyond instruction memory is (log entry 81, DESIGN CHOICE). -/
def State.fetchEng (s : State) (kind : CmdKind) (u : Cursor) : Fetched :=
  let a := u.addr.toNat
  match kind with
  | .stream (some c) =>
    if 0x100000 < a + 6 then .fail (Fail.of Code.engine)
    else match s.blockRead u.rowBuf (localKey c a) 6 with
      | none => .fail (Fail.at' Code.poison a)
      | some r => .word r.1 r.2
  | _ =>
    if 0x20000 < a + 6 then .fail (Fail.of Code.engine)
    else if s.poisoned (imemKey s.core a) 6 then .fail (Fail.at' Code.machine a)
    else .word (s.readNat (imemKey s.core a) 6) []

/-- R33, R365: the rows of `n` bytes of a block that a cursor has not read. -/
def Cursor.freshRows (u : Cursor) (key n : Nat) : List (Nat × Nat) :=
  (rowsOf [(key, n)]).filterMap fun k => if u.rowBuf.any fun p => p.1 == k then none else some (k, 64)
/-- R365: the fetch finds the errors of the rows that it reads. -/
def State.fetchMeets (s : State) (kind : CmdKind) (u : Cursor) : State :=
  if s.flaws.isEmpty then s
  else
    let a := u.addr.toNat
    match kind with
    | .stream (some c) =>
      if 0x100000 < a + 6 then s
      else s.meetFlaws s.core s.slot.val (u.freshRows (localKey c a) 6)
    | _ => if 0x20000 < a + 6 then s else s.meetFlaws s.core s.slot.val [(imemKey s.core a, 6)]

/-- The fields of the engine word that a cursor holds. -/
def Cursor.eword (u : Cursor) : EWord := EWord.unpack (u.word.setWidth 48)
def Cursor.opcode (u : Cursor) : Nat := (u.word.extractLsb' 40 8).toNat
/-- MSTOP and VSTOP. -/
def Cursor.isStop (u : Cursor) : Bool := !u.nestEntry && u.opcode == 0xF0

/-! ### Taking the next head (R27, R69, R75, R195) -/

/-- The engines serve the slot: its strand is not stopped, nor waits to ask for its lease again (R320). -/
def Core.served (x : Core) (k : Nat) : Bool :=
  let y := x.strands[k % 9]'(Nat.mod_lt _ (by decide))
  !x.dark && y.st != .frozen && y.st != .parked && !y.lease.again

/-- A CWAIT that waits at a queue head (R244). -/
def Cursor.atCwait (u : Cursor) : Bool := u.phase == .run && u.word.setWidth 8 == 5#8

/-- R75: every entry before the fence in every named queue has completed; that their writes have been performed is
`Core.rowsOut`. -/
def fenceHere (id : Nat) (q : List Cmd) : Bool :=
  let here (x : Cmd) : Bool := match x.kind with
    | .fence n _ _ _ => n == id
    | _ => false
  match q with
  | [] => true
  | h :: rest => here h || rest.all fun x => !here x
def Strand.fenceClear (x : Strand) (id : Nat) (me ve ce : Bool) : Bool :=
  let q := x.allQueued
  (!me || fenceHere id q.me) && (!ve || fenceHere id q.ve) && (!ce || fenceHere id q.ce)
/-- R73, R306: entries that a cut set aside in the queue of engine `e` stand before a handler's, and go on after RTT. -/
def Strand.behindAside (x : Strand) (e : Eng) : Bool := x.trap.aside.any fun a => !(a.1.cmds e).isEmpty

/-- The head of slot `k` can be taken by engine `e`. A FENCE or a MARKER whose conditions are not met does not occupy the engine, which
serves the heads of other slots meanwhile; R27 does not say which (log entry 77, DESIGN CHOICE). -/
def Core.headReady (x : Core) (e : Eng) (k : Nat) : Bool :=
  let y := x.strands[k % 9]'(Nat.mod_lt _ (by decide))
  x.served k && !x.replaying k && !y.behindAside e && (match y.head e with
    | none => false
    | some h => match h.kind with
      | .fence id m v c => y.fenceClear id m v c && !x.rowsOut k
      | .marker id q => x.markerClear (slotIx k) id q
      | _ => true)

/-- The slot that the engine takes next, in turn after the one it served last. -/
def Core.pickSlot (x : Core) (e : Eng) : Option Nat :=
  ((List.range 8).map fun i => ((x.eng e).last + 1 + i) % 8).find? (x.headReady e)

/-- R195: the pointers of a STREAM entry. -/
def NestRegs.load (r : NestRegs) : NestRegs :=
  let b (p : Nat) : Word := BitVec.ofNat 32 (Nest.base r.active p)
  { r with ptrA := b 0, ptrB := b 1, ptrC := b 2, ptrI := b 3 }

/-- R177: what the shadow nest table is once the ME has taken it: an NGO that waits for that acts as in FILLED. -/
def Strand.shadowTaken (x : Strand) : Shadow := if x.wait = .shadowArmed true then .filled else .empty
/-- The strand with the head entry of an engine begun. -/
def Strand.takeHead (x : Strand) (e : Eng) (h : Cmd) : Strand :=
  match x.cursor e with
  | some _ => x
  | none => match h.kind with
    | .nest =>
      { x with curMe := some { Cursor.start 0 0 with nestEntry := true }
               nest := { x.nest with active := x.nest.shadow, st := x.shadowTaken } }
    | _ =>
      let y := x.putCursor e (some (Cursor.start h.addr h.snap.pred))
      match e with
      | .me => { y with nest := y.nest.load }
      | _ => y

def Core.serve (x : Core) (e : Eng) (k : Option Nat) (last : Nat) : Core := x.putEng e { serving := k, last := last, apart := [] }

/-- R27: engine `e` of core `c` takes the next strand's queue head. -/
def execEngineEntryStart (c : Nat) (e : Eng) (s : State) : Out :=
  match ((s.coreAt c).eng e).serving, (s.coreAt c).pickSlot e with
  | none, some k =>
    let x := s.strandAt c (slotIx k)
    match x.head e with
    | none => .next s
    | some h => match h.kind with
      | .fence _ _ _ _ =>
        .next ((s.updAt c (slotIx k) fun x => { x with q := x.q.dropCmd e }).updCore c fun y => y.serve e none k)
      | .marker _ _ =>
        .next ((s.updAt c (slotIx k) fun x => { x with q := x.q.dropCmd e }).updCore c fun y => y.serve e none k)
      | _ =>
        if (e = .ce ∧ (x.curCe.map Cursor.atCwait) = some true) ∨ ((x.cursor e).isNone ∧ (s.coreAt c).crowded) then .next s
        else .next ((s.updAt c (slotIx k) fun x => x.takeHead e h).updCore c fun y => y.serve e (some k) k)
  | _, _ => .next s

/-! ### Completion (R27-R29, R74, R242) -/

/-- The entry completes: its head leaves the queue and the engine serves no slot. -/
def State.endEntry (s : State) (e : Eng) : State :=
  (s.upd fun x => { x.putCursor e none with q := x.q.dropCmd e }).updCore s.core fun y => y.serve e none s.slot.val

/-- The word completes: K = 0 empties its tile sources, its holds end, the stream goes on or ends. -/
def State.endWord (s : State) (e : Eng) (u : Cursor) : State :=
  let keep := !u.nestEntry && u.eword.k
  let s := if e = .me ∧ !keep then s.updCore s.core fun y => y.putFull (strandNumber s.core s.slot.val) u.reads false else s
  if u.nestEntry || u.isStop then s.endEntry e else s.putCursor e (u.next (u.addr + 6))

/-- The counters that a word, or a repetition under EACH, pushes when it completes. -/
def Cursor.pushes (u : Cursor) (e : Eng) : List Nat :=
  let w := if u.nestEntry then EWord.unpack 0 else u.eword
  if u.phase = .done ∧ w.each then [] else pushTokens e w.push

/-- R28, R74: the word that engine `e` has finished, or a repetition under EACH, makes its pushes once its writes have been
performed; only a push to a full counter waits then. -/
def State.wordPush (s : State) (e : Eng) (u : Cursor) : State :=
  let l := (u.pushes e).filter fun i => !u.pushed.contains i
  if s.own.rowsOut s.slot.val && !l.isEmpty then s
  else if s.self.badToken l then s.tokenParity e
  else
    let now := l.filter fun i => s.self.token i != 255
    let t := s.upd fun x => x.push now
    if now.length < l.length then t.putCursor e { u with pushed := u.pushed ++ now }
    else if u.phase = .push ∧ u.rep ≠ u.total then t.putCursor e { u with phase := .run, popped := false, pushed := [] }
    else t.endWord e u

/-- R244: the address of the chain entry that follows. -/
def Cursor.after (u : Cursor) : DWord :=
  if u.word.setWidth 8 = 8#8 then u.word.extractLsb' 64 64 else u.addr + 32
/-- CEND. -/
def Cursor.isCend (u : Cursor) : Bool := u.word.setWidth 8 == 9#8

/-- R242: a chain entry whose accesses have all been performed pushes the counter from the CE to the sequencer and sets
its flag. -/
def State.entryDone (s : State) (u : Cursor) : State :=
  let tkp := u.word.getLsbD 8
  if s.own.rowsOut s.slot.val then s
  else if tkp && s.self.badToken [tokenIx 3 0] then s.tokenParity .ce
  else if tkp && !s.self.canPush [tokenIx 3 0] then s
  else
    let s := if tkp then s.upd fun x => x.push [tokenIx 3 0] else s
    let s := if u.word.getLsbD 9 then
        s.setFlag s.core (u.word.extractLsb' 10 8) (strandNumber s.core s.slot.val) 3 else s
    if u.isCend then s.endEntry .ce
    else s.putCursor .ce { u.next u.after with linked := u.linked || u.word.setWidth 8 == 8#8 }

/-- The word or entry that engine `e` of core `c` has finished completes. -/
def execEngineWordComplete (c : Nat) (e : Eng) (s : State) : Out :=
  match ((s.coreAt c).eng e).serving with
  | none => .next s
  | some k =>
    let t := { s with core := c, slot := slotIx k }
    match t.self.cursor e with
    | none => .next s
    | some u =>
      if u.phase = .push ∨ u.phase = .done then .next (if e = .ce then t.entryDone u else t.wordPush e u) else .next s

end Sys2Proof.Machine
end

