-- ==== Sys2Proof/Machine/SystemForms.lean ====
section
/-! DEFINITION. Power leases, dead registers, breakpoints and cuts (R186, R189, R190, R336, R358, R360, R364). -/
namespace Sys2Proof.Machine

/-! ### Power leases (R186, R336, R372) -/

/-- R336: the level of a lease held, which its replacement gives back. -/
def Lease.units (l : Lease) : BitVec 4 := if l.held then l.level else 0

/-- R186: PACQ waits for its earlier entries to issue, then for the grant; the management core grants at once. -/
def execPacq (level : BitVec 4) (s : State) : Out :=
  let x := s.self
  if !x.allQueued.ld.isEmpty || !x.allQueued.st.isEmpty then s.await .lease
  else if s.core = mgmtCore then
    .next (s.upd fun y => { y with lease := { pend := false, held := true, level := level, again := false, left := false } }.retire)
  else if x.lease.pend then s.await .lease
  else
    let g := s.seg (segOf s.core)
    let s := s.putSeg (segOf s.core) { g with reqs := g.reqs ++ [{ core := s.core, slot := s.slot.val, level := level }] }
    (s.upd fun y => { y with lease := { y.lease with pend := true } }).await .lease

/-- R186. -/
def execPrel (s : State) : Out := (s.freeLease s.core s.slot).done

/-- R336: the head request of a segment fits. -/
def State.leaseFits (s : State) (g : Segment) (r : LeaseReq) : Bool :=
  let old := (s.strandAt r.core (slotIx r.slot)).lease.units
  decide (g.held.toNat + r.level.toNat ≤ g.cap.toNat + old.toNat)

/-- R186, R321, R336: the request at the head is granted, and the old lease's units leave in the same action. A strand that
asks again after a resumption goes on where it stands; a PACQ issues. -/
def execLeaseGrant (seg : Nat) (s : State) : Out :=
  let g := s.seg seg
  match g.reqs with
  | [] => .next s
  | r :: rest =>
    if !s.leaseFits g r then .next s
    else
      let k := slotIx r.slot
      let x := s.strandAt r.core k
      let held := g.held + r.level.setWidth 8 - x.lease.units.setWidth 8
      let s := s.putSeg seg { g with held := held, reqs := rest }
      .next (s.updAt r.core k fun y =>
        let z := { y with lease := { pend := false, held := true, level := r.level, again := false, left := false } }
        if y.lease.again || y.lease.left then z.wake .lease
        else if y.st = .waiting ∧ y.wait = .lease then z.retire else z)

/-! ### Dead registers (R189, R364) -/

/-- R364: the dead registers that an SDEAD names and the live ones, in ascending order, in pairs. -/
def pairings {w : Nat} (named dead : BitVec w) : List (Nat × Nat × Bool) :=
  (((List.range w).filter named.getLsbD).zip ((List.range w).filter fun i => !dead.getLsbD i)).map fun p => (p.1, p.2, false)

/-- SDEAD over one kind: the registers that it names are dead, and paired with the live ones. -/
def Dead.declare {w : Nat} (x : Dead w) (m : BitVec w) : Dead w := { mask := x.mask ||| m, dup := pairings m (x.mask ||| m) }
/-- R364: a later SDEAD ends every earlier pairing. -/
def Dead.unpaired {w : Nat} (x : Dead w) : Dead w := { x with dup := [] }

/-- R189: the domain registers that some store entry mentions. -/
def Rel.mentioned (r : Rel) : BitVec 64 :=
  maskOf fun i => r.store.any fun e => e.mentions (BitVec.ofNat 6 i)

def execSdeadD (a : AReg) (s : State) : Out :=
  let m := s.ra a
  if m = 0 then s.done
  else .next (s.upd fun x =>
    { x with deadD := x.deadD.declare (m &&& ~~~x.rel.mentioned), deadA := x.deadA.unpaired }.retire)
def execSdeadA (a : AReg) (s : State) : Out :=
  let m := s.ra a
  if 2 ^ 32 ≤ m.toNat then s.trapHere Code.operand
  else if m = 0 then s.done
  else .next (s.upd fun x => { x with deadA := x.deadA.declare (m.setWidth 32), deadD := x.deadD.unpaired }.retire)

/-! ### Breakpoints and cut records (R190, R357, R358, R360) -/

/-- R357: words 2 and 3 of a cut record. -/
def Strand.cutWords (x : Strand) (reason code : Nat) : DWord × DWord :=
  let h (tail : BitVec 16) (n : Nat) : Nat := (tail - BitVec.ofNat 16 n).toNat
  let q := x.allQueued
  (BitVec.ofNat 64 (h q.seqMe q.me.length + h q.seqVe q.ve.length * 2 ^ 16 + h q.seqCe q.ce.length * 2 ^ 32 +
      h q.seqFmt q.fmt.length * 2 ^ 48),
   BitVec.ofNat 64 (h q.seqLd q.ld.length + h q.seqSt q.st.length * 2 ^ 16 + reason * 2 ^ 32 + code * 2 ^ 40))

/-- R358: the record of a wait that goes on at a cut: kind, waiting agent, number, begin, byte offset. -/
def State.pendingWait (s : State) (c : Nat) (k : Fin 9) (kind agent num since off : Nat) : State :=
  s.traceRecord c k 1
    (BitVec.ofNat 64 (kind * 2 ^ 56 + agent * 2 ^ 53 + num * 2 ^ 32 + min (s.clk - since) (2 ^ 32 - 1)))
    (BitVec.ofNat 64 (7 * 2 ^ 45 + off % 2 ^ 32))
/-- The wait of an engine's word at a cut. -/
def State.pendingEng (s : State) (c : Nat) (k : Fin 9) (agent : Nat) (u : Option Cursor) : State :=
  match u with
  | none => s
  | some v => match v.since with
    | none => s
    | some (kind, num, since) => s.pendingWait c k kind agent num since v.addr.toNat
/-- The wait records of the agents that wait at a cut (R358). -/
def State.pendingWaits (s : State) (c : Nat) (k : Fin 9) : State :=
  let x := s.strandAt c k
  let s := match x.st, x.wait with
    | .waiting, .flag n => s.pendingWait c k 0 0 n x.sinceClk x.pc.toNat
    | .waiting, .token n => s.pendingWait c k 1 0 n x.sinceClk x.pc.toNat
    | _, _ => s
  (s.pendingEng c k 1 x.curMe).pendingEng c k 2 x.curVe

/-- One cut record with its wait records. -/
def State.cutRecord (s : State) (c : Nat) (k : Fin 9) (reason code : Nat) : State :=
  if (s.strandAt c k).trace.tre then
    let w := (s.strandAt c k).cutWords reason code
    (s.traceRecord c k 2 w.1 w.2).pendingWaits c k
  else s

/-- R190, R360: with BKE = 1 the strand freezes at its cut, with VIOL clear; on the management core BKE has no effect. -/
def execBkpt (code : BitVec 8) (s : State) : Out :=
  if s.self.trace.bke && s.core != mgmtCore then
    let pc := s.self.pc.toNat
    let t := (s.cutRecord s.core s.slot 1 code.toNat).upd fun x => { x.retire with viol := false }
    .next ((t.freezeAt s.core s.slot).emit s.core s.slot.val 5 pc code.toNat 0)
  else s.done

/-- R190. -/
def execCut (s : State) : Out := (s.cutRecord s.core s.slot 0 0).done

/-- R358: a sample. -/
def execTraceSample (c k : Nat) (s : State) : Out :=
  let ix := slotIx k
  let x := s.strandAt c ix
  if x.st = .dormant ∨ x.st = .frozen ∨ x.st = .parked ∨ !x.trace.smp ∨ s.clk < x.trace.last + x.trace.smpint.toNat then .next s
  else .next ((s.cutRecord c ix 2 0).updAt c ix fun y => { y with trace := { y.trace with last := s.clk } })

end Sys2Proof.Machine
end

