-- ==== Sys2Proof/Machine/Power.lean ====
section
/-! DEFINITION. Sensors and alerts, draw estimates and energy, refresh and self-refresh, interleave maps, rack caps and
package power, voltage trims, PTP time and its messages (R18, R295, R302, R334-R344). -/
namespace Sys2Proof.Machine

/-! ### Thermal sensors (R335, R339-R341) -/

/-- Headroom in eighths of a degree below a limit. -/
def headroom (limit : Int) (temp : BitVec 16) : Nat := (clip (limit - temp.toInt) 0 255).toNat
/-- R335: ALLOW of SYS.SEGSTAT; R339: ALLOW of SYS.TALLOW. -/
def Segment.allow (g : Segment) : Nat := headroom 840 g.temp
def Group.allow (g : Group) : Nat := headroom 680 g.temp

/-- How many sensors have an allowance at or below TRIP. -/
def State.countAlerting (s : State) : Nat :=
  ((List.range 1024).filter fun g => decide ((s.seg g).allow ≤ s.pkg.trip.toNat)).length +
    ((List.range 256).filter fun g => decide ((s.group (g / 32) (g % 32)).allow ≤ s.pkg.trip.toNat)).length

/-- R340: a stack's refresh rate after a sample. -/
def State.rateOf (s : State) (h : Nat) : Bool :=
  let temps := (List.range 32).map fun g => (s.group h g).temp.toInt
  if temps.any fun t => decide (680 < t) then true
  else if temps.all fun t => decide (t ≤ 672) then false
  else (s.stack h).doubled

/-- The readings that sensors bring. -/
def State.read1 (s : State) : Reading → State
  | .seg g t => s.putSeg g { s.seg g with temp := t }
  | .group h g t layer => s.putGroup h g { temp := t, layer := layer }

/-- R341: the period of the alert. -/
def alertPeriod : Nat := 2 ^ 20

/-- R341: the alert falls now, and again after its period. -/
def State.alertNow (s : State) : State := { s with pkg := { s.pkg with alertAt := s.clk + alertPeriod } }.raiseAlert

/-- One sample of every sensor: the readings, the refresh rates, the count of alerting sensors. -/
def State.sample (s : State) (rs : List Reading) : State :=
  let s := rs.foldl State.read1 s
  let s := (List.range 8).foldl (fun s h => s.putStack h { s.stack h with doubled := s.rateOf h }) s
  { s with pkg := { s.pkg with alerting := s.countAlerting } }

def execSensorSample (rs : List Reading) (s : State) : Out :=
  let t := s.sample rs
  .next (if t.pkg.talrtEn && s.pkg.alerting == 0 && t.pkg.alerting != 0 then t.alertNow else t)

def execAlertPeriodExpiry (s : State) : Out :=
  .next (if s.pkg.talrtEn && s.pkg.alerting != 0 && decide (s.pkg.alertAt ≤ s.clk) then s.alertNow else s)

def execTalrtWrite (v : Word) (s : State) : Out :=
  let on := v.getLsbD 8
  let t : State := { s with pkg := { s.pkg with talrtEn := on, trip := v.setWidth 8 } }
  .next (if on && !s.pkg.talrtEn && s.pkg.alerting != 0 then t.alertNow else t)

/-! ### Energy and draw (R186, R295, R335, R337, R369) -/

/-- R337: a window that begins at clk `clk` holds those of an engine's busy clocks that reach into it. -/
def Busy.turn (b : Busy) (clk : Nat) : Busy := { b with now := min b.upto (clk + 256) - clk }
def Effort.turn (x : Effort) (clk : Nat) : Effort := { slots := 0, me := x.me.turn clk, ve := x.ve.turn clk, ce := x.ce.turn clk }
/-- The issue slots and engine-busy clocks of the window. -/
def Effort.total (x : Effort) : Nat := x.slots + x.me.now + x.ve.now + x.ce.now
/-- The two cores of a column segment. -/
def segCores (g : Nat) : List Nat := [g / 16 * 32 + 2 * (g % 16), g / 16 * 32 + 2 * (g % 16) + 1]
/-- The efforts in a segment, by launch: of the strands in their slots, and of those that have left them in the window. -/
def State.efforts (s : State) (g : Nat) : List (LaunchId × Nat) :=
  ((segCores g).flatMap fun c => (s.coreAt c).strands.toList.filterMap fun x =>
    match x.owner with
    | some l => if x.eff.total = 0 then none else some (l, x.eff.total)
    | none => none) ++
  s.spent.filterMap fun e => if (segCores g).contains e.1 && e.2.2.total != 0 then some (e.2.1, e.2.2.total) else none

/-- R295: the class of a launch's work that is made ready or runs, on every core and in the save areas. -/
def State.reclass (s : State) (l : LaunchId) (prio : BitVec 3) : State :=
  { s with saved := s.saved.map fun (i : Saved) => if i.owner = some l then { i with prio := prio } else i }.mapCores (fun _ => true) fun _ y =>
    { y with
      strands := y.strands.map fun (x : Strand) => if x.owner = some l ∧ x.run.isSome then { x with prio := prio } else x
      ready := y.ready.map fun (r : Ready) => if r.owner = some l then { r with prio := prio } else r
      wheel := y.wheel.map fun (r : Release) => if r.owner = some l then { r with prio := prio } else r
      placed := y.placed.map fun (p : Placed) => if p.owner = l then { p with prio := prio } else p }

/-- A launch's mailbox still holds it, and it has been issued. -/
def Mailbox.running (m : Mailbox) (l : LaunchId) : Bool := m.go && m.launch == l.2 && m.status == 3

/-- R295: energy charged to a running launch; each further multiple of its budget raises its class. -/
def State.charge (s : State) (l : LaunchId) (mj : Nat) : State :=
  let m := (s.coreAt l.1).mbox
  if !m.running l then s
  else
    let used := min (m.enused.toNat + mj) (2 ^ 32 - 1)
    let rise := if m.energy = 0 then 0 else used / m.energy.toNat - m.enused.toNat / m.energy.toNat
    let cls := BitVec.ofNat 3 (min (m.ecls.toNat + rise) 7)
    let s := s.updCore l.1 fun y => { y with mbox := { m with enused := BitVec.ofNat 32 used, ecls := cls } }
    if rise = 0 then s else s.reclass l cls

/-- Energy charged to the launches of a list in proportion to their weights. -/
def State.share (s : State) (e : Nat) (l : List (LaunchId × Nat)) : State :=
  let total := (l.map (·.2)).sum
  ((l.map (·.1)).eraseDups).foldl (fun s id =>
    s.charge id (e * ((l.filter fun x => x.1 == id).map (·.2)).sum / total)) s
/-- R295: the launches whose hot records borrow a parked partner in a segment: by their efforts, or alike where none has
any. -/
def State.borrowers (s : State) (g : Nat) : List (LaunchId × Nat) :=
  let l := (segCores g).flatMap fun c => if (s.coreAt c).act then
      (s.coreAt c).strands.toList.filterMap fun x => if x.hot then x.owner.map fun o => (o, x.eff.total) else none
    else []
  if (l.map (·.2)).sum = 0 then l.map fun x => (x.1, 1) else l

/-- The window of one segment: its energy, the part of a parked partner to the launches that borrow it, and the rest in
proportion to the efforts. -/
def State.meter (s : State) (g : Nat) : State :=
  let e := Config.energy g s.steps
  let b := s.borrowers g
  let idle := if b.isEmpty then 0 else min e (Config.idleEnergy g s.steps)
  let s := s.share idle b
  let s := s.putSeg g { s.seg g with en := (s.seg g).en + BitVec.ofNat 32 e }
  let s := match s.partOfCol (g / 16) with
    | some p => s.putPart p { s.part p with parten := (s.part p).parten + BitVec.ofNat 64 e }
    | none => s
  s.share (e - idle) (s.efforts g)

/-- R337: the draw estimate and the allowance of a lease. -/
def Strand.draw (x : Strand) : Nat := 4 * x.eff.me.now + 2 * x.eff.ve.now + x.eff.ce.now
def Strand.allowance (x : Strand) : Nat := 112 * ((if x.lease.held then x.lease.level.toNat else 0) + 1)

/-- R186, R337: the strand draws above its level in a segment whose OVE is 1. -/
def State.overdrawn (s : State) (c : Nat) (k : Fin 9) : Bool :=
  let x := s.strandAt c k
  c != mgmtCore && (s.seg (segOf c)).ove && decide (x.allowance < x.draw) &&
    (x.st == .ready || x.st == .waiting || x.st == .ending)

/-- The cores that the state lists. -/
def State.listed (s : State) : List Nat := s.cores.map (·.1)

/-- R295, R337: at the end of a window of 256 clk, once: the energy of the segments and the draw estimates (log entry 39, DESIGN
CHOICE). -/
def execDrawEstimateWindow (s : State) : Out :=
  if s.clk % 256 ≠ 0 ∨ s.drawnAt = s.clk then .next s else
  let who := s.listed.flatMap fun c => ((List.range 8).map slotIx).filterMap fun k =>
    if s.overdrawn c k then some (c, k) else none
  let s := (List.range 1024).foldl State.meter s
  let s := s.mapCores (fun _ => true) fun _ y =>
    { y with strands := y.strands.map fun (x : Strand) => { x with eff := Effort.turn x.eff s.clk } }
  let s : State := { s with spent := (s.spent.map fun e => (e.1, e.2.1, e.2.2.turn s.clk)).filter fun e => e.2.2.total != 0, drawnAt := s.clk }
  .next (who.foldl (fun s p => s.trapAt p.1 p.2 (Cause.plain Code.overdraw) (s.strandAt p.1 p.2).pc) s)

/-! ### Refresh (R18, R340, R342) -/

/-- R18: a refresh of a bank, or one postponed; after eight postponed ones all banks are refreshed and the allowance is whole
again, and a refresh of one bank gives none of it back (log entry 53, DESIGN CHOICE). -/
def execRefreshDue (h v pc bank : Nat) (postpone : Bool) (s : State) : Out :=
  let x := s.stack h
  let i := pcIx v pc
  let n := SMap.get 0 x.postponed i
  if x.asleep.contains i ∨ 24 ≤ pc ∨ allBanks ≤ bank then .next s
  else if !postpone then .next (s.putStack h (x.hold s.clk i bank 120))
  else if n < 8 then .next (s.putStack h { x with postponed := SMap.put x.postponed i (n + 1) })
  else .next (s.putStack h { x.hold s.clk i allBanks 352 with postponed := SMap.put x.postponed i 0 })

def execSelfRefreshEntry (h v pc : Nat) (s : State) : Out :=
  let x := s.stack h
  let i := pcIx v pc
  if (s.vault h v).n.toNat ≤ pc ∧ pc < 24 ∧ SMap.get 0 x.lastUse i + 2 ^ 20 ≤ s.clk ∧ !x.asleep.contains i
  then .next (s.putStack h { x with asleep := x.asleep ++ [i] }) else .next s

/-- The N that a write stores. -/
def ilvStore (n : BitVec 5) : BitVec 5 := if n = 0 ∨ 24 < n.toNat then 24 else n

def execVilvWrite (h v : Nat) (n : BitVec 5) (s : State) : Out :=
  let x := s.vault h v
  let m := ilvStore n
  .next (s.putVault h v { n := m, busy := x.busy || m != x.n })

def execVilvMigrationDone (h v : Nat) (s : State) : Out := .next (s.putVault h v { s.vault h v with busy := false })

/-! ### Rack caps and package power (R343, R344) -/

/-- R12, R355: clocks in a millisecond. -/
def State.clkPerMs (s : State) : Nat := if s.pkg.full then 800000 else 400000

/-- The watts of a cap message that is applied. -/
def capStore (w : BitVec 16) : BitVec 16 := if 4000 < w.toNat then 4000 else w

def execRcapmsg (m : DWord) (s : State) : Out :=
  let seq : Word := m.extractLsb' 32 32
  let d := (seq - s.pkg.rcapSeq).toNat
  if s.pkg.rcapSeen ∧ (d = 0 ∨ 2 ^ 31 ≤ d) then .next s
  else .next { s with pkg := { s.pkg with
    rcapSeen := true, rcapSeq := seq, rcapCap := capStore (m.extractLsb' 16 16), rcapFlr := false
    rcapExpiry := some (s.clk + (m.setWidth 16).toNat * s.clkPerMs) } }

def execCapLeaseExpiry (s : State) : Out :=
  match s.pkg.rcapExpiry with
  | some t => if t ≤ s.clk then
      .next { s with pkg := { s.pkg with rcapCap := 2400, rcapFlr := true, rcapExpiry := none } } else .next s
  | none => .next s

/-- R344: LVL moves by one with the average that the sample finds. -/
def execPowerSample (watts : Nat) (s : State) : Out :=
  let cap := s.pkg.rcapCap.toNat
  let l := s.pkg.pthr
  let l := if cap < watts then (if l = 15 then l else l + 1)
    else if 100 * watts < 95 * cap then (if l = 0 then l else l - 1) else l
  .next { s with pkg := { s.pkg with pthr := l } }

/-- R338: the reversal of four bits. -/
def rev4 (n : Nat) : Nat := n % 2 * 8 + n / 2 % 2 * 4 + n / 4 % 2 * 2 + n / 8 % 2
/-- R338: the present clock is withheld in a core's segment. -/
def State.withheld (s : State) (c : Nat) : Bool :=
  c != mgmtCore && decide (rev4 (s.clk % 16) < max (s.seg (segOf c)).thrIn.toNat s.pkg.pthrIn.toNat)

/-! ### Voltage (R334) -/

def execSegmentTrim (seg : Nat) (up : Bool) (s : State) : Out :=
  let g := s.seg seg
  .next (s.putSeg seg { g with
    trimmed := true
    vmv := if up then (if g.vmv = 0xFF then g.vmv else g.vmv + 1) else (if g.vmv = 0 then g.vmv else g.vmv - 1) })

/-! ### PTP time (R302, R355) -/

def execPtpstepWrite (v : DWord) (s : State) : Out :=
  .next { s with pkg := { s.pkg with ptp := s.pkg.ptp + v, ptpOn := true } }

/-- R302, R355: a message on the port that SYS.PTPSRC names reaches firmware; others do not. -/
def execPtpMessage (port : BitVec 5) (body : DWord) (s : State) : Out :=
  if port = s.pkg.ptpsrc then .next { s with pkg := { s.pkg with ptpMsgs := s.pkg.ptpMsgs ++ [body] } } else .next s

/-- Units of 2^-32 ns in a clock. -/
def State.clkUnits (s : State) : Int := (if s.pkg.full then 5368709120 else 10737418240) + s.pkg.ptprate.toInt

/-- R331: a read that is counted: a load-queue entry, a prefetch, a near-memory read. -/
def Flight.counts (f : Flight) : Bool :=
  f.e.i.isLoad || f.e.i.isPref || (match nmKind f.e.i with
    | some .pka => false
    | some _ => true
    | none => false)
/-- R331: a read of the strand, or of the chain entry that runs for it, is held at its vault by a refresh. -/
def State.readHeld (s : State) (y : Core) (k : Fin 9) : Bool :=
  (y.flights.any fun f => f.slot == k.val && !f.done && f.counts && s.holdsAny false f.reached) ||
    (match y.strands[k.val].curCe with
      | some u => s.holdsAny false u.heldAt
      | none => false)

/-- The core a clock later: the clocks that refresh holds reads. -/
def State.countHeld (s : State) (y : Core) : Core :=
  if y.flights.isEmpty && y.strands.all fun x => x.curCe.all fun u => u.heldAt.isEmpty then y
  else
    { y with strands := Vector.ofFn fun k =>
        let x := y.strands[k]
        if x.st != .frozen && x.st != .parked && x.st != .dormant && s.readHeld y k && x.trace.rfhold != 0xFFFFFFFF
        then { x with trace := { x.trace with rfhold := x.trace.rfhold + 1 } } else x }

/-- R91: what was written to the generators takes effect. -/
def Core.takeSeeds (y : Core) : Core :=
  { y with seedM := y.seedNextM.getD y.seedM, seedV := y.seedNextV.getD y.seedV, seedNextM := none, seedNextV := none }

/-- R358: the clocks counted of a wait leave out those spent FROZEN or PARKED: its begin moves with them. -/
def Cursor.later (u : Cursor) : Cursor := { u with since := u.since.map fun x => (x.1, x.2.1, x.2.2 + 1) }
def Strand.later (x : Strand) : Strand :=
  let l (u : Option Cursor) : Option Cursor := u.map Cursor.later
  { x with
    sinceClk := x.sinceClk + 1, curMe := l x.curMe, curVe := l x.curVe, curCe := l x.curCe
    trap := { x.trap with aside := x.trap.aside.map fun a => (a.1, l a.2.1, l a.2.2.1, l a.2.2.2) } }
/-- The strands of a core that are FROZEN or PARKED. -/
def Core.later (y : Core) : Core :=
  { y with strands := y.strands.map fun (x : Strand) => if x.st = .frozen ∨ x.st = .parked then x.later else x }

/-- R239, R367: what the core's counters and the maxima of the VE have gathered in the clk has taken effect. -/
def Core.settleClk (y : Core) : Core :=
  { y with
    strands := y.strands.map fun (x : Strand) => { x with amaxClk := Vector.replicate 4 0 }
    corr := y.corr.settle 0xFFFF, repair := y.repair.settle 0xFF, unc := y.unc.settle 0xFF, vskip := y.vskip.settle (2 ^ 64 - 1) }

/-- One clock: clk, the PTP time, the throttle levels that come into force (R338), the held reads, the generators, the
timer wheels (R38). -/
def State.advance (s : State) : State :=
  let t : Int := (s.pkg.ptp.toNat * 2 ^ 32 + s.pkg.ptpFrac.toNat : Nat) + s.clkUnits
  let n := s.clk + 1
  let s := s.mapCores (fun _ => true) fun _ y => (s.countHeld y).takeSeeds.later.settleClk
  let s : State := { s with
    clk := n
    saved := s.saved.map fun i => { i with strand := i.strand.later }
    pkg := { s.pkg with ptp := (BitVec.ofInt 96 t).extractLsb' 32 64, ptpFrac := (BitVec.ofInt 96 t).setWidth 32 } }
  let s := s.mapCores (fun _ => true) fun _ y => if y.wheel.isEmpty || y.dark || y.closing.isSome then y else y.releaseDue s.pkg.ptp s.steps
  if n % 16 = 0 then
    { s with segs := s.segs.map fun e => (e.1, { e.2 with thrIn := e.2.thr }), pkg := { s.pkg with pthrIn := s.pkg.pthr } }
  else s

end Sys2Proof.Machine
end

