-- ==== Sys2Proof/Machine/CopyEngine.lean ====
section
/-! DEFINITION. The copy engine and the transfer unit: fetching entries, the units of each chain entry, their faults
(R79, R132-R134, R242-R246, R293). -/
namespace Sys2Proof.Machine

/-! ### What stops a unit (R245, R246, R325, R326) -/

inductive Stop where
  | fail (f : Fail)
  /-- A translation fault at an address. -/
  | hold (code : BitVec 8) (va : Nat)
  /-- An earlier access of the core on the same path has not been performed (R65), or the partition's DMA has stopped
  (R353). -/
  | wait
  /-- A host page whose translation has not come back. -/
  | ats (va : Nat)
  /-- The rows of these bytes wait for a refresh or a wake of their vault (R18, R342). -/
  | rows (l : List (Nat × Nat)) (read : Bool)
  /-- A poisoned row among the bytes at an address. -/
  | poisoned (l : List (Nat × Nat)) (va : Nat)
  /-- R243: an atomic action, the form of its entry with its operand, issues toward a place beyond the own scratchpad. -/
  | strike (i : Instr) (va : Nat) (l : List (Nat × Nat)) (place : Place)
deriving DecidableEq, Repr

def Stop.of (code : BitVec 8) (va : Nat) : Stop := .fail (Fail.at' code va)
/-- What a resolved address stops with. -/
def Stop.ofReach (va : Nat) : Reach → Stop
  | .cause x => if isTranslation x then .hold x va else Stop.of x va
  | .violation => .fail { Fail.at' 0 va with violation := true }
  | .miss va => .ats va
  | .ats va => .ats va
  | _ => Stop.of Code.range va

/-- R18, R65, R342, R353: what holds an access to chunks on its way; the state once it has arrived. -/
def State.ceArrive (s : State) (l : List (Nat × Nat)) (read : Bool) : Except Stop State :=
  if s.own.pathBusy s.core l || l.any fun x => s.dmaStopped s.core (placeOf s.core x.1) then .error .wait
  else if s.holdsAny true l || s.sleeping l then .error (.rows l read)
  else .ok (if s.poisonedChunks l then s else (s.touched l).meetFlaws s.core s.slot.val l)
/-- `n` bytes read at an address of the running core; `counted` marks a read unit, whose refresh R331 counts. -/
def State.ceRead (s : State) (va n : Nat) (counted : Bool) : Except Stop (State × List Byte) :=
  let cells := s.tableCells s.core va n
  if s.heldUp s.core cells then .error (.rows cells false) else
  match s.reach s.core va n false true with
  | .at l => do
    let t ← (s.arriveAt s.core s.slot.val cells).ceArrive l counted
    if s.poisonedChunks l then .error (.poisoned l va) else .ok (t, s.seen l)
  | r => .error (Stop.ofReach va r)

/-- One access of a unit: its address, its bytes, and whether it writes. -/
structure Move where
  va : Nat
  n : Nat
  write : Bool
deriving DecidableEq, Repr
/-- What refuses the accesses of a unit together, by the order of R374: a range cause, the partner window, then what a page is refused
for. -/
def firstCause (l : List (Move × Reach)) : Option Stop :=
  let is (p : BitVec 8 → Bool) (x : Move × Reach) : Bool := match x.2 with
    | .cause e => p e
    | _ => false
  let at_ (x : Move × Reach) : Bool := match x.2 with
    | .at _ => true
    | _ => false
  (((l.find? (is (· == Code.range))).orElse fun _ => l.find? (is (· == Code.partner))).orElse fun _ => l.find? (!at_ ·)).map
    fun x => Stop.ofReach x.1.va x.2
/-- R374: where the accesses of a unit stand, once no table row that their walks read is held: none of them has been made. -/
def State.ceReach (s : State) (l : List Move) : Except Stop (State × List (Move × Reach)) :=
  let cells := l.flatMap fun x => s.tableCells s.core x.va x.n
  if s.heldUp s.core cells then .error (.rows cells false)
  else
    let r := l.map fun x => (x, s.reach s.core x.va x.n x.write true)
    match firstCause r with
    | some e => .error e
    | none => .ok (s.arriveAt s.core s.slot.val cells, r)
/-- The chunks that an access reached. -/
def Reach.chunks : Reach → List (Nat × Nat)
  | .at l => l
  | _ => []
/-- They arrive, in order. -/
def State.ceArriveAll (s : State) : List (Move × Reach) → Except Stop State
  | [] => .ok s
  | (x, r) :: l => do
    let t ← s.ceArrive r.chunks (!x.write)
    State.ceArriveAll t l
/-- What their places raise: a live reel cell, then poison (R374). -/
def State.ceRaise (s : State) (l : List (Move × Reach)) : Option Stop :=
  match l.find? fun x => x.1.write && s.inReel x.2.chunks with
  | some x => some (Stop.of Code.reel x.1.va)
  | none => (l.find? fun x => !x.1.write && s.poisonedChunks x.2.chunks).map fun x => .poisoned x.2.chunks x.1.va
/-- The accesses of a unit: the state once they have arrived, and the chunks of each. -/
def State.ceMoves (s : State) (l : List Move) : Except Stop (State × List (List (Nat × Nat))) := do
  let (t, r) ← s.ceReach l
  let u ← t.ceArriveAll r
  match s.ceRaise r with
  | some e => .error e
  | none => .ok (u, r.map fun x => x.2.chunks)
/-- The bytes that a write of a unit reaches. -/
def State.ceSpot (s : State) (va n : Nat) : Except Stop (State × List (Nat × Nat)) := do
  let (t, l) ← s.ceMoves [{ va := va, n := n, write := true }]
  .ok (t, l.headD [])
/-- A unit that moves `n` bytes from one address to another: the state after both accesses, and the bytes. -/
def State.ceMove (s : State) (src dst n : Nat) : Except Stop (State × List Byte) := do
  let (t, l) ← s.ceMoves [{ va := src, n := n, write := false }, { va := dst, n := n, write := true }]
  let bs := s.seen (l.headD [])
  .ok (t.engWrites dst ((l.drop 1).headD []) bs, bs)

/-- An address that a signed stride in 64-byte units has moved. -/
def strided (base : DWord) (n : Int) : Nat := (base + BitVec.ofInt 64 (64 * n)).toNat

namespace Chain
def len (e : CEntry) : Nat := e.lenm.toNat + 1
def rows (e : CEntry) : Nat := e.n1m.toNat + 1
def planes (e : CEntry) : Nat := e.n2m.toNat + 1
/-- ADDR2 or OPX: bits [255:192]. -/
def addr2 (e : CEntry) : DWord := e.dpstr ++ e.drstr ++ e.spstr ++ e.srstr
/-- Source and destination of row unit `u`, rows innermost. -/
def src (e : CEntry) (u : Nat) : Nat :=
  strided e.addr0 ((u / rows e : Nat) * e.spstr.toInt + (u % rows e : Nat) * e.srstr.toInt)
def dst (e : CEntry) (u : Nat) : Nat :=
  strided e.addr1 ((u / rows e : Nat) * e.dpstr.toInt + (u % rows e : Nat) * e.drstr.toInt)
/-- Row pitch of a table: 64 × Ceil(L / 64). -/
def pitch (e : CEntry) : Nat := 64 * ((len e + 63) / 64)
end Chain

/-! ### Running an entry -/

/-- R305: AGENT of the running engine: the CE, or the transfer unit in slot 8. -/
def State.ceAgent (s : State) : Nat := if s.slot.val = 8 then 7 else 3

/-- R326: a translation fault holds the entry at its cursor and is reported. -/
def State.ceHold (s : State) (u : Cursor) (code : BitVec 8) (va : Nat) : State :=
  let n := s.nextFid % 65536
  if s.asksHost s.core va code then
    { s.forgetPage s.core va with nextFid := s.nextFid + 1 }.putCursor .ce { u with held := .pri n va code }
  else
  let f : Fid := { fid := n, part := s.asid s.core, core := s.core, slot := s.slot.val, cause := code, va := BitVec.ofNat 64 va }
  ({ s with fids := s.fids ++ [f], nextFid := s.nextFid + 1 }.putCursor .ce { u with held := .fid n }).emit s.core
    (s.slot.val % 8) 1 va n s.ceAgent

/-- A fault of an entry: a strand traps at its cut; a TRANSFER stops at its entry (R330, log entry 20, DEDUCED). -/
def State.ceFail (s : State) (u : Cursor) (f : Fail) : State :=
  if s.slot.val = 8 then
    if f.violation then
      (s.upd fun x => { x with st := .frozen, back := .ready, viol := true }).emit s.core 0 2 f.addr.toNat 0 7
    else ((s.countMck s.core f.code).countUnc s.core f.code).putCursor .ce { u with held := .cause f.code f.addr }
  else s.engFault .ce f

/-- An atomic action of the acting slot's chain becomes an in-flight entry. -/
def State.sendStrike (s : State) (i : Instr) (va : Nat) (l : List (Nat × Nat)) (p : Place) (tag : Option Tag) (qseq : BitVec 16)
    (replay : Option Nat) : State :=
  let e : QEntry := { i := i, po := 0, qseq := qseq, ea := BitVec.ofNat 64 va, v := 0, c := 0, data := [], held := .no, tag := none,
                      ra := none, replay := replay }
  s.updCore s.core fun y =>
    { y with
      issueNo := y.issueNo + 1
      flights := y.flights ++ [{ n := y.issueNo, slot := s.slot.val, st := false, e := e, cls := .tagged, tag := tag, ra := l,
                                 place := p, done := false, written := false, ans := .none, reads := [], out := none }] }
/-- R243, R308, R311: an atomic action of the CE issues as an in-flight entry while the record and the strand's tags have room;
one that issues again keeps its tag. A TRANSFER gives no tag (log entry 20, DEDUCED). -/
def State.strike (s : State) (u : Cursor) (i : Instr) (va : Nat) (l : List (Nat × Nat)) (p : Place) : State :=
  let x := s.self
  let old := u.atom.bind (·.tag)
  if s.own.crowded ∨ (s.slot.val ≠ 8 ∧ old.isNone ∧ !x.tag.room) then s
  else
    let g := x.tag.take old
    let tag := if s.slot.val = 8 then none else some g.1
    ((s.upd fun x => { x with tag := if s.slot.val = 8 then x.tag else g.2 }).putCursor .ce
        { u with atom := some { tag := tag, ra := l, hit := false, replay := none } }).sendStrike i va l p tag
      (((x.head .ce).map fun (h : Cmd) => h.qseq).getD 0) none

def State.ceStop (s : State) (u : Cursor) (e : Stop) : State :=
  match e with
  | .fail f => s.ceFail u f
  | .hold code va => s.ceHold u code va
  | .wait => s
  | .ats va => s.putCursor .ce { u with held := .ats va }
  | .rows l read => (s.touched l).putCursor .ce { u with heldAt := if read then l else [] }
  | .poisoned l va => ((s.touched l).meetFlaws s.core s.slot.val l).ceFail u (Fail.at' Code.poison va)
  | .strike i va l p => s.strike u i va l p

/-- One advance of a chain entry: its checks at its start, then unit by unit; an entry of no unit is done at once. -/
def State.runEntry (s : State) (bad : Option (BitVec 8)) (total clks : Nat) (unit : State → Cursor → Nat → Except Stop (State × Cursor)) :
    Out :=
  match s.self.curCe with
  | none => .next s
  | some u =>
    if u.held ≠ .no then .next s
    else
      let go (u : Cursor) : Out :=
        if total ≤ u.unit then .next (s.putCursor .ce { u with phase := .done })
        else
          let u := { u with heldAt := [] }
          match unit s u u.unit with
          | .error e => .next ((s.putCursor .ce u).ceStop u e)
          | .ok (t, v) =>
            .next ((t.putCursor .ce { v with unit := u.unit + 1, phase := if u.unit + 1 = total then .done else .run }).upd
              fun x => x.busy .ce clks s.clk)
      match u.phase with
      | .fetch => match bad with
        | some code => .next (s.ceFail u (Fail.at' code u.addr.toNat))
        | none => go { u with phase := .run, unit := 0, seen := [] }
      | .run => go u
      | _ => .next s

/-- R206's kin for the CE: a unit occupies it for the 64-byte rows that it moves. -/
def ceClks (n : Nat) : Nat := (n + 63) / 64

def execCcopy (e : CEntry) (s : State) : Out :=
  s.runEntry none (Chain.rows e * Chain.planes e) (ceClks (Chain.len e)) fun s u i => do
    let (s, _) ← s.ceMove (Chain.src e i) (Chain.dst e i) (Chain.len e)
    .ok (s, u)

/-- An index of a list of 32-bit indices, beside another access `m` of the unit that does not depend on it. -/
def State.ceIndex (s : State) (e : CEntry) (i : Nat) (m : Move) : Except Stop (State × Nat) := do
  let at_ := (Chain.addr2 e + BitVec.ofNat 64 (4 * i)).toNat
  let (s, _) ← s.ceReach [{ va := at_, n := 4, write := false }, m]
  let (s, b) ← s.ceRead at_ 4 true
  .ok (s, leNat b)

def execCgath (e : CEntry) (s : State) : Out :=
  s.runEntry none (Chain.rows e) (ceClks (Chain.len e)) fun s u i => do
    let n := Chain.len e
    let dst := (e.addr1 + BitVec.ofNat 64 (n * i)).toNat
    let (s, ix) ← s.ceIndex e i { va := dst, n := n, write := true }
    match u.seen.find? fun (p : Nat × List Byte) => p.1 == ix with
    | some p =>
      let (s, l) ← s.ceSpot dst n
      .ok (s.engWrites dst l p.2, u)
    | none =>
      let (s, bs) ← s.ceMove (e.addr0 + BitVec.ofNat 64 (Chain.pitch e * ix)).toNat dst n
      .ok (s, { u with seen := (ix, bs) :: u.seen })

def execCscat (e : CEntry) (s : State) : Out :=
  s.runEntry none (Chain.rows e) (ceClks (Chain.len e)) fun s u i => do
    let n := Chain.len e
    let src := (e.addr0 + BitVec.ofNat 64 (n * i)).toNat
    let (s, ix) ← s.ceIndex e i { va := src, n := n, write := false }
    let (s, _) ← s.ceMove src (e.addr1 + BitVec.ofNat 64 (Chain.pitch e * ix)).toNat n
    .ok (s, u)

/-- Byte `b` of a row of CFILL. -/
def fillBytes (pattern : DWord) (n : Nat) : List Byte :=
  (List.range n).map fun b => pattern.extractLsb' (8 * (b % 8)) 8

def execCfill (e : CEntry) (s : State) : Out :=
  s.runEntry none (Chain.rows e * Chain.planes e) (ceClks (Chain.len e)) fun s u i => do
    let (s, l) ← s.ceSpot (Chain.dst e i) (Chain.len e)
    .ok (s.engWrites (Chain.dst e i) l (fillBytes e.addr0 (Chain.len e)), u)

/-! ### Counters and atomics (R52, R53, R243, R244) -/

/-- R52: a place that performs the CE's integer operations. -/
def Place.adds : Place → Bool
  | .scratch => true
  | .bank _ => true
  | .vault _ => true
  | _ => false

/-- R45-R53, R374: where `n` bytes at an address, aligned to `n`, stand for the CE, or what stops it there. -/
def State.ceAim (s : State) (va n : Nat) (write : Bool) (ok : Place → Bool) : Except Stop (List (Nat × Nat) × Place) :=
  let cells := s.tableCells s.core va n
  if s.heldUp s.core cells then .error (.rows cells false) else
  match s.aimAt s.core va n n write true ok with
  | .go l p => .ok (l, p)
  | .cause x => .error (if isTranslation x then .hold x va else Stop.of x va)
  | .violation => .error (.fail { Fail.at' 0 va with violation := true })
  | .miss => .error (.ats va)
  | .control _ => .error (Stop.of Code.range va)

/-- The single-copy atomic action of the CE on `n` bytes, for an entry of form `i`: on the own scratchpad it is performed as it
issues, elsewhere it is an in-flight entry until its place has performed it. -/
def State.ceAtomic (s : State) (u : Cursor) (i : Instr) (va n : Nat) (f : Nat → Nat) : Except Stop (State × Cursor) :=
  match u.atom with
  | some a =>
    if a.hit then .ok (s, { u with atom := none })
    else if s.own.striking s.slot.val then .error .wait
    else .error (.strike i va a.ra (placeOf s.core ((a.ra.head?.map (·.1)).getD 0)))
  | none => do
    let (l, p) ← s.ceAim va n true Place.adds
    if p = .scratch then
      let t ← s.ceArrive l false
      if s.poisonedChunks l then .error (.poisoned l va)
      else .ok (t.storeChunks l (leBytes n (f (leNat (s.readChunks l)))), u)
    else .error (.strike i va l p)

/-- The six operations on elements of `w` bits; MIN and MAX are signed. -/
def opOf (op w a b : Nat) : Nat :=
  let x := BitVec.ofNat w a
  let y := BitVec.ofNat w b
  (match op with
    | 0 => x + y
    | 1 => if y.toInt < x.toInt then y else x
    | 2 => if x.toInt < y.toInt then y else x
    | 3 => x &&& y
    | 4 => x ||| y
    | _ => x ^^^ y).toNat

/-- Bytes of an element of CATOM, and its new value. -/
def Chain.elem (e : CEntry) : Nat := if (Chain.addr2 e).getLsbD 4 then 8 else 4
def Chain.update (e : CEntry) (a : Nat) : Nat := opOf ((Chain.addr2 e).toNat % 16) (8 * Chain.elem e) a e.addr1.toNat
/-- CPOST's new value of its counter. -/
def Chain.post (e : CEntry) (a : Nat) : Nat := (a + e.addr1.toNat % 2 ^ 32) % 2 ^ 32

/-- R243: ADDR0 and L are multiples of the width, and a 32-bit operand fits. -/
def catomBad (e : CEntry) : Bool :=
  let n := Chain.elem e
  e.addr0.toNat % n != 0 || Chain.len e % n != 0 || (n == 4 && decide (2 ^ 32 ≤ e.addr1.toNat))

def execCatom (e : CEntry) (s : State) : Out :=
  s.runEntry (if catomBad e then some Code.chain else none) (Chain.len e / Chain.elem e) 1 fun s u i =>
    s.ceAtomic u (.catom e) (e.addr0 + BitVec.ofNat 64 (Chain.elem e * i)).toNat (Chain.elem e) (Chain.update e)

/-- R243: the atomic action of the unit at a cursor: its form and its address. -/
def Cursor.action (u : Cursor) : Option (Instr × Nat) :=
  match decodeChain u.word with
  | .ok (.cpost e) => some (.cpost e, e.addr0.toNat)
  | .ok (.catom e) => some (.catom e, (e.addr0 + BitVec.ofNat 64 (Chain.elem e * u.unit)).toNat)
  | _ => none
/-- R80: an atomic action of a chain that a replay issues again: what it was, its form and address, and the number of its entry. -/
structure Restrike where
  atom : Struck
  form : Instr
  va : Nat
  qseq : BitVec 16
deriving DecidableEq, Repr
/-- R80, R320: those of a strand's chains that have still to issue again. -/
def Strand.restrikes (x : Strand) : List Restrike :=
  let of (u : Option Cursor) (q : List Cmd) : List Restrike :=
    match u.bind (·.atom), u.bind Cursor.action with
    | some a, some (i, va) =>
      if a.goesOn then [{ atom := a, form := i, va := va, qseq := (q.head?.map fun (h : Cmd) => h.qseq).getD 0 }] else []
    | _, _ => []
  (match x.trap.aside with
    | some (q, _, _, u) => of u q.ce
    | none => []) ++ of x.curCe x.q.ce
/-- R80, R320: the next atomic action of slot `k` of core `c` that a replay issues again, in its order among the recorded entries: its
chain itself goes on behind the replay. -/
def State.dueStrike (s : State) (c k : Nat) : Option Restrike :=
  let y := s.coreAt c
  let x := s.strandAt c (slotIx k)
  if x.st = .dormant ∨ !y.served k ∨ y.crowded then none
  else x.restrikes.find? fun r => !y.strikeOut k r.atom && !y.replayBefore k r.atom.replay
/-- It issues again under its tag, at the bytes that it reached first. -/
def State.restrike (s : State) (c k : Nat) (r : Restrike) : State :=
  let key := (r.atom.ra.head?.map Prod.fst).getD 0
  { s with core := c, slot := slotIx k }.sendStrike r.form r.va r.atom.ra (placeOf c key) r.atom.tag r.qseq r.atom.replay

def execCpost (e : CEntry) (s : State) : Out :=
  s.runEntry none 1 1 fun s u _ => s.ceAtomic u (.cpost e) e.addr0.toNat 4 (Chain.post e)

/-- R133: (counter − target) mod 2^32, read as signed, is at least 0. -/
def cwaitMet (counter target : Nat) : Bool := !(BitVec.ofNat 32 counter - BitVec.ofNat 32 target).msb

/-- R244: the counter's bytes, 4-byte aligned in a readable place. -/
def State.cwaitRead (s : State) (e : CEntry) : Except Stop (State × Nat) :=
  match s.ceAim e.addr0.toNat 4 false fun _ => true with
  | .error x => .error x
  | .ok _ => do
    let (t, b) ← s.ceRead e.addr0.toNat 4 true
    .ok (t, leNat b)

/-- R244: with its condition unmet the CE leaves the chain at its queue head and serves the next strand. -/
def execCwait (e : CEntry) (s : State) : Out :=
  match s.self.curCe with
  | none => .next s
  | some u =>
    if u.held ≠ .no ∨ u.phase = .done then .next s
    else
      let v := { u with phase := .run, heldAt := [] }
      match s.cwaitRead e with
      | .error x => .next ((s.putCursor .ce v).ceStop v x)
      | .ok (s, n) =>
        if cwaitMet n (e.addr1.toNat % 2 ^ 32) then .next (s.putCursor .ce { v with phase := .done })
        else
          let t := s.putCursor .ce v
          .next (if s.slot.val = 8 then t else t.updCore t.core fun y => y.serve .ce none s.slot.val)

/-- R244: when the chain's turn returns, the CE reads the counter again. -/
def execCwaitRetest (c : Nat) (s : State) : Out :=
  match ((s.coreAt c).eng .ce).serving, (s.coreAt c).pickSlot .ce with
  | none, some k =>
    match (s.strandAt c (slotIx k)).curCe with
    | none => .next s
    | some u =>
      if u.atCwait then
        execCwait (CEntry.unpack u.word) { s.updCore c fun y => y.serve .ce (some k) k with core := c, slot := slotIx k }
      else .next s
  | _, _ => .next s

def execClink (_ : CEntry) (s : State) : Out := s.runEntry none 0 1 fun s u _ => .ok (s, u)
def execCend (_ : CEntry) (s : State) : Out := s.runEntry none 0 1 fun s u _ => .ok (s, u)
def execCnop (_ : CEntry) (s : State) : Out := s.runEntry none 0 1 fun s u _ => .ok (s, u)

/-! ### Fetching an entry (R134, R242) -/

/-- The 32 bytes of the entry at a cursor: of the block that a REQ brought, each of its 64-byte rows read once (R33), or at
an address of the running core. The state after the read, the cursor and the entry. -/
def State.fetchChain (s : State) (kind : CmdKind) (u : Cursor) : Except Stop (State × Cursor × Nat) :=
  let a := u.addr.toNat
  if a % 32 ≠ 0 then .error (Stop.of Code.chain a)
  else match kind, u.linked with
    | .stream (some c), false =>
      if 0x100000 < a + 32 then .error (Stop.of Code.range a)
      else
        let rows := u.freshRows (localKey c a) 32
        match s.blockRead u.rowBuf (localKey c a) 32 with
        | none => .error (.poisoned rows a)
        | some r => .ok (s.meetFlaws s.core s.slot.val rows, { u with rowBuf := r.2 }, r.1)
    | _, _ => do
      let (t, b) ← s.ceRead a 32 false
      .ok (t, { u with heldAt := [] }, leNat b)

/-- The chain entries. -/
def execChain (i : Instr) (s : State) : Out :=
  match i with
  | .ccopy e => execCcopy e s
  | .cgath e => execCgath e s
  | .cscat e => execCscat e s
  | .cfill e => execCfill e s
  | .cwait e => execCwait e s
  | .cpost e => execCpost e s
  | .catom e => execCatom e s
  | .clink e => execClink e s
  | .cend e => execCend e s
  | .cnop e => execCnop e s
  | _ => .next s

/-- The entry that a cursor holds, or the fault of a word that is none. -/
def State.runChain (s : State) (kind : CmdKind) (run : Instr → State → Out) : Out :=
  match s.self.curCe with
  | none => .next s
  | some u =>
    if u.held ≠ .no then .next s
    else match u.phase with
      | .fetch => match s.fetchChain kind u with
        | .error x => .next (s.ceStop u x)
        | .ok (s, u, v) => match decodeChain (BitVec.ofNat 256 v) with
          | .ok i => run i (s.putCursor .ce { u with word := BitVec.ofNat 256 v })
          | .error _ => .next (s.ceFail u (Fail.at' Code.chain u.addr.toNat))
      | .run => match decodeChain u.word with
        | .ok i => run i s
        | .error _ => .next s
      | _ => .next s

end Sys2Proof.Machine
end

