-- ==== Sys2Proof/Machine/Digest.lean ====
section
/-! DEFINITION. The SM3 digest, which R257, R267, R276 and R362 name and do not define: after the published standard
GB/T 32905-2016 (PRESUMED, log entry 8). -/
namespace Sys2Proof.Machine

namespace Sm3

def iv : List Word := [0x7380166F, 0x4914B2B9, 0x172442D7, 0xDA8A0600, 0xA96F30BC, 0x163138AA, 0xE38DEE4D, 0xB0FB0E4E]

def p0 (x : Word) : Word := x ^^^ x.rotateLeft 9 ^^^ x.rotateLeft 17
def p1 (x : Word) : Word := x ^^^ x.rotateLeft 15 ^^^ x.rotateLeft 23

/-- A big-endian number from bytes. -/
def beNat (l : List Byte) : Nat := l.foldl (fun a b => a * 256 + b.toNat) 0

/-- The message expansion, newest word first. -/
def expand : Nat → List Word → List Word
  | 0, w => w
  | n + 1, w =>
    let g (i : Nat) : Word := w.getD (i - 1) 0
    expand n ((p1 (g 16 ^^^ g 9 ^^^ (g 3).rotateLeft 15) ^^^ (g 13).rotateLeft 7 ^^^ g 6) :: w)

/-- One round over the eight registers. -/
def round (w : List Word) (v : List Word) (j : Nat) : List Word :=
  match v with
  | [a, b, c, d, e, f, g, h] =>
    let t : Word := if j < 16 then 0x79CC4519 else 0x7A879D8A
    let ss1 := (a.rotateLeft 12 + e + t.rotateLeft (j % 32)).rotateLeft 7
    let ss2 := ss1 ^^^ a.rotateLeft 12
    let ff := if j < 16 then a ^^^ b ^^^ c else (a &&& b) ||| (a &&& c) ||| (b &&& c)
    let gg := if j < 16 then e ^^^ f ^^^ g else (e &&& f) ||| (~~~e &&& g)
    let wj := w.getD j 0
    let tt1 := ff + d + ss2 + (wj ^^^ w.getD (j + 4) 0)
    let tt2 := gg + h + ss1 + wj
    [tt1, a, b.rotateLeft 9, c, p0 tt2, e, f.rotateLeft 19, g]
  | _ => v

/-- The compression of one block of 64 bytes. -/
def compress (v : List Word) (block : List Byte) : List Word :=
  let w0 := (List.range 16).map fun i => BitVec.ofNat 32 (beNat ((block.drop (4 * i)).take 4))
  let w := (expand 52 w0.reverse).reverse
  (((List.range 64).foldl (round w) v).zip v).map fun p => p.1 ^^^ p.2

def blocks : Nat → List Word → List Byte → List Word
  | 0, v, _ => v
  | n + 1, v, l => blocks n (compress v (l.take 64)) (l.drop 64)

end Sm3

/-- The 32 bytes of the digest. -/
def sm3 (m : List Byte) : List Byte :=
  let n := m.length
  let pad := (120 - (n + 1) % 64) % 64
  let len := (List.range 8).map fun i => BitVec.ofNat 8 (8 * n / 2 ^ (8 * (7 - i)))
  let l := m ++ [0x80] ++ List.replicate pad 0 ++ len
  (Sm3.blocks (l.length / 64) Sm3.iv l).flatMap fun w => (List.range 4).map fun i => w.extractLsb' (8 * (3 - i)) 8

end Sys2Proof.Machine
end

