-- ==== Sys2Proof/Machine/Image.lean ====
section
/-! DEFINITION. Reading and checking a Ruoft image for the overlay loader, and writing it into a core
(R266-R271, R274-R279). -/
namespace Sys2Proof.Machine

/-! R291: the statuses of a launch. -/
namespace Status
def waiting : BitVec 4 := 1
def resident : BitVec 4 := 2
def running : BitVec 4 := 3
def done : BitVec 4 := 4
def full : BitVec 4 := 8
def rejected : BitVec 4 := 9
def record : BitVec 4 := 10
def violation : BitVec 4 := 11
def notReady : BitVec 4 := 12
def killed : BitVec 4 := 13
end Status

/-- A step of the loader: its result or the status of the refusal. -/
abbrev Load := Except (BitVec 4)

/-- Go on where a check holds, else reject the file whole. -/
def need (b : Bool) : Load Unit := if b then .ok () else .error Status.rejected

/-- R278: `n` bytes of the image at a device address, through the tables of core `c`'s partition. Of an image with a ground for
REJECTED and one for VIOLATION the first page's counts, a reserved PA of any page before it; the spec gives no order. Nor does it give
the status of a launch whose walk meets a poisoned table entry: REJECTED, as for a table error (log entry 71, DESIGN CHOICE). -/
def State.imageRead (s : State) (c va n : Nat) : Load (List Byte) :=
  if n = 0 then .ok []
  else if rangeOf c va ≠ .translated ∨ rangeOf c (va + (n - 1)) ≠ .translated then .error Status.violation
  else match s.translateRange c false true (n / 4096 + 2) va n with
    | .at l =>
      if l.any fun x => decide (hostBase ≤ x.1) then .error Status.violation
      else if s.poisonedChunks l then .error Status.rejected else .ok (s.readChunks l)
    | .cause e => .error (if isTranslation e || e == Code.poison then Status.rejected else Status.violation)
    | _ => .error Status.violation

/-- R269: a section-table entry with its contents in the file. -/
structure Section where
  kind : Nat
  addr : Nat
  msize : Nat
  bytes : List Byte
deriving DecidableEq, Repr

/-- What the loader takes from an image. -/
structure Image where
  sections : List Section
  /-- The placed address of the entry loop record of the first kernel. -/
  entry : Nat
  maps : List (Nat × BitVec 32 × BitVec 64)
deriving DecidableEq, Repr

def Image.sec (i : Image) (kind : Nat) : Option Section := i.sections.find? fun x => x.kind == kind

namespace Ruoft

/-- `n` bytes of a list from byte `o`, little-endian. -/
def at_ (f : List Byte) (o n : Nat) : Nat := leNat ((f.drop o).take n)

/-- R268: the bytes are UTF-8; `more` bytes of a character are to come, the next from `lo` to `hi`. -/
def utf8 : Nat → Nat → Nat → List Byte → Bool
  | more, _, _, [] => more == 0
  | 0, _, _, b :: l =>
    let v := b.toNat
    if v < 0x80 then utf8 0 0x80 0xBF l
    else if 0xC2 ≤ v ∧ v < 0xE0 then utf8 1 0x80 0xBF l
    else if v = 0xE0 then utf8 2 0xA0 0xBF l
    else if v = 0xED then utf8 2 0x80 0x9F l
    else if 0xE1 ≤ v ∧ v < 0xF0 then utf8 2 0x80 0xBF l
    else if v = 0xF0 then utf8 3 0x90 0xBF l
    else if 0xF1 ≤ v ∧ v < 0xF4 then utf8 3 0x80 0xBF l
    else if v = 0xF4 then utf8 3 0x80 0x8F l
    else false
  | more + 1, lo, hi, b :: l => decide (lo ≤ b.toNat) && decide (b.toNat ≤ hi) && utf8 more 0x80 0xBF l
/-- R268: the string table: the empty name at 0, UTF-8, and a zero byte at the end of its last string. -/
def stringsOk (strs : List Byte) : Bool := strs.headD 1 == 0 && strs.getLastD 1 == 0 && utf8 0 0x80 0xBF strs
/-- R268: a name offset names a string within the table; it may lie inside a longer string, which the spec neither allows nor
rejects (log entry 70, DESIGN CHOICE). -/
def nameOk (strs : List Byte) (o : Nat) : Bool := decide (o < strs.length) && (strs.drop o).contains 0

/-- R251, R270: the least ALIGN of a placed kind. -/
def kindAlign (k : Nat) : Nat := if k = 1 then 3 else if k = 2 ∨ k = 3 ∨ k = 4 then 6 else if k = 5 then 12 else 3
def kindOk (k : Nat) : Bool := decide (1 ≤ k) && (decide (k ≤ 5) || (decide (8 ≤ k) && decide (k ≤ 10)))
/-- R277, R278: a placed section lies within its place. -/
def placeOk (k addr msize : Nat) : Bool :=
  if k = 1 ∨ k = 2 then decide (addr + msize ≤ 0x20000)
  else if k = 3 then decide (addr + msize ≤ 0x100000)
  else if k = 4 then decide (0x100000000 ≤ addr) && decide (addr + msize ≤ 0x180000000)
  else if k = 5 then decide (0x400000000 ≤ addr) && decide (addr + msize ≤ 2 ^ 57)
  else addr == 0

/-- R269, R270: the section table at `off`. -/
def sectionsOf (f strs : List Byte) (off n : Nat) : Load (List Section) :=
  (List.range n).mapM fun i => do
    let b := off + 32 * i
    let kind := at_ f b 1
    let align := at_ f (b + 1) 1
    let foff := at_ f (b + 8) 4
    let fsize := at_ f (b + 12) 4
    let addr := at_ f (b + 16) 8
    let msize := at_ f (b + 24) 8
    need (kindOk kind && decide (align ≤ 12) && decide (kindAlign kind ≤ align) && at_ f (b + 2) 2 == 0)
    need (nameOk strs (at_ f (b + 4) 4) && addr % 2 ^ align == 0 && decide (fsize ≤ msize))
    need (placeOk kind addr msize && (decide (kind < 8) || msize == fsize))
    .ok { kind := kind, addr := addr, msize := msize, bytes := (f.drop foff).take fsize }

/-- The string at a name offset. -/
def nameAt (strs : List Byte) (o : Nat) : List Byte := (strs.drop o).takeWhile (· != 0)
/-- R253, R271: the words of a stream, without padding: whole engine words, the last MSTOP or VSTOP. -/
def streamOk (words : List Byte) : Bool :=
  let w := BitVec.ofNat 48 (leNat (words.drop (words.length - 6)))
  words.length % 6 == 0 && decide (6 ≤ words.length) && (match decodeEng false w, decodeEng true w with
    | .ok (.mstop _), _ => true
    | _, .ok (.vstop _) => true
    | _, _ => false)
/-- R271: the SIZE that a symbol of a type may have: whole engine words for a stream. -/
def sizeOk (type size : Nat) : Bool :=
  if type = 4 then size % 6 == 0 else size == (if type = 5 then 32 else if type = 6 then 192 else 0)

/-- R271: the symbol entry at `b`; a kernel's VALUE is the entry of KERN with its name. An external symbol may stand in an image, with
any VALUE, for the spec does not say that a link leaves none (log entry 70, DESIGN CHOICE). -/
def symbolOk (f strs : List Byte) (secs : List Section) (kerns : List (List Byte)) (b : Nat) : Bool :=
  let nsec := secs.length
  let value := at_ f (b + 8) 8
  let size := at_ f (b + 16) 8
  let sect := at_ f (b + 4) 1
  let bind := at_ f (b + 5) 1
  let type := at_ f (b + 6) 1
  nameOk strs (at_ f b 4) && (strs.getD (at_ f b 4) 0 != 0) && (decide (sect < nsec) || decide (0xFE ≤ sect)) &&
    decide (bind ≤ 2) && (bind == 2) == (sect == 0xFE) && decide (type ≤ 9) && at_ f (b + 7) 1 == 0 && sizeOk type size &&
    (type != 3 || (sect == 0xFF && (match kerns[value]? with
      | some k => nameAt strs (at_ k 0 4) == nameAt strs (at_ f b 4)
      | none => false))) && (type != 2 || (sect == 0xFF && decide (value < 2 ^ 32))) &&
    (match secs[sect]? with
      | some x => decide (x.addr ≤ value) && decide (value + size ≤ x.addr + x.msize) &&
          (type != 4 || (decide (value - x.addr + size ≤ x.bytes.length) && streamOk ((x.bytes.drop (value - x.addr)).take size)))
      | none => true)

/-- R275: the word of TEXT at an offset is NODE. -/
def nodeAt (t : Section) (pc : Nat) : Bool :=
  match decode .seq ((t.bytes.drop (pc - t.addr)).take 8) with
  | .ok .node => true
  | _ => false
/-- R275: a boundary-map entry: its PC a word of TEXT, and NODE 1 exactly where that word is NODE. -/
def mapOk (text : Option Section) (d : List Byte) : Bool :=
  let pc := at_ d 0 4
  at_ d 17 7 == 0 && (match text with
    | some t => pc % 8 == 0 && decide (t.addr ≤ pc) && decide (pc + 8 ≤ t.addr + t.msize) &&
        at_ d 16 1 == (if nodeAt t pc then 1 else 0)
    | none => false)

/-- R277: TEXT at a multiple of 64, and ESTR at the next 64-byte boundary after it. -/
def imemOk (text estr : Option Section) : Bool :=
  match text, estr with
  | some t, some e => t.addr % 64 == 0 && e.addr == (t.addr + t.msize + 63) / 64 * 64
  | some t, none => t.addr % 64 == 0
  | none, _ => true

/-- R266: every byte that no part of the file takes is 0; the parts are offsets with lengths. -/
def gapsZero (parts : List (Nat × Nat)) (f : List Byte) : Bool :=
  f.zipIdx.all fun (b : Byte × Nat) => b.1 == 0 || parts.any fun p => decide (p.1 ≤ b.2) && decide (b.2 < p.1 + p.2)

/-- R276: a fingerprint entry, and the row pointers it covers, which lie in the bytes of the file: the spec does not say whether the
zeros behind FSIZE may hold some of them (log entry 70, DESIGN CHOICE). -/
def printOk (secs : List Section) (e : List Byte) : Bool :=
  match secs[at_ e 0 2]? with
  | none => false
  | some s =>
    let o := at_ e 4 4
    let d := (sm3 ((s.bytes.drop (o + 8)).take 258)).take 8
    at_ e 2 2 == 0 && decide (o + 8 + 258 ≤ s.bytes.length) && (e.drop 8).take 8 == d && (s.bytes.drop o).take 8 == d

/-- The entries of `n` bytes of a section's contents. -/
def entries (n : Nat) (s : Option Section) : List (List Byte) :=
  match s with
  | some x => (List.range (x.bytes.length / n)).map fun i => (x.bytes.drop (n * i)).take n
  | none => []
def wholeEntries (n : Nat) (s : Option Section) : Bool := match s with
  | some x => x.bytes.length % n == 0
  | none => true

/-- No two of a list agree. -/
def distinct {α : Type} [BEq α] : List α → Bool
  | [] => true
  | a :: l => !l.contains a && distinct l

/-- R266-R277: the file whose bytes are `f`, checked as an image. One without a kernel is rejected, a case for which the spec gives no
outcome (log entry 71, DESIGN CHOICE). -/
def parse (f : List Byte) : Load Image := do
  need (at_ f 0 4 == 0x54465552 && at_ f 4 2 == 1 && at_ f 6 2 == 1)
  need ((List.range 9).all (fun i => at_ f (8 + 2 * i) 2 != 0) && at_ f 56 4 == 0)
  let nsec := at_ f 26 2
  let nsym := at_ f 32 4
  let symOff := at_ f 36 4
  let strLen := at_ f 52 4
  need (decide (1 ≤ nsec) && decide (nsec ≤ 64) && at_ f 28 4 % 8 == 0 && symOff % 8 == 0 && at_ f 40 4 == 0 && at_ f 44 4 % 8 == 0)
  need (at_ ((sm3 (f.take 60 ++ [0, 0, 0, 0] ++ f.drop 64)).take 4) 0 4 == at_ f 60 4)
  let strs := (f.drop (at_ f 48 4)).take strLen
  need (decide (1 ≤ strLen) && strs.length == strLen && stringsOk strs)
  let secs ← sectionsOf f strs (at_ f 28 4) nsec
  let parts := [(0, 64), (at_ f 28 4, 32 * nsec), (symOff, 24 * nsym), (at_ f 48 4, strLen)] ++
    (List.range nsec).map fun i => (at_ f (at_ f 28 4 + 32 * i + 8) 4, at_ f (at_ f 28 4 + 32 * i + 12) 4)
  need (distinct (secs.map (·.kind)) && gapsZero parts f)
  let find (k : Nat) : Option Section := secs.find? fun x => x.kind == k
  need (imemOk (find 1) (find 2))
  let kerns := entries 16 (find 8)
  let deads := entries 24 (find 9)
  need (wholeEntries 16 (find 8) && wholeEntries 24 (find 9) && wholeEntries 16 (find 10))
  need ((List.range nsym).all fun i => symbolOk f strs secs kerns (symOff + 24 * i))
  let syms := (List.range nsym).map fun i => symOff + 24 * i
  need (distinct ((syms.filter fun b => at_ f (b + 5) 1 == 1).map fun b => nameAt strs (at_ f b 4)))
  need (kerns.all fun k => nameOk strs (at_ k 0 4) && decide (at_ k 4 4 < nsym) && at_ f (symOff + 24 * at_ k 4 4 + 6) 1 == 5 &&
    decide (at_ k 8 1 ≤ 3) && at_ k 9 3 == 0 && decide (at_ k 12 2 + at_ k 14 2 ≤ deads.length))
  need (deads.all (mapOk (find 1)) && distinct (deads.map fun d => at_ d 0 4) && (entries 16 (find 10)).all (printOk secs))
  need (!kerns.isEmpty)
  let k := kerns.headD []
  let maps := (deads.filter fun d => at_ d 16 1 == 1).map fun d =>
    (at_ d 0 4, BitVec.ofNat 32 (at_ d 4 4), BitVec.ofNat 64 (at_ d 8 8))
  return { sections := secs, entry := at_ f (symOff + 24 * at_ k 4 4 + 8) 8, maps := maps }

end Ruoft

/-- R267: how long the file is: the end of whatever its header and its section table name (log entry 9, DEDUCED). -/
def State.imageLength (s : State) (c va : Nat) : Load Nat := do
  let h ← s.imageRead c va 64
  let n := Ruoft.at_ h 26 2
  need (Ruoft.at_ h 0 4 == 0x54465552 && decide (n ≤ 64))
  let t ← s.imageRead c (va + Ruoft.at_ h 28 4) (32 * n)
  let ends := (List.range n).map fun i => Ruoft.at_ t (32 * i + 8) 4 + Ruoft.at_ t (32 * i + 12) 4
  return (([Ruoft.at_ h 28 4 + 32 * n, Ruoft.at_ h 36 4 + 24 * Ruoft.at_ h 32 4, Ruoft.at_ h 48 4 + Ruoft.at_ h 52 4] ++ ends).foldl max 64)

/-- R266, R278: the image at a device address, read and checked for core `c`. -/
def State.image (s : State) (c va : Nat) : Load Image := do
  need (va % 64 == 0)
  let n ← s.imageLength c va
  Ruoft.parse (← s.imageRead c va n)

/-! ### Checks against the core and its partition (R278, R279) -/

/-- Two ranges share a byte. -/
def meets (a b : Nat × Nat) : Bool := decide (0 < a.2) && decide (0 < b.2) && decide (a.1 < b.1 + b.2) && decide (b.1 < a.1 + a.2)

/-- The scratchpad areas that the hardware of a core uses itself (R34, R115). -/
def Core.ownAreas (y : Core) : List (Nat × Nat) :=
  (y.msgBase.toNat * 2048, 2048) ::
    ((List.range 8).map fun k => (y.strands[k % 9]'(Nat.mod_lt _ (by decide))).rel).filterMap fun r =>
      if r.ckSlots = 0 then none else some (64 * r.ckBase.toNat, 1088 * r.ckSlots.toNat)

def Image.imemRanges (i : Image) : List (Nat × Nat) :=
  (i.sections.filter fun x => x.kind == 1).map (fun x => (x.addr, x.msize)) ++
    (i.sections.filter fun x => x.kind == 2).map fun x => (x.addr, x.msize)
def Image.spadRanges (i : Image) : List (Nat × Nat) :=
  (i.sections.filter fun x => x.kind == 3).map fun x => (x.addr, x.msize)

/-- A BALL section lies in the Ballroom share of core `c`'s partition. -/
def State.ballShare (s : State) (c a n : Nat) : Bool :=
  n == 0 || (List.range ((a + (n - 1)) / 2 ^ 20 - a / 2 ^ 20 + 1)).all fun i =>
    s.ballOk c (gcolOf ((a / 2 ^ 20 + i) % 2 ^ 11))

/-- R278: the checks of an image against the core that takes it. -/
def State.imageFits (s : State) (c : Nat) (i : Image) : Load Unit :=
  if i.spadRanges.any fun x => (s.coreAt c).ownAreas.any (meets x) then .error Status.rejected
  else if (i.sections.filter fun x => x.kind == 4).all fun x => s.ballShare c x.addr x.msize then .ok ()
  else .error Status.violation

/-- R35: the entry loop record: in the image's own scratchpad section, or in memory as core `c` reads it. One that cannot be read
refuses the launch with REJECTED, or with VIOLATION where its read is a violation; the spec gives no status (log entry 71, DESIGN
CHOICE). -/
def State.entryRecord (s : State) (c : Nat) (i : Image) : Load (BitVec 256) :=
  match (i.sec 3).filter fun x => decide (x.addr ≤ i.entry) && decide (i.entry + 32 ≤ x.addr + x.msize) with
  | some x => .ok (BitVec.ofNat 256 (leNat ((x.bytes.drop (i.entry - x.addr)).take 32)))
  | none => match s.reach c i.entry 32 false true with
    | .at l =>
      if s.poisonedChunks l || l.any fun x => s.dmaStopped c (placeOf c x.1) then .error Status.rejected
      else .ok (BitVec.ofNat 256 (leNat (s.readChunks l)))
    | .violation => .error Status.violation
    | _ => .error Status.rejected

/-- The rows that the reads of an image reach, with the table entries that lead to them. -/
def State.imageCells (s : State) (c va : Nat) : List (Nat × Nat) :=
  let cells (a n : Nat) : List (Nat × Nat) := s.tableCells c a n ++ (match s.reach c a n false true with
    | .at l => l
    | _ => [])
  let n := match s.imageLength c va with
    | .ok n => n
    | .error _ => 64
  cells va n ++ (match s.image c va with
    | .ok i => cells i.entry 32
    | .error _ => [])

/-! ### Images on a core (R279) -/

/-- R279: a strand is an image's: its launch started it, or its program counter stands in the image's TEXT, or its handler returns
there; the spec does not say whose a handler of a SEND is. An image whose launch is placed and not yet started, or whose strand stands
switched out in the ready list with its state, keeps its ranges too, though no slot of it is outside DORMANT (log entry 72, DESIGN
CHOICE). -/
def Core.imageActive (y : Core) (i : Img) : Bool :=
  (List.range 8).any (fun k =>
    let x := y.strands[k % 9]'(Nat.mod_lt _ (by decide))
    x.st != .dormant && x.ofImage i) ||
  (y.placed.any fun p => p.owner == i.launch) || y.ready.any fun r => r.kept.isSome && r.owner == some i.launch

def Img.overlaps (a : Img) (i : Image) : Bool :=
  (a.imem.any fun x => i.imemRanges.any (meets x)) || a.spad.any fun x => i.spadRanges.any (meets x)

/-- R279: the load waits for the strands of an image whose ranges it overlaps, and for a RESIDENT launch whose load is done, whose
image's writes stand before its strand (log entry 72, DESIGN CHOICE). -/
def State.loadWaits (s : State) (c : Nat) (i : Image) (l : LaunchId) : Bool :=
  let y := s.coreAt c
  y.images.any fun a => a.launch != l && a.overlaps i &&
    (y.imageActive a || (s.coreAt a.launch.1).mbox.go && (s.coreAt a.launch.1).mbox.launch == a.launch.2 &&
      (s.coreAt a.launch.1).mbox.status == Status.resident)

/-- The bytes of a section, zeros from FSIZE to MSIZE. -/
def State.putSection (s : State) (key : Nat) (x : Section) : State :=
  (s.clear (key + x.addr) x.msize).store (key + x.addr) x.bytes

/-- R278: TEXT, ESTR and SPAD are written, and the image is listed in place of those it overwrites. -/
def State.loadImage (s : State) (c : Nat) (i : Image) (l : LaunchId) : State :=
  let s := (i.sections.filter fun x => x.kind == 1 || x.kind == 2).foldl (fun s x => s.putSection (imemKey c 0) x) s
  let s := (i.sections.filter fun x => x.kind == 3).foldl (fun s x => s.putSection (localKey c 0) x) s
  s.updCore c fun y =>
    { y with images := { launch := l, imem := i.imemRanges, spad := i.spadRanges, maps := i.maps } ::
        y.images.filter fun a => a.launch != l && !a.overlaps i }

/-- The image of a launch has been loaded on a core. -/
def Core.loaded (y : Core) (l : LaunchId) : Bool := y.images.any fun a => a.launch == l

end Sys2Proof.Machine
end

