-- ==== Sys2Proof/Machine/Launch.lean ====
section
/-! DEFINITION. Boot mailboxes: submission, residency, capture, completion, transfers; starts and ends of strands, the timer
wheel (R23, R34, R37, R38, R290-R294, R303, R355, R361, R362). -/
namespace Sys2Proof.Machine

/-! ### The mailbox as a register block (R290) -/

def bit1 (b : Bool) (n : Nat) : Nat := if b then 2 ^ n else 0

/-- The 512 bits of a mailbox. -/
def Mailbox.bits (m : Mailbox) : Nat :=
  bit1 m.go 344 + m.ecls.toNat * 2 ^ 340 + m.status.toNat * 2 ^ 336 + m.doneseq.toNat * 2 ^ 320 + m.enused.toNat * 2 ^ 288 +
    m.rtgt.toNat * 2 ^ 256 + m.rctr.toNat * 2 ^ 192 + bit1 m.kind 179 + m.prio.toNat * 2 ^ 176 + m.seq.toNat * 2 ^ 160 +
    m.energy.toNat * 2 ^ 128 + m.argb.toNat * 2 ^ 64 + m.image.toNat

/-- R348, R353: who may write the mailbox and the pre-emption block of core `c`. -/
def State.blockOk (s : State) (f : Func) (c : Nat) : Bool :=
  match f with
  | .vf p => s.partOf c == some p
  | .pf1 => false
  | _ => match s.partOf c with
    | some p => (s.part p).tds != 2
    | none => true

/-! ### Readiness (R303, R355) -/

/-- R355: a column's home stacks are trained, its segments are trimmed, and firmware has met R303. -/
def State.colReady (s : State) (g : Nat) : Bool :=
  (s.stack (2 * (g / 16))).trained && (s.stack (2 * (g / 16) + 1)).trained &&
    ((List.range 16).all fun i => (s.seg (16 * g + i)).trimmed) && s.pkg.ptpOn &&
    (List.range 32).all fun i => (s.coreAt (32 * g + i)).scopeSet == 0xF

/-! ### Capture (R361, R362) -/

/-- The key of a capture record. -/
def Partition.capKey (p : Partition) (slot : Nat) : Nat := p.capbase.toNat + 128 * slot

/-- At GO: the record, or OVF. -/
def State.captureGo (s : State) (c : Nat) : State :=
  match s.partOf c with
  | none => s
  | some i =>
    let p := s.part i
    if !p.capEn then s
    else if p.capProd + 1 = p.capCons then s.putPart i { p with capOvf := true }
    else
      let slot := p.capProd.toNat
      let s := (s.unitWrite c (p.capKey slot) (leBytes 64 (s.coreAt c).mbox.bits)).unitWrite c (p.capKey slot + 64)
        (leBytes 8 s.pkg.ptp.toNat ++ leBytes 2 c ++ List.replicate 54 0)
      (s.putPart i { s.part i with capProd := p.capProd + 1 }).updCore c fun y =>
        { y with mbox := { y.mbox with capture := some (slot, s.pkg.ptp) } }

/-- Bytes 88-95: the first eight of the digest of the region, 0 where there is none; a free value where it cannot be read. -/
def Ending.checksum (f : Ending) (step : Nat) : List Byte :=
  if f.refused ∨ f.len = 0 then leBytes 8 0
  else if f.lost then leBytes 8 (Config.checksum step).toNat else (sm3 f.got).take 8
/-- Bytes 64-127 of a final record. -/
def State.finalRow (s : State) (c : Nat) (at_ : BitVec 64) (f : Ending) : List Byte :=
  leBytes 8 at_.toNat ++ leBytes 2 c ++ leBytes 1 f.status.toNat ++ leBytes 1 0 ++ leBytes 4 (s.coreAt c).mbox.enused.toNat ++
    leBytes 8 f.time.toNat ++ f.checksum s.steps ++ List.replicate 32 0

/-! ### Submission, refusal, completion (R290-R293) -/

/-- R298: the park that a launch waits for is given up. -/
def State.reopen (s : State) (l : LaunchId) : State :=
  s.mapCores (fun _ => true) fun _ y => if y.closing = some l then { y with closing := none } else y

/-- A launch is over, with its status. -/
def State.finishLaunch (s : State) (c : Nat) (status : BitVec 4) : State :=
  s.updCore c fun y => { y with mbox := { y.mbox with
    go := false, status := status, doneseq := y.mbox.seq, capture := none, fresh := false, fin := none } }

/-- A launch ends with a status: it leaves the scoreboard, and is over at once, or once its capture record is final (R362). -/
def State.endLaunch (s : State) (c : Nat) (status : BitVec 4) (refused : Bool) : State :=
  let m := (s.coreAt c).mbox
  let s := (s.putDie (dieOf c) { s.die (dieOf c) with board := (s.die (dieOf c)).board.filter fun b => b.core != c }).reopen (c, m.launch)
  match m.capture, s.partOf c with
  | some _, some i =>
    let f : Ending := { status := status, refused := refused, at_ := (s.part i).csbase.toNat
                        len := if refused then 0 else (s.part i).cslen.toNat, got := [], lost := false, time := s.pkg.ptp }
    s.updCore c fun y => { y with mbox := { m with fresh := false, fin := m.fin.or (some f) } }
  | _, _ => s.finishLaunch c status

/-- R362: the next row of the checksum region is read, in its race with what other launches write. -/
def State.readRegion (s : State) (c : Nat) (f : Ending) : State :=
  let va := f.at_ + f.got.length
  let n := min 64 (f.len - f.got.length)
  let put (s : State) (f : Ending) : State := s.updCore c fun y => { y with mbox := { y.mbox with fin := some f } }
  let host : Bool := match s.reach c va n false true with
    | .at l => l.any fun x => placeOf c x.1 == .host
    | .ats _ => true
    | _ => false
  if host && s.dmaStopped c .host then put s { f with lost := true }
  else
    let t := s.peeked c 0 va n
    match t.peek c va n with
    | .bytes b => put t { f with got := f.got ++ b }
    | .wait => t
    | _ => put t { f with lost := true }

/-- R362: the record of a captured launch that has ended is brought forward: the rows of its checksum, then its final row, and
then the status. -/
def State.bringForward (s : State) (c : Nat) : State :=
  let m := (s.coreAt c).mbox
  match m.fin, m.capture, s.partOf c with
  | some f, some (slot, at_), some i =>
    let key := (s.part i).capKey slot + 64
    if f.got.length < f.len ∧ !f.lost then s.readRegion c f
    else if s.dmaStopped c (placeOf c key) then s.finishLaunch c f.status
    else if s.behindLate key 64 || s.heldUp c [(key, 64)] then s.touched [(key, 64)]
    else (s.unitWrite c key (s.finalRow c at_ f)).finishLaunch c f.status
  | some f, _, _ => s.finishLaunch c f.status
  | none, _, _ => s

/-- The bytes of RCTR lie in the partition's Ballroom share. -/
def State.counterOk (s : State) (c : Nat) (a : DWord) : Bool :=
  a == 0 || (rangeOf c a.toNat == .ball && rangeOf c (a.toNat + 3) == .ball && s.ballShare c (a.toNat - 0x100000000) 4)

/-- R291: why a launch is refused at its GO. -/
def State.refusal (s : State) (c : Nat) : Option (BitVec 4) :=
  let m := (s.coreAt c).mbox
  if !s.colReady (gcolOf c) then some Status.notReady
  else if m.rsvd != 0 || (m.kind && m.argb != 0) then some Status.rejected
  else if !s.counterOk c m.rctr then some Status.violation
  else if 256 ≤ (s.die (dieOf c)).board.length then some Status.full
  else none

/-- R290: GO is written on the mailbox of core `c`; it is judged at the end of the clk (R294, R355). -/
def State.submit (s : State) (c : Nat) : State :=
  if (s.coreAt c).mbox.go then s
  else
    (s.updCore c fun y =>
      { y with mbox := { y.mbox with go := true, enused := 0, ecls := y.mbox.prio, launch := s.steps, capture := none,
                                     fresh := true } }).captureGo c

/-- R291, R293: the launch of core `c` is refused, or enters the scoreboard of its die under the clk of its GO. -/
def State.judge (s : State) (c : Nat) : State :=
  if !(s.coreAt c).mbox.fresh then s
  else
    let s := s.updCore c fun y => { y with mbox := { y.mbox with fresh := false } }
    match s.refusal c with
    | some e => s.endLaunch c e true
    | none =>
      let now := (s.coreAt c).mbox.rctr == 0
      let d := s.die (dieOf c)
      let s := s.putDie (dieOf c) { d with board := d.board ++ [{ core := c, order := s.clk, resident := now, since := s.clk }] }
      s.updCore c fun y => { y with mbox := { y.mbox with status := if now then Status.resident else Status.waiting } }
/-- R294: the GOs of the clk, lowest core index first. -/
def State.judgeGos (s : State) : State := s.listed.foldl State.judge s

/-- R290, R348, R353: GO by a function that may write the mailbox; mailboxes are those of the grid's cores. -/
def execMailboxGo (by_ : Func) (c : Nat) (s : State) : Out :=
  if c < mgmtCore ∧ s.blockOk by_ c then .next (s.submit c) else .next s

/-- R293: the residency test of an entry. -/
def State.residency (s : State) (b : Launch) : Launch × Bool :=
  if b.resident then (b, false)
  else
    let m := (s.coreAt b.core).mbox
    if cwaitMet (s.readNat (ballBase + (m.rctr.toNat - 0x100000000)) 4) m.rtgt.toNat then
      ({ b with resident := true, since := s.clk }, true)
    else (b, false)

/-- R293, R366: the bytes of the counter of an entry that is not RESIDENT. -/
def State.counterAt (s : State) (b : Launch) : List (Nat × Nat) :=
  if b.resident then [] else [(ballBase + ((s.coreAt b.core).mbox.rctr.toNat - 0x100000000), 4)]
def execResidencyPoll (die : Nat) (s : State) : Out :=
  let d := s.die die
  let s := d.board.foldl (fun s b => s.meetFlaws b.core 0 (s.counterAt b)) s
  let l := d.board.map s.residency
  let s := s.putDie die { d with board := l.map (·.1) }
  .next ((l.filter (·.2)).foldl (fun s b => s.updCore b.1.core fun y =>
    { y with mbox := { y.mbox with status := Status.resident } }) s)

/-- R294: the effective class of an entry. -/
def State.effClass (s : State) (d : Die) (b : Launch) : Nat :=
  let p := (s.coreAt b.core).mbox.prio.toNat
  if d.age = 31 ∨ !b.resident then p else p - (s.clk - b.since) / 2 ^ d.age.toNat
/-- The class that ECLS reads. -/
def State.eclsOf (s : State) (c : Nat) : BitVec 3 :=
  match (s.die (dieOf c)).board.find? fun b => b.core == c with
  | some b => BitVec.ofNat 3 (s.effClass (s.die (dieOf c)) b)
  | none => (s.coreAt c).mbox.ecls

/-! ### Transfers (R293, R322, R330) -/

/-- A TRANSFER begins on its die's transfer unit. -/
def State.startTransfer (s : State) (c : Nat) (cls : BitVec 3) : State :=
  let m := (s.coreAt c).mbox
  let n := s.newCtx c
  let x := Strand.born cls (some (c, m.launch)) n.1
  n.2.putStrand c 8
    { x with q := x.q.pushCmd .ce (.stream none) m.image Snap.zero, curCe := some (Cursor.start m.image 0) }

/-- An entry whose units are done: its flag; CEND completes the launch (R292). -/
def State.transferDone (s : State) (u : Cursor) : State :=
  let s := if u.word.getLsbD 9 then s.setFlag s.core (u.word.extractLsb' 10 8) (strandNumber s.core 0) 3 else s
  if u.isCend then (s.putSelf Strand.fresh).endLaunch s.core Status.done false
  else s.putCursor .ce { u.next u.after with linked := true }

/-- One advance of the TRANSFER of core `c`. -/
def execTransferRun (c : Nat) (s : State) : Out :=
  let t : State := { s with core := c, slot := 8 }
  if t.self.st ≠ .ready then .next s
  else match t.self.curCe with
    | none => .next s
    | some u =>
      if u.held ≠ .no then .next s
      else if u.phase = .done then .next (t.transferDone u)
      else t.runChain (.stream none) execChain

/-- R322: the transfer unit begins no further unit of the chain; one that is frozen begins none. -/
def State.haltTransfer (s : State) (c : Nat) : State :=
  s.updAt c 8 fun x => if x.st = .frozen then x else { x with st := .ending }
/-- Every unit that the TRANSFER of core `c` has issued has been performed. -/
def State.unitsDone (s : State) (c : Nat) : Bool := ((s.coreAt c).flightsOf 8).all (·.done)
/-- R322: the TRANSFER of a core ends: with VIOLATION where it is frozen, else with KILLED. -/
def State.endTransfer (s : State) (c : Nat) : State :=
  let x := s.strandAt c 8
  if x.st = .dormant then s
  else
    let status := if x.st = .frozen then Status.violation else Status.killed
    let s : State := { s with fids := s.fids.filter fun f => !(f.core == c && f.slot == 8) }
    (s.putStrand c 8 Strand.fresh).endLaunch c status false

/-! ### Starts and ends of strands (R23, R34, R37, R38, R292, R341) -/

/-- R34: a held message starts its handler. -/
def execSendAccept (c : Nat) (s : State) : Out :=
  if (s.coreAt c).messages.isEmpty then .next s else .next (s.startOne c)
/-- R37: one start; strand 0 of the management core then takes a held alert. -/
def execStrandStart (c : Nat) (s : State) : Out := .next (s.startOne c).deliverAlert

/-- R292: the strand that a launch started is DORMANT again. -/
def State.completed (s : State) (x : Strand) : State :=
  match x.owner with
  | some l => if x.launched && (s.coreAt l.1).mbox.running l then s.endLaunch l.1 Status.done false else s
  | none => s

/-- R23: an ENDING slot whose queues are empty and whose entries have retired. -/
def execEndingToDormant (c k : Nat) (s : State) : Out :=
  let ix := slotIx k
  let x := s.strandAt c ix
  if k < 8 ∧ x.st = .ending ∧ x.q.allEmpty ∧ (s.coreAt c).settled ix then
    let s := (s.spend c ix).updAt c ix fun x =>
      { x with st := .dormant, wait := .none, run := none, launched := false, owner := none, light := none }
    .next ((s.completed x).lightDone c)
  else .next s

/-- R38; a dark core, and one that is about to be parked, take no release (R298). -/
def execTimerWheelSlot (c : Nat) (s : State) : Out :=
  let y := s.coreAt c
  if y.dark || y.closing.isSome then .next s else .next (s.updCore c fun y => y.releaseDue s.pkg.ptp s.steps)

/-! ### Requests and releases that arrive (R32, R33, R173) -/

/-- The queue that a REQ asks for has room, and no earlier REQ waits for it, nor the owner, who began before (R25). -/
def State.reqReady (s : State) (i : Nat) (r : Request) : Bool :=
  !(s.coreAt r.core).dark && (s.coreAt r.core).closing.isNone && (s.strandAt r.core (slotIx r.slot)).allQueued.cmdRoom r.eng &&
    !((s.net.take i).any fun q => q.core == r.core && q.slot == r.slot && q.eng == r.eng) &&
    !(s.strandAt r.core (slotIx r.slot)).waitsFor r.eng r.since

def execReqAccept (i : Nat) (s : State) : Out :=
  match s.net[i]? with
  | none => .next s
  | some r =>
    if !s.reqReady i r then .next s
    else if !s.portRoom r.src r.core then .next (s.spillEvent r.src.1)
    else
      let s : State := { s with net := s.net.eraseIdx i }
      let s := s.updAt r.core (slotIx r.slot) fun x => (x.pushCmd r.eng (.stream (some r.src.1)) r.addr).wake .idle
      .next (s.accepted r.src r.core)

/-- R32: the oldest release reaches its core, and releases the strand or is discarded. -/
def execReelRelease (s : State) : Out :=
  match s.releases with
  | [] => .next s
  | r :: rest =>
    let s : State := { s with releases := rest }
    match (s.coreAt r.core).flights.find? fun f => f.n == r.n with
    | none => .next s
    | some f =>
      let k := slotIx f.slot
      if (s.strandAt r.core k).st = .frozen ∧ !(s.coreAt r.core).killing k.val then .next s
      else .next ((s.updCore r.core fun y => y.answer r.n .go).updAt r.core k fun x =>
        x.wake (if r.join then .reelHeld else .reelPhase))

end Sys2Proof.Machine
end

