-- ==== Sys2Proof/Machine/Lending.lean ====
section
/-! DEFINITION. Quadrille placement: the active core of a segment, parking its partner, the end of lending
(R48, R49, R297-R299, R321). -/
namespace Sys2Proof.Machine

/-! ### Colours (R297) -/

/-- Register and bit of a segment's colour. -/
def colourAt (g : Nat) : Nat × Nat := (g / 16 % 16 / 2, g / 16 % 2 * 16 + g % 16)
def State.colour (s : State) (g : Nat) : Bool :=
  let p := colourAt g
  ((s.die (g / 256)).qcol[p.1 % 8]'(Nat.mod_lt _ (by decide))).getLsbD p.2
/-- A colour register with one bit set to a value. -/
def putBit (v : Word) (i : Nat) (b : Bool) : Word := if b then v ||| (1#32 <<< i) else v &&& ~~~(1#32 <<< i)

/-- Lending is in force in a segment. -/
def State.lending (s : State) (g : Nat) : Bool := (segCores g).any fun c => (s.coreAt c).act

/-- The active core of a segment: the side that borrows, or the core whose column + row has the colour's parity. -/
def State.activeCore (s : State) (g : Nat) : Nat :=
  match (segCores g).find? fun c => (s.coreAt c).act with
  | some c => c
  | none =>
    let first := g / 16 * 32 + 2 * (g % 16)
    if (g / 16) % 2 = (if s.colour g then 1 else 0) then first else first + 1

/-- A colour bit that a flip or a write leaves: at once, or when the lending under way ends. A park of R298 that has not come to its
third step is given up, for its launch runs on the other core now (log entry 61, DESIGN CHOICE). -/
def State.putColour (s : State) (g : Nat) (b : Bool) : State :=
  let p := colourAt g
  let d := s.die (g / 256)
  let i := p.1 % 8
  let new : Vector Word 8 := d.qcolNext.set i (putBit (d.qcolNext[i]'(Nat.mod_lt _ (by decide))) p.2 b) (Nat.mod_lt _ (by decide))
  let now : Vector Word 8 := if s.lending g then d.qcol else
    d.qcol.set i (putBit (d.qcol[i]'(Nat.mod_lt _ (by decide))) p.2 b) (Nat.mod_lt _ (by decide))
  let s := s.putDie (g / 256) { d with qcol := now, qcolNext := new }
  if now = d.qcol then s
  else s.mapCores (fun c => decide (c < mgmtCore) && segOf c == g) fun _ y => { y with closing := none }
/-- The colour written for a segment. -/
def State.colourNext (s : State) (g : Nat) : Bool :=
  let p := colourAt g
  ((s.die (g / 256)).qcolNext[p.1 % 8]'(Nat.mod_lt _ (by decide))).getLsbD p.2

/-! ### Hot records (R49, R297) -/

/-- A core runs, or is about to run, an HC2 or HC3 record. -/
def Core.hot (y : Core) : Bool :=
  ((List.range 8).any fun k => (y.strands[k % 9]'(Nat.mod_lt _ (by decide))).hot) ||
    (y.placed.any fun p => Rec.hot p.record) || y.ready.any fun r => r.kept.isSome && Rec.hot r.record
/-- The core runs an HC3 record. -/
def Core.hottest (y : Core) : Bool :=
  ((List.range 8).any fun k =>
    let x := y.strands[k % 9]'(Nat.mod_lt _ (by decide))
    x.hot && (x.run.map fun r => Rec.hc r.record) == some 3) || y.placed.any fun p => Rec.hc p.record == 3

/-! ### Parking (R298, R299) -/

def parkBytes : Nat := 0x400000
/-- The chunks of a core's park area; none where it is unmapped. -/
def State.parkArea (s : State) (c : Nat) : Option (List (Nat × Nat)) := s.area c (s.coreAt c).parkBase.toNat parkBytes
/-- The table entries that its walks read, and the bytes that a park or its end reaches. -/
def State.parkCells (s : State) (c : Nat) : List (Nat × Nat) := s.areaCells c (s.coreAt c).parkBase.toNat parkBytes
def State.parkReach (s : State) (c : Nat) : List (Nat × Nat) := (s.parkArea c).getD [] ++ s.onWay c
/-- Step 2 of R298: no strand is ENDING. -/
def Core.noneEnding (y : Core) : Bool := (List.range 8).all fun k => (y.strands[k % 9]'(Nat.mod_lt _ (by decide))).st != .ending

/-- Step 3: a READY or WAITING strand is cut, parked and saved. -/
def State.parkStrand (s : State) (c : Nat) (k : Fin 9) (l : List (Nat × Nat)) : State :=
  let x := s.strandAt c k
  if x.st = .ready ∨ x.st = .waiting then
    let s := (s.dropLeaseReq c k).updAt c k fun x =>
      let y := x.wake .idle
      { y with st := .parked, back := y.st, backWait := y.waitNow }
    (s.updCore c fun y => y.dropEngines k.val).saveStrand c k l (0x200000 + 0x40000 * k.val) false
  else s

/-- Steps 1 and 2: while a strand of core `c` is ENDING the core takes no new work and the park waits, for launch `l`. -/
def State.closeCore (s : State) (c : Nat) (l : LaunchId) : State := s.updCore c fun y => { y with closing := some l }
/-- Steps 3 to 5 for core `c`; none where its park area is unmapped. -/
def State.parkCore (s : State) (c : Nat) : Option State :=
  match s.parkArea c with
  | none => none
  | some l =>
    let s := ((List.range 8).map slotIx).foldl (fun s k => s.parkStrand c k l) (s.settleRows c)
    let s := s.copyOut c l 0 (localKey c 0) 0x200000
    let s := s.updCore c fun y => { y with dark := true, closing := none }
    some (s.updCore (partnerOf c) fun y => { y with act := true })

/-! ### The end of lending (R49, R298) -/

/-- The dark core `c` gets its memory back and its parked strands resume. -/
def State.unpark (s : State) (c : Nat) (l : List (Nat × Nat)) : State :=
  let s := (s.settleRows c).copyIn c l 0 (localKey c 0) 0x200000
  let s := s.updCore c fun y => { y with dark := false }
  let s := s.updCore (partnerOf c) fun y => { y with act := false }
  let s := ((List.range 8).map slotIx).foldl (fun s k =>
    let x := s.strandAt c k
    if x.st = .parked then s.replayInPlace c k x.back x.backWait else s) s
  s.putColour (segOf c) (s.colourNext (segOf c))

/-- R63, R301: the reads of a repetition or unit of the core have begun. -/
def Core.reading (y : Core) : Bool := !(y.me.apart.isEmpty && y.ve.apart.isEmpty && y.ce.apart.isEmpty)

def execLendingEnd (c : Nat) (s : State) : Out :=
  let y := s.coreAt (partnerOf c)
  if c < mgmtCore ∧ (s.coreAt c).dark ∧ !y.hot ∧ !y.windowBusy ∧ !y.reading then
    s.onWalk c 0 (s.parkCells c) fun s => match s.parkArea c with
    | some l => s.onArea (s.parkReach c) fun s => .next (s.unpark c l)
    | none => .next s
  else .next s

end Sys2Proof.Machine
end

