-- ==== Sys2Proof/Machine/Preempt.lean ====
section
/-! DEFINITION. The pre-emption block: LIGHT, FULL, RESUME and KILL (R173, R286, R314-R323, R330). -/
namespace Sys2Proof.Machine

/-! ### The block (R314) -/

/-- Slots in FROZEN. -/
def Core.frozenMask (y : Core) : Nat :=
  ((List.range 8).map fun k => if (y.strands[k % 9]'(Nat.mod_lt _ (by decide))).st = .frozen then 2 ^ k else 0).sum
/-- The 512 bits of the block of a core. -/
def Core.preBits (y : Core) : Nat :=
  bit1 y.pre.port 88 + y.frozenMask * 2 ^ 80 + y.pre.status.toNat * 2 ^ 76 + bit1 y.pre.go 75 + y.pre.mode.toNat * 2 ^ 72 +
    y.pre.mask.toNat * 2 ^ 64 + y.pre.save.toNat

/-- The request of a core ends with a status. -/
def State.preEnd (s : State) (c : Nat) (status : BitVec 4) : State :=
  s.updCore c fun y => { y with pre := { y.pre with go := false, status := status } }
/-- GO: the request is pending; a mode that is none is refused. -/
def State.preGo (s : State) (c : Nat) : State :=
  let p := (s.coreAt c).pre
  if p.go then s
  else if p.mode = 0 ∨ 4 < p.mode.toNat then s.preEnd c 8
  else s.updCore c fun y => { y with pre := { y.pre with go := true, status := 1 } }

/-- A request of a mode stands at core `c`. -/
def State.asked (s : State) (c mode : Nat) : Bool :=
  decide (c < mgmtCore) && (s.coreAt c).pre.go && (s.coreAt c).pre.mode.toNat == mode

/-- R317: the bytes of a save area. -/
def saveBytes : Nat := 0x700000
/-- The table entries that its walks read. -/
def State.saveCells (s : State) (c : Nat) : List (Nat × Nat) := s.areaCells c (s.coreAt c).pre.save.toNat saveBytes
/-- The save area that a request names; none where it is misaligned, unmapped or outside the partition. -/
def State.saveArea (s : State) (c : Nat) : Option (List (Nat × Nat)) :=
  let a := (s.coreAt c).pre.save.toNat
  if a % 2 ^ 21 ≠ 0 then none else s.area c a saveBytes

/-- The named slots that hold a strand. -/
def State.named (s : State) (c : Nat) : List (Fin 9) :=
  (slotsOf (s.coreAt c).pre.mask.toNat).filter fun k => (s.strandAt c k).st != .dormant

/-! ### LIGHT and FULL (R315, R316) -/

def execPreemptLight (c : Nat) (s : State) : Out :=
  if !s.asked c 1 ∨ (s.coreAt c).strands.toList.any (fun x => x.light.isSome) then .next s
  else s.onWalk c 0 (s.saveCells c) fun s => match s.saveArea c with
    | none => .next (s.preEnd c 8)
    | some l => s.onArea l fun s =>
      let ks := s.named c
      let s := (s.areaZero l 0 0x20000).areaPut l 0 (s.header c 0 true false false)
      let v := (s.coreAt c).pre.save
      let s := ks.foldl (fun s k => s.updAt c k fun x => { x.wake .idle with light := some v }) s
      .next (if ks.isEmpty then s.preEnd c 3 else s)

def execPreemptFull (c : Nat) (s : State) : Out :=
  if !s.asked c 2 then .next s
  else s.onWalk c 0 (s.saveCells c) fun s => match s.saveArea c with
    | none => .next (s.preEnd c 8)
    | some l => s.onArea (l ++ s.onWay c) fun s =>
      .next ((s.saveFull c (s.coreAt c).pre.mask.toNat l).preEnd c 3)

/-! ### RESUME (R319, R320) -/

/-- A record's control block says LIGHT. -/
def State.isLight (s : State) (l : List (Nat × Nat)) (k : Nat) : Bool := (s.areaNat l (0x20000 + 0x40000 * k + 12) 4).testBit 1
def State.isPort (s : State) (l : List (Nat × Nat)) (k : Nat) : Bool := (s.areaNat l (0x20000 + 0x40000 * k + 12) 4).testBit 2
/-- The slots whose records an area holds, and whether every one is light. -/
def State.savedSlots (s : State) (l : List (Nat × Nat)) : List (Fin 9) := slotsOf (s.areaNat l 4 1)
def State.allLight (s : State) (l : List (Nat × Nat)) : Bool :=
  !(s.savedSlots l).isEmpty && (s.savedSlots l).all fun k => s.isLight l k.val
def State.portArea (s : State) (l : List (Nat × Nat)) : Bool := (s.areaNat l 5 1).testBit 0

/-- R319: the magic word, the reserved zeros, PORT and the records' counts; a light record stands in an area of either kind
(R315). -/
def State.areaOk (s : State) (l : List (Nat × Nat)) : Bool :=
  s.areaNat l 0 4 == 0x5641534B && decide (s.areaNat l 5 1 < 4) && s.areaNat l 8 56 == 0 && s.areaNat l 112 3984 == 0 &&
    (s.savedSlots l).all fun k => s.recordOk l (0x20000 + 0x40000 * k.val) && (s.isLight l k.val || s.isPort l k.val == s.portArea l)

/-- The full records of an area, and its light ones. -/
def State.fullSlots (s : State) (l : List (Nat × Nat)) : List (Fin 9) := (s.savedSlots l).filter fun k => !s.isLight l k.val
def State.lightSlots (s : State) (l : List (Nat × Nat)) : List (Fin 9) := (s.savedSlots l).filter fun k => s.isLight l k.val

def Core.dormantSlots (y : Core) : Nat :=
  ((List.range 8).filter fun k => (y.strands[k % 9]'(Nat.mod_lt _ (by decide))).st == .dormant).length

/-- Why a RESUME of an area is refused. -/
def State.resumeRefusal (s : State) (c : Nat) (l : List (Nat × Nat)) : Option (BitVec 4) :=
  let y := s.coreAt c
  if !s.areaOk l then some 11
  else if s.allLight l then (if y.dormantSlots < (s.savedSlots l).length then some 9 else none)
  else if s.portArea l then (if y.busyMask = 0 then none else some 9)
  else if s.areaNat l 6 2 ≠ c then some 10
  else if ((s.fullSlots l).all fun k => (s.strandAt c k).st == .frozen || (s.strandAt c k).st == .dormant) ∧
      (s.lightSlots l).length + ((s.fullSlots l).filter fun k => (s.strandAt c k).st == .dormant).length ≤ y.dormantSlots
  then none else some 9

/-- R320, step 1: the header's flags, full-empty bits, partial marks and core registers. The header names no setter of a flag: one
that it restores as 1 has none, and reads as setter 0 in a wait record (R358; log entry 86, DESIGN CHOICE). -/
def State.restoreHeader (s : State) (c : Nat) (l : List (Nat × Nat)) : State :=
  let n (o k : Nat) : Nat := s.areaNat l o k
  let seed (a b : Nat) (old : Word) : Word := if s.portArea l then BitVec.ofNat 32 (n a b) else old
  s.updCore c fun y => { y with
    flags := BitVec.ofNat 256 (n 64 32), flagBy := [], full := BitVec.ofNat 16 (n 96 2), part := BitVec.ofNat 16 (n 98 2)
    seedM := seed 100 4 y.seedM, seedV := seed 104 4 y.seedV
    seedNextM := if s.portArea l then none else y.seedNextM, seedNextV := if s.portArea l then none else y.seedNextV
    msgBase := BitVec.ofNat 9 (n 108 4 / 2048) }

/-- R315, R320: what a light record restores of the header. -/
def State.restoreMsgBase (s : State) (c : Nat) (l : List (Nat × Nat)) : State :=
  s.updCore c fun y => { y with msgBase := BitVec.ofNat 9 (s.areaNat l 108 4 / 2048) }

/-- R317: the core image of a portable area. -/
def State.restoreImage (s : State) (c : Nat) (l : List (Nat × Nat)) : State :=
  let s := s.copyIn c l 0x220000 (imemKey c 0) 0x20000
  let s := s.copyIn c l 0x240000 (localKey c 0) 0x200000
  s.copyIn c l 0x440000 (vregKey c 0 0) 0x40000

/-- R49, R298, R320: the partner memory goes into the new partner, which is parked for it. -/
def State.restorePartner (s : State) (c : Nat) (l : List (Nat × Nat)) : Option State :=
  if (s.areaNat l 5 1).testBit 1 then
    (if (s.coreAt c).act then some s else s.parkCore (partnerOf c)).map fun s =>
      s.copyIn c l 0x500000 (localKey (partnerOf c) 0) 0x200000
  else some s

/-- Commands that a REQ brought into a frozen slot after its save stand behind those of the record (R33). -/
def Queues.behind (q old : Queues) : Queues :=
  let more (a b : List Cmd) : List Cmd := a ++ b.filter fun x => match x.kind with
    | .stream (some _) => !a.any fun y => y.qseq == x.qseq
    | _ => false
  { q with me := more q.me old.me, ve := more q.ve old.ve, ce := more q.ce old.ce,
           seqMe := old.seqMe, seqVe := old.seqVe, seqCe := old.seqCe }

/-- R320, steps 2 to 6 for one slot of a core-bound area: the frozen contents give way to the record. -/
def State.restoreBound (s : State) (c : Nat) (k : Fin 9) (l : List (Nat × Nat)) : State :=
  let x := s.strandAt c k
  let s := ((s.settleRows c).emptySlot c k).restoreStrand c k l (0x20000 + 0x40000 * k.val)
  if x.st = .frozen then s.updAt c k fun y => { y with q := y.q.behind x.q } else s

/-- R315: a light record resumes in the slot of its number, or in another DORMANT slot. -/
def State.restoreLight (s : State) (c : Nat) (k : Fin 9) (l : List (Nat × Nat)) : State :=
  let y := s.coreAt c
  let dst := if y.strands[k.val].st = .dormant then k else
    match ((List.range 8).map slotIx).find? fun j => y.strands[j.val].st == .dormant with
    | some j => j
    | none => k
  s.restoreStrand c dst l (0x20000 + 0x40000 * k.val)

/-- R320: a core-bound area is restored. -/
def State.resumeBound (s : State) (c : Nat) (l : List (Nat × Nat)) : Option State :=
  (s.restorePartner c l).map fun s =>
    let s := (s.fullSlots l).foldl (fun s k => s.restoreBound c k l) (s.restoreHeader c l)
    (s.lightSlots l).foldl (fun s k => s.restoreLight c k l) s

/-- A resumption parks the partner. -/
def State.resumeParks (s : State) (c : Nat) (l : List (Nat × Nat)) : Bool := (s.areaNat l 5 1).testBit 1 && !(s.coreAt c).act
/-- R298, R320: the resumption has to park a partner that has a strand ENDING. -/
def State.partnerEnding (s : State) (c : Nat) (l : List (Nat × Nat)) : Bool :=
  s.resumeParks c l && !(s.coreAt (partnerOf c)).noneEnding

/-- R320: a portable area is restored; none where the new partner cannot be parked. Its core image lies over what the core held, so
that no image of the core is left but those of the records (R275, R279). -/
def State.resumePortable (s : State) (c : Nat) (l : List (Nat × Nat)) : Option State :=
  (s.restorePartner c l).map fun s =>
    let s := s.updCore c fun y => { y with images := [] }
    (s.savedSlots l).foldl (fun s k => s.restoreStrand c k l (0x20000 + 0x40000 * k.val))
      ((s.restoreImage c l).restoreHeader c l)

/-- The bytes that it then reaches for it, and the table entries that its walks read. -/
def State.resumeReach (s : State) (c : Nat) (l : List (Nat × Nat)) : List (Nat × Nat) :=
  if s.resumeParks c l then s.parkReach (partnerOf c) else []
def State.resumeCells (s : State) (c : Nat) (l : List (Nat × Nat)) : List (Nat × Nat) :=
  if s.resumeParks c l then s.parkCells (partnerOf c) else []
def execPreemptResume (c : Nat) (s : State) : Out :=
  if !s.asked c 3 then .next s
  else s.onWalk c 0 (s.saveCells c) fun s => match s.saveArea c with
    | none => .next (s.preEnd c 8)
    | some l => s.onArea l fun s => s.onWalk c 0 (s.resumeCells c l) fun s => s.onArea (l ++ s.resumeReach c l ++ s.onWay c) fun s =>
      let s := s.meetFlaws c 0 l
      match s.resumeRefusal c l with
      | some e => .next (s.preEnd c e)
      | none =>
        if s.allLight l then
          .next (((s.savedSlots l).foldl (fun s k => s.restoreLight c k l) (s.restoreMsgBase c l)).preEnd c 3)
        else if s.portArea l && (s.coreAt c).dark then .next s
        else if s.partnerEnding c l then .next (s.closeCore (partnerOf c) (c, (s.coreAt c).mbox.launch))
        else match (if s.portArea l then s.resumePortable c l else s.resumeBound c l) with
          | some t => .next (t.preEnd c 3)
          | none => .next ((s.reopen (c, (s.coreAt c).mbox.launch)).preEnd c 8)

/-! ### KILL (R321, R322) -/

/-- Step 1: queues and cursors are dropped, and the strand issues nothing more. -/
def State.killDrop (s : State) (c : Nat) (k : Fin 9) : State :=
  ((s.dropLeaseReq c k).updAt c k fun x =>
    { x.freeze with
      q := { x.q with me := [], ve := [], ce := [], fmt := [], ld := [], st := [] }
      curMe := none, curVe := none, curCe := none, trap := { x.trap with aside := none } }).updCore c fun y => y.dropEngines k.val

/-- Steps 3 to 5: the lease is freed, a watermark equal to NEXT is sent, and the slot goes to DORMANT. -/
def State.killEnd (s : State) (c : Nat) (k : Fin 9) : State :=
  let x := s.strandAt c k
  let s := (s.freeLease c k).watermark c k x.tag.next
  (s.emptySlot c k).completed x

def execPreemptKill (c : Nat) (s : State) : Out :=
  if !s.asked c 4 ∨ (s.coreAt c).pre.mask = 0 then .next s
  else
    let ks := s.named c
    let s := ks.foldl (fun s k => s.killDrop c k) s
    if ks.all fun k => ((s.coreAt c).flightsOf k.val).all Flight.ended then
      .next ((ks.foldl (fun s k => s.killEnd c k) s).preEnd c 3)
    else .next (s.updCore c fun y => { y with pre := { y.pre with status := 2 } })

/-- The TRANSFER is over once its units have been performed and its launch has completed (R362). -/
def execKillTransfer (c : Nat) (s : State) : Out :=
  let wait (s : State) : State := s.updCore c fun y => { y with pre := { y.pre with status := 2 } }
  if !s.asked c 4 ∨ (s.coreAt c).pre.mask ≠ 0 then .next s
  else if (s.strandAt c 8).st ≠ .dormant ∧ !s.unitsDone c then .next (wait (s.haltTransfer c))
  else
    let t := s.endTransfer c
    .next (if (t.coreAt c).mbox.kind && (t.coreAt c).mbox.fin.isSome then wait t else t.preEnd c 3)

end Sys2Proof.Machine
end

