-- ==== Sys2Proof/Machine/Distribute.lean ====
section
/-! DEFINITION. The distributor: the choice of an entry, the overlay load, the record checks, placement, parking, rotation
(R137, R278, R279, R291, R293, R294, R297-R300, R332). -/
namespace Sys2Proof.Machine

/-! ### What an entry comes to (R294, R297) -/

inductive Plan where
  /-- Refused at its issue. -/
  | refuse (status : BitVec 4)
  /-- Passed over at this moment. -/
  | wait
  | transfer
  /-- A KERNEL for core `t`, whose partner is to be parked and takes no new work from now on. -/
  | close (t : Nat)
  /-- A KERNEL for core `t`. -/
  | kernel (t : Nat) (i : Image) (record : BitVec 256)
deriving DecidableEq, Repr

/-- R297: the vertically neighbouring segments of the same column. -/
def neighbours (g : Nat) : List Nat :=
  (if g % 16 = 0 then [] else [g - 1]) ++ if g % 16 = 15 then [] else [g + 1]
/-- R297: an HC3 record runs in a segment beside `g`. -/
def State.nearHottest (s : State) (g : Nat) : Bool :=
  (neighbours g).any fun n => (segCores n).any fun c => (s.coreAt c).hottest

/-- R297: the core that a record of the mailbox of core `c` runs on. -/
def State.targetOf (s : State) (c : Nat) (r : BitVec 256) : Nat :=
  if Rec.hot r then s.activeCore (segOf c) else c

/-- R294: core `t` has a DORMANT slot that no earlier placement takes. -/
def Core.roomy (y : Core) : Bool := decide (y.placed.length < y.dormantSlots)

/-- R294, R298: core `t` is dark, is about to be parked, or has no DORMANT slot. -/
def Core.taken (y : Core) : Bool := y.dark || y.closing.isSome || !y.roomy
/-- R294, R297: core `t` cannot take the record at this moment. -/
def State.notNow (s : State) (t : Nat) (r : BitVec 256) : Bool :=
  (s.coreAt t).taken || (Rec.hc r == 3 && s.nearHottest (segOf t))

/-- R278: the image of a launch and its entry record. -/
def State.kernelOf (s : State) (c va : Nat) : Load (Image × BitVec 256) := do
  let i ← s.image c va
  let r ← s.entryRecord c i
  return (i, r)

/-- R298: the partner of core `t` is to be parked for launch `l` and has a strand ENDING. -/
def State.parkWaits (s : State) (t : Nat) (r : BitVec 256) : Bool :=
  let p := s.coreAt (partnerOf t)
  Rec.hot r && !p.dark && !p.noneEnding

/-- R278, R294, R298: what a KERNEL of core `c`'s mailbox comes to; one that cannot be placed is passed over before it is
checked. -/
def State.kernelPlan (s : State) (c : Nat) (l : LaunchId) (va : Nat) : Plan :=
  match s.kernelOf c va with
  | .error e => if (s.coreAt c).taken then .wait else .refuse e
  | .ok (i, r) =>
    let t := s.targetOf c r
    if s.notNow t r then .wait
    else match s.imageFits t i with
      | .error e => .refuse e
      | .ok _ =>
        if s.loadWaits t i l then .wait
        else if i.entry % 32 ≠ 0 ∨ !Rec.ok r then .kernel t i r
        else if s.parkWaits t r then (if (s.coreAt (partnerOf t)).closing.isSome then .wait else .close t)
        else .kernel t i r

def State.plan (s : State) (b : Launch) : Plan :=
  let m := (s.coreAt b.core).mbox
  if m.kind then (if (s.coreAt b.core).dark then .wait else .transfer)
  else s.kernelPlan b.core (b.core, m.launch) m.image.toNat

/-- R294: `a` goes before `b`. -/
def State.before (s : State) (d : Die) (a b : Launch) : Bool :=
  decide (s.effClass d a < s.effClass d b) || (s.effClass d a == s.effClass d b &&
    (decide (a.order < b.order) || (a.order == b.order && decide (a.core < b.core))))

/-- R294: the RESIDENT entry that issues next, those that cannot be placed passed over. -/
def State.choice (s : State) (d : Die) : List Launch → Option (Launch × Plan)
  | [] => none
  | b :: rest =>
    let r := State.choice s d rest
    if !b.resident then r
    else match s.plan b, r with
      | .wait, _ => r
      | p, none => some (b, p)
      | p, some q => if s.before d b q.1 then some (b, p) else some q
def State.nextLaunch (s : State) (d : Nat) : Option (Launch × Plan) := s.choice (s.die d) (s.die d).board

/-! ### The issue (R137, R278, R291, R294, R298) -/

/-- R298: an HC2 or HC3 record has its core's partner parked. -/
def State.parksFor (s : State) (t : Nat) (r : BitVec 256) : Bool := Rec.hot r && !(s.coreAt (partnerOf t)).dark
/-- None where the park area is unmapped. -/
def State.parkFor (s : State) (t : Nat) (r : BitVec 256) : Option State :=
  if s.parksFor t r then s.parkCore (partnerOf t) else some s

/-- The image is on core `t`. -/
def State.ensureLoaded (s : State) (t : Nat) (i : Image) (l : LaunchId) : State :=
  if (s.coreAt t).loaded l then s else s.loadImage t i l

/-- R41, R294: the record is placed on core `t` under the launch's class. -/
def State.placeRecord (s : State) (c t : Nat) (cls : BitVec 3) (r : BitVec 256) : State :=
  let m := (s.coreAt c).mbox
  let n := s.newCtx t
  let p : Placed := { record := r, argb := m.argb, prio := cls, owner := (c, m.launch), ctx := n.1 }
  (n.2.updCore t fun y => { y with placed := y.placed ++ [p] }).updCore c fun y =>
    { y with mbox := { y.mbox with status := Status.running, ecls := cls } }

def State.issueKernel (s : State) (c t : Nat) (cls : BitVec 3) (i : Image) (r : BitVec 256) : State :=
  let s := s.ensureLoaded t i (c, (s.coreAt c).mbox.launch)
  if i.entry % 32 ≠ 0 ∨ !Rec.ok r then s.endLaunch c Status.record true
  else match s.parkFor t r with
    | none => s.endLaunch c Status.violation true
    | some u => u.placeRecord c t cls r

/-- The entry leaves the scoreboard. -/
def State.takeOff (s : State) (d : Nat) (b : Launch) : State :=
  s.putDie d { s.die d with board := (s.die d).board.filter (· != b), issuedAt := some s.clk }

/-- R18, R342: the rows that the issue of an entry reads, those of its image, and with them those that it writes, of the park area of a
partner to be parked. -/
def State.readCells (s : State) (b : Launch) (p : Plan) : List (Nat × Nat) :=
  match p with
  | .wait => []
  | .transfer => []
  | _ => s.imageCells b.core (s.coreAt b.core).mbox.image.toNat
def State.issueCells (s : State) (b : Launch) (p : Plan) : List (Nat × Nat) :=
  s.readCells b p ++ match p with
    | .kernel t _ r => if s.parksFor t r then s.parkCells (partnerOf t) ++ s.parkReach (partnerOf t) else []
    | _ => []
/-- The walks for the park area of a partner to be parked meet the errors of the table entries that they read (R366). -/
def State.parkWalk (s : State) (p : Plan) : State :=
  match p with
  | .kernel t _ r => if s.parksFor t r then s.arriveAt (partnerOf t) 0 (s.parkCells (partnerOf t)) else s
  | _ => s

/-- R294: at most one issue in 16 clk. -/
def Die.mayIssue (d : Die) (clk : Nat) : Bool := d.issuedAt.all fun t => decide (t + 16 ≤ clk)

/-- R294, R295: the entry that goes first issues, with the class of its PRIO; the distributors pass over entries while the
switch to full service waits (R355). -/
def execDistributorIssue (die : Nat) (s : State) : Out :=
  if s.pkg.fullPend ∨ !(s.die die).mayIssue s.clk then .next s
  else match s.nextLaunch die with
    | none => .next s
    | some (b, p) => s.onArea (s.issueCells b p) fun s =>
      let s := (s.meetFlaws b.core 0 (s.readCells b p)).parkWalk p
      let cls := (s.coreAt b.core).mbox.prio
      let t := s.takeOff die b
      match p with
      | .refuse e => .next (t.endLaunch b.core e true)
      | .wait => .next s
      | .close k => .next (s.closeCore (partnerOf k) (b.core, (s.coreAt b.core).mbox.launch))
      | .transfer => .next ((t.updCore b.core fun y => { y with mbox := { y.mbox with status := Status.running, ecls := cls } }).startTransfer b.core cls)
      | .kernel k i r => .next (t.issueKernel b.core k cls i r)

/-- R278: the load alone, for the launch of the mailbox of core `c` that issues next. -/
def execOverlayLoad (c : Nat) (s : State) : Out :=
  match s.nextLaunch (dieOf c) with
  | some (b, .kernel t i _) =>
    if b.core = c ∧ !s.pkg.fullPend then
      let l := s.imageCells c (s.coreAt c).mbox.image.toNat
      s.onArea l fun s => .next ((s.meetFlaws c 0 l).ensureLoaded t i (c, (s.coreAt c).mbox.launch))
    else .next s
  | _ => .next s

/-- R298: core `c` is parked for a launch that its partner is to take next. -/
def execPark (c : Nat) (s : State) : Out :=
  match s.nextLaunch (dieOf c) with
  | some (_, .kernel t i r) =>
    if partnerOf t = c ∧ Rec.hot r ∧ Rec.ok r ∧ i.entry % 32 = 0 ∧ !(s.coreAt c).dark ∧ !s.pkg.fullPend then
      s.onWalk c 0 (s.parkCells c) fun s => s.onArea (s.parkReach c) fun s => .next ((s.parkCore c).getD s)
    else .next s
  | _ => .next s

/-! ### Rotation (R300, R332) -/

/-- The lesser of the two allowances of a core. -/
def State.coreAllow (s : State) (c : Nat) : Nat := min (s.seg (segOf c)).allow (s.group (homeStack c) (homeGroup c)).allow

/-- R300: the strand of an HC2 or HC3 record of core `c` that has run longest. -/
def Core.longest (y : Core) : Option (Fin 9) :=
  (earliest ((List.range 8).filterMap fun k =>
    let x := y.strands[k % 9]'(Nat.mod_lt _ (by decide))
    if x.hot && x.st != .frozen && x.st != .parked then some (k, (x.run.map (·.begun)).getD 0) else none)).map
      fun p => slotIx p.1

/-- R300: lending is in force at core `t` or can begin. -/
def State.canLend (s : State) (t : Nat) : Bool :=
  (s.coreAt t).act || ((s.coreAt (partnerOf t)).noneEnding && (s.parkArea (partnerOf t)).isSome)

/-- R300, R332: core `t` may take a strand of core `c`. -/
def State.eligible (s : State) (c t : Nat) : Bool :=
  let d := s.die (dieOf c)
  t != c && homeStack t == homeStack c && gcolOf t == gcolOf c && decide (d.rth.toNat + d.rhyst.toNat < s.coreAllow t) &&
    s.activeCore (segOf t) == t && !(s.coreAt t).dark && (s.coreAt t).busyMask == 0 && s.canLend t

/-- The eligible target fewest hops away, then of the lowest row. -/
def State.rotationTarget (s : State) (c : Nat) : Option Nat :=
  (earliest (((List.range 32).map fun r => gcolOf c * 32 + r).filterMap fun t =>
    if s.eligible c t then some (t, hops c t) else none)).map (·.1)

/-- R332: where the rotation area of core `c` begins. -/
def State.rotationBase (s : State) (c : Nat) : Nat := (s.coreAt c).parkBase.toNat + 0x400000
def State.rotationArea (s : State) (c : Nat) : Option (List (Nat × Nat)) := s.area c (s.rotationBase c) saveBytes
/-- The table entries that the walks for a rotation from core `c` to core `t` read, and the bytes that it reaches. -/
def State.rotationCells (s : State) (c t : Nat) : List (Nat × Nat) :=
  s.areaCells c (s.rotationBase c) saveBytes ++ if (s.coreAt t).act then [] else s.parkCells (partnerOf t)
def State.rotationReach (s : State) (c t : Nat) (l : List (Nat × Nat)) : List (Nat × Nat) :=
  l ++ s.onWay c ++ if (s.coreAt t).act then [] else s.parkReach (partnerOf t)

/-- R300: ROTQ has passed since the last rotation out of a segment. -/
def State.rotationDue (s : State) (c : Nat) : Bool :=
  match (s.seg (segOf c)).lastRot with
  | none => true
  | some t => decide (t + (s.die (dieOf c)).rotq.toNat * 2 ^ 16 ≤ s.clk)

/-- The strand `k` of core `c` goes on at core `t`; none where it cannot. -/
def State.rotate (s : State) (c t : Nat) (k : Fin 9) (l : List (Nat × Nat)) : Option State :=
  let port := (s.coreAt c).pre.port
  let u := (s.saveFull c (2 ^ k.val) l).updCore c fun y => { y with pre := { y.pre with port := port } }
  (u.resumePortable t l).map fun u =>
    let d := u.die (dieOf c)
    let u := u.putDie (dieOf c) { d with rotc := if d.rotc = 0xFFFF then d.rotc else d.rotc + 1 }
    let g := segOf c
    let u := u.putSeg g { u.seg g with lastRot := some u.clk }
    if (segCores g).any fun x => (u.coreAt x).hot then u else u.putColour g (!u.colourNext g)

/-- The rotation out of core `c` that is due; none where there is none. -/
def State.rotationOf (s : State) (c : Nat) : Option State :=
  if (s.die (dieOf c)).rth.toNat < s.coreAllow c || !s.rotationDue c then none
  else do
    let k ← (s.coreAt c).longest
    let l ← s.rotationArea c
    let t ← s.rotationTarget c
    let cells := s.rotationCells c t
    let all := s.rotationReach c t l
    if !(s.coreAt c).portable (2 ^ k.val) then none
    else if s.heldUp c cells then some (s.arriveAt c 0 cells)
    else if s.areaBusy all then some (s.areaTouched all) else ((s.arriveAt c 0 cells).areaTouched all).rotate c t k l

/-- R300: one strand of the first hot segment of the die whose rotation is due. -/
def execRotation (die : Nat) (s : State) : Out :=
  match (s.listed.filter fun c => decide (c < mgmtCore) && dieOf c == die).findSome? s.rotationOf with
  | some t => .next t
  | none => .next s

end Sys2Proof.Machine
end

