-- ==== Sys2Proof/Machine/Security.lean ====
section
/-! DEFINITION. Partitions, attestation, device assignment, links, bring-up, bit errors and the patrol scrubber
(R348-R355, R365-R368). -/
namespace Sys2Proof.Machine

/-! ### Cores and columns of a partition -/

/-- The global columns of a mask. -/
def colsOf (m : DWord) : List Nat := (List.range 64).filter m.getLsbD
/-- The listed cores of a partition's columns. -/
def State.coresOf (s : State) (p : Nat) : List Nat :=
  s.listed.filter fun c => decide (c < mgmtCore) && (s.part p).cols.getLsbD (gcolOf c)
def slots8 : List (Fin 9) := (List.range 8).map slotIx

/-- Every strand of a partition goes to FROZEN; `viol` as in R330. -/
def State.freezePart (s : State) (p : Nat) (viol : Bool) : State :=
  (s.coresOf p).foldl (fun s c => slots8.foldl (fun s k =>
    if (s.strandAt c k).st = .dormant then s
    else (s.freezeAt c k).updAt c k fun x => { x with viol := x.viol || viol }) s) s

/-! ### Enabling (R349-R351) -/

/-- Two partitions share a column or a Ballroom slice; a column that is being cleared is still held (R351). -/
def State.clash (s : State) (p q : Nat) : Bool :=
  let x := s.part p
  let y := s.part q
  (y.en || y.scrub) && ((x.cols ||| x.ball) &&& (y.cols ||| y.ball)) != 0
/-- R350: a write of EN = 1 is refused. -/
def State.enableRefused (s : State) (p : Nat) : Bool :=
  (s.part p).cols == 0 || ((List.range 16).any fun q => q != p % 16 && s.clash p q) || (!s.pkg.full && p % 16 != 0)

/-- The column whose home vault or Ballroom slice holds a key. -/
def keyCol (key : Nat) : Nat := if key < hostBase then vaultCol (key / 2 ^ 37) (key / 2 ^ 33 % 16) else gcolOf ((key - ballBase) / 2 ^ 20)
/-- R351, R370: what the management core left in the vaults and slices of a partition, under its own key, reads as anything
under the partition's key (log entry 58, DESIGN CHOICE). -/
def State.newKey (s : State) (p : Nat) : State :=
  let x := s.part p
  let mine (k : Nat) : Bool := if k < hostBase then x.cols.getLsbD (keyCol k) else (x.cols ||| x.ball).getLsbD (keyCol k)
  let s := (s.pkg.mkeyed.filter mine).foldl
    (fun s k => s.write k ((List.range 16).map fun i => Config.otherKey (k + i) s.steps)) s
  { s with pkg := { s.pkg with mkeyed := s.pkg.mkeyed.filter fun k => !mine k } }

def execPartitionEnable (p : Nat) (s : State) : Out :=
  let x := s.part p
  if x.en then .next s
  else if s.enableRefused p then .next (s.putPart p { x with err := true })
  else .next ((s.newKey p).putPart p { x with en := true, key := true, parten := 0 })

/-! ### Clearing (R351) -/

/-- R351: a TRANSFER that has not begun ends with KILLED. -/
def State.dropTransfer (s : State) (c : Nat) : State :=
  let m := (s.coreAt c).mbox
  if m.go && m.kind then s.endLaunch c Status.killed m.fresh else s
/-- R18, R351: rows on their way to a held bank are gone with the key, and the clearing writes zeros where they went. -/
def State.dropHeld (s : State) (c : Nat) : State :=
  s.updCore c fun y => { y with flights := y.flights.filter fun f => !((f.rowOut || f.begun) && s.areaBusy f.ra) }
/-- R351: the TRANSFER of core `c` ends: the rows that it has issued are performed, its atomic actions that no place has performed
are gone with the key. -/
def State.stopTransfer (s : State) (c : Nat) : State :=
  let s := ((s.dropHeld c).settleRows c).updCore c fun y => { y with flights := y.flights.filter fun f => f.slot != 8 }
  (s.endTransfer c).dropTransfer c
/-- R362: the capture record of a launch of core `c` that has ended is made final with what has been read of its region; no other
record is brought forward any more. -/
def State.endCapture (s : State) (c : Nat) : State :=
  let m := (s.coreAt c).mbox
  match m.fin, m.capture, s.partOf c with
  | some f, some (slot, at_), some i =>
    (s.unitWrite c ((s.part i).capKey slot + 64)
      (s.finalRow c at_ { f with lost := f.lost || decide (f.got.length < f.len) })).finishLaunch c f.status
  | _, _, _ => s.updCore c fun y => { y with mbox := { y.mbox with capture := none } }
/-- EN goes to 0: strands freeze, TRANSFERs end, the key is gone, clearing begins. -/
def State.disable (s : State) (p : Nat) : State :=
  if !(s.part p).en then s
  else
    let s := s.freezePart p false
    let s := (s.coresOf p).foldl (fun s c => (s.stopTransfer c).endCapture c) s
    let s : State := { s with late := s.late.filter fun r => s.partOf r.core != some (p % 16) || (decide (hostBase ≤ r.key) && decide (r.key < ballBase)) }
    s.putPart p { s.part p with en := false, key := false, ide := false, scrub := true }

def execPartitionDisable (p : Nat) (s : State) : Out := .next (s.disable p)

/-- Zeros in the two home vaults of a column, and in its cores. -/
def State.scrubCol (s : State) (g : Nat) : State :=
  let h := 2 * (g / 16)
  let s := (s.clear (hbmKey h (g % 16) 0) (2 ^ 33)).clear (hbmKey (h + 1) (g % 16) 0) (2 ^ 33)
  (List.range 32).foldl (fun s r =>
    let c := 32 * g + r
    ((s.clear (localKey c 0) 0x200000).clear (imemKey c 0) 0x20000).clear (vregKey c 0 0) 0x40000) s
/-- Zeros in the Ballroom slices of a column; no live reel stays there. -/
def State.scrubBall (s : State) (g : Nat) : State :=
  let lo := ballBase + 32 * g * 2 ^ 20
  let out (k : Nat) : Bool := decide (k < lo) || decide (lo + 2 ^ 25 ≤ k)
  { s.clear lo (2 ^ 25) with reels := s.reels.filter out, reelWaits := s.reelWaits.filter fun w => out w.cell }

/-- R18, R342: some bank of a vault is held or some channel of it asleep, and the accesses that touch them all. -/
def State.vaultBusy (s : State) (x : Nat × Nat) : Bool :=
  ((s.stack x.1).holds.any fun h => h.1 / 24 == x.2 && decide (s.clk < h.2.2)) || (s.stack x.1).asleep.any fun i => i / 24 == x.2
def State.vaultTouched (s : State) (x : Nat × Nat) : State :=
  (List.range 24).foldl (fun s i => (s.touchChannel x.1 (pcIx x.2 i)).1) s
/-- The two home vaults of each column of a mask: stack and vault. -/
def homeVaults (m : DWord) : List (Nat × Nat) := (colsOf m).flatMap fun g => [(2 * (g / 16), g % 16), (2 * (g / 16) + 1, g % 16)]

def execScrubDone (p : Nat) (s : State) : Out :=
  let x := s.part p
  let vaults := homeVaults x.cols
  let busy := vaults.any s.vaultBusy
  let s := if x.scrub then vaults.foldl State.vaultTouched s else s
  if !x.scrub ∨ busy then .next s
  else
    let s := (colsOf x.cols).foldl State.scrubCol s
    let s := (colsOf (x.cols ||| x.ball)).foldl State.scrubBall s
    .next (s.putPart p { s.part p with scrub := false })

/-! ### TDISP (R353) -/

end Sys2Proof.Machine

namespace Sys2Proof
/-- The responder of a function: the physical function of either link, or a virtual function. -/
def Func.responder : Func → Option Nat
  | .pf => some 0
  | .pf1 => some 17
  | .vf p => some (p + 1)
  | .mgmt => none
end Sys2Proof

namespace Sys2Proof.Machine

def State.responderAt (s : State) (i : Nat) : Responder := SMap.get Responder.fresh s.spdm i
def State.putResponder (s : State) (i : Nat) (r : Responder) : State := { s with spdm := SMap.put s.spdm i r }
/-- A secure session stands on the virtual function of a partition. -/
def State.inSession (s : State) (p : Nat) : Bool := (s.responderAt (p % 16 + 1)).phase == .session

def execLockInterface (p : Nat) (s : State) : Out :=
  let x := s.part p
  if s.inSession p ∧ x.tds = 0 ∧ x.en ∧ !x.scrub then .next (s.putPart p { x with tds := 1 }) else .next s
def execStartInterface (p : Nat) (s : State) : Out :=
  let x := s.part p
  if s.inSession p ∧ x.tds = 1 then .next (s.putPart p { x with tds := 2 }) else .next s
/-- STOP_INTERFACE: TDS 0, then the clearing of R351. -/
def execStopInterface (p : Nat) (s : State) : Out :=
  if s.inSession p then .next ((s.putPart p { s.part p with tds := 0 }).disable p) else .next s
/-- TDS 3: the strands are frozen as in R330, and a TRANSFER stops at its entry. -/
def State.tdsError (s : State) (p : Nat) : State :=
  let s := s.freezePart p true
  let s := (s.coresOf p).foldl (fun s c => if (s.strandAt c 8).st = .dormant then s else s.updAt c 8 Strand.freeze) s
  s.putPart p { s.part p with tds := 3 }
/-- The keys of the IDE stream that carries the partition's DMA. -/
def execIdeKm (p : Nat) (s : State) : Out :=
  if s.inSession p then .next (s.putPart p { s.part p with ide := true }) else .next s

/-! ### Attestation (R352) -/

/-- Where a request is accepted, the state it leads to, and the response's code (log entry 7, PRESUMED). -/
structure Ask where
  ok : Spdm → Bool
  next : Spdm → Spdm
  code : Nat
/-- Codes of SPDM's ERROR. -/
def spdmError : Nat := 0x7F
/-- The connection has negotiated its algorithms. -/
def Spdm.open : Spdm → Bool
  | .negotiated => true
  | .handshake => true
  | .session => true
  | _ => false

/-- A responder answers a request, with a body that the spec gives or leaves open; out of order, or refused, with ERROR. -/
def State.respond (s : State) (f : Func) (a : Ask) (ok : Bool) (body : Option (BitVec 256)) : State :=
  match f.responder with
  | none => s
  | some i =>
    let r := s.responderAt i
    let n := Config.spdmBody i r.out.length
    if a.ok r.phase && ok then
      s.putResponder i { phase := a.next r.phase, out := (a.code, body.getD n) :: r.out }
    else s.putResponder i { r with out := (spdmError, n) :: r.out }

/-- A request that leaves the connection as it is. -/
def Ask.open (code : Nat) : Ask := { ok := Spdm.open, next := id, code := code }

def execGetVersion (f : Func) (s : State) : Out :=
  .next (s.respond f { ok := fun _ => true, next := fun _ => .version, code := 0x04 } true none)
def execGetCapabilities (f : Func) (s : State) : Out :=
  .next (s.respond f { ok := (· == .version), next := fun _ => .capabilities, code := 0x61 } true none)
/-- SM2 P256, SM3-256, SM2 P256 and SM4-GCM are the only algorithms; bit 0 of an offer stands for each. -/
def execNegotiateAlgorithms (f : Func) (asym hash dhe aead : BitVec 8) (s : State) : Out :=
  .next (s.respond f { ok := (· == .capabilities), next := fun _ => .negotiated, code := 0x63 }
    (asym.getLsbD 0 && hash.getLsbD 0 && dhe.getLsbD 0 && aead.getLsbD 0) none)
def execGetDigests (f : Func) (s : State) : Out := .next (s.respond f (Ask.open 0x01) true none)
/-- The certificate chain is held in slot 0. -/
def execGetCertificate (f : Func) (slot : Nat) (s : State) : Out := .next (s.respond f (Ask.open 0x02) (slot == 0) none)
def execChallenge (f : Func) (slot : Nat) (s : State) : Out := .next (s.respond f (Ask.open 0x03) (slot == 0) none)

/-- Measurement 5: COLS, BALL, LINK and TDS. -/
def Partition.measured (x : Partition) : BitVec 256 :=
  BitVec.ofNat 256 (x.cols.toNat + x.ball.toNat * 2 ^ 64 + (if x.link then 2 ^ 128 else 0) + x.tds.toNat * 2 ^ 129)
/-- What the spec gives of a measurement block. -/
def State.measurement (s : State) (f : Func) (index : Nat) : Option (BitVec 256) :=
  match f, index with
  | _, 4 => some (Config.fusedVersion.setWidth 256)
  | .vf p, 5 => some (s.part p).measured
  | _, n => if 1 ≤ n ∧ n ≤ 3 then some (Config.measured n) else none
/-- The measurement blocks that a responder has. -/
def hasBlock (f : Func) (index : Nat) : Bool :=
  decide (1 ≤ index) && (decide (index ≤ 4) || (index == 5 && (match f with
    | .vf _ => true
    | _ => false)))
def execGetMeasurements (f : Func) (index : Nat) (s : State) : Out :=
  .next (s.respond f (Ask.open 0x60) (hasBlock f index) (s.measurement f index))
def execKeyExchange (f : Func) (s : State) : Out :=
  .next (s.respond f { ok := (· == .negotiated), next := fun _ => .handshake, code := 0x64 } true none)
def execFinish (f : Func) (s : State) : Out :=
  .next (s.respond f { ok := (· == .handshake), next := fun _ => .session, code := 0x65 } true none)
def execEndSession (f : Func) (s : State) : Out :=
  .next (s.respond f { ok := (· == .session), next := fun _ => .negotiated, code := 0x6C } true none)
def execKeyUpdate (f : Func) (s : State) : Out :=
  .next (s.respond f { ok := (· == .session), next := id, code := 0x69 } true none)

/-! ### Alabin Link (R354) -/

def alabinPorts : Nat := 18
def State.streamAt (s : State) (port i : Nat) : Stream := SMap.get Stream.fresh s.streams (i * alabinPorts + port)
def State.putStream (s : State) (port i : Nat) (x : Stream) : State :=
  { s with streams := SMap.put s.streams (i * alabinPorts + port) x }

/-- A group whose tag holds is taken; three failures in a row close the stream. -/
def execAlabinFlitGroup (port stream : Nat) (ok : Bool) (s : State) : Out :=
  let x := s.streamAt port stream
  if alabinPorts ≤ port ∨ x.closed then .next s
  else if ok then .next (s.putStream port stream { x with fails := 0, groups := x.groups + 1 })
  else .next (s.putStream port stream { x with fails := x.fails + 1, closed := decide (3 ≤ x.fails + 1) })
def execAlabinStreamRekey (port stream : Nat) (s : State) : Out :=
  if alabinPorts ≤ port then .next s
  else .next (s.putStream port stream { s.streamAt port stream with fails := 0, closed := false })

/-! ### Bring-up (R335, R354, R355) -/

/-- The segments as their monitors have trimmed them before the control space leaves reset. -/
def trimmedSegs : SMap Segment := (List.range 1024).map fun g => (g, { Segment.fresh with vmv := Config.trimmed g })

/-- R354, R355: package reset: host memory stays, the firmware is checked, every sensor is sampled once. -/
def execReset (sigOk : Bool) (version : Word) (rs : List Reading) (s : State) : Out :=
  let t : State := { State.reset with
    agenda := s.agenda, steps := s.steps
    mem := s.mem.window hostBase (ballBase - hostBase)
    service := sigOk && decide (Config.fusedVersion.toNat ≤ version.toNat)
    segs := trimmedSegs }
  .next (t.sample rs)

def execStackTrained (h : Nat) (s : State) : Out := .next (s.putStack h { s.stack h with trained := true })

/-- SYS.SVC.STK is 0xFF and SYS.COLRDY is all ones. -/
def State.fullAllowed (s : State) : Bool :=
  ((List.range 8).all fun h => (s.stack h).trained) && (List.range 64).all s.colReady
def State.allDormant (s : State) : Bool :=
  s.cores.all fun e => (List.range 8).all fun k => (e.2.strands[k % 9]'(Nat.mod_lt _ (by decide))).st == .dormant
/-- R355: the switch that FULL asks for, once every slot is DORMANT; the lease of a cap is given in ms, so the clks that it
has left are twice as many from here on (R6, R343). -/
def State.switchFull (s : State) : State :=
  if s.pkg.fullPend && s.allDormant then
    { s with pkg := { s.pkg with full := true, fullPend := false, rcapExpiry := s.pkg.rcapExpiry.map fun t => s.clk + 2 * (t - s.clk) } }
  else s

def execSvcFull (s : State) : Out :=
  if s.pkg.full ∨ !(s.pkg.fullPend || s.fullAllowed) then .next s
  else .next ({ s with pkg := { s.pkg with fullPend := true } } : State).switchFull

/-! ### Bit errors that appear, and the patrol scrubber (R365-R368) -/

/-- R366: the scrubber reads row `row` of stack `h`. -/
def execPatrolScrub (h row : Nat) (s : State) : Out :=
  let key := h % 8 * 2 ^ 37 + row % 2 ^ 31 * 64
  s.onArea [(key, 64)] fun s => match s.flaws.find? fun f => f.1 == key with
    | some f => .next (s.findFlaw key f.2 none)
    | none => .next s

/-- R365, R366: a bit error appears in the 64-byte row at a key of HBM or SRAM, to be found by a read. -/
def State.bitError (s : State) (key : Nat) (double : Bool) : State :=
  let key := key / 64 * 64
  let old := s.flaws.any fun f => f.1 == key && f.2
  if s.poison.contains key ∨ (hostBase ≤ key ∧ key < ballBase) then s
  else { s with flaws := (key, double || old) :: s.flaws.filter fun f => f.1 != key }

end Sys2Proof.Machine
end

