-- ==== Sys2Proof/Machine/MatrixEngine.lean ====
section
/-! DEFINITION. The matrix engine: operand images, extents, conversion, products, drains, nests (R193-R213). -/
namespace Sys2Proof.Machine

/-! ### Rows of elements (R84, R86, R193, R194) -/

/-- `n` values of `w` bits from the least significant. -/
def unpackN (w n v : Nat) : List Nat := (List.range n).map fun j => v / 2 ^ (w * j) % 2 ^ w
def packN (w : Nat) : List Nat → Nat
  | [] => 0
  | c :: l => c % 2 ^ w + 2 ^ w * packN w l

/-- Dec of R101 for the first `n` elements of a row: its codes, its scale entries, the factor q. -/
def decRow (f : Fmt) (fmt n els ents : Nat) (q : Option Ext) : List Ext :=
  (List.range n).map fun j =>
    let c := els / 2 ^ (fmtWidth fmt * j) % 2 ^ fmtWidth fmt
    let x := if f.scaled fmt then decodeScaled fmt f.sv (ents / 2 ^ (16 * (j / f.bk)) % 65536) c else decodeCode fmt c
    match q with
    | some v => x.mul v
    | none => x

/-- A tile row of 512 bytes: codes from byte 0, scale entries from byte 256 (R193). -/
def packRow (w : Nat) (codes entries : List Nat) : Nat := packN w codes + 2 ^ 2048 * packN 16 entries
def rowEntries (row : Nat) : Nat := row / 2 ^ 2048

def rowKey (c t r : Nat) : Nat := tileKey c t + 512 * r
def State.tileRow (s : State) (t r : Nat) : Nat := s.readNat (rowKey s.core t r) 512
/-- R198: rows 0 to `n` - 1 of a tile hold no uncorrectable error. All 512 bytes of each row within the row extent count as read, columns
beyond their extent, unused bytes and the scale area too: R198 does not say which bytes of a tile operand are read (log entry 83, DESIGN
CHOICE). -/
def State.tileClean (s : State) (t n : Nat) : Bool := !s.poisoned (tileKey s.core t) (512 * n)
/-- A tile written in full; rows not given hold zeros. -/
def State.putTile (s : State) (t : Nat) (rows : List Nat) : State :=
  (s.clear (tileKey s.core t) 0x10000).store (tileKey s.core t) ((rows.take 128).flatMap (leBytes 512))

/-- R194: element bytes and scale bytes of an image row. -/
def imgRb (fmt : Nat) : Nat := 16 * fmtWidth fmt
def imgSb (f : Fmt) (fmt : Nat) : Nat := if f.scaled fmt then 256 / f.bk else 0
def imgPitch (f : Fmt) (fmt : Nat) : Nat := imgRb fmt + imgSb f fmt

/-! ### Accesses of the ME and VE (R44, R195, R228) -/

/-- R65: an access of the partner window waits for the accesses of the core that have issued to it before. -/
def State.behindPartner (s : State) (va n : Nat) : Bool := decide (0x200000 < va + n) && s.own.windowBusy

/-- `n` bytes at an untranslated local address, as a number. -/
def State.localRead (s : State) (va n : Nat) : Except Fail Nat :=
  if n = 0 then .ok 0
  else if 0x400000 < va + n then .error (Fail.at' Code.range va)
  else if s.behindPartner va n then .error Fail.behind
  else match s.peek s.core va n with
    | .bytes bs => .ok (leNat bs)
    | .cause x => .error (Fail.at' x va)
    | .wait => .error Fail.behind
    | .violation => .error (Fail.at' Code.range va)
/-- An access of a repetition to an untranslated local address: its bytes, whether it writes, its alignment, and whether it must lie in
the own scratchpad. -/
structure Span where
  va : Nat
  n : Nat
  write : Bool
  al : Nat
  own : Bool
deriving DecidableEq, Repr
def Span.of (write : Bool) (va n : Nat) : Span := { va := va, n := n, write := write, al := 1, own := false }
/-- The range or partner window cause of a span. -/
def State.spanCause (s : State) (x : Span) : Option (BitVec 8) :=
  if x.n = 0 then none
  else if (if x.own then 0x100000 else 0x400000) < x.va + x.n then some Code.range
  else match s.reach s.core x.va x.n x.write false with
    | .at _ => none
    | .cause e => some e
    | _ => some Code.range
/-- R374: of the accesses of a repetition the address ranges go before the partner window, this before alignments, and these before what
their places raise. -/
def State.spansOk (s : State) (l : List Span) : Except Fail Unit :=
  match l.find? fun x => s.spanCause x == some Code.range with
  | some x => .error (Fail.at' Code.range x.va)
  | none => match l.find? fun x => (s.spanCause x).isSome with
    | some x => .error (Fail.at' ((s.spanCause x).getD Code.range) x.va)
    | none => match l.find? fun x => x.va % x.al != 0 with
      | some x => .error (Fail.at' Code.align x.va)
      | none => .ok ()
/-- The key of `n` bytes that a store at an untranslated local address reaches. -/
def State.localSpot (s : State) (va n : Nat) : Except Fail Nat :=
  if 0x400000 < va + n then .error (Fail.at' Code.range va)
  else if s.behindPartner va n then .error Fail.behind
  else match s.reach s.core va n true false with
    | .at [(k, m)] => if s.own.pathBusy s.core [(k, m)] then .error Fail.behind else .ok k
    | .cause x => .error (Fail.at' x va)
    | _ => .error (Fail.at' Code.range va)
/-- Writes to keys, in order. -/
def State.storeAll (s : State) : List (Nat × List Byte) → State
  | [] => s
  | (k, bs) :: rest => State.storeAll (s.engWrite 0 k bs) rest

/-! ### Conversion of one row (R88, R95, R96, R203, R209, R236) -/

/-- Codes and scale entries made so far, the generator and the largest magnitude. -/
structure Conv where
  codes : List Nat
  entries : List Nat
  seed : Word
  amax : Word
deriving DecidableEq, Repr

/-- One block of valid source elements. -/
def convBlock (f : Fmt) (of : Nat) (q : Option Ext) (v : Conv) (x : List Ext) : Conv :=
  let x := if f.hd = 1 then (hadamard x f.bk).take x.length
    else if f.hd = 2 then x.map fun y => y.scale (-(f.bk.log2 : Int)) else x
  let a := if f.amx then x.foldl amaxUpdate v.amax else v.amax
  let x := match q with
    | some k => x.map fun y => y.mul k
    | none => x
  if x.isEmpty then { v with entries := v.entries ++ [0x8000] }
  else if f.scaled of then
    let r := encodeBlock x of f.sv f.mode f.sat v.seed
    { codes := v.codes ++ r.codes, entries := v.entries ++ [r.entry], seed := r.seed, amax := a }
  else
    let r := roundList of f.mode f.sat v.seed x
    { codes := v.codes ++ r.1, entries := v.entries ++ [0x8000], seed := r.2, amax := a }

/-- The valid elements of a row of `n` blocks. -/
def convRow (f : Fmt) (of : Nat) (q : Option Ext) : Nat → Conv → List Ext → Conv
  | 0, v, _ => v
  | n + 1, v, x => convRow f of q n (convBlock f of q v (x.take f.bk)) (x.drop f.bk)

/-- The tile rows of converted source rows, the generator and the largest magnitude after them. -/
def convTile (f : Fmt) (q : Option Ext) (seed amax : Word) : List (List Ext) → List Nat × Word × Word
  | [] => ([], seed, amax)
  | x :: l =>
    let r := convRow f f.of q (128 / f.bk) { codes := [], entries := [], seed := seed, amax := amax } x
    let t := convTile f q r.seed r.amax l
    (packRow (fmtWidth f.of) r.codes (if f.scaled f.of then r.entries else []) :: t.1, t.2)

/-- A destination row with no valid element (R196). -/
def blankRow (f : Fmt) (fmt : Nat) : Nat :=
  if f.scaled fmt then packRow 8 [] (List.replicate (128 / f.bk) 0x8000) else 0
/-- R203, AF = OF: the codes of the valid columns and the scale entries of their blocks. -/
def copyRow (f : Fmt) (n els ents : Nat) : Nat :=
  let w := fmtWidth f.af
  let b := (n + (f.bk - 1)) / f.bk
  packRow w (unpackN w n els)
    (if f.scaled f.af then unpackN 16 b ents ++ List.replicate (128 / f.bk - b) 0x8000 else [])

/-- R95, R239: the largest magnitude that a conversion has seen updates its register. -/
def State.putAmax (s : State) (f : Fmt) (v : Word) : State :=
  let i := f.amxIx % 4
  let at_ (l : Vector Word 4) : Word := l[i]'(Nat.mod_lt _ (by decide))
  let up (l : Vector Word 4) : Vector Word 4 := l.set i (amaxMax (at_ l) v) (Nat.mod_lt _ (by decide))
  if f.amx then s.upd fun x => { x with ve := { x.ve with amax := up x.ve.amax }, amaxClk := up x.amaxClk } else s
def State.putSeedM (s : State) (v : Word) : State := s.updCore s.core fun y => { y with seedM := v }

/-! ### Extents and pointers (R195, R196) -/

inductive Dim where
  | m | n | k
deriving DecidableEq, Repr

/-- The three extents of a command. -/
structure Ext3 where
  m : Nat
  n : Nat
  k : Nat
deriving DecidableEq, Repr

/-- Clip(EXT - org, 0, 128). -/
def extOf (ext org : Nat) : Nat := min (ext - org) 128
def Ext3.ofTable (t : BitVec 1536) (om on ok : Nat) : Ext3 :=
  { m := extOf (Nest.extM t) om, n := extOf (Nest.extN t) on, k := extOf (Nest.extK t) ok }

/-- The operands of one command: pointers, extents, format word. -/
structure Cmd3 where
  a : Nat
  b : Nat
  c : Nat
  i : Nat
  ext : Ext3
  f : Fmt
deriving DecidableEq, Repr

/-- Pointer `y`, numbered A, B, C, I. -/
def Cmd3.ptr (o : Cmd3) (y : Nat) : Nat := if y = 0 then o.a else if y = 1 then o.b else if y = 2 then o.c else o.i
/-- R196: rows and columns of an image at pointer `y`. -/
def Cmd3.shape (o : Cmd3) (y : Nat) : Nat × Nat :=
  if y = 1 then (o.ext.n, o.ext.k) else if y = 2 then (o.ext.m, o.ext.n) else (o.ext.m, o.ext.k)

/-- The operands of a stream word: origin 0 in every dimension. -/
def State.cmd3 (s : State) (u : Cursor) : Cmd3 :=
  let r := s.self.nest
  { a := r.ptrA.toNat, b := r.ptrB.toNat, c := r.ptrC.toNat, i := r.ptrI.toNat
    ext := Ext3.ofTable r.active 0 0 0, f := Fmt.unpack u.fmt }

/-- R201: the access to a factor at an address of pointer I, where the scale mode has one. -/
def Fmt.factorAt (f : Fmt) (a : Nat) : List Span := if f.factor then [{ va := a, n := 4, write := false, al := 4, own := true }] else []
/-- R201: q of an operand, the FP32 word at an address of pointer I, where the scale mode has one. -/
def State.factor (s : State) (f : Fmt) (a : Nat) : Except Fail (Option Ext) := do
  s.spansOk (f.factorAt a)
  if f.factor then
    let v ← s.localRead a 4
    .ok (some (decodeCode 0 v))
  else .ok none

/-- R128: 64 × STEP added to a pointer; MLOADG adds 512 to I as well. -/
def State.stepPtr (s : State) (w : EWord) (y : Nat) (gather : Bool) : State :=
  let d : Word := w.step.signExtend 32 * 64
  s.upd fun x =>
    let r := x.nest
    let r := if y = 0 then { r with ptrA := r.ptrA + d } else if y = 1 then { r with ptrB := r.ptrB + d }
      else if y = 2 then { r with ptrC := r.ptrC + d } else { r with ptrI := r.ptrI + d }
    { x with nest := if gather then { r with ptrI := r.ptrI + 512 } else r }

/-! ### Staged effects -/

/-- What a command has computed: its writes to tiles and memory, its generator and largest-magnitude register. -/
structure Staged where
  /-- A tile written in full; rows not given hold zeros. -/
  tile : Option (Nat × List Nat)
  writes : List (Nat × List Byte)
  seed : Option Word
  amax : Option Word
  clks : Nat

def Staged.none' (clks : Nat) : Staged := { tile := none, writes := [], seed := none, amax := none, clks := clks }

/-- R198: the writes of a repetition, together. -/
def State.commit (s : State) (f : Fmt) (g : Staged) : State :=
  let s := match g.tile with
    | some (t, rows) => s.putTile t rows
    | none => s
  let s := s.storeAll g.writes
  let s := match g.seed with
    | some v => s.putSeedM v
    | none => s
  match g.amax with
  | some v => s.putAmax f v
  | none => s

/-- R199: how a command uses tiles. -/
structure Uses where
  reads : List Nat
  writes : List Nat
  acc : Bool
deriving DecidableEq, Repr

/-- R29, R198, R199: one repetition of a command that uses tiles: its waits at their first use, its commit, the bits it
sets full with the last write, the partial marks it clears. -/
def State.tileRep (s : State) (u : Cursor) (f : Fmt) (t : Uses) (last : Nat → Bool) (work : Except Fail Staged)
    (after : State → State) : Rep :=
  match s.own.tileWait s.slot u t.reads t.writes t.acc with
  | some n => .block n
  | none => match work with
    | .error e => .fail (if e.code = Code.poison then { e with part := t.writes.head?.map fun n => BitVec.ofNat 4 n } else e)
    | .ok g =>
      let wr := tilesOf t.writes
      let s := (after (s.commit f g)).updCore s.core fun y => { y with part := y.part &&& ~~~wr }
      let fill := if t.acc then 0 else tilesOf (t.writes.filter last)
      let s := if fill = 0 then s else s.updCore s.core fun y => y.putFull (strandNumber s.core s.slot.val) fill true
      .commit s { u with reads := u.reads ||| tilesOf t.reads, writes := u.writes ||| wr, acc := t.acc } g.clks

/-- The last repetition of a word. -/
def Cursor.lastRep (u : Cursor) (_ : Nat) : Bool := u.rep + 1 == u.total

/-! ### Loads (R203, R204) -/

/-- The rows of an image: codes and scale entries of each. -/
def State.imageRows (s : State) (f : Fmt) (n : Nat) (addr : Nat → Nat) : Except Fail (List (Nat × Nat)) :=
  (List.range n).mapM fun r => do
    let v ← s.localRead (addr r) (imgPitch f f.af)
    .ok (v % 2 ^ (8 * imgRb f.af), v / 2 ^ (8 * imgRb f.af))

/-- R203: the tile made of source rows with `n` valid columns. -/
def State.loaded (s : State) (o : Cmd3) (t n : Nat) (rows : List (Nat × Nat)) (q : Option Ext) : Staged :=
  let f := o.f
  let pad (l : List Nat) : List Nat := l ++ List.replicate (128 - l.length) (blankRow f f.of)
  if f.af = f.of then { Staged.none' 128 with tile := some (t, pad (rows.map fun r => copyRow f n r.1 r.2)) }
  else
    let r := convTile f q s.own.seedM 0 (rows.map fun r => decRow f f.af n r.1 r.2 none)
    { tile := some (t, pad r.1), writes := [], seed := some r.2.1, amax := some r.2.2, clks := 128 }

/-- The rows of an image that a load reads. -/
def imageSpans (f : Fmt) (rows : Nat) (addr : Nat → Nat) : List Span := (List.range rows).map fun r => Span.of false (addr r) (imgPitch f f.af)
/-- R203: MLOAD of an image whose row `r` lies at `addr r`. -/
def State.loadWork (s : State) (o : Cmd3) (t rows cols : Nat) (addr : Nat → Nat) : Except Fail Staged := do
  s.spansOk (o.f.factorAt o.i ++ imageSpans o.f rows addr)
  let q ← s.factor o.f o.i
  let l ← s.imageRows o.f rows addr
  .ok (s.loaded o t cols l q)

/-- R204: the addresses of gathered rows, by the index vector at pointer I. -/
def State.gatherWork (s : State) (o : Cmd3) (t rows cols p : Nat) : Except Fail Staged := do
  s.spansOk ((List.range rows).map fun r => Span.of false (o.i + 4 * r) 4)
  let ix ← (List.range rows).mapM fun r => s.localRead (o.i + 4 * r) 4
  let addr (r : Nat) : Nat := p + imgPitch o.f o.f.af * ix.getD r 0
  s.spansOk (imageSpans o.f rows addr)
  let l ← s.imageRows o.f rows addr
  .ok (s.loaded o t cols l none)

/-! ### Stores (R205) -/

/-- The bytes of the first `n` codes of a row, the last of which may share its byte with what stands there. -/
def elementBytes (w n els : Nat) (old : Byte) : List Byte :=
  let bits := w * n
  let v := els % 2 ^ bits
  let k := (bits + 7) / 8
  leBytes k (if bits % 8 = 0 then v else v + old.toNat / 16 * 16 * 2 ^ (8 * (k - 1)))

/-- R205: the spans that the rows of a store reach: elements, and the entries of the blocks that hold valid ones. -/
def storeSpans (f : Fmt) (rows cols p : Nat) : List Span :=
  (List.range rows).flatMap fun r =>
    let a := p + imgPitch f f.af * r
    [Span.of true a ((fmtWidth f.af * cols + 7) / 8),
     Span.of true (a + imgRb f.af) (if f.scaled f.af then 2 * ((cols + (f.bk - 1)) / f.bk) else 0)]
/-- R205. -/
def State.storeWork (s : State) (f : Fmt) (t rows cols p : Nat) : Except Fail Staged := do
  s.spansOk (storeSpans f rows cols p)
  if !s.tileClean t rows then .error (Fail.at' Code.poison p) else
  let w := fmtWidth f.af
  let parts ← (List.range rows).mapM fun r => do
    let a := p + imgPitch f f.af * r
    let row := s.tileRow t r
    let n := (w * cols + 7) / 8
    let e ← if n = 0 then .ok [] else do
      let k ← s.localSpot a n
      .ok [(k, elementBytes w cols row ((s.read (k + (n - 1)) 1).headD 0))]
    let m := 2 * ((cols + (f.bk - 1)) / f.bk)
    let g ← if !f.scaled f.af || m == 0 then .ok [] else do
      let k ← s.localSpot (a + imgRb f.af) m
      .ok [(k, leBytes m (rowEntries row))]
    .ok (e ++ g)
  .ok { Staged.none' 128 with writes := parts.flatten }

/-! ### Products (R98-R100, R206-R208) -/

/-- R206: the clocks of a product under a format. -/
def macClks (fmt : Nat) : Nat :=
  if fmt = 0 then 1024 else if fmt ≤ 2 then 256 else if fmt = 5 ∨ fmt = 7 then 64 else 128

/-- R99: both operands integer and no scales: a 32-bit integer accumulator. -/
def Fmt.integer (f : Fmt) : Bool := decide (6 ≤ f.af) && decide (6 ≤ f.bf) && f.sc == 0

/-- The products of two rows over the K extent. -/
def products (a b : List Ext) : List Ext := (a.zip b).map fun p => p.1.mul p.2
/-- R98: groups of 32 products, each sum rounded once. -/
def sumGroups : Nat → List Ext → Word → Word
  | 0, _, c => c
  | n + 1, p, c =>
    if p.isEmpty then c
    else sumGroups n (p.drop 32) (toF32 (Ext.sum [ofF32 c, ofF32 (toF32 (Ext.sum (p.take 32)))]))
/-- One accumulator element of MMAC. -/
def macElem (int : Bool) (p : List Ext) (c : Word) : Word :=
  if int then c + BitVec.ofInt 32 ((p.map (Ext.units 0)).foldl (· + ·) 0) else sumGroups 4 p c
/-- One accumulator element of MMACS. -/
def macsElem (int : Bool) (p : List Ext) (c : Word) : Word :=
  if int then c + BitVec.ofInt 32 ((p.map (Ext.units 0)).foldl (· + ·) 0) else toF32 (Ext.sum (ofF32 c :: p))

/-- The rows of an accumulator tile after a product: the elements within M × N change. -/
def State.macWrites (s : State) (tc : Nat) (ext : Ext3) (a b : List (List Ext)) (elem : List Ext → Word → Word) :
    List (Nat × List Byte) :=
  (List.range ext.m).map fun i =>
    let row := s.tileRow tc i
    (rowKey s.core tc i, (List.range ext.n).flatMap fun j =>
      leBytes 4 (elem (products (a.getD i []) (b.getD j [])) (BitVec.ofNat 32 (row / 2 ^ (32 * j)))).toNat)

/-- Decoded rows of a tile operand. -/
def State.tileRows (s : State) (f : Fmt) (fmt t rows cols : Nat) (q : Option Ext) : List (List Ext) :=
  (List.range rows).map fun r => let v := s.tileRow t r; decRow f fmt cols v (rowEntries v) q

/-- R206: C += A · B. -/
def State.macWork (s : State) (o : Cmd3) (tc ta tb : Nat) : Except Fail Staged := do
  s.spansOk (o.f.factorAt o.i ++ o.f.factorAt (o.i + 4))
  let qa ← s.factor o.f o.i
  let qb ← s.factor o.f (o.i + 4)
  if !(s.tileClean ta o.ext.m && s.tileClean tb o.ext.n && s.tileClean tc o.ext.m) then .error (Fail.of Code.poison) else
  let a := s.tileRows o.f o.f.af ta o.ext.m o.ext.k qa
  let b := s.tileRows o.f o.f.bf tb o.ext.n o.ext.k qb
  .ok { Staged.none' (max (macClks o.f.af) (macClks o.f.bf)) with
        writes := s.macWrites tc o.ext a b (macElem o.f.integer) }

/-- R207: a directory record, with its pattern read. -/
structure Direct where
  thi : Nat
  thd : Nat
  den : Nat
  nnz : Nat
  vals : Nat
  cols : List Nat
  ptrs : List Nat
deriving DecidableEq, Repr

def Direct.strict : List Nat → Bool
  | a :: b :: l => decide (a < b) && Direct.strict (b :: l)
  | _ => true
def Direct.rising : List Nat → Bool
  | a :: b :: l => decide (a ≤ b) && Direct.rising (b :: l)
  | _ => true
/-- Columns of row `r`. -/
def Direct.row (d : Direct) (r : Nat) : List Nat :=
  (d.cols.drop (d.ptrs.getD r 0)).take (d.ptrs.getD (r + 1) 0 - d.ptrs.getD r 0)

/-- R207: a directory record as it stands, and its row-pointer array with the fingerprint. -/
structure DirRec where
  at_ : Nat
  v : Nat
  rp : Nat
deriving DecidableEq, Repr

/-- R207: the access to a record. -/
def dirAt (p : Nat) : Span := { Span.of false p 64 with al := 64 }
/-- R207: the accesses that a record names: its row pointers with the fingerprint, its columns and its values under a format. -/
def dirSpans (fmt v : Nat) : List Span :=
  let nnz := v / 2 ^ 368 % 2 ^ 16
  { Span.of false (v / 2 ^ 256 % 2 ^ 32) 266 with al := 8 } ::
    (if 16384 < nnz then [] else [Span.of false (v / 2 ^ 288 % 2 ^ 32) nnz, Span.of false (v / 2 ^ 320 % 2 ^ 32) ((fmtWidth fmt * nnz + 7) / 8)])
/-- R374: what one operand comes to, before what the other meets: a wait, or this cause. -/
def Fail.first (code : BitVec 8) {α : Type} (r : Except Fail α) : Except Fail Unit :=
  match r with
  | .error e => if e.wait || e.code == code then .error e else .ok ()
  | .ok _ => .ok ()
/-- R207, R208: the record `v` at a pointer, its fingerprint checked. -/
def State.dirRecord (s : State) (p v : Nat) : Except Fail DirRec := do
  let rp ← s.localRead (v / 2 ^ 256 % 2 ^ 32) 266
  if v / 2 ^ 448 % 2 ^ 64 ≠ rp % 2 ^ 64 then .error (Fail.at' Code.schedule p) else
  .ok { at_ := p, v := v, rp := rp }

/-- R208: the pattern of a record, checked. An NNZ above 16,384, which R207's range shuts out and R208's list does not name, is a
sparse-tile fault too (log entry 69, DESIGN CHOICE). -/
def State.directory (s : State) (r : DirRec) : Except Fail Direct := do
  let p := r.at_
  let fld (lo w : Nat) : Nat := r.v / 2 ^ lo % 2 ^ w
  let ptrs := unpackN 16 129 (r.rp / 2 ^ 64)
  let nnz := fld 368 16
  if fld 416 32 ≠ 0 ∨ fld 0 256 ≠ 0 ∨ ptrs.headD 1 ≠ 0 ∨ !Direct.rising ptrs ∨ ptrs.getD 128 0 ≠ nnz ∨ 16384 < nnz
  then .error (Fail.at' Code.sparse p) else
  let ci ← s.localRead (fld 288 32) nnz
  let d : Direct := { thi := if fld 400 16 = 0 then 0x100 else fld 400 16, thd := if fld 384 16 = 0 then 0x4000 else fld 384 16,
                      den := fld 352 16, nnz := nnz, vals := fld 320 32, cols := unpackN 8 nnz ci, ptrs := ptrs }
  if (List.range 128).all fun r => Direct.strict (d.row r) then .ok d else .error (Fail.at' Code.sparse p)

/-- R208: the rows of a sparse operand; elements not listed are zero. -/
def State.sparseRows (s : State) (f : Fmt) (fmt : Nat) (d : Direct) (rows cols : Nat) (q : Option Ext) :
    Except Fail (List (List Ext)) := do
  let v ← s.localRead d.vals ((fmtWidth fmt * d.nnz + 7) / 8)
  .ok ((List.range rows).map fun r =>
    let l := (d.row r).zipIdx (d.ptrs.getD r 0)
    (List.range cols).map fun k => match l.find? fun (e : Nat × Nat) => e.1 == k with
      | some e => (decRow f fmt 1 (v / 2 ^ (fmtWidth fmt * e.2) % 2 ^ fmtWidth fmt) 0 q).headD Ext.zero
      | none => Ext.zero)

/-- R206, R208: the clocks of the dataflow that the densities choose. -/
def sparseClks (f : Fmt) (a b : Direct) (ext : Ext3) : Nat :=
  let full := max (macClks f.af) (macClks f.bf)
  if a.thd ≤ a.den ∧ a.thd ≤ b.den then full
  else
    let p := ((List.range ext.m).map fun i => ((List.range ext.n).map fun j =>
      ((a.row i).filter fun k => decide (k < ext.k) && (b.row j).contains k).length).sum).sum
    (p * full + (2097152 - 1)) / 2097152 + 64

/-- R208, R374: the addresses of the records, of the factors and of what the records name go before both fingerprints, these before
either pattern, and a pattern before poison. -/
def State.macsWork (s : State) (o : Cmd3) (tc pa pb : Nat) : Except Fail Staged := do
  s.spansOk (dirAt pa :: dirAt pb :: (o.f.factorAt o.i ++ o.f.factorAt (o.i + 4)))
  let va := s.localRead pa 64
  let vb := s.localRead pb 64
  Fail.first Code.range va
  Fail.first Code.range vb
  s.spansOk ((va.map (dirSpans o.f.af)).toOption.getD [] ++ (vb.map (dirSpans o.f.bf)).toOption.getD [])
  let ra := va.bind (s.dirRecord pa)
  let rb := vb.bind (s.dirRecord pb)
  Fail.first Code.schedule ra
  Fail.first Code.schedule rb
  let da := ra.bind s.directory
  let db := rb.bind s.directory
  Fail.first Code.sparse da
  Fail.first Code.sparse db
  let da ← da
  let db ← db
  let qa ← s.factor o.f o.i
  let qb ← s.factor o.f (o.i + 4)
  let a ← s.sparseRows o.f o.f.af da o.ext.m o.ext.k qa
  let b ← s.sparseRows o.f o.f.bf db o.ext.n o.ext.k qb
  if !s.tileClean tc o.ext.m then .error (Fail.of Code.poison) else
  .ok { Staged.none' (sparseClks o.f da db o.ext) with writes := s.macWrites tc o.ext a b (macsElem o.f.integer) }

/-! ### Drains, rotation, transposition (R202, R209, R210) -/

/-- R209. -/
def State.drainWork (s : State) (o : Cmd3) (tx ty : Nat) : Except Fail Staged := do
  let q ← s.factor o.f o.i
  if !s.tileClean tx o.ext.m then .error (Fail.of Code.poison) else
  let rows := (List.range o.ext.m).map fun r => (unpackN 32 o.ext.n (s.tileRow tx r)).map fun c =>
    if o.f.af = 6 then Ext.ofUnits 0 (BitVec.ofNat 32 c).toInt else decodeCode 0 c
  let r := convTile o.f q s.own.seedM 0 rows
  let pad := r.1 ++ List.replicate (128 - r.1.length) (blankRow o.f o.f.of)
  .ok { tile := some (ty, pad), writes := [], seed := some r.2.1, amax := some r.2.2, clks := 128 }

/-- R210: one row of MHAD, by blocks of `m` columns. -/
def hadRow (m : Nat) (x : List Ext) : List Word :=
  (List.range (128 / m)).flatMap fun b => (hadamard ((x.drop (m * b)).take m) m).map toF32
/-- R210: every column of a block is computed, those beyond the extent of K too, which are fed as zeros (log entry 56,
DEDUCED). -/
def State.hadWork (s : State) (o : Cmd3) (tx ty m : Nat) : Except Fail Staged := do
  let q ← s.factor o.f o.i
  if !s.tileClean ty o.ext.m then .error (Fail.of Code.poison) else
  let rows := (s.tileRows o.f o.f.af ty o.ext.m o.ext.k q).map (hadRow m)
  let amax := rows.foldl (fun v l => l.foldl (fun a w => amaxUpdate a (ofF32 w)) v) 0
  .ok { tile := some (tx, rows.map fun l => packN 32 (l.map BitVec.toNat)), writes := [], seed := none
        amax := some amax, clks := if m = 128 then 256 else 128 }

/-- R202: the transpose, bit for bit. -/
def State.trnWork (s : State) (f : Fmt) (tx ty : Nat) : Except Fail Staged :=
  let w := fmtWidth f.af
  if !s.tileClean ty 128 then .error (Fail.of Code.poison)
  else
    let src := (List.range 128).map fun r => unpackN w 128 (s.tileRow ty r)
    .ok { Staged.none' 128 with tile := some (tx, (List.range 128).map fun j => packN w (src.map fun r => r.getD j 0)) }

/-! ### Format fields by form (R200) -/

/-- HD ≠ 0b00 needs block scales. -/
def Fmt.hdOk (f : Fmt) : Bool := f.hd == 0 || f.blocks
def Fmt.exact (f : Fmt) : Bool := f.rnd == 0 && !f.sat
def Fmt.noAmx (f : Fmt) : Bool := !f.amx && f.amxIx == 0
def Fmt.loadOk (f : Fmt) : Bool := f.bf == 0 && (f.hd == 0 || f.hd == 1) && (f.af != f.of || f.hd == 0) && f.hdOk
def Fmt.gatherOk (f : Fmt) : Bool := f.loadOk && !f.factor
def Fmt.storeOk (f : Fmt) : Bool :=
  f.bf == 0 && f.of == f.af && !f.factor && f.hd == 0 && f.exact && f.noAmx
def Fmt.macOk (f : Fmt) : Bool := f.of == 0 && f.hd == 0 && f.exact && f.noAmx
def Fmt.macsOk (f : Fmt) : Bool := f.macOk && !f.blocks
def Fmt.drainOk (f : Fmt) : Bool := (f.af == 0 || f.af == 6) && f.bf == 0 && (f.hd == 0 || f.hd == 2) && f.hdOk
def Fmt.hadOk (f : Fmt) : Bool := f.bf == 0 && f.of == 0 && f.hd == 0 && f.exact
def Fmt.trnOk (f : Fmt) : Bool := f.bf == 0 && f.of == f.af && f.sc == 0 && f.hd == 0 && f.exact && !f.sv && f.noAmx

/-! ### The forms -/

/-- A form that takes a format word of a kind. -/
def Form.me (fmt : Option (Fmt → Bool)) (body : State → Cursor → Rep) : Form :=
  { bad := fun _ => none, count := fun _ => none, format := fun _ => fmt, body := body }

def execMzero (w : EWord) (s : State) : Out :=
  s.runWord .me w (Form.me none fun s u =>
    s.tileRep u (Fmt.unpack 0) { reads := [], writes := [w.x.toNat], acc := false } u.lastRep
      (.ok { Staged.none' 128 with tile := some (w.x.toNat, []) }) id)

/-- R203, R228: the rows of port PT6 or PT7 under the entry's snapshot. -/
def State.portSnap (s : State) (e : Eng) (p : Nat) : BitVec 512 :=
  match s.self.head e with
  | some h => h.snap.ports[p % 8]'(Nat.mod_lt _ (by decide))
  | none => 0

def execMload (w : EWord) (s : State) : Out :=
  s.runWord .me w (Form.me (some Fmt.loadOk) fun s u =>
    let o := s.cmd3 u
    let t := w.x.toNat
    let uses : Uses := { reads := [], writes := [t], acc := false }
    if w.z = 0 then
      let y := w.y.toNat
      s.tileRep u o.f uses u.lastRep
        (s.loadWork o t (o.shape y).1 (o.shape y).2 fun r => o.ptr y + imgPitch o.f o.f.af * r)
        fun s => s.stepPtr w y false
    else
      let p := w.z.toNat - 8
      let n := u.rows[p % 8]'(Nat.mod_lt _ (by decide))
      match s.tileRep u o.f uses u.lastRep
        (s.loadWork o t o.ext.m o.ext.k fun r => PortSet.rowAddr (s.portSnap .me p) (n + r)) id with
      | .commit t v k => .commit t { v with rows := v.rows.set (p % 8) (n + 128) (Nat.mod_lt _ (by decide)) } k
      | r => r)

def execMloadg (w : EWord) (s : State) : Out :=
  s.runWord .me w (Form.me (some Fmt.gatherOk) fun s u =>
    let o := s.cmd3 u
    let y := w.y.toNat
    s.tileRep u o.f { reads := [], writes := [w.x.toNat], acc := false } u.lastRep
      (s.gatherWork o w.x.toNat o.ext.m (o.shape y).2 (o.ptr y)) fun s => s.stepPtr w y true)

def execMstore (w : EWord) (s : State) : Out :=
  s.runWord .me w (Form.me (some Fmt.storeOk) fun s u =>
    let o := s.cmd3 u
    let y := w.y.toNat
    s.tileRep u o.f { reads := [w.x.toNat], writes := [], acc := false } u.lastRep
      (s.storeWork o.f w.x.toNat (o.shape y).1 (o.shape y).2 (o.ptr y)) fun s => s.stepPtr w y false)

def execMmac (w : EWord) (s : State) : Out :=
  s.runWord .me w (Form.me (some Fmt.macOk) fun s u =>
    s.tileRep u (s.cmd3 u).f { reads := [w.y.toNat, w.z.toNat], writes := [w.x.toNat], acc := true } u.lastRep
      (s.macWork (s.cmd3 u) w.x.toNat w.y.toNat w.z.toNat) id)

def execMmacs (w : EWord) (s : State) : Out :=
  s.runWord .me w (Form.me (some Fmt.macsOk) fun s u =>
    let o := s.cmd3 u
    s.tileRep u o.f { reads := [], writes := [w.x.toNat], acc := true } u.lastRep
      (s.macsWork o w.x.toNat (o.ptr w.y.toNat) (o.ptr w.z.toNat)) fun s => s.stepPtr w w.y.toNat false)

def execMdrain (w : EWord) (s : State) : Out :=
  s.runWord .me w (Form.me (some Fmt.drainOk) fun s u =>
    s.tileRep u (s.cmd3 u).f { reads := [w.x.toNat], writes := [w.y.toNat], acc := false } u.lastRep
      (s.drainWork (s.cmd3 u) w.x.toNat w.y.toNat) id)

def execMhad (w : EWord) (s : State) : Out :=
  s.runWord .me w (Form.me (some Fmt.hadOk) fun s u =>
    s.tileRep u (s.cmd3 u).f { reads := [w.y.toNat], writes := [w.x.toNat], acc := false } u.lastRep
      (s.hadWork (s.cmd3 u) w.x.toNat w.y.toNat (if w.z = 0 then 16 else if w.z = 1 then 32 else 128)) id)

def execMtrn (w : EWord) (s : State) : Out :=
  s.runWord .me w (Form.me (some Fmt.trnOk) fun s u =>
    s.tileRep u (s.cmd3 u).f { reads := [w.y.toNat], writes := [w.x.toNat], acc := false } u.lastRep
      (s.trnWork (s.cmd3 u).f w.x.toNat w.y.toNat) id)

def execMstop (w : EWord) (s : State) : Out := s.runWord .me w Form.nothing
def execMnop (w : EWord) (s : State) : Out := s.runWord .me w Form.nothing

/-! ### Nests (R211) -/

namespace Nest
/-- Pointer `p` of an index vector. -/
def pointer (t : BitVec 1536) (p : Nat) (ix : List Nat) : Nat :=
  (base t p + (ix.zipIdx.map fun (e : Nat × Nat) => e.1 * stride t e.2 p).sum) % 2 ^ 32
/-- Origin in the dimension of code `d`: the product of the lower counts of the same dimension weighs each level. -/
def origin (t : BitVec 1536) (d : Nat) (ix : List Nat) : Nat :=
  128 * (ix.zipIdx.map fun (e : Nat × Nat) =>
    if dim t e.2 = d then
      e.1 * (((List.range e.2).filter fun l => dim t l == d).map (count t)).foldl (· * ·) 1
    else 0).sum
/-- The tile that a pointer value names. -/
def tileAt (p : Nat) : Option Nat := if 0x100000 ≤ p ∧ p < 0x200000 ∧ p % 0x10000 = 0 then some (p / 0x10000 - 16) else none
/-- The values that pointer `p` takes over the levels from `l` on, added to the values so far. -/
def reachFrom (t : BitVec 1536) (p : Nat) (levels : List Nat) (vs : List Nat) : List Nat :=
  levels.foldl (fun vs l => (vs.flatMap fun v => (List.range (count t l)).map fun i => (v + i * stride t l p) % 2 ^ 32).eraseDups) vs
/-- A later execution than index vector `ix` has pointer `p` at value `v`: some level goes on, the lower levels start
again. -/
def later (t : BitVec 1536) (p v : Nat) (ix : List Nat) : Bool :=
  (List.range ix.length).any fun l =>
    let fixed := pointer t p ((List.replicate (l + 1) 0) ++ ix.drop (l + 1))
    let here := (List.range (count t l - (ix.getD l 0 + 1))).map fun i => (fixed + (ix.getD l 0 + 1 + i) * stride t l p) % 2 ^ 32
    (reachFrom t p (List.range l) here.eraseDups).contains v
end Nest

/-- The codes of DIM (R135): 1 M, 2 N, 3 K. -/
def Nest.ext3 (t : BitVec 1536) (ix : List Nat) : Ext3 :=
  Ext3.ofTable t (Nest.origin t 1 ix) (Nest.origin t 2 ix) (Nest.origin t 3 ix)

/-- R211: one body execution of the active table. -/
def nestBody (s : State) (u : Cursor) : Rep :=
  let t := s.self.nest.active
  let ix := Nest.index t u.rep
  let p (k : Nat) : Nat := Nest.pointer t k ix
  let o : Cmd3 := { a := p 0, b := p 1, c := p 2, i := p 3, ext := Nest.ext3 t ix, f := Fmt.unpack u.fmt }
  let u := { u with idx := Nest.index t (u.rep + 1) }
  let bad : Rep := .fail (Fail.of Code.nestTable)
  let last (_ : Nat) : Bool := !Nest.later t 2 o.c ix
  let put (s : State) : State := s.upd fun x =>
    { x with nest := { x.nest with ptrA := BitVec.ofNat 32 o.a, ptrB := BitVec.ofNat 32 o.b, ptrC := BitVec.ofNat 32 o.c,
                                   ptrI := BitVec.ofNat 32 o.i } }
  match Nest.tileAt o.c with
  | none => bad
  | some tc =>
    let dst : Uses := { reads := [], writes := [tc], acc := false }
    match Nest.body t with
    | 1 => s.tileRep u o.f dst last (s.loadWork o tc o.ext.m o.ext.k fun r => o.a + imgPitch o.f o.f.af * r) put
    | 2 => s.tileRep u o.f dst last (s.gatherWork o tc o.ext.m o.ext.k o.a) put
    | 3 => s.tileRep u o.f { reads := [tc], writes := [], acc := false } last (s.storeWork o.f tc o.ext.m o.ext.n o.a) put
    | 4 => match Nest.tileAt o.a, Nest.tileAt o.b with
      | some ta, some tb =>
        if ta = tc ∨ tb = tc then bad
        else s.tileRep u o.f { reads := [ta, tb], writes := [tc], acc := true } last (s.macWork o tc ta tb) put
      | _, _ => bad
    | 5 => s.tileRep u o.f { dst with acc := true } last (s.macsWork o tc o.a o.b) put
    | _ => bad

/-- The format fields of a body form. -/
def nestFormat : Nat → Fmt → Bool
  | 1 => Fmt.loadOk
  | 2 => Fmt.gatherOk
  | 3 => Fmt.storeOk
  | 4 => Fmt.macOk
  | _ => Fmt.macsOk

/-- The active table as a form; `z` is the body that an MNEST word names. -/
def Form.nest (z : Option Nat) : Form :=
  { bad := fun s => match z with
      | some b => if b = Nest.body s.self.nest.active then none else some Code.nestTable
      | none => none
    count := fun s => some (Nest.executions s.self.nest.active)
    format := fun s => some (nestFormat (Nest.body s.self.nest.active))
    body := nestBody }

def execMnest (w : EWord) (s : State) : Out := s.runWord .me w (Form.nest (some w.z.toNat))

/-- R211: a NEST entry goes on by one body execution; it performs no token operations, and begins none in a clock that is
withheld (R338). -/
def execNestEntryRun (c : Nat) (s : State) : Out :=
  match ((s.coreAt c).eng .me).serving with
  | none => .next s
  | some k =>
    let t := { s with core := c, slot := slotIx k }
    match t.self.curMe with
    | some u => if u.nestEntry ∧ u.held = .no ∧ !t.withheld c then t.runWord .me (EWord.unpack 0) (Form.nest none) else .next s
    | none => .next s

end Sys2Proof.Machine
end

