-- ==== Sys2Proof/Machine/NearMemory.lean ====
section
/-! DEFINITION. Near-memory entries: descriptors, their checks, and what the near-memory unit computes (R54, R55,
R214-R221). -/
namespace Sys2Proof.Machine

/-! ### The tables of an entry at its issue (R61, R215, R220) -/

/-- What an entry's tables come to at its issue. -/
inductive NmAim where
  | go (chunks : List (Nat × Nat)) (stack : Nat)
  | fail (code : BitVec 8) (addr : Nat)
  | violation (addr : Nat)
deriving DecidableEq, Repr

/-- What each page of a table comes to, with the address and the length in it. A page that no TLB holds is walked at once:
the tables of one entry may span more pages than a TLB holds (R215, R325). -/
def State.nmPages (s : State) (c : Nat) (w : Bool) : Nat → Nat → Nat → List (Nat × Nat × Reach)
  | 0, _, _ => []
  | fuel + 1, va, n =>
    if n = 0 then []
    else
      let here := min n (4096 - va % 4096)
      (va, here, s.translate c va w true) :: State.nmPages s c w fuel (va + here) (n - here)
def State.nmTables (s : State) (c : Nat) (k : NmKind) (d : Nat) : List (Nat × Nat × Reach) :=
  (Nm.tables k d).flatMap fun t => s.nmPages c (k == .pka) (t.2 / 4096 + 2) t.1 t.2

/-- The bytes of the pages that resolved. -/
def nmChunks (l : List (Nat × Nat × Reach)) : List (Nat × Nat) :=
  l.filterMap fun x => match x.2.2 with
    | .at ((k, _) :: _) => some (k, x.2.1)
    | _ => none
/-- An address range cause of a page. -/
def nmRange (l : List (Nat × Nat × Reach)) : Option Nat :=
  (l.find? fun x => x.2.2 == .cause Code.range).map (·.1)
/-- R61, R221: a page in host memory, or pages of two stacks. -/
def nmMisplaced (l : List (Nat × Nat × Reach)) : Bool :=
  let cs := nmChunks l
  (l.any fun x => match x.2.2 with
    | .ats _ => true
    | _ => false) ||
    cs.any fun x => decide (hostBase ≤ x.1) || some (x.1 / 2 ^ 37) != cs.head?.map fun y => y.1 / 2 ^ 37
/-- The first translation fault or violation of a page. -/
def nmFault : List (Nat × Nat × Reach) → Option NmAim
  | [] => none
  | (va, _, r) :: l => match r with
    | .cause x => some (.fail x va)
    | .violation => some (.violation va)
    | _ => nmFault l

/-- R61, R215, R221, R374: the checks of an entry whose descriptor is `d`: the descriptor, the address ranges, the
placement, then translation faults and violations. -/
def State.nmAim (s : State) (c : Nat) (k : NmKind) (d : Nat) : NmAim :=
  if !(Nm.fieldsOk k d && Nm.placesOk c k d) then .fail Code.nmDesc 0
  else
    let l := s.nmTables c k d
    let cs := nmChunks l
    match nmRange l, nmFault l with
    | some va, _ => .fail Code.range va
    | none, f =>
      if nmMisplaced l then .fail Code.nmPlace (Nm.addr d 0)
      else match f with
        | some x => x
        | none => match Nm.output k d with
          | some (a, n, w) =>
            if rangeOf c a = .ball ∧ !s.ballSpan c (a - 0x100000000) (w * n) then .violation a
            else .go cs ((cs.head?.map fun x => x.1 / 2 ^ 37).getD 0)
          | none => .go cs ((cs.head?.map fun x => x.1 / 2 ^ 37).getD 0)

/-- R220: the descriptor and the scratchpad inputs, read at the issue. -/
def State.nmInputs (s : State) (c : Nat) (k : NmKind) (d : Nat) : List Byte :=
  leBytes 64 d ++ (Nm.inputs k d).flatMap fun t => s.read (localKey c t.1) t.2
def State.nmClean (s : State) (c : Nat) (k : NmKind) (d : Nat) : Bool :=
  (Nm.inputs k d).all fun t => !s.poisoned (localKey c t.1) t.2

/-! ### What the unit computes (R216-R219) -/

/-- The key of byte `o` of chunks. -/
def chunkKey : List (Nat × Nat) → Nat → Nat
  | [], o => o
  | (k, n) :: l, o => if o < n then k + o else chunkKey l (o - n)
/-- `n` bytes from byte `o` of chunks, each 64-byte row as it stands at one of the moments of the reads (R64, R220). -/
def State.chunkRead (s : State) (m : List (Nat × Memory)) (l : List (Nat × Nat)) (o : Nat) : Nat → List Byte
  | 0 => []
  | n + 1 => (s.moment m (chunkKey l o / 64 * 64)).byte (chunkKey l o) :: State.chunkRead s m l (o + 1) n

/-- Row `r` of the table at byte `base` of the chunks, decoded. -/
def State.nmRow (s : State) (m : List (Nat × Memory)) (l : List (Nat × Nat)) (d base r : Nat) : List Ext :=
  let v := leNat (s.chunkRead m l (base + Nm.pitch d * r) (Nm.rowBytes d))
  decRow (Nm.fmt d) (Nm.tf d) (Nm.wid d) (v % 2 ^ (8 * Nm.elemBytes d)) (v / 2 ^ (8 * Nm.elemBytes d)) none

/-- FP32 words in bytes. -/
def wordsOf (bs : List Byte) (n : Nat) : List Word := (unpackN 32 n (leNat (bs.take (4 * n)))).map (BitVec.ofNat 32)
def dot (a b : List Ext) : Word := toF32 (Ext.sum (products a b))

/-- R217: `a` ranks strictly above `b`. -/
def rankAbove (a b : Word) : Bool :=
  if (ofF32 a).isNaN then false else if (ofF32 b).isNaN then true else Ext.lt (ofF32 b) (ofF32 a)
/-- An entry into a list in rank order, after its equals. -/
def rankIn (e : Nat × Word) : List (Nat × Word) → List (Nat × Word)
  | [] => [e]
  | f :: l => if rankAbove e.2 f.2 then e :: f :: l else f :: rankIn e l
/-- The first `k` of Rank, over entries in rising index order. -/
def rankFirst (k : Nat) (l : List (Nat × Word)) : List (Nat × Word) := l.foldl (fun r e => (rankIn e r).take k) []

/-- The key of an output address. -/
def nmKey (c va : Nat) : Nat := if rangeOf c va = .scratch then localKey c va else ballBase + (va - 0x100000000)
/-- R64: the write events of bytes from a key on: one for each 64-byte row. -/
def rowPuts (key : Nat) (bs : List Byte) : List Put := if bs.isEmpty then [] else (rowPieces key bs).map fun p => .bytes p.1 p.2
/-- R216, R218: the write events of the results at an output address: words, or FAddX into a cell each. -/
def nmPuts (c d a : Nat) (l : List Word) : List Put :=
  if Nm.om d then l.zipIdx.map fun (e : Word × Nat) => .add (nmKey c (a + 64 * e.2)) e.1
  else rowPuts (nmKey c a) (l.flatMap fun v => leBytes 4 v.toNat)

/-- R216. -/
def State.runNmv (s : State) (m : List (Nat × Memory)) (c d : Nat) (l : List (Nat × Nat)) (inp : List Byte) : List Put :=
  let x := (wordsOf inp (Nm.wid d)).map ofF32
  nmPuts c d (Nm.addr d 2) ((List.range (Nm.n1 d)).map fun r => dot (s.nmRow m l d 0 r) x)

/-- R217: the candidates of one query. -/
def candidates (n k : Nat) (s1 s2 : List Word) : List (Nat × Word) :=
  let top (l : List Word) : List Nat :=
    let t := (rankFirst k (l.zipIdx.map fun (e : Word × Nat) => (e.2, e.1))).map (·.1)
    (List.range n).filter t.contains
  let i := top s1
  let j := top s2
  rankFirst k (i.flatMap fun a => j.map fun b => (a * n + b, toF32 (Ext.sum [ofF32 (s1.getD a 0), ofF32 (s2.getD b 0)])))
def State.runPks (s : State) (m : List (Nat × Memory)) (c d : Nat) (l : List (Nat × Nat)) (inp : List Byte) : List Put :=
  let h := Nm.wid d
  let n := Nm.n1 d
  (List.range (Nm.n2 d)).flatMap fun q =>
    let u := (wordsOf (inp.drop (8 * h * q)) h).map ofF32
    let v := (wordsOf (inp.drop (8 * h * q + 4 * h)) h).map ofF32
    let s1 := (List.range n).map fun i => dot u (s.nmRow m l d 0 i)
    let s2 := (List.range n).map fun i => dot v (s.nmRow m l d (Nm.tableBytes d) i)
    let r := candidates n (Nm.kc d) s1 s2
    let at_ := localKey c (Nm.addr d 3 + 256 * q)
    rowPuts at_ (r.flatMap fun e => leBytes 4 e.1) ++ rowPuts (at_ + 128) (r.flatMap fun e => leBytes 4 e.2.toNat)

/-- A query's candidates within the rows held: row and weight. -/
def nmHeld (d : Nat) (inp : List Byte) (q : Nat) : List (Nat × Word) :=
  let idx := wordsOf (inp.drop (256 * q)) (Nm.kc d)
  let w := wordsOf (inp.drop (256 * Nm.n2 d + 4 * (q * Nm.kc d))) (Nm.kc d)
  ((idx.zip w).filter fun e => decide (Nm.row0 d ≤ e.1.toNat) && decide (e.1.toNat < Nm.row0 d + Nm.n1 d)).map
    fun e => (e.1.toNat - Nm.row0 d, e.2)

/-- R218. -/
def State.runPkg (s : State) (m : List (Nat × Memory)) (c d : Nat) (l : List (Nat × Nat)) (inp : List Byte) : List Put :=
  nmPuts c d (Nm.addr d 3) ((List.range (Nm.n2 d)).flatMap fun q =>
    let rows := (nmHeld d inp q).map fun e => (ofF32 e.2, s.nmRow m l d 0 e.1)
    (List.range (Nm.wid d)).map fun j => toF32 (Ext.sum (rows.map fun e => e.1.mul (e.2.getD j Ext.zero))))

/-- R219: the updates of the row at byte `o` of the table, 64 bytes at a time. -/
def rowUpdates (l : List (Nat × Nat)) (o : Nat) (w : Word) (gs : List Word) : List Put :=
  (List.range ((gs.length + 15) / 16)).map fun b => .fma (chunkKey l (o + 64 * b)) w ((gs.drop (16 * b)).take 16)
/-- R219: every update, in order. -/
def runPka (d : Nat) (l : List (Nat × Nat)) (inp : List Byte) : List Put :=
  let grads := inp.drop (256 * Nm.n2 d + 4 * Nm.n2 d * Nm.kc d)
  (List.range (Nm.n2 d)).flatMap fun q => (nmHeld d inp q).flatMap fun e =>
    rowUpdates l (Nm.pitch d * e.1) e.2 (wordsOf (grads.drop (4 * (q * Nm.wid d))) (Nm.wid d))

/-- R220: what the entry of an access writes, its reads bound at the moments that have come. -/
def State.nmWrite (s : State) (c : Nat) (k : NmKind) (f : Flight) : List Put :=
  let d := leNat (f.e.data.take 64)
  let inp := f.e.data.drop 64
  match k with
  | .nmv => s.runNmv f.reads c d f.ra inp
  | .pks => s.runPks f.reads c d f.ra inp
  | .pkg => s.runPkg f.reads c d f.ra inp
  | .pka => runPka d f.ra inp

end Sys2Proof.Machine
end

