-- ==== Sys2Proof/Machine/RemoteForms.lean ====
section
/-! DEFINITION. Reels, remote enqueue, messages, releases and near-memory forms as they enter the store queue
(R181-R185). -/
namespace Sys2Proof.Machine

/-- R181: REELJ enters the store queue, and waits while the bank holds the join (`State.holdJoin`); REELS waits until its
release; REELL does not wait. -/
def execReelj (a : AReg) (s : State) : Out := s.enterSt (.reelj a) (s.ra a) 0 0
def execReell (a : AReg) (s : State) : Out := s.enterSt (.reell a) (s.ra a) 0 0
def execReels (a : AReg) (s : State) : Out := s.enterStWait (.reels a) (s.ra a) 0 0 .reelPhase

/-- R33, R182: a strand number as an operand has bits [15:14] zero; its upper bits are not read. -/
def targetLegal (t : Word) : Bool := t.extractLsb' 14 2 == 0

/-- R182: the target is checked at the instruction; the block's place and alignment at the entry. -/
def State.reqForm (s : State) (i : Instr) (a : AReg) (t : SrcV) : Out :=
  s.withVal (s.srcV t) fun v =>
    if targetLegal v then s.enterStWait i (s.ra a) (v.setWidth 64) 0 .accept else s.trapHere Code.operand
def execReqMe (a : AReg) (t : SrcV) (s : State) : Out := s.reqForm (.reqMe a t) a t
def execReqVe (a : AReg) (t : SrcV) (s : State) : Out := s.reqForm (.reqVe a t) a t
def execReqCe (a : AReg) (t : SrcV) (s : State) : Out := s.reqForm (.reqCe a t) a t

/-- R183: a length of a SEND is 0 to 256 bytes. -/
def lengthLegal (n : Word) : Bool := decide (0 ≤ n.toInt) && decide (n.toInt ≤ 256)
/-- A source whose value is known breaks a limit. -/
def Dom.breaks (d : Dom) (ok : Word → Bool) : Bool := d.val.any fun v => !ok v

/-- R183, R374: the entry carries the target and the length; a known value outside its limit is an illegal operand before
the other source is found indeterminate. -/
def execSend (a : AReg) (t l : DReg) (handler : BitVec 14) (s : State) : Out :=
  if (s.rd t).breaks targetLegal || (s.rd l).breaks lengthLegal then s.trapHere Code.operand
  else s.withVals (s.rd t) (s.rd l) fun v n =>
    s.enterStWait (.send a t l handler) (s.ra a) (v.setWidth 64) (n.setWidth 64) .accept

/-- R184: TREL waits while the wheel is full, in order, and then enters the store queue; the record is read there, and a wheel that
has filled in the meantime makes the strand wait there (`State.issueTrel`). -/
def execTrel (r t : AReg) (s : State) : Out :=
  if 256 ≤ s.own.wheel.length ∨ s.own.wheelBehind s.slot then s.await .trel
  else s.enterSt (.trel r t) (s.ra r) (s.ra t) 0

/-- R185. -/
def execNmv (a : AReg) (s : State) : Out := s.enterSt (.nmv a) (s.ra a) 0 0
def execPks (a : AReg) (s : State) : Out := s.enterSt (.pks a) (s.ra a) 0 0
def execPkg (a : AReg) (s : State) : Out := s.enterSt (.pkg a) (s.ra a) 0 0
def execPka (a : AReg) (s : State) : Out := s.enterSt (.pka a) (s.ra a) 0 0

end Sys2Proof.Machine
end

