-- ==== Sys2Proof/Machine/Translate.lean ====
section
/-! DEFINITION. Table walks, translations of host pages, answers to translation faults, invalidations and event rings
(R324-R329, R370, R373). -/
namespace Sys2Proof.Machine

/-! ### TLBs (R325) -/

/-- A translation enters a TLB; a full one gives one up. -/
def tlbPut (l : List TlbEntry) (cap step : Nat) (t : TlbEntry) : List TlbEntry :=
  if l.length < cap then t :: l else t :: l.eraseIdx (Config.tlbVictim step % cap)

/-- A translation that a walk of core `c` has found. -/
def State.fillTlb (s : State) (c : Nat) (t : TlbEntry) : State :=
  let s := s.updCore c fun x => { x with tlb := tlbPut x.tlb 512 s.steps t }
  if c = mgmtCore then s
  else s.putDie (dieOf c) { s.die (dieOf c) with tlb := tlbPut (s.die (dieOf c)).tlb 16384 s.steps t }

/-- R164, R325: the translation of `va` that the die's TLB holds enters the core's. -/
def State.fillCore (s : State) (c va : Nat) : State :=
  if (s.coreAt c).tlb.any fun t => t.covers (s.asid c) va then s
  else match s.tlbFind c va with
    | some t => s.updCore c fun x => { x with tlb := tlbPut x.tlb 512 s.steps t }
    | none => s

/-- The page of `va` as a TLB entry. -/
def tlbOf (part va pa log : Nat) (w : Bool) : TlbEntry :=
  { part := part, va := BitVec.ofNat 64 (va / 2 ^ log * 2 ^ log), log := log, pa := BitVec.ofNat 64 pa, w := w }

/-- The first address of an entry whose page no TLB holds. -/
def State.missOf (s : State) (c : Nat) (e : QEntry) : Option Nat :=
  match s.reach c e.ea.toNat e.size e.i.isWrite false with
  | .miss va => some va
  | _ => none

/-! ### Holds (R307, R326) -/

def holdCur (f : Held → Held) (u : Option Cursor) : Option Cursor := u.map fun v => { v with held := f v.held }
/-- The holds of a strand: its queue heads and its chain, those at a cut among them. -/
def Strand.mapHeld (x : Strand) (f : Held → Held) : Strand :=
  { x with
    q := { x.q with ld := holdHead f x.q.ld, st := holdHead f x.q.st }
    curCe := holdCur f x.curCe
    trap := { x.trap with aside := x.trap.aside.map fun a =>
      ({ a.1 with ld := holdHead f a.1.ld, st := holdHead f a.1.st }, a.2.1, a.2.2.1, holdCur f a.2.2.2) } }
/-- One hold replaced by another. -/
def swapHeld (old new : Held) (h : Held) : Held := if h = old then new else h
/-- A hold under page request `n`. -/
def Held.isPri (n : Nat) : Held → Bool
  | .pri m _ _ => m == n
  | _ => false
/-- A chain waits for the translation of an address in the page of `va`. -/
def Held.atsIn (va log : Nat) : Held → Bool
  | .ats a => decide (a / 2 ^ log = va / 2 ^ log)
  | _ => false

/-- R326: a fault of a held entry is reported under a new fault number. -/
def State.reportFault (s : State) (c : Nat) (k : Fin 9) (old : Held) (code : BitVec 8) (va agent : Nat) : State :=
  let n := s.nextFid % 65536
  let f : Fid := { fid := n, part := s.asid c, core := c, slot := k.val, cause := code, va := BitVec.ofNat 64 va }
  ({ s with fids := s.fids ++ [f], nextFid := s.nextFid + 1 }.updAt c k fun x => x.mapHeld (swapHeld old (.fid n))).emit c
    (k.val % 8) 1 va n agent

/-- R164: a prefetch that would fault leaves its queue without a trap, and is counted. -/
def State.dropPref (s : State) (c : Nat) (k : Fin 9) : State :=
  (s.updAt c k fun x => x.dropHead false).updCore c fun y =>
    { y with pfdrop := if y.pfdrop = 0xFFFFFFFF then y.pfdrop else y.pfdrop + 1 }

/-- R324, R325: the walk for the head entry of a queue completes. -/
def execTableWalkComplete (c k : Nat) (st : Bool) (s : State) : Out :=
  let ix := slotIx k
  match (s.strandAt c ix).queue st with
  | [] => .next s
  | e :: _ =>
    if e.held ≠ .walk then .next s
    else
      let go (s : State) : State := s.updAt c ix fun x => x.setHead st { e with held := .no }
      match s.missOf c e with
      | none => .next (go s)
      | some va =>
        let l := s.tableCells c va 1
        if s.heldUp c l then .next (s.arriveAt c k l)
        else
        let s := s.arriveAt c k l
        match s.walk c va with
        | .violation =>
          if e.ea.toNat % e.alignment ≠ 0 then .next (s.entryFault c ix st { e with held := .no } Code.align)
          else .next (s.violate c ix va (if st then 5 else 4))
        | .cause code =>
          if e.i.isPref then .next (s.dropPref c ix)
          else if e.ea.toNat % e.alignment ≠ 0 then .next (s.entryFault c ix st { e with held := .no } Code.align)
          else if isTranslation code then .next (s.holdFid c ix st e code va)
          else .next (s.entryFault c ix st { e with held := .no } code)
        | .page pa log w =>
          if paOk pa ∧ hostBase ≤ pa ∧ !e.placeOk .host then
            .next (s.entryFault c ix st { e with held := .no } Code.unsupported)
          else if pa < hostBase ∨ !paOk pa then .next (go (s.fillTlb c (tlbOf (s.asid c) va pa log w))) else .next s

/-! ### Host pages (R325, R326) -/

/-- R325: the host's agent answers for the page of `va`: [63:12] its address, [1] writes, [0] reads allowed. -/
def execAtsTranslationCompletion (die p : Nat) (va host : DWord) (s : State) : Out :=
  let owner (c : Nat) : Bool := c != mgmtCore && dieOf c == die && s.asid c == p
  let root := if p = 16 then s.pkg.mptroot else (s.part p).ptroot
  if !root.getLsbD 0 then .next s
  else s.onWalk (if p = 16 then mgmtCore else 512 * (die % 4)) 0 (s.walkCells va.toNat 4 (pteAddr root.toNat)) fun s =>
  match s.walkFrom p va.toNat 4 (pteAddr root.toNat) with
    | .cause _ => .next s
    | .violation => .next s
    | .page pa log w =>
      if pa < hostBase ∨ !paOk pa then .next s
      else if host.getLsbD 0 then
        let t := tlbOf p va.toNat (hostBase + host.toNat / 4096 * 4096 % hostBase) log (w && host.getLsbD 1)
        if p = 16 then .next (s.updCore mgmtCore fun x => { x with tlb := tlbPut x.tlb 512 s.steps t })
        else
          let free (y : Strand) : Strand := { y with curCe := holdCur (fun h => if h.atsIn va.toNat log then .no else h) y.curCe }
          .next ((s.putDie die { s.die die with tlb := tlbPut (s.die die).tlb 16384 s.steps t }).mapCores owner
            fun _ x => { x with strands := x.strands.map free })
      else
        let n := s.nextFid % 65536
        let here (c : Nat) (l : List QEntry) : Bool := match l with
          | [] => false
          | e :: _ => e.held == .walk && (match s.missOf c e with
            | some a => decide (a / 2 ^ log = va.toNat / 2 ^ log)
            | none => false)
        let hold (c : Nat) (x : Strand) : Strand :=
          { x with
            q := { x.q with
              ld := if here c x.q.ld then holdHead (fun _ => .pri n va.toNat Code.notPresent) x.q.ld else x.q.ld
              st := if here c x.q.st then holdHead (fun _ => .pri n va.toNat Code.notPresent) x.q.st else x.q.st }
            curCe := holdCur (fun h => if h.atsIn va.toNat log then .pri n va.toNat Code.notPresent else h) x.curCe }
        .next ({ s with nextFid := s.nextFid + 1 }.mapCores (fun c => if p = 16 then c == mgmtCore else owner c)
          fun c x => { x with strands := x.strands.map (hold c) })

/-- A head or a chain that is held under a page request: core, slot, its hold, the address that a report names, the agent,
and whether it is a prefetch. -/
structure PriHeld where
  core : Nat
  slot : Nat
  held : Held
  code : BitVec 8
  addr : Nat
  agent : Nat
  pref : Bool
deriving DecidableEq, Repr

/-- What is held under page request `n`, those at a cut among them. -/
def State.heldPri (s : State) (n : Nat) : List PriHeld :=
  s.cores.flatMap fun e => (List.range 9).flatMap fun k =>
    let x := e.2.strands[k % 9]'(Nat.mod_lt _ (by decide))
    let head (agent : Nat) (l : List QEntry) : List PriHeld := match l with
      | q :: _ => match q.held with
        | .pri m va code => if m = n then
            [{ core := e.1, slot := k, held := q.held, code, addr := va, agent, pref := q.i.isPref }] else []
        | _ => []
      | [] => []
    let chain (u : Option Cursor) : List PriHeld := match u with
      | some v => match v.held with
        | .pri m va code => if m = n then
            [{ core := e.1, slot := k, held := v.held, code, addr := va, agent := if k = 8 then 7 else 3, pref := false }] else []
        | _ => []
      | none => []
    head 4 x.q.ld ++ head 5 x.q.st ++ chain x.curCe ++ (match x.trap.aside with
      | some a => head 4 a.1.ld ++ head 5 a.1.st ++ chain a.2.2.2
      | none => [])

/-- R326: the host answers a page request; a request that fails is reported as a fault. -/
def execPriResponse (fid : Nat) (ok : Bool) (s : State) : Out :=
  if ok then .next (s.mapCores (fun _ => true) fun _ x =>
    { x with strands := x.strands.map fun y => y.mapHeld fun h => if h.isPri fid then .no else h })
  else .next ((s.heldPri fid).foldl (fun t e =>
    if e.pref then t.dropPref e.core (slotIx e.slot)
    else t.reportFault e.core (slotIx e.slot) e.held e.code e.addr e.agent) s)

/-! ### Answers (R326, R328, R373) -/

/-- RETRY: the entry is translated again. -/
def State.retryFid (s : State) (p fid : Nat) : State :=
  match s.fids.find? fun f => f.fid == fid && f.part == p with
  | none => s
  | some f =>
    { s with fids := s.fids.filter (· != f) }.updAt f.core (slotIx f.slot) fun x => x.mapHeld (swapHeld (.fid fid) .no)

/-- REFUSE: the translation trap, with the cause of the fault. A store-queue or chain entry traps at once; a load once it
is needed (R307); a trap of a handler's own entry is a double trap (R306). An entry of a strand that is stopped, and one that a cut set
aside, keeps the cause and traps once its queue runs again (`State.headCause`, `chainCause`, `Strand.heldLoad`). -/
def State.refuseFid (s : State) (p fid : Nat) : State :=
  match s.fids.find? fun f => f.fid == fid && f.part == p with
  | none => s
  | some f =>
    let k := slotIx f.slot
    let x := s.strandAt f.core k
    let t := { s with fids := s.fids.filter (· != f) }
    let live := x.st != .frozen && x.st != .parked && x.st != .dormant && f.slot != 8
    let store := x.q.st.head?.map (·.held) == some (.fid fid)
    let chain := x.curCe.map (·.held) == some (.fid fid)
    if live && (store || chain) then
      let seq := if store then (x.q.st.head?.map (·.qseq)).getD 0 else ((x.head .ce).map (·.qseq)).getD 0
      (t.updAt f.core k fun y => y.mapHeld (swapHeld (.fid fid) .taken)).trapAt f.core k
        { code := f.cause, arg := 0, agent := if store then 5 else 3, addr := f.va, seq := seq, part := none } x.pc
    else
      t.updAt f.core k fun y => y.mapHeld (swapHeld (.fid fid) (.cause f.cause f.va))

def execTfresRetry (p fid : Nat) (s : State) : Out := .next (s.retryFid p fid)
def execTfresRefuse (p fid : Nat) (s : State) : Out := .next (s.refuseFid p fid)
def execMtfresRetry (fid : Nat) (s : State) : Out := .next (s.retryFid 16 fid)
def execMtfresRefuse (fid : Nat) (s : State) : Out := .next (s.refuseFid 16 fid)

/-! ### Invalidations (R327, R328) -/

/-- An entry overlaps what is invalidated. -/
def TlbEntry.hit (t : TlbEntry) (va log : Nat) : Bool :=
  let l := max t.log log
  t.va.toNat / 2 ^ l == va / 2 ^ l || decide (57 ≤ log)
/-- Translations of number `p` gone from every TLB. -/
def State.dropTlb (s : State) (sel : TlbEntry → Bool) : State :=
  let keep (l : List TlbEntry) : List TlbEntry := l.filter fun t => !sel t
  let s : State := { s with dies := s.dies.map fun (d : Die) => { d with tlb := keep d.tlb } }
  s.mapCores (fun _ => true) fun _ x => { x with tlb := keep x.tlb }

/-- The translated bytes that an entry of core `c` names. -/
def QEntry.pages (c : Nat) (e : QEntry) : List (Nat × Nat) :=
  match nmKind e.i with
  | some k => Nm.tables k (leNat (e.data.take 64))
  | none => if rangeOf c e.ea.toNat = .translated then [(e.ea.toNat, e.size)] else []
/-- R59, R80: the accesses of core `c` that have issued with their translations and are not performed: what they name and the bytes that
they reached. A replay issues an entry or an atomic action of a chain again at the bytes that it reached first. -/
def Core.issuedWith (c : Nat) (y : Core) : List (List (Nat × Nat) × List (Nat × Nat)) :=
  ((y.flights.filter fun f => !f.done).map fun f => (f.e.pages c, f.ra)) ++ y.strands.toList.flatMap fun x =>
    ((x.allQueued.ld ++ x.allQueued.st).filterMap fun e => e.ra.map fun l => (e.pages c, l)) ++
      x.restrikes.map fun r => ([(r.va, (r.atom.ra.map (·.2)).sum)], r.atom.ra)
/-- R327: an access issued with a translation in the page remains unperformed; `sel` says by its core and its bytes which count. -/
def State.usesPage (s : State) (sel : Nat → List (Nat × Nat) → Bool) (va log : Nat) : Bool :=
  let inPage (x : Nat × Nat) : Bool :=
    decide (57 ≤ log) || (decide (x.1 / 2 ^ log ≤ va / 2 ^ log) && decide (va / 2 ^ log ≤ (x.1 + (x.2 - 1)) / 2 ^ log))
  s.cores.any fun e => (e.2.issuedWith e.1).any fun a => sel e.1 a.2 && a.1.any inPage
/-- Some of these bytes lie in host memory. -/
def inHost (l : List (Nat × Nat)) : Bool := l.any fun x => decide (hostBase ≤ x.1) && decide (x.1 < ballBase)

/-- R327: the invalidation of number `p` that a register holds: the state after it and whether it is complete. -/
def State.invalidate (s : State) (p : Nat) (reg : DWord) : State × Bool :=
  let va := reg.toNat / 4096 % 2 ^ 45 * 4096
  let log := invLog (reg.toNat / 2 ^ 60 % 8)
  (s.dropTlb fun t => t.part == p && t.hit va log, !s.usesPage (fun c _ => s.asid c == p) va log)

def execTlbinv (p : Nat) (s : State) : Out :=
  if (s.part p).tlbinvGo then
    let r := s.invalidate (p % 16) (s.part p).tlbinv
    .next (if r.2 then r.1.putPart p { r.1.part p with tlbinvGo := false } else r.1)
  else .next s
def execMtlbinv (s : State) : Out :=
  if s.pkg.mtlbinvGo then
    let r := s.invalidate 16 s.pkg.mtlbinv
    .next (if r.2 then { r.1 with pkg := { r.1.pkg with mtlbinvGo := false } } else r.1)
  else .next s
/-- R327: the host's invalidations that are complete leave those under way. -/
def State.closeAts (s : State) : State :=
  let left := s.pkg.atsInv.filter fun a =>
    s.usesPage (fun _ l => inHost l) (a.1.toNat / 4096 * 4096) (invLog a.2.toNat)
  { s with pkg := { s.pkg with atsInv := left } }
/-- R327: an invalidation from the host: translations of host pages. It stands as not complete while an access that was
issued with one of them remains unperformed. -/
def execAtsInvalidation (va : DWord) (size : BitVec 3) (s : State) : Out :=
  let t := s.dropTlb fun t => decide (hostBase ≤ t.pa.toNat) && t.hit (va.toNat / 4096 * 4096) (invLog size.toNat)
  let others := s.pkg.atsInv.filter (· != (va, size))
  let u : State := { t with pkg := { t.pkg with atsInv := others ++ [(va, size)] } }
  .next u.closeAts

/-! ### Event rings (R329) -/

/-- The driver has read records: room appears in the ring. -/
def execEventRingRoom (p : Nat) (cons : BitVec 8) (s : State) : Out :=
  .next ((s.putPart p { s.part p with evcons := cons }).flushPart p)

end Sys2Proof.Machine
end

