-- ==== Sys2Proof/Machine/Control.lean ====
section
/-! DEFINITION. The control space: every register at its offset, with its access codes and the effects of a write (R3, R4,
R71, R289, R290, R296-R299, R314, R328, R335-R349, R353, R355, R361, R367-R370, R373). -/
namespace Sys2Proof.Machine

/-! ### Granules

A register block is read and written in its aligned 8-byte granules; an access names the bytes of one granule. -/

/-- A granule as two 32-bit registers, the lower one first. -/
def pair (lo hi : Nat) : Nat := lo % 2 ^ 32 + hi % 2 ^ 32 * 2 ^ 32
/-- The bits that a write of an access reaches. -/
def laneMask (off : Nat) (wide : Bool) : DWord :=
  if wide then BitVec.allOnes 64 else if off % 8 = 0 then 0xFFFFFFFF else 0xFFFFFFFF00000000
/-- The value of an access in its granule. -/
def laneValue (off : Nat) (wide : Bool) (v : DWord) : DWord := if wide ∨ off % 8 = 0 then v else v <<< 32
/-- A register of RW bits `rw` after a write of `v` under the mask `m` (R3, R4). -/
def merge (rw old v m : DWord) : DWord := (old &&& ~~~(m &&& rw)) ||| (v &&& m &&& rw)
/-- R346: a size and alignment that the control space takes. -/
def ctlAligned (off : Nat) (wide : Bool) : Bool := off % (if wide then 8 else 4) == 0

/-- The `n`-bit field of a 64-bit value at bit `lo`. -/
def fld (v : DWord) (lo n : Nat) : Nat := v.toNat / 2 ^ lo % 2 ^ n

/-! ### Where a granule lies -/

inductive Reg where
  | mailbox (c g : Nat)
  | preempt (c g : Nat)
  | part (p o : Nat)
  | seg (g o : Nat)
  | tallow (i : Nat)
  | pkg (o : Nat)
  | vilv (i : Nat)
  | stack (h o : Nat)
  | die (d o : Nat)
  | cerr (c o : Nat)
  | park (c : Nat)
  | scope (c o : Nat)
  | none
deriving DecidableEq, Repr

/-- The register block of a granule at a BAR0 offset. -/
def regOf (off : Nat) : Reg :=
  let o := off / 8 * 8
  let inBlock (base n size : Nat) : Bool := decide (base ≤ o) && decide (o < base + n * size)
  if inBlock 0x01000000 2048 64 then .mailbox ((o - 0x01000000) / 64) (o / 8 % 8)
  else if inBlock 0x01800000 2048 64 then .preempt ((o - 0x01800000) / 64) (o / 8 % 8)
  else if inBlock 0x02000000 16 0x100 then .part ((o - 0x02000000) / 0x100) (o % 0x100)
  else if inBlock 0x03000000 1024 16 then .seg ((o - 0x03000000) / 16) (o % 16)
  else if inBlock 0x03040000 256 4 then .tallow ((o - 0x03040000) / 4)
  else if inBlock 0x03050000 1 0x78 then .pkg (o - 0x03050000)
  else if inBlock 0x03060000 128 4 then .vilv ((o - 0x03060000) / 4)
  else if inBlock 0x03070000 8 16 then .stack ((o - 0x03070000) / 16) (o % 16)
  else if inBlock 0x03080000 4 0x100 then .die ((o - 0x03080000) / 0x100) (o % 0x100)
  else if inBlock 0x03800000 2048 16 then .cerr ((o - 0x03800000) / 16) (o % 16)
  else if inBlock 0x03880000 2048 8 then .park ((o - 0x03880000) / 8)
  else if inBlock 0x03900000 2048 16 then .scope ((o - 0x03900000) / 16) (o % 16)
  else .none

/-- R348: what a virtual function's BAR0 maps: the mailboxes and pre-emption blocks of its cores, and its block. -/
def State.maps (s : State) (f : Func) (r : Reg) : Bool :=
  match f with
  | .vf p => match r with
    | .mailbox c _ => s.partOf c == some p
    | .preempt c _ => s.partOf c == some p
    | .part q _ => q == p
    | _ => false
  | .pf1 => false
  | _ => true

/-! ### Reads -/

/-- The words of a partition's block (R328, R349, R361, R369); TFRES.GO acts at once and reads 0 (log entry 59, DESIGN
CHOICE). -/
def Partition.word (x : Partition) (o : Nat) : Nat :=
  match o with
  | 0x00 => x.ptroot.toNat
  | 0x08 => x.tlbinv.toNat + bit1 x.tlbinvGo 63
  | 0x10 => x.evbase.toNat
  | 0x18 => pair x.evprod.toNat x.evcons.toNat
  | 0x20 => x.tfres.toNat
  | 0x28 => x.tagspill.toNat
  | 0x40 => x.cols.toNat
  | 0x48 => x.ball.toNat
  | 0x50 => bit1 x.en 31 + bit1 x.link 30 + bit1 x.err 29 + bit1 x.scrub 28 + x.tds.toNat * 2 ^ 24
  | 0x60 => bit1 x.capEn 31 + bit1 x.capOvf 30 + x.capProd.toNat * 2 ^ 8 + x.capCons.toNat
  | 0x68 => x.capbase.toNat
  | 0x70 => x.csbase.toNat
  | 0x78 => x.cslen.toNat
  | 0x80 => bit1 x.degr 31 + x.thr.toNat * 2 ^ 16 + x.mck.toNat
  | 0x88 => x.parten.toNat
  | _ => 0

/-- R335: SYS.SEGCTL and SYS.SEGSTAT. -/
def Segment.ctl (g : Segment) : Nat :=
  bit1 g.ove 31 + g.thr.toNat * 2 ^ 24 + g.cap.toNat * 2 ^ 16 + g.held.toNat * 2 ^ 8 + g.vmv.toNat
def Segment.stat (g : Segment) : Nat := g.temp.toNat * 2 ^ 16 + g.allow * 2 ^ 8
/-- R339: SYS.TALLOW. -/
def Group.word (g : Group) : Nat := g.temp.toNat * 2 ^ 16 + g.layer.toNat * 2 ^ 11 + g.allow
/-- R342: SYS.VILV. -/
def Vault.word (v : Vault) : Nat := bit1 v.busy 31 + v.n.toNat
/-- R341: SYS.TALRT. -/
def Package.talrt (x : Package) : Nat := bit1 x.talrtEn 8 + x.trip.toNat
/-- R355: SYS.SVC and SYS.COLRDY. -/
def State.svc (s : State) : Nat :=
  bit1 s.pkg.full 31 + ((List.range 8).map fun h => bit1 (s.stack h).trained h).sum
def State.colrdy (s : State) : Nat := ((List.range 64).map fun g => bit1 (s.colReady g) g).sum

/-- The words of the package's own registers; MTFRES.GO acts at once and reads 0 (log entry 59, DESIGN CHOICE). -/
def State.pkgWord (s : State) (o : Nat) : Nat :=
  let x := s.pkg
  match o with
  | 0x08 => x.rcapSeq.toNat * 2 ^ 32 + x.rcapCap.toNat * 2 ^ 16 + bit1 x.rcapFlr 0
  | 0x10 => pair x.pthr.toNat x.talrt
  | 0x20 => s.svc
  | 0x28 => s.colrdy
  | 0x30 => x.ptpsrc.toNat
  | 0x40 => x.ptprate.toNat
  | 0x50 => x.mptroot.toNat
  | 0x58 => x.mtlbinv.toNat + bit1 x.mtlbinvGo 63
  | 0x60 => x.mevbase.toNat
  | 0x68 => pair x.mevprod.toNat x.mevcons.toNat
  | 0x70 => x.mtfres.toNat
  | _ => 0

/-- R296, R297: the words of a die's registers. -/
def Die.word (x : Die) (o : Nat) : Nat :=
  let col (k : Nat) : Nat := (x.qcolNext[k % 8]'(Nat.mod_lt _ (by decide))).toNat
  if o = 0 then pair (x.age.toNat * 2 ^ 24 + x.rth.toNat * 2 ^ 16 + x.rhyst.toNat * 2 ^ 8 + x.rotq.toNat)
    (x.rotc.toNat * 2 ^ 16 + min x.board.length 256)
  else if 0x10 ≤ o ∧ o < 0x30 then pair (col ((o - 0x10) / 4)) (col ((o - 0x10) / 4 + 1))
  else 0

/-- What a granule reads as. -/
def State.regRead (s : State) (r : Reg) : Nat :=
  match r with
  | .mailbox c g => { (s.coreAt c).mbox with ecls := s.eclsOf c : Mailbox }.bits / 2 ^ (64 * g) % 2 ^ 64
  | .preempt c g => (s.coreAt c).preBits / 2 ^ (64 * g) % 2 ^ 64
  | .part p o => (s.part p).word o
  | .seg g o => if o = 0 then pair (s.seg g).ctl (s.seg g).stat else (s.seg g).en.toNat
  | .tallow i => pair (s.group (i / 32) (i % 32)).word (s.group ((i + 1) / 32) ((i + 1) % 32)).word
  | .pkg o => s.pkgWord o
  | .vilv i => pair (s.vault (i / 16) (i % 16)).word (s.vault ((i + 1) / 16) ((i + 1) % 16)).word
  | .stack h o => if o = 0 then (s.stack h).corr.toNat * 2 ^ 40 + (s.stack h).unc.toNat * 2 ^ 24 + (s.stack h).scrint.toNat else 0
  | .die d o => (s.die d).word o
  | .cerr c o =>
    let y := s.coreAt c
    if o = 0 then y.corr.value 0xFFFF * 2 ^ 16 + y.repair.value 0xFF * 2 ^ 8 + y.unc.value 0xFF else y.vskip.value (2 ^ 64 - 1)
  | .park c => (s.coreAt c).parkBase.toNat
  | .scope c o => pair ((s.coreAt c).scopeReg (o / 4)).toNat ((s.coreAt c).scopeReg (o / 4 + 1)).toNat
  | .none => 0

/-- R345, R346: a read of 4 or 8 bytes at an offset. -/
def State.ctlRead (s : State) (f : Func) (off : Nat) (wide : Bool) : DWord :=
  let r := regOf off
  if !s.maps f r then 0
  else BitVec.ofNat 64 (if wide then s.regRead r else s.regRead r / 2 ^ (8 * (off % 8)) % 2 ^ 32)

/-! ### Writes -/

/-- The effect of a step without an encoding. -/
def State.run (s : State) (f : State → Out) : State :=
  match f s with
  | .next t => t
  | _ => s

/-- R290: the RW bits of a mailbox, and GO. -/
def mboxRw : BitVec 512 := BitVec.ofNat 512 (2 ^ 180 - 1) ||| (BitVec.ofNat 512 (2 ^ 96 - 1) <<< 192)
def goBit : BitVec 512 := BitVec.ofNat 512 (2 ^ 344)
/-- R290: the fields that a write reaches neither as RW nor as GO nor as RO: the reserved ones. -/
def mboxRsvd : BitVec 512 := ~~~(mboxRw ||| goBit ||| BitVec.ofNat 512 (7 * 2 ^ 340 + (2 ^ 52 - 1) * 2 ^ 288))
/-- The mailbox with the RW fields of its bits. -/
def Mailbox.ofBits (m : Mailbox) (b : BitVec 512) : Mailbox :=
  { m with rtgt := b.extractLsb' 256 32, rctr := b.extractLsb' 192 64, kind := b.getLsbD 179, prio := b.extractLsb' 176 3
           seq := b.extractLsb' 160 16, energy := b.extractLsb' 128 32, argb := b.extractLsb' 64 64, image := b.extractLsb' 0 64 }

/-- R290: a write of granule `g` of the mailbox of core `c`; ignored while GO reads 1. -/
def State.writeMailbox (s : State) (c g : Nat) (v m : DWord) : State :=
  let x := (s.coreAt c).mbox
  if x.go then s
  else
    let w := v.setWidth 512 <<< (64 * g)
    let k := m.setWidth 512 <<< (64 * g)
    let rw := k &&& mboxRw
    let b := (BitVec.ofNat 512 x.bits &&& ~~~rw) ||| (w &&& rw)
    let rs := k &&& mboxRsvd
    let s := s.updCore c fun y => { y with mbox := { x.ofBits b with rsvd := (x.rsvd &&& ~~~rs) ||| (w &&& rs) } }
    if w &&& k &&& goBit = 0 then s else s.submit c

/-- R314: a write of granule `g` of the pre-emption block of core `c`; ignored while GO reads 1. -/
def State.writePreempt (s : State) (c g : Nat) (v m : DWord) : State :=
  let x := (s.coreAt c).pre
  if x.go then s
  else if g = 0 then s.updCore c fun y => { y with pre := { x with save := merge (BitVec.allOnes 64) x.save v m } }
  else if g = 1 then
    let old : DWord := x.mode.setWidth 64 <<< 8 ||| x.mask.setWidth 64
    let n := merge 0x7FF old v m
    let s := s.updCore c fun y => { y with pre := { x with mode := n.extractLsb' 8 3, mask := n.extractLsb' 0 8 } }
    if (v &&& m).getLsbD 11 then s.preGo c else s
  else s

/-- R328, R370: the RW bits of a table root, a ring's base and an invalidation. -/
def rootRw : DWord := 0x001FFFFFFFFFF001
def ringRw : DWord := 0x001FFFFFFFFFE000
def invRw : DWord := 0x71FFFFFFFFFFF000
def tfRw : DWord := 0x000000000003FFFF

/-- R353: a write under mask `m` reaches a register that no function but the partition's own may write while TDS is not 0:
SYS.PTROOT, SYS.PARTCOLS, SYS.PARTBALL, or the 4 bytes of SYS.PARTCFG. -/
def tdsGuarded (o : Nat) (m : DWord) : Bool := ((o == 0x00 || o == 0x40 || o == 0x48) && m != 0) || (o == 0x50 && m.getLsbD 0)
/-- R350: a write of SYS.PARTCFG: LINK, ERR and then EN. -/
def State.writePartcfg (s : State) (p : Nat) (v m : DWord) : State :=
  if !m.getLsbD 0 then s
  else
    let x := s.part p
    let s := s.putPart p { x with link := if x.en || x.scrub then x.link else v.getLsbD 30, err := x.err && !v.getLsbD 29 }
    s.run (if v.getLsbD 31 then execPartitionEnable p else execPartitionDisable p)

/-- R328, R349, R361, R369: a write of a granule of a partition's block. -/
def State.writePart (s : State) (p o : Nat) (v m : DWord) : State :=
  let x := s.part p
  let free := !x.en && !x.scrub
  match o with
  | 0x00 => s.putPart p { x with ptroot := merge rootRw x.ptroot v m }
  | 0x08 =>
    let s := s.putPart p { x with tlbinv := merge invRw x.tlbinv v m, tlbinvGo := x.tlbinvGo || (v &&& m).getLsbD 63 }
    if (v &&& m).getLsbD 63 then s.run (execTlbinv p) else s
  | 0x10 => s.putPart p { x with evbase := merge ringRw x.evbase v m }
  | 0x18 => if m.getLsbD 32 then s.run (execEventRingRoom p (v.extractLsb' 32 8)) else s
  | 0x20 =>
    let w := merge tfRw x.tfres v m
    let s := s.putPart p { x with tfres := w }
    if !(v &&& m).getLsbD 63 then s
    else if fld w 16 2 = 1 then s.run (execTfresRetry p (fld w 0 16))
    else if fld w 16 2 = 2 then s.run (execTfresRefuse p (fld w 0 16)) else s
  | 0x28 => s.putPart p { x with tagspill := merge 0x001FFFFFFF000000 x.tagspill v m }
  | 0x40 => if free then s.putPart p { x with cols := merge (BitVec.allOnes 64) x.cols v m } else s
  | 0x48 => if free then s.putPart p { x with ball := merge (BitVec.allOnes 64) x.ball v m } else s
  | 0x50 => s.writePartcfg p v m
  | 0x60 =>
    if m.getLsbD 0 then
      s.putPart p { x with capEn := v.getLsbD 31, capOvf := x.capOvf && !v.getLsbD 30, capCons := v.extractLsb' 0 8 }
    else s
  | 0x68 => s.putPart p { x with capbase := merge 0x001FFFFFFFFF8000 x.capbase v m }
  | 0x70 => s.putPart p { x with csbase := merge 0x01FFFFFFFFFFFFC0 x.csbase v m }
  | 0x78 => if m.getLsbD 0 then s.putPart p { x with cslen := v.extractLsb' 0 32 } else s
  | 0x80 =>
    if m.getLsbD 0 then
      (s.putPart p { x with degr := x.degr && !v.getLsbD 31, thr := v.extractLsb' 16 8, mck := x.mck &&& ~~~(v.extractLsb' 0 16) }).degrade p x
    else s
  | _ => s

/-- R353: a write to a guarded register by another function moves TDS to 3 and is not applied. -/
def State.writePartBy (s : State) (f : Func) (p o : Nat) (v m : DWord) : State :=
  let own := match f with
    | .vf _ => true
    | _ => false
  if !own && (s.part p).tds != 0 && tdsGuarded o m then s.tdsError p else s.writePart p o v m

/-- R335: SYS.SEGCTL. -/
def State.writeSeg (s : State) (g o : Nat) (v m : DWord) : State :=
  if o = 0 ∧ m.getLsbD 0 then
    s.putSeg g { s.seg g with ove := v.getLsbD 31, thr := v.extractLsb' 24 4, cap := v.extractLsb' 16 8 }
  else s

/-- A write of a granule of the package's own registers; a cap message and a time step take 8 bytes (R289, R343). -/
def State.writePkg (s : State) (o : Nat) (v m : DWord) : State :=
  let x := s.pkg
  let wide := m == BitVec.allOnes 64
  match o with
  | 0x00 => if wide then s.run (execRcapmsg v) else s
  | 0x10 => if m.getLsbD 32 then s.run (execTalrtWrite (v.extractLsb' 32 32)) else s
  | 0x20 => if (v &&& m).getLsbD 31 then s.run execSvcFull else s
  | 0x30 =>
    if m.getLsbD 0 then { s with pkg := { x with ptpsrc := if 18 < fld v 0 5 then 18 else v.extractLsb' 0 5 } } else s
  | 0x40 => if m.getLsbD 0 then { s with pkg := { x with ptprate := v.extractLsb' 0 32 } } else s
  | 0x48 => if wide then s.run (execPtpstepWrite v) else s
  | 0x50 => { s with pkg := { x with mptroot := merge rootRw x.mptroot v m } }
  | 0x58 =>
    let s : State := { s with pkg := { x with mtlbinv := merge invRw x.mtlbinv v m, mtlbinvGo := x.mtlbinvGo || (v &&& m).getLsbD 63 } }
    if (v &&& m).getLsbD 63 then s.run execMtlbinv else s
  | 0x60 => ({ s with pkg := { x with mevbase := merge ringRw x.mevbase v m } } : State).flushMgmt
  | 0x68 => if m.getLsbD 32 then ({ s with pkg := { x with mevcons := v.extractLsb' 32 8 } } : State).flushMgmt else s
  | 0x70 =>
    let w := merge tfRw x.mtfres v m
    let s : State := { s with pkg := { x with mtfres := w } }
    if !(v &&& m).getLsbD 63 then s
    else if fld w 16 2 = 1 then s.run (execMtfresRetry (fld w 0 16))
    else if fld w 16 2 = 2 then s.run (execMtfresRefuse (fld w 0 16)) else s
  | _ => s

/-- R342: SYS.VILV of vault number `i`. -/
def State.writeVilv (s : State) (i : Nat) (v m : DWord) : State :=
  let s := if m.getLsbD 0 then s.run (execVilvWrite (i / 16) (i % 16) (v.extractLsb' 0 5)) else s
  if m.getLsbD 32 then s.run (execVilvWrite ((i + 1) / 16) ((i + 1) % 16) (v.extractLsb' 32 5)) else s

/-- R368. -/
def State.writeStack (s : State) (h o : Nat) (v m : DWord) : State :=
  if o ≠ 0 then s
  else
    let x := s.stack h
    let w := v &&& m
    s.putStack h { x with
      corr := x.corr &&& ~~~(w.extractLsb' 40 24), unc := x.unc &&& ~~~(w.extractLsb' 24 16)
      scrint := if m.getLsbD 0 then (if v.extractLsb' 0 8 = 0 then 1 else v.extractLsb' 0 8) else x.scrint }

/-- R297: a write of SYS.QCOLk of a die: every segment's bit, at once or when its lending ends. -/
def State.writeQcol (s : State) (d k : Nat) (v : Word) : State :=
  (List.range 32).foldl (fun s b => s.putColour (256 * d + (2 * k + b / 16) * 16 + b % 16) (v.getLsbD b)) s
/-- R296. -/
def State.writeDie (s : State) (d o : Nat) (v m : DWord) : State :=
  if o = 0 then
    let x := s.die d
    let x := if m.getLsbD 0 then
        { x with age := if fld v 24 5 < 10 then 10 else v.extractLsb' 24 5, rth := v.extractLsb' 16 8
                 rhyst := v.extractLsb' 8 8, rotq := v.extractLsb' 0 8 }
      else x
    s.putDie d { x with rotc := x.rotc &&& ~~~((v &&& m).extractLsb' 48 16) }
  else if 0x10 ≤ o ∧ o < 0x30 then
    let k := (o - 0x10) / 4
    let s := if m.getLsbD 0 then s.writeQcol d k (v.extractLsb' 0 32) else s
    if m.getLsbD 32 then s.writeQcol d (k + 1) (v.extractLsb' 32 32) else s
  else s

/-- R367: the bits of the counters that read 1; of what they count in the same clk nothing is lost. -/
def State.writeCerr (s : State) (c o : Nat) (v m : DWord) : State :=
  let w := v &&& m
  s.updCore c fun y =>
    if o = 0 then { y with corr := y.corr.clear ((w.extractLsb' 16 16).setWidth 64), repair := y.repair.clear ((w.extractLsb' 8 8).setWidth 64)
                           unc := y.unc.clear ((w.extractLsb' 0 8).setWidth 64) }
    else { y with vskip := y.vskip.clear w }

/-- The four entries of a scope register. -/
def scopeSet4 (t : Vector Byte 15) (k : Nat) (v : Word) : Vector Byte 15 :=
  Vector.ofFn fun i => if i.val / 4 = k then v.extractLsb' (8 * (i.val % 4)) 8 else t[i]
/-- R71, R303: SYS.SCOPEk. -/
def Core.writeScope (y : Core) (k : Nat) (v : Word) : Core :=
  { y with scope := scopeSet4 y.scope k v, scopeSet := y.scopeSet ||| (1#4 <<< k) }
def State.writeScope (s : State) (c o : Nat) (v m : DWord) : State :=
  s.updCore c fun y =>
    let y := if m.getLsbD 0 then y.writeScope (o / 4) (v.extractLsb' 0 32) else y
    if m.getLsbD 32 then y.writeScope (o / 4 + 1) (v.extractLsb' 32 32) else y

/-- A write of `v` under mask `m` to a granule, by a function that maps it. -/
def State.regWrite (s : State) (f : Func) (r : Reg) (v m : DWord) : State :=
  match r with
  | .mailbox c g => if s.blockOk f c then s.writeMailbox c g v m else s
  | .preempt c g => if s.blockOk f c then s.writePreempt c g v m else s
  | .part p o => s.writePartBy f p o v m
  | .seg g o => s.writeSeg g o v m
  | .tallow _ => s
  | .pkg o => s.writePkg o v m
  | .vilv i => s.writeVilv i v m
  | .stack h o => s.writeStack h o v m
  | .die d o => s.writeDie d o v m
  | .cerr c o => s.writeCerr c o v m
  | .park c => s.updCore c fun y => { y with parkBase := merge 0x01FFFFFFFFFFF000 y.parkBase v m }
  | .scope c o => s.writeScope c o v m
  | .none => s

/-- R346: a write of 4 or 8 bytes at an offset. -/
def State.ctlWrite (s : State) (f : Func) (off : Nat) (wide : Bool) (v : DWord) : State :=
  let r := regOf off
  if s.maps f r then s.regWrite f r (laneValue off wide v) (laneMask off wide) else s

def execControlRegisterWrite (by_ : Func) (off : Nat) (wide : Bool) (v : DWord) (s : State) : Out :=
  if ctlAligned off wide then .next (s.ctlWrite by_ off wide v) else .next s

end Sys2Proof.Machine
end

