-- ==== Sys2Proof/Machine/Integer.lean ====
section
/-! DEFINITION. Integer and relational forms (R106, R107, R144-R150). -/
namespace Sys2Proof.Machine

/-- A functional form over the domains of two sources (R106). -/
def State.setForm (s : State) (f : Dom → Dom → Dom) (d : DReg) (x : Src2) : Out := s.putD d (f (s.src1 x) (s.src2 x))
/-- A form over the values of two sources (R140, R148). -/
def State.valForm (s : State) (f : Word → Word → Word) (d : DReg) (x : Src2) : Out :=
  s.withVals (s.src1 x) (s.src2 x) fun a b => s.putD d (Dom.single (f a b))
/-- A form over the value of one source. -/
def State.valForm1 (s : State) (f : Word → Word) (d a : DReg) : Out :=
  s.withVal (s.rd a) fun x => s.putD d (Dom.single (f x))
/-- A compare of values (R146). -/
def State.cmpForm (s : State) (c : Cmp) (d : DReg) (x : Src2) : Out :=
  s.withVals (s.src1 x) (s.src2 x) fun a b => s.putD d (boolDom (c.holds a.toInt b.toInt))
/-- A relational post over DST and two sources. -/
def State.postForm (s : State) (op : RelOp) (d : DReg) (x : Src2) : Out := s.post op (x.opds d)

def execAdd (d : DReg) (x : Src2) (s : State) : Out := s.setForm Dom.addF d x
def execAddR (d : DReg) (x : Src2) (s : State) : Out := s.postForm .add d x
def execSub (d : DReg) (x : Src2) (s : State) : Out := s.setForm Dom.subF d x
def execSubR (d : DReg) (x : Src2) (s : State) : Out := s.postForm .sub d x
def execMul (d : DReg) (x : Src2) (s : State) : Out := s.valForm (fun a b => a * b) d x
def execMulR (d : DReg) (x : Src2) (s : State) : Out := s.postForm .mul d x

/-! ### The values of R148 -/

def mulhSigned (a b : Word) : Word := BitVec.ofInt 32 (Int.fdiv (a.toInt * b.toInt) (2 ^ 32))
def mulhUnsigned (a b : Word) : Word := BitVec.ofNat 32 (a.toNat * b.toNat / 2 ^ 32)
/-- q of DIV.S: truncation toward zero. -/
def quotient (a b : Int) : Int := (a * b).sign * (a.natAbs / b.natAbs : Nat)
def divSigned (a b : Word) : Word := if b = 0 then -1 else BitVec.ofInt 32 (quotient a.toInt b.toInt)
def divUnsigned (a b : Word) : Word := if b = 0 then -1 else BitVec.ofNat 32 (a.toNat / b.toNat)
def remSigned (a b : Word) : Word :=
  if b = 0 then a else BitVec.ofInt 32 (a.toInt - b.toInt * quotient a.toInt b.toInt)
def remUnsigned (a b : Word) : Word := if b = 0 then a else BitVec.ofNat 32 (a.toNat % b.toNat)
/-- s: the low five bits of the amount. -/
def amount (b : Word) : Nat := b.toNat % 32
def shlWord (a b : Word) : Word := BitVec.ofNat 32 (a.toNat * 2 ^ amount b)
def shrWord (a b : Word) : Word := BitVec.ofNat 32 (a.toNat / 2 ^ amount b)
def sraWord (a b : Word) : Word := BitVec.ofInt 32 (Int.fdiv a.toInt (2 ^ amount b))
def rotWord (a b : Word) : Word := BitVec.ofNat 32 (a.toNat * 2 ^ amount b + a.toNat / 2 ^ (32 - amount b))

/-- The number of leading zeros of the low `w` bits of a number, and the index of its least set bit; `w` for 0. -/
def leadingZeros (w n : Nat) : Nat :=
  ((List.range w).find? fun i => n.testBit (w - 1 - i)).getD w
def leastBit (w n : Nat) : Nat := ((List.range w).find? fun i => n.testBit i).getD w

def clzWord (a : Word) : Word := BitVec.ofNat 32 (leadingZeros 32 a.toNat)
def ffsWord (a : Word) : Word := BitVec.ofNat 32 (leastBit 32 a.toNat)
def popcWord (a : Word) : Word := BitVec.ofNat 32 (popCount a)
/-- The field of EXTS and EXTZ. -/
def fieldOf (a : Word) (pos width : Nat) : Nat := a.toNat / 2 ^ pos % 2 ^ width
def extsWord (pos width : Nat) (a : Word) : Word :=
  let f := fieldOf a pos width
  if 2 ^ (width - 1) ≤ f then BitVec.ofInt 32 ((f : Int) - 2 ^ width) else BitVec.ofNat 32 f
def extzWord (pos width : Nat) (a : Word) : Word := BitVec.ofNat 32 (fieldOf a pos width)

def execMulhS (d : DReg) (x : Src2) (s : State) : Out := s.valForm mulhSigned d x
def execMulhU (d : DReg) (x : Src2) (s : State) : Out := s.valForm mulhUnsigned d x
def execDivS (d : DReg) (x : Src2) (s : State) : Out := s.valForm divSigned d x
def execDivU (d : DReg) (x : Src2) (s : State) : Out := s.valForm divUnsigned d x
def execRemS (d : DReg) (x : Src2) (s : State) : Out := s.valForm remSigned d x
def execRemU (d : DReg) (x : Src2) (s : State) : Out := s.valForm remUnsigned d x
def execAnd (d : DReg) (x : Src2) (s : State) : Out := s.valForm (fun a b => a &&& b) d x
def execOr (d : DReg) (x : Src2) (s : State) : Out := s.valForm (fun a b => a ||| b) d x
def execXor (d : DReg) (x : Src2) (s : State) : Out := s.valForm (fun a b => a ^^^ b) d x
def execAndn (d : DReg) (x : Src2) (s : State) : Out := s.valForm (fun a b => a &&& ~~~b) d x
def execShl (d : DReg) (x : Src2) (s : State) : Out := s.valForm shlWord d x
def execShr (d : DReg) (x : Src2) (s : State) : Out := s.valForm shrWord d x
def execSra (d : DReg) (x : Src2) (s : State) : Out := s.valForm sraWord d x
def execRot (d : DReg) (x : Src2) (s : State) : Out := s.valForm rotWord d x
def execMin (d : DReg) (x : Src2) (s : State) : Out := s.setForm Dom.minF d x
def execMinR (d : DReg) (x : Src2) (s : State) : Out := s.postForm .min d x
def execMax (d : DReg) (x : Src2) (s : State) : Out := s.setForm Dom.maxF d x
def execMaxR (d : DReg) (x : Src2) (s : State) : Out := s.postForm .max d x
def execAbs (d a : DReg) (s : State) : Out := s.putD d (s.rd a).absF
def execAbsR (d a : DReg) (s : State) : Out := s.post .abs [.reg d, .reg a]
def execNeg (d a : DReg) (s : State) : Out := s.putD d (s.rd a).negF
def execNegR (d a : DReg) (s : State) : Out := s.post .neg [.reg d, .reg a]
def execClz (d a : DReg) (s : State) : Out := s.valForm1 clzWord d a
def execFfs (d a : DReg) (s : State) : Out := s.valForm1 ffsWord d a
def execPopc (d a : DReg) (s : State) : Out := s.valForm1 popcWord d a
/-- Any other position or width is illegal (R143, R148). -/
def execExts (d a : DReg) (pos : BitVec 5) (width : BitVec 6) (s : State) : Out :=
  if extOk pos width then s.valForm1 (extsWord pos.toNat width.toNat) d a else s.trapHere Code.illegal
def execExtz (d a : DReg) (pos : BitVec 5) (width : BitVec 6) (s : State) : Out :=
  if extOk pos width then s.valForm1 (extzWord pos.toNat width.toNat) d a else s.trapHere Code.illegal
/-- R149. -/
def execSel (d c a b : DReg) (s : State) : Out :=
  s.withVal (s.rd c) fun v => s.putD d (if v ≠ 0 then s.rd a else s.rd b)
def execCmpeq (d : DReg) (x : Src2) (s : State) : Out := s.cmpForm .eq d x
def execCmpeqR (d : DReg) (x : Src2) (s : State) : Out := s.postForm .eq d x
def execCmpne (d : DReg) (x : Src2) (s : State) : Out := s.cmpForm .ne d x
def execCmpneR (d : DReg) (x : Src2) (s : State) : Out := s.postForm .ne d x
def execCmplt (d : DReg) (x : Src2) (s : State) : Out := s.cmpForm .lt d x
def execCmpltR (d : DReg) (x : Src2) (s : State) : Out := s.postForm .lt d x
def execCmple (d : DReg) (x : Src2) (s : State) : Out := s.cmpForm .le d x
def execCmpleR (d : DReg) (x : Src2) (s : State) : Out := s.postForm .le d x
/-- R150: the registers Dn to D(n+m-1). -/
def alldRegs (d : DReg) (m : BitVec 4) : List Opd := (List.range m.toNat).map fun i => .reg (d + BitVec.ofNat 6 i)
def execAlld (d : DReg) (m : BitVec 4) (s : State) : Out :=
  if 2 ≤ m.toNat ∧ m.toNat ≤ 8 ∧ d.toNat + m.toNat ≤ 64 then s.post .alld (alldRegs d m) else s.trapHere Code.illegal

end Sys2Proof.Machine
end

