-- ==== Sys2Proof/Machine/Issue.lean ====
section
/-! DEFINITION. How the head entries of the load and store queues issue (R31, R44-R53, R63, R68-R72, R161-R167, R175, R179,
R181-R185, R308-R313, R374). -/
namespace Sys2Proof.Machine

/-! ### Values that return to registers (R162, R165) -/

/-- R162: the word that a loaded value of `n` bytes gives a domain register. -/
def loadWord (n : Nat) (zx : Bool) (v : DWord) : Word :=
  if n = 1 then (if zx then (v.setWidth 8).setWidth 32 else (v.setWidth 8).signExtend 32)
  else if n = 2 then (if zx then (v.setWidth 16).setWidth 32 else (v.setWidth 16).signExtend 32)
  else v.setWidth 32
/-- The result of an atomic. -/
def Strand.giveAtom (x : Strand) (f : AForm) (v : DWord) : Strand :=
  match f with
  | .s _ d _ => x.setD d (Dom.single (v.setWidth 32))
  | .a d _ => x.setA d v
/-- The value of an entry is written to its register. -/
def Strand.give (x : Strand) (i : Instr) (v : DWord) : Strand :=
  match i with
  | .ld w .ta dst _ _ => x.setA (dst.setWidth 5) (if w = .w64 then v else (v.setWidth 32).setWidth 64)
  | .ld w .ts dst _ _ => x.setD dst (Dom.single (loadWord w.bytes false v))
  | .ld w .tz dst _ _ => x.setD dst (Dom.single (loadWord w.bytes true v))
  | .ldWcell dst _ _ => x.setD dst (Dom.single (v.setWidth 32))
  | .atomAdd f _ => x.giveAtom f v
  | .atomMin f _ => x.giveAtom f v
  | .atomMax f _ => x.giveAtom f v
  | .atomAnd f _ => x.giveAtom f v
  | .atomOr f _ => x.giveAtom f v
  | .atomXor f _ => x.giveAtom f v
  | .atomXchg f _ => x.giveAtom f v
  | .atomCas (.s _ d _ _) _ => x.setD d (Dom.single (v.setWidth 32))
  | .atomCas (.a d _ _) _ => x.setA d v
  | _ => x
/-- R166: the results of a deque operation. -/
def Strand.giveDeque (x : Strand) (i : Instr) (status : Nat) (v : DWord) : Strand :=
  let x := match i with
    | .dqPop _ _ a => if status = 0 then x.setA a v else x
    | .dqSteal _ _ a => if status = 0 then x.setA a v else x
    | _ => x
  match i with
  | .dqPush d _ _ => x.setD d (Dom.single (BitVec.ofNat 32 status))
  | .dqPop d _ _ => x.setD d (Dom.single (BitVec.ofNat 32 status))
  | .dqSteal d _ _ => x.setD d (Dom.single (BitVec.ofNat 32 status))
  | _ => x

/-- R165: the new value of a location of `n` bytes. -/
def QEntry.update (e : QEntry) (n old : Nat) : Nat :=
  let v := e.v.toNat % 2 ^ (8 * n)
  match e.i with
  | .atomAdd _ _ => opOf 0 (8 * n) old v
  | .atomMin _ _ => opOf 1 (8 * n) old v
  | .atomMax _ _ => opOf 2 (8 * n) old v
  | .atomAnd _ _ => opOf 3 (8 * n) old v
  | .atomOr _ _ => opOf 4 (8 * n) old v
  | .atomXor _ _ => opOf 5 (8 * n) old v
  | .atomXchg _ _ => v
  | .atomCas _ _ => if old = e.c.toNat % 2 ^ (8 * n) then v else old
  | _ => old

/-! ### Issuing -/

/-- The queues of a strand issue. -/
def Strand.issues (x : Strand) : Bool :=
  x.st != .dormant && x.st != .frozen && x.st != .parked && !x.lease.again
/-- R31, R166, R221: a reel or deque operation of the strand has issued and its bank has not answered, or a near-memory entry has
issued and its unit, which may find poison, has not taken it: no later entry issues before the fault that it would be. -/
def Core.bankBusy (y : Core) (k : Nat) : Bool :=
  (y.flightsOf k).any fun f => f.st && (f.e.i.isReel || f.e.i.isDeque || ((nmKind f.e.i).isSome && f.reads.isEmpty && f.out.isNone)) && f.ans == .none

/-- R308, R311: the entry issues toward its place while the record and its tags have room. -/
def State.toRecord (s : State) (c : Nat) (k : Fin 9) (st : Bool) (e : QEntry) (cls : Cls) (l : List (Nat × Nat)) (p : Place) :
    State :=
  if (s.coreAt c).crowded then s
  else if cls = .tagged ∧ e.tag.isNone ∧ !(s.strandAt c k).tag.room then s
  else s.launchEntry c k st e cls l p

/-- The head entry leaves its queue. -/
def State.dropHead (s : State) (c : Nat) (k : Fin 9) (st : Bool) : State := s.updAt c k fun x => x.dropHead st

/-- R63, R163, R165: an access to an own place is performed as it issues; a load's value then returns. -/
def State.performOwn (s : State) (c : Nat) (k : Fin 9) (st : Bool) (e : QEntry) (l : List (Nat × Nat)) : State :=
  if !st then
    let s := s.meetFlaws c k.val l
    if (s.coreAt c).crowded then s
    else if s.poisonedChunks l then s.entryFault c k st e Code.poison
    else
      let v := BitVec.ofNat 64 (leNat (s.readChunks l))
      let n := (s.coreAt c).issueNo
      (s.launchEntry c k st e .pure l .scratch).updCore c fun y => y.answer n (.value v)
  else match e.i with
    | .st w _ _ _ => (s.storeChunks l (leBytes w.bytes e.v.toNat)).dropHead c k st
    | i =>
      let s := s.meetFlaws c k.val l
      if s.poisonedChunks l then s.entryFault c k st e Code.poison
      else
        let n := i.atomBytes.getD 0
        let old := leNat (s.readChunks l)
        ((s.storeChunks l (leBytes n (e.update n old))).dropHead c k st).updAt c k fun x => x.give i (BitVec.ofNat 64 old)

/-- R165: what the operand row of a row update is refused for. One that does not lie in the own scratchpad is an unsupported place,
whatever its address names: R165 says only that it must lie there (log entry 79, DESIGN CHOICE). -/
def State.rowOperand (s : State) (c : Nat) (a : DWord) : Option (BitVec 8) :=
  if rangeOf c a.toNat ≠ .scratch then some Code.unsupported
  else if a.toNat % 64 ≠ 0 then some Code.align
  else if s.poisoned (localKey c a.toNat) 64 then some Code.poison
  else none

/-- A load, store, atomic or bank operation issues (R161); a replayed entry reaches the bytes that it reached first
(R59, R320). -/
def State.issueAccess (s : State) (c : Nat) (k : Fin 9) (st : Bool) (e : QEntry) : State :=
  match s.aimAgain c e with
  | .cause x => s.entryFault c k st e x
  | .miss => s.updAt c k fun x => x.setHead st { e with held := .walk }
  | .violation => s.violate c k e.ea.toNat (if st then 5 else 4)
  | .control o => s.toRecord c k st e (if st then .tagged else .pure) [(2 ^ 57 + o, e.size)] .control
  | .go l p =>
    if p = .scratch ∨ p = .tile then s.performOwn c k st e l
    else match e.i with
      | .rowUpdate _ _ _ _ =>
        let s := s.meetFlaws c k.val (if rangeOf c e.v.toNat = .scratch then [(localKey c e.v.toNat, 64)] else [])
        match s.rowOperand c e.v with
        | some x => s.entryFault c k st e x
        | none => s.toRecord c k st { e with data := s.read (localKey c e.v.toNat) 64 } (e.cls p) l p
      | _ => s.toRecord c k st e (e.cls p) l p

/-- R164: a prefetch asks its vault, or has nothing to ask; what would fault is dropped, and so is one outside the partition's share,
which creates no event: R51 does not say that it is a violation (log entry 68, DESIGN CHOICE). A replayed one asks for the row that
it resolved first. -/
def State.issuePref (s : State) (c : Nat) (k : Fin 9) (e : QEntry) : State :=
  match (match e.ra with
    | some l => Reach.at l
    | none => s.reach c e.ea.toNat 1 false false) with
  | .miss _ => s.updAt c k fun x => x.setHead false { e with held := .walk }
  | .ats _ => s.updAt c k fun x => x.setHead false { e with held := .walk }
  | .at ((a, n) :: _) =>
    let s := if rangeOf c e.ea.toNat = .translated then s.fillCore c e.ea.toNat else s
    if a < hostBase then s.toRecord c k false e .pure [(a, n)] (placeOf c a) else s.dropHead c k false
  | _ => s.dropPref c k

/-- R313: what a watermark asked for comes to, counted forward from WMARK. -/
def TagRegs.bound (t : TagRegs) (w : BitVec 28) : BitVec 28 :=
  if (t.next - t.wmark).toNat < (w - t.wmark).toNat then t.next else w
/-- R167, R308, R313: RELTAG issues as a PURE entry once every TAGGED entry below its watermark has retired. -/
def State.issueReltag (s : State) (c : Nat) (k : Fin 9) (e : QEntry) : State :=
  let t := (s.strandAt c k).tag
  let w := t.bound (e.v.setWidth 28)
  let busy := ((s.coreAt c).openTags k).any fun g => decide ((g.seq - t.wmark).toNat < (w - t.wmark).toNat)
  if busy then s else s.toRecord c k true { e with v := w.setWidth 64 } .pure [] .scratch

/-- R25: a TREL at the head of its queue waits for room in the wheel, and its strand with it. -/
def Strand.awaitWheel (x : Strand) (e : QEntry) (step clk : Nat) : Strand :=
  let y := x.setHead true { e with held := .wheel (e.held.wheelSince.getD step) }
  if y.st = .ready ∧ y.wait = .none then y.waitFor .trel step clk else y
/-- R38, R184: while the wheel has room the record is read and checked as LREC does, and the release is entered; a strand waits for
room in the order in which it began to (R25, R191). -/
def State.issueTrel (s : State) (c : Nat) (k : Fin 9) (e : QEntry) : State :=
  let x := s.strandAt c k
  if 256 ≤ (s.coreAt c).wheel.length || (s.coreAt c).wheelBehind k then s.updAt c k fun x => x.awaitWheel e s.steps s.clk
  else if ((s.coreAt c).flightsOf k.val).any fun f => f.st && !f.done then s
  else if e.ea.toNat % 32 ≠ 0 then s.entryFault c k true e Code.loopRecord
  else
    let t := s.peeked c k.val e.ea.toNat 32
    match s.peek c e.ea.toNat 32 with
    | .bytes bs =>
      let r := BitVec.ofNat 256 (leNat bs)
      if !Rec.ok r then t.entryFault c k true e Code.loopRecord
      else
        let w : Release := { record := r, time := e.v, late := false, prio := x.prio, owner := x.owner }
        (t.dropHead c k true).updCore c fun y => y.schedule w s.pkg.ptp
    | .cause code => t.entryFault c k true e code
    | .wait => t
    | .violation => s.violate c k e.ea.toNat 5

/-- R22: the core of a strand number, and its slot. -/
def targetCore (t : DWord) : Nat := t.toNat % 2 ^ 14 / 8
def targetSlot (t : DWord) : Nat := t.toNat % 8
/-- R33, R34: the target lies outside the partition of core `c`. -/
def State.outside (s : State) (c : Nat) (t : DWord) : Bool := s.partOf (targetCore t) != s.partOf c

/-- R182: a REQ with its block at `e.ea`, aligned to `al`. -/
def State.issueReq (s : State) (c : Nat) (k : Fin 9) (e : QEntry) (al : Nat) : State :=
  if rangeOf c e.ea.toNat ≠ .scratch ∨ e.ea.toNat % al ≠ 0 then s.entryFault c k true e Code.align
  else if s.outside c e.v then s.violate c k e.ea.toNat 5
  else s.toRecord c k true e .tagged [(localKey c e.ea.toNat, 1)] (.port (targetCore e.v))

/-- R183: a SEND, its payload read as it issues, behind the accesses of the core that have issued to its place (R65) and once no
row of it is held or asleep (R18, R342, R353). A replayed one reads the bytes that it read first. -/
def State.issueSend (s : State) (c : Nat) (k : Fin 9) (e : QEntry) : State :=
  let go (l : List (Nat × Nat)) : State :=
    if s.outside c e.v then s.violate c k e.ea.toNat 5
    else if (s.coreAt c).pathBusy c l then s
    else
      let t := s.arriveAt c k.val l
      if s.heldUp c l then t
      else if s.poisonedChunks l then t.entryFault c k true e Code.poison
      else t.toRecord c k true { e with data := s.readChunks l } .tagged l (.port (targetCore e.v))
  if e.size = 0 then go []
  else match (match e.ra with
    | some l => if (l.map Prod.snd).sum = e.size then Reach.at l else s.reach c e.ea.toNat e.size false false
    | none => s.reach c e.ea.toNat e.size false false) with
    | .at l => go l
    | .cause x => s.entryFault c k true e x
    | .miss _ => s.updAt c k fun x => x.setHead true { e with held := .walk }
    | .ats _ => s.updAt c k fun x => x.setHead true { e with held := .walk }
    | .control _ => s.entryFault c k true e Code.align
    | .violation => s.violate c k e.ea.toNat 5

/-- R59, R320: a replayed near-memory entry keeps the tables that it resolved. -/
def State.nmAgain (s : State) (c : Nat) (n : NmKind) (d : Nat) (e : QEntry) : NmAim :=
  match e.ra with
  | some l =>
    if (l.map (·.2)).sum = ((Nm.tables n d).map (·.2)).sum then .go l ((l.head?.map fun x => x.1 / 2 ^ 37).getD 0) else s.nmAim c n d
  | none => s.nmAim c n d
/-- R220, R221: a near-memory entry, its descriptor and inputs read as it issues. -/
def State.issueNm (s : State) (c : Nat) (k : Fin 9) (e : QEntry) (n : NmKind) : State :=
  let a := e.ea.toNat
  if rangeOf c a ≠ .scratch ∨ a % 64 ≠ 0 then s.entryFault c k true e Code.nmDesc
  else
  let s := s.meetFlaws c k.val [(localKey c a, 64)]
  if s.poisoned (localKey c a) 64 then s.entryFault c k true e Code.poison
  else
    let d := s.readNat (localKey c a) 64
    let cells := if e.ra.isSome || !(Nm.fieldsOk n d && Nm.placesOk c n d) then []
      else (Nm.tables n d).flatMap fun t => s.tableCells c t.1 t.2
    if s.heldUp c cells then s.arriveAt c k.val cells
    else
    let s := s.arriveAt c k.val cells
    match s.nmAgain c n d e with
    | .fail code va =>
      if isTranslation code then s.holdFid c k true e code va
      else s.entryFault c k true { e with ea := if va = 0 then e.ea else BitVec.ofNat 64 va } code
    | .violation va => s.violate c k va 5
    | .go l h =>
      let s := s.meetFlaws c k.val ((Nm.inputs n d).map fun t => (localKey c t.1, t.2))
      if !s.nmClean c n d then s.entryFault c k true e Code.poison
      else s.toRecord c k true { e with data := s.nmInputs c n d } (if Nm.tagged n d then .tagged else .pure) l (.nmu h)

/-- The head entry, its order met. -/
def State.issueEntry (s : State) (c : Nat) (k : Fin 9) (st : Bool) (e : QEntry) : State :=
  let y := s.coreAt c
  match e.i with
  | .pref _ _ => s.issuePref c k e
  | .tkpost g =>
    let n := tokenIx 0 (engIx g)
    let x := s.strandAt c k
    if y.priorDone k e.po && x.badToken [n] then s.trapAt c k { Cause.plain Code.machine with seq := e.qseq } x.pc
    else if y.priorDone k e.po && x.canPush [n] then (s.dropHead c k true).updAt c k fun x => x.push [n] else s
  | .sigf n => if y.priorDone k e.po then (s.dropHead c k true).setFlag c n (strandNumber c k.val) 0 else s
  | .clrf n => (s.dropHead c k true).updCore c fun y => y.clearFlag s.clk n
  | .reltag _ => s.issueReltag c k e
  | .trel _ _ => s.issueTrel c k e
  | .reels _ => if y.priorDone k e.po then s.issueAccess c k st e else s
  | .reqMe _ _ => s.issueReq c k e 64
  | .reqVe _ _ => s.issueReq c k e 64
  | .reqCe _ _ => s.issueReq c k e 32
  | .send _ _ _ _ => s.issueSend c k e
  | i => match nmKind i with
    | some n => s.issueNm c k e n
    | none => s.issueAccess c k st e

/-- R68: the entries of the other queue for which an entry waits where they overlap. -/
def Strand.rivals (x : Strand) (st : Bool) (e : QEntry) : List QEntry :=
  if st then x.allQueued.ld.filter fun o => o.i.isLoad
  else if e.i.isPref then [] else x.allQueued.st
/-- R68, R306, R307: the queue is one FIFO: a handler's entry stands behind those that the cut set aside in it, which issue after RTT. -/
def Strand.behindCut (x : Strand) (st : Bool) (e : QEntry) : Bool := decide (x.trap.cutPo ≤ e.po) && !(x.asideQ st).isEmpty

/-- R306, R326: the head of the store queue that a REFUSE reached while its strand was stopped: its trap, in a handler a
double trap. -/
def State.headCause (s : State) (c : Nat) (k : Fin 9) (e : QEntry) : State :=
  let x := s.strandAt c k
  match e.held with
  | .cause code a =>
    if x.st == .dormant then s
    else (s.updAt c k fun y => y.setHead true { e with held := .taken }).trapAt c k
      { code := code, arg := 0, agent := 5, addr := a, seq := e.qseq, part := none } x.pc
  | _ => s

/-- R63, R68: the head entry of the load queue or the store queue of strand `k` of core `c` issues. -/
def execQueueEntryIssue (c k : Nat) (st : Bool) (s : State) : Out :=
  let ix := slotIx k
  let x := s.strandAt c ix
  if 8 ≤ k ∨ !x.issues then .next s
  else match x.queue st with
    | [] => .next s
    | e :: _ =>
      if !e.held.free then .next (if st then s.headCause c ix e else s)
      else if x.behindCut st e then .next s
      else match e.i with
        | .mark q => if (s.coreAt c).markerClear ix e.v.toNat q then .next (s.dropHead c ix st) else .next s
        | _ =>
          if (st && (s.coreAt c).bankBusy k) || (e.replay.isNone && (s.coreAt c).replaying k) ||
              (s.coreAt c).replayBefore k e.replay then .next s
          else if s.overlaps c e (x.rivals st e) then .next s
          else .next (s.issueEntry c ix st e)

end Sys2Proof.Machine
end

