-- ==== Sys2Proof/Machine/MemoryForms.lean ====
section
/-! DEFINITION. Loads, stores, prefetches, atomics, row updates and deque operations as they enter their queues
(R160-R166). -/
namespace Sys2Proof.Machine

/-- R162. -/
def execLd (w : Width) (t : TKind) (dst : BitVec 6) (base : AReg) (off : BitVec 20) (s : State) : Out :=
  s.enterLd (.ld w t dst base off) (s.ea base off) 0 0
/-- R162, the exact read of R55. -/
def execLdWcell (dst : DReg) (base : AReg) (off : BitVec 20) (s : State) : Out :=
  s.enterLd (.ldWcell dst base off) (s.ea base off) 0 0
/-- R164. -/
def execPref (base : AReg) (off : BitVec 20) (s : State) : Out :=
  s.enterLd (.pref base off) (s.ea base off) 0 0

/-- R163: the source of a store goes to its address. -/
def execSt (w : Width) (t : TKind) (base : AReg) (src : StSrc) (s : State) : Out :=
  let i := Instr.st w t base src
  match src, t with
  | .lit l, _ => s.enterSt i (s.ra base) (l.signExtend 64) 0
  | .reg r off, .ta => s.enterSt i (s.ea base off) (s.ra (r.setWidth 5)) 0
  | .reg r off, _ => s.withVal (s.rd r) fun v => s.enterSt i (s.ea base off) (v.setWidth 64) 0

/-- R165: an atomic with one operand. -/
def State.atom (s : State) (i : Instr) (f : AForm) (base : AReg) : Out :=
  match f with
  | .s _ _ v => s.withVal (s.srcV v) fun w => s.enterSt i (s.ra base) (w.setWidth 64) 0
  | .a _ v => s.enterSt i (s.ra base) (s.srcA v) 0

def execAtomAdd (f : AForm) (base : AReg) (s : State) : Out := s.atom (.atomAdd f base) f base
def execAtomMin (f : AForm) (base : AReg) (s : State) : Out := s.atom (.atomMin f base) f base
def execAtomMax (f : AForm) (base : AReg) (s : State) : Out := s.atom (.atomMax f base) f base
def execAtomAnd (f : AForm) (base : AReg) (s : State) : Out := s.atom (.atomAnd f base) f base
def execAtomOr (f : AForm) (base : AReg) (s : State) : Out := s.atom (.atomOr f base) f base
def execAtomXor (f : AForm) (base : AReg) (s : State) : Out := s.atom (.atomXor f base) f base
def execAtomXchg (f : AForm) (base : AReg) (s : State) : Out := s.atom (.atomXchg f base) f base
/-- R165: compare and swap carries the value and the compare value. -/
def execAtomCas (f : CasForm) (base : AReg) (s : State) : Out :=
  match f with
  | .s _ _ v c => s.withVals (s.rd v) (s.rd c) fun x y =>
      s.enterSt (.atomCas f base) (s.ra base) (x.setWidth 64) (y.setWidth 64)
  | .a _ v c => s.enterSt (.atomCas f base) (s.ra base) (s.ra v) (s.ra c)
/-- R165, FADDX. -/
def execAtomFaddx (base : AReg) (v : SrcV) (s : State) : Out :=
  s.withVal (s.srcV v) fun w => s.enterSt (.atomFaddx base v) (s.ra base) (w.setWidth 64) 0
/-- R165: a row update carries the address of its operand row, which is read when the entry issues. -/
def execRowUpdate (op : AOp) (wide : Bool) (base : AReg) (row : SrcA) (s : State) : Out :=
  s.enterSt (.rowUpdate op wide base row) (s.ra base) (s.srcA row) 0

/-- R166. -/
def execDqPush (d : DReg) (h v : AReg) (s : State) : Out := s.enterSt (.dqPush d h v) (s.ra h) (s.ra v) 0
def execDqPop (d : DReg) (h v : AReg) (s : State) : Out := s.enterSt (.dqPop d h v) (s.ra h) 0 0
def execDqSteal (d : DReg) (h v : AReg) (s : State) : Out := s.enterSt (.dqSteal d h v) (s.ra h) 0 0

end Sys2Proof.Machine
end

