-- ==== Sys2Proof/Machine/Perform.lean ====
section
/-! DEFINITION. How issued accesses are performed at their places, answered, and retired (R30-R34, R52-R57, R63, R65, R78,
R80, R162, R165, R166, R220, R221, R307, R308, R312, R313, R342, R346, R353). -/
namespace Sys2Proof

/-- The strand of an entry goes on once its reel operation lets it. -/
def Instr.releasedFrom : Instr → Option Machine.Wait
  | .reelj _ => some .reelHeld
  | .reels _ => some .reelPhase
  | .reqMe _ _ => some .accept
  | .reqVe _ _ => some .accept
  | .reqCe _ _ => some .accept
  | .send _ _ _ _ => some .accept
  | _ => none

end Sys2Proof

namespace Sys2Proof.Machine

/-! ### Answers -/

/-- R30, R181, R306: the bank holds the join of the entry at position `po`: its strand waits, at once or once its handler
returns. One that waits at a word keeps that wait, and issues nothing either (`Core.joinHeld`). -/
def Strand.holdJoin (x : Strand) (po step clk : Nat) : Strand :=
  if x.trap.hm ∧ po < x.trap.cutPo then
    if x.trap.ret = .ready then { x with trap := { x.trap with ret := .waiting, retWait := .reelHeld } } else x
  else if x.st = .ready then x.waitFor .reelHeld step clk
  else x
/-- R243: the chain whose atomic action took the tag goes on. -/
def Strand.hitAtom (x : Strand) (tag : Option Tag) : Strand :=
  let hit (u : Option Cursor) : Option Cursor := u.map fun v =>
    { v with atom := v.atom.map fun a => if a.tag = tag then { a with hit := true } else a }
  { x with curCe := hit x.curCe
           trap := { x.trap with aside := x.trap.aside.map fun a => (a.1, a.2.1, a.2.2.1, hit a.2.2.2) } }
/-- Access `f` of core `c` has been performed with an answer. -/
def State.answerTo (s : State) (c : Nat) (f : Flight) (a : Answer) : State :=
  let s := s.updCore c fun y => y.answer f.n a
  let s := if f.e.i.isStrike then s.updAt c (slotIx f.slot) fun x => x.hitAtom f.tag else s
  match f.e.i.releasedFrom, a with
  | some w, .go => s.updAt c (slotIx f.slot) fun x => x.wake w
  | some .reelHeld, .wait => s.updAt c (slotIx f.slot) fun x => x.holdJoin f.e.po s.steps s.clk
  | _, _ => s

/-! ### Refused entries (R31, R56, R307, R365) -/

/-- An entry that a place refused stands in its queue again, at its point of po. -/
def insertEntry (e : QEntry) : List QEntry → List QEntry
  | [] => [e]
  | a :: l => if a.po < e.po then a :: insertEntry e l else e :: a :: l
def Queues.putBack (q : Queues) (st : Bool) (e : QEntry) : Queues :=
  if st then { q with st := insertEntry e q.st } else { q with ld := insertEntry e q.ld }

/-- An atomic action that its place has refused issues again with its chain alone. -/
def Strand.dropStrike (x : Strand) (tag : Option Tag) : Strand :=
  let drop (u : Option Cursor) : Option Cursor := u.map fun v =>
    { v with atom := v.atom.map fun a => if a.tag = tag then { a with replay := none } else a }
  { x with curCe := drop x.curCe
           trap := { x.trap with aside := x.trap.aside.map fun a => (a.1, a.2.1, a.2.2.1, drop a.2.2.2) } }
/-- R245, R246: the place refuses an atomic action of the CE: the fault is taken at its entry. One whose chain a cut has stopped
issues again when the chain goes on. -/
def State.refuseStrike (s : State) (c : Nat) (f : Flight) (code : BitVec 8) : State :=
  let k := slotIx f.slot
  let s := (s.updAt c k fun x => x.dropStrike f.tag).updCore c fun y => { y with flights := y.flights.filter fun g => g.n != f.n }
  let x := s.strandAt c k
  match x.curCe with
  | some u =>
    if u.atom.map (·.tag) = some f.tag ∧ x.st ≠ .frozen ∧ x.st ≠ .parked then
      { s with core := c, slot := k }.ceFail u (Fail.at' code f.e.ea.toNat)
    else s
  | none => s

/-- R307: the entry is held again under its tag; the trap of a store-queue entry is taken at once, in a handler as a double
trap (R306), unless its strand is stopped; a load traps once it is needed, and issues again behind a cut. It reaches the bytes
again that it reached first (R59). -/
def State.refuseEntry (s : State) (c : Nat) (f : Flight) (code : BitVec 8) (agent : BitVec 3) : State :=
  let k := slotIx f.slot
  let x := s.strandAt c k
  let s := s.updCore c fun y => { y with flights := y.flights.filter fun g => g.n != f.n }
  let cause := Held.cause code f.e.ea
  let e : QEntry := { f.e with tag := f.tag, held := .taken, data := [], ra := some f.ra, replay := none }
  let stopped := x.st == .frozen || x.st == .parked
  if x.trap.cut && decide (f.e.po < x.trap.cutPo) then
    let s := s.updAt c k fun x => { x with trap := { x.trap with aside := x.trap.aside.map fun a => (a.1.putBack f.st e, a.2) } }
    if !f.st || stopped then s
    else s.trapAt c k { code := code, arg := 0, agent := agent, addr := e.ea, seq := e.qseq, part := none } x.pc
  else if !f.st then
    s.updAt c k fun x => { x with q := x.q.putBack false { e with held := cause } }
  else
    let s := s.updAt c k fun x => { x with q := x.q.putBack true { e with held := if stopped then cause else .taken } }
    if stopped then s
    else s.trapAt c k { code := code, arg := 0, agent := agent, addr := e.ea, seq := e.qseq, part := none } x.pc

/-! ### Operations of the bank (R30-R32, R52-R56) -/

/-- What a place makes of an operation: the state after it with its answer, or the cause for which it refuses it. -/
abbrev Act := Except (BitVec 8) (State × Answer)

/-- R52: a row update, element by element. -/
def rowUpdate (op : AOp) (wide : Bool) (old new : Nat) : Nat :=
  let w := if wide then 64 else 32
  let code := match op with
    | .add => 0
    | .min => 1
    | .max => 2
    | .and => 3
    | .or => 4
    | .xor => 5
  ((List.range (512 / w)).map fun i => opOf code w (old / 2 ^ (w * i) % 2 ^ w) (new / 2 ^ (w * i) % 2 ^ w) * 2 ^ (w * i)).sum

/-- R31, R56, R374: a deque operation on the header at a key: 0 push, 1 pop, 2 steal. A layout that can be read goes before a live
reel cell, and that before poison. -/
def State.dequeOp (s : State) (key op : Nat) (v : DWord) : Act :=
  if s.poisoned key 16 then .error (if s.inReel [(key, 16)] then Code.reel else Code.poison)
  else
    let h := s.readNat key 16
    let cap := h / 2 ^ 64 % 2 ^ 16
    let bottom := h / 2 ^ 32 % 2 ^ 32
    let top := h % 2 ^ 32
    let n := (bottom + 2 ^ 32 - top) % 2 ^ 32
    if cap = 0 ∨ 4095 < cap ∨ 65536 < (key - ballBase) % 65536 + 16 + 8 * cap ∨ h / 2 ^ 80 ≠ 0 ∨ cap < n then .error Code.deque
    else if s.inReel [(key, 16)] then .error Code.reel
    else
      let slot (i : Nat) : Nat := key + 16 + 8 * (i % cap)
      let ends (b t : Nat) : Nat := cap * 2 ^ 64 + b % 2 ^ 32 * 2 ^ 32 + t % 2 ^ 32
      if op = 0 then
        if n = cap then .ok (s, .deque 1 0)
        else .ok ((s.writeNat (slot bottom) 8 v.toNat).writeNat key 16 (ends (bottom + 1) top), .deque 0 0)
      else if n = 0 then .ok (s, .deque 2 0)
      else
        let i := if op = 1 then (bottom + 2 ^ 32 - 1) % 2 ^ 32 else top
        if s.poisoned (slot i) 8 then .error Code.poison
        else
          let x := BitVec.ofNat 64 (s.readNat (slot i) 8)
          .ok (s.writeNat key 16 (if op = 1 then ends i top else ends bottom (top + 1)), .deque 0 x)

/-- R30: a reel cell. -/
structure Reel where
  phase : Nat
  members : Nat
  arrived : Nat
  pendj : Nat
deriving DecidableEq, Repr

def Reel.ofCell (v : Nat) : Reel :=
  { phase := v / 2 ^ 96 % 2 ^ 32, members := v / 2 ^ 80 % 2 ^ 16, arrived := v / 2 ^ 64 % 2 ^ 16, pendj := v / 2 ^ 48 % 2 ^ 16 }
def Reel.cell (r : Reel) : Nat :=
  r.phase % 2 ^ 32 * 2 ^ 96 + r.members % 2 ^ 16 * 2 ^ 80 + r.arrived % 2 ^ 16 * 2 ^ 64 + r.pendj % 2 ^ 16 * 2 ^ 48
def Reel.zero : Reel := { phase := 0, members := 0, arrived := 0, pendj := 0 }
/-- R31: stores to the cell are refused. -/
def Reel.live (r : Reel) : Bool := r.members != 0 || r.pendj != 0

/-- The cell written, and its standing among the live ones: what a reel operation left live is a reel cell, and bytes that plain
stores made are none (log entry 60, DESIGN CHOICE). -/
def State.putReel (s : State) (key : Nat) (r : Reel) : State :=
  let others := s.reels.filter (· != key)
  { s.writeNat key 16 r.cell with reels := if r.live then key :: others else others }

/-- R30, R32: the pending phase completes: one release along each return path, arrivals first, and the tags marked. -/
def State.completeReel (s : State) (key : Nat) (r : Reel) : State :=
  let mine := s.reelWaits.filter fun w => w.cell == key
  let out := (mine.filter fun w => !w.join) ++ mine.filter fun w => w.join
  let s := s.putReel key { phase := (r.phase + 1) % 2 ^ 32, members := (r.members + r.pendj) % 2 ^ 16, arrived := 0, pendj := 0 }
  { s with
    reelWaits := s.reelWaits.filter fun w => w.cell != key
    releases := s.releases ++ out
    tags := s.tags.map fun (t : TagRec) => if out.any fun w => w.tag == t.tag then { t with released := true } else t }

/-- R30, R31: a reel operation of access `f` of core `c`. -/
def State.reelOp (s : State) (c : Nat) (f : Flight) (key : Nat) : Act :=
  if s.poisoned key 16 then .error Code.poison
  else
    let r := Reel.ofCell (s.readNat key 16)
    let wait (join : Bool) : ReelWait :=
      { cell := key, join := join, tag := f.tag.getD { ctx := 0, seq := 0 }, core := c, n := f.n }
    match f.e.i with
    | .reelj _ =>
      if r.members = 0 ∧ r.pendj = 0 then .ok (s.putReel key { Reel.zero with members := 1 }, .go)
      else if 65535 < r.members + r.pendj + 1 then .error Code.reel
      else if 0 < r.arrived then
        .ok ({ s.putReel key { r with pendj := r.pendj + 1 } with reelWaits := s.reelWaits ++ [wait true] }, .wait)
      else .ok (s.putReel key { r with members := r.members + 1 }, .go)
    | .reels _ =>
      if r.members = 0 ∧ r.pendj = 0 then .error Code.reel
      else
        let r := { r with arrived := r.arrived + 1 }
        let s : State := { s.putReel key r with reelWaits := s.reelWaits ++ [wait false] }
        .ok (if r.arrived = r.members then s.completeReel key r else s, .wait)
    | _ =>
      if r.members = 0 ∧ r.pendj = 0 then .error Code.reel
      else
        let r := { r with members := (r.members + 65535) % 65536 }
        if r.members = 0 then .ok (s.putReel key Reel.zero, .go)
        else if 0 < r.arrived ∧ r.arrived = r.members then .ok (s.completeReel key r, .go)
        else .ok (s.putReel key r, .go)

/-! ### Accesses of several events (R64, R76, R220) -/

/-- R64, R220: a load or store that is not naturally aligned is a set of byte events, and the table reads, the results and the row
updates of a near-memory entry are row events (log entry 12, DESIGN CHOICE). -/
def Flight.several (f : Flight) : Bool :=
  match f.e.i with
  | .ld w _ _ _ _ => f.e.ea.toNat % w.bytes != 0
  | .st w _ _ _ => f.e.ea.toNat % w.bytes != 0
  | _ => (nmKind f.e.i).isSome
/-- R220: the near-memory unit has taken the entry: its reads have begun, and it meets no poison any more. -/
def Flight.nmOpen (f : Flight) : Bool := (nmKind f.e.i).isSome && (!f.reads.isEmpty || f.out.isSome)
/-- What the reads of an access bind: each byte as it stands at one of the moments. -/
def State.bind (s : State) (f : Flight) : List Byte :=
  if f.reads.isEmpty then s.readChunks f.ra else (chunkKeys f.ra).map fun k => (s.moment f.reads k).byte k
/-- The write events of an access of several. -/
def State.writes (s : State) (c : Nat) (f : Flight) : List Put :=
  match f.e.i, nmKind f.e.i with
  | .st w _ _ _, _ => ((chunkKeys f.ra).zip (leBytes w.bytes f.e.v.toNat)).map fun p => .bytes p.1 [p.2]
  | _, some k => s.nmWrite c k f
  | _, none => []
/-- R312: its write events that are left; the first of them goes with its tag. -/
def State.openWrites (s : State) (c : Nat) (f : Flight) : State × List Put :=
  match f.out, f.tag with
  | some l, _ => (s, l)
  | none, some g => (s.recordTag c f.place g, s.writes c f)
  | none, none => (s, s.writes c f)
/-- Flight `n` of a core changed. -/
def Core.setFlight (y : Core) (n : Nat) (g : Flight → Flight) : Core :=
  { y with flights := y.flights.map fun f => if f.n = n then g f else f }
/-- One more moment of the reads of an access. -/
def State.readPart (s : State) (c : Nat) (f : Flight) : State :=
  s.updCore c fun y => y.setFlight f.n fun g => { g with reads := g.reads ++ [(s.steps, s.mem)] }
/-- One write event of an access. -/
def State.writePiece (s : State) (c : Nat) (f : Flight) : State :=
  let r := s.openWrites c f
  let p := nextPut r.2 s.steps
  let t := match p with
    | some p => r.1.put p
    | none => r.1
  t.updCore c fun y => y.setFlight f.n fun g => { g with out := some (match p with
    | some p => r.2.erase p
    | none => r.2) }
/-- R80, R220, R312: the rest of an access of several events: it is performed, its tag has its result, its flag is set. -/
def State.finishAccess (s : State) (c : Nat) (f : Flight) : State :=
  let r := s.openWrites c f
  let t := r.1.putAll r.2
  let t := match f.tag with
    | some g => t.tagResult f.place g .go
    | none => t
  (t.nmFlag c f).answerTo c f .go
/-- R219-R221: the near-memory unit takes an entry. One of whose rows is poisoned is refused, PKA with every other row updated and
its tag recorded; of the others the reads begin, and PKA's tag is recorded with its updates accepted. Poison that appears later is not
met (log entry 84, DESIGN CHOICE). -/
def State.nmBegin (s : State) (c : Nat) (k : NmKind) (f : Flight) : State :=
  let bad := s.poisonedChunks f.reached
  if k = .pka then
    let r := s.openWrites c f
    if bad then
      let t := r.1.putAll (r.2.filter fun p => !s.poisoned p.key 64)
      (match f.tag with
        | some g => t.tagResult f.place g (.trap Code.poison)
        | none => t).refuseEntry c f Code.poison 6
    else r.1.updCore c fun y => y.setFlight f.n fun g => { g with out := some r.2 }
  else if bad then s.refuseEntry c f Code.poison 6
  else s.readPart c f

/-! ### One access at its place (R52, R63, R78) -/

/-- An operation that reads its location and writes `f` of it. -/
def State.rmw (s : State) (l : List (Nat × Nat)) (n : Nat) (f : Nat → Nat) (ans : Nat → Answer) : Act :=
  if s.inReel l then .error Code.reel
  else if s.poisonedChunks l then .error Code.poison
  else
    let old := leNat (s.readChunks l)
    .ok (s.storeChunks l (leBytes n (f old)), ans old)

/-- Access `f` of core `c` performed in memory. -/
def State.act (s : State) (c : Nat) (f : Flight) : Act :=
  let l := f.ra
  let key := (l.head?.map (·.1)).getD 0
  match f.e.i with
  | .ld _ _ _ _ _ => if s.poisonedChunks l then .error Code.poison else .ok (s, .value (BitVec.ofNat 64 (leNat (s.bind f))))
  | .ldWcell _ _ _ =>
    if s.poisonedChunks l then .error Code.poison else .ok (s, .value ((readCell (leNat (s.readChunks l))).setWidth 64))
  | .pref _ _ => .ok (s, .go)
  | .cpost e => s.rmw l 4 (Chain.post e) fun old => .value (BitVec.ofNat 64 old)
  | .catom e => s.rmw l (Chain.elem e) (Chain.update e) fun old => .value (BitVec.ofNat 64 old)
  | .cnop _ => .ok (if s.inReel l then s else s.storeChunks l f.e.data, .go)
  | .st w _ _ _ => if s.inReel l then .error Code.reel else .ok (s.storeChunks l (leBytes w.bytes f.e.v.toNat), .go)
  | .rowUpdate op wide _ _ => s.rmw l 64 (fun old => rowUpdate op wide old (leNat f.e.data)) fun _ => .go
  | .atomFaddx _ _ => s.rmw l 64 (fun old => faddX old (f.e.v.setWidth 32)) fun _ => .go
  | .dqPush _ _ _ => s.dequeOp key 0 f.e.v
  | .dqPop _ _ _ => s.dequeOp key 1 0
  | .dqSteal _ _ _ => s.dequeOp key 2 0
  | i =>
    if i.isReel then s.reelOp c f key
    else match i.atomBytes with
      | some n => s.rmw l n (f.e.update n) fun old => .value (BitVec.ofNat 64 old)
      | none => .ok (s, .go)

/-- R307: the agent that reports what a place refuses. -/
def Flight.agent (f : Flight) : BitVec 3 := if (nmKind f.e.i).isSome then 6 else if f.st then 5 else 4

/-- R312: an access of one event, or one performed at one moment, is applied, its tag recorded in the same action. -/
def State.applyWhole (s : State) (c : Nat) (f : Flight) : State :=
  match f.tag with
  | none => match s.act c f with
    | .ok (t, a) => t.answerTo c f a
    | .error code => if f.e.i.isStrike then s.refuseStrike c f code else s.refuseEntry c f code f.agent
  | some g => match (s.recordTag c f.place g).act c f with
    | .ok (t, a) => (t.tagResult f.place g a).answerTo c f a
    | .error code => if f.e.i.isStrike then s.refuseStrike c f code else s.refuseEntry c f code f.agent
/-- The access is applied; the near-memory unit first takes its entry. -/
def State.apply (s : State) (c : Nat) (f : Flight) : State :=
  match nmKind f.e.i with
  | some k => if f.nmOpen then s.finishAccess c f else s.nmBegin c k f
  | none => if f.out.isSome then s.finishAccess c f else s.applyWhole c f

/-- R32, R312: a place that has recorded the tag answers without applying the entry again; an arrival or a join that still
waits takes its new return path. -/
def State.replayed (s : State) (c : Nat) (f : Flight) (r : TagRec) : State :=
  if r.released then s.answerTo c f .go
  else match r.ans with
    | .wait =>
      let turn (w : ReelWait) : ReelWait := if w.tag = r.tag then { w with core := c, n := f.n } else w
      { s with reelWaits := s.reelWaits.map turn }.answerTo c f .wait
    | .trap _ => (s.nmFlag c f).answerTo c f .go
    | a => (s.nmFlag c f).answerTo c f a

/-- An access that arrives at a place in memory; one whose writes have begun has its tag recorded. -/
def State.arrive (s : State) (c : Nat) (f : Flight) : State :=
  match f.out, f.tag with
  | some _, _ => s.apply c f
  | none, none => s.apply c f
  | none, some g => match s.tagFound f.place g with
    | some r => s.replayed c f r
    | none => if s.tagRoom c f.place then s.apply c f else s.spillEvent c
/-- R64: a moment of an access of several events: of its reads, or with `write` of one of its write events. What a place answers or
refuses whole, and what the near-memory unit has still to take, arrives as it would at once. -/
def State.arrivePart (s : State) (c : Nat) (write : Bool) (f : Flight) : State :=
  let whole : Bool := f.out.isNone && (s.inReel f.ra || (match f.tag with
    | some g => (s.tagFound f.place g).isSome || !s.tagRoom c f.place
    | none => false))
  match f.e.i, nmKind f.e.i with
  | .st _ _ _ _, _ => if !f.several || !write then s else if whole then s.arrive c f else s.writePiece c f
  | .ld _ _ _ _ _, _ => if !f.several || write then s else s.readPart c f
  | _, some _ =>
    if !f.nmOpen then s.arrive c f
    else if write then
      (if f.out.isNone && (match f.tag with
        | some _ => !s.tagRoom c f.place
        | none => false) then s.spillEvent c else s.writePiece c f)
    else if f.out.isNone then s.readPart c f else s
  | _, none => s

/-! ### The way to a place (R18, R65, R342, R353) -/

/-- R56: the entry that a deque operation pushes, pops or steals, where its header names one. -/
def State.dequeSlot (s : State) (f : Flight) : List (Nat × Nat) :=
  let key := (f.ra.head?.map (·.1)).getD 0
  let h := s.readNat key 16
  let cap := h / 2 ^ 64 % 2 ^ 16
  let bottom := h / 2 ^ 32 % 2 ^ 32
  let slot (i : Nat) : List (Nat × Nat) := if cap = 0 then [] else [(key + 16 + 8 * (i % cap), 8)]
  match f.e.i with
  | .dqPush _ _ _ => slot bottom
  | .dqPop _ _ _ => slot (bottom + 2 ^ 32 - 1)
  | .dqSteal _ _ _ => slot (h % 2 ^ 32)
  | _ => []
/-- R370: the chunks that an access of the management core has written, once its place has taken it, `slot` the entry of its
deque. -/
def State.wrote (s : State) (f : Flight) (slot : List (Nat × Nat)) : List (Nat × Nat) :=
  match (s.coreAt mgmtCore).flights.find? fun g => g.n == f.n with
  | some g =>
    if !f.e.i.isWrite || !(g.done || g.out.isSome) then []
    else match g.ans, f.e.i with
      | .deque status _, .dqPush _ _ _ => if status = 0 then f.ra ++ slot else []
      | .deque status _, _ => if status = 0 then f.ra else []
      | _, _ => f.ra
  | none => []
/-- An access that is not a REQ, a SEND or one of the control space, once no row that it reaches is held or asleep; `go` is what it
does at its place. -/
def State.atMemory (s : State) (c : Nat) (f : Flight) (go : State → State) : State :=
  let l := f.reached
  if s.dmaStopped c f.place || s.holdsAny true l then s
  else
    let r := s.touchAll l
    let slot := r.1.dequeSlot f
    if r.2 then
      let t := go (if f.e.i.isPref then r.1 else r.1.meetFlaws c f.slot (l ++ slot))
      if c = mgmtCore then t.keyed (t.wrote f slot) else t
    else r.1

/-- R345, R346: a load or store of the management core at the control space. -/
def State.atControl (s : State) (c : Nat) (f : Flight) : State :=
  let off := (f.ra.head?.map fun x => x.1 - 2 ^ 57).getD 0
  match f.e.i with
  | .st w _ _ _ => (s.ctlWrite .mgmt off (w == .w64) f.e.v).answerTo c f .go
  | .ld w _ _ _ _ => s.answerTo c f (.value (s.ctlRead .mgmt off (w == .w64)))
  | _ => s.answerTo c f .go

/-- The REQ or SEND stands in the network already. -/
def State.sent (s : State) (c : Nat) (f : Flight) : Bool :=
  let src := (c, f.slot, f.n)
  (s.net.any fun r => r.src == src) || (s.coreAt (targetCore f.e.v)).messages.any fun m => m.src == src

/-- R33, R34: a REQ or SEND reaches its target's port and waits there to be accepted. -/
def State.atPort (s : State) (c : Nat) (f : Flight) : State :=
  let t := targetCore f.e.v
  let req (g : Eng) : State :=
    { s with net := s.net ++ [{ src := (c, f.slot, f.n), core := t, slot := targetSlot f.e.v, eng := g, addr := f.e.ea,
                                since := s.steps }] }
  if (f.tag.bind fun g => s.tagFound f.place g).isSome then s.answerTo c f .go
  else if s.sent c f then s
  else match f.e.i with
    | .reqMe _ _ => req .me
    | .reqVe _ _ => req .ve
    | .reqCe _ _ => req .ce
    | .send _ _ _ h =>
      let x := s.strandAt c (slotIx f.slot)
      let m : Message := { payload := f.e.data, handler := h.setWidth 17 <<< 3, prio := x.prio, owner := x.owner, src := (c, f.slot, f.n) }
      s.updCore t fun y => { y with messages := y.messages ++ [m] }
    | _ => s

/-- R64: rows that one repetition or unit has written are a set of events in no order, but for bytes that it wrote twice. -/
def Flight.oneSet (f g : Flight) : Bool :=
  f.cls == .resumable && g.cls == .resumable && f.slot == g.slot && f.e.po == g.e.po && !chunksMeet f.ra g.ra
/-- R220, R263: a near-memory unit that has taken one entry takes the next, but for a PKA behind a PKA, whose updates of a row keep
their order. -/
def Flight.passes (f g : Flight) : Bool := g.nmOpen && !(nmKind g.e.i == some .pka && nmKind f.e.i == some .pka)
/-- R65: an earlier access of the core to the same place has not been performed. -/
def State.behindPath (s : State) (c : Nat) (f : Flight) : Bool :=
  (s.coreAt c).flights.any fun g =>
    (g.places c).any (f.places c).contains && decide (g.n < f.n) && !g.done && !s.sent c g && !f.passes g && !f.oneSet g

/-- R313: a watermark arrives at every place: it releases the tags below it, becomes WMARK and sets AUTO; one that WMARK
has passed in the meantime releases nothing. -/
def State.performReltag (s : State) (c : Nat) (f : Flight) : State :=
  let k := slotIx f.slot
  let t := (s.strandAt c k).tag
  let w : BitVec 28 := f.e.v.setWidth 28
  let s := if (w - t.wmark).toNat ≤ (t.next - t.wmark).toNat then s.watermark c k w else s
  (s.updAt c k fun x => { x with tag := { x.tag with auto := true } }).answerTo c f .go

/-- R57: the bank of a deque operation. -/
def Flight.dequeBank (f : Flight) : Option Nat :=
  match f.place with
  | .bank b => if f.e.i.isDeque then some b else none
  | _ => none
/-- R57: an owner's operation that comes in the clk of a steal at its bank is taken after it, in a later clk. -/
def State.afterSteal (s : State) (f : Flight) : Bool :=
  match f.e.i, f.dequeBank with
  | .dqSteal _ _ _, _ => false
  | _, some b => SMap.get 0 s.steals b == s.clk + 1
  | _, none => false
/-- R57: a steal marks its bank for the clk. -/
def State.markSteal (s : State) (f : Flight) : State :=
  match f.e.i, f.dequeBank with
  | .dqSteal _ _ _, some b => { s with steals := SMap.put s.steals b (s.clk + 1) }
  | _, _ => s

/-- What keeps an access from being performed now: it has been, an earlier one goes first, or the unit of its entry would write into
a core that is dark (R49, R298). -/
def State.stays (s : State) (c : Nat) (f : Flight) : Bool :=
  f.done || s.behindPath c f || s.afterSteal f || ((s.coreAt c).dark && (nmKind f.e.i).isSome)
/-- R63: access `n` of core `c` is performed at its place. -/
def execAccessPerform (c n : Nat) (s : State) : Out :=
  match (s.coreAt c).flights.find? fun f => f.n == n with
  | none => .next s
  | some f =>
    if s.stays c f then .next s
    else match f.e.i, f.place with
      | .reltag _, _ => .next (s.performReltag c f)
      | _, .port _ => .next (s.atPort c f)
      | _, .control => .next (s.atControl c f)
      | _, _ => .next ((s.markSteal f).atMemory c f fun t => t.arrive c f)
/-- R64: a moment of access `n` of core `c` comes, where it is one of several events. -/
def State.partOfAccess (s : State) (c n : Nat) (write : Bool) : State :=
  match (s.coreAt c).flights.find? fun f => f.n == n with
  | none => s
  | some f => if s.stays c f || !f.several then s else s.atMemory c f fun t => t.arrivePart c write f

/-! ### Values and acknowledgements that return (R80, R162, R308, R313) -/

/-- R80: a strand that is stopped takes no value and retires no entry, unless it is killed (R322). -/
def State.stopped (s : State) (c : Nat) (k : Fin 9) : Bool :=
  ((s.strandAt c k).st == .frozen || (s.strandAt c k).st == .parked) && !(s.coreAt c).killing k.val

/-- The value of access `f` is written. -/
def Strand.take (x : Strand) (f : Flight) : Strand :=
  match f.ans with
  | .value v => x.give f.e.i v
  | .deque status v => x.giveDeque f.e.i status v
  | _ => x
def Core.markWritten (y : Core) (n : Nat) : Core :=
  { y with flights := y.flights.map fun f => if f.n = n then { f with written := true } else f }

def execLoadValueReturn (c n : Nat) (s : State) : Out :=
  match (s.coreAt c).flights.find? fun f => f.n == n with
  | none => .next s
  | some f =>
    let k := slotIx f.slot
    if f.done ∧ !f.written ∧ !f.e.i.results.isEmpty ∧ !s.stopped c k then
      .next ((s.updAt c k fun x => x.take f).updCore c fun y => y.markWritten n)
    else .next s

def execInFlightRetire (c n : Nat) (s : State) : Out :=
  match (s.coreAt c).flights.find? fun f => f.n == n with
  | none => .next s
  | some f =>
    let k := slotIx f.slot
    if f.ended && !s.stopped c k then
      .next ((s.updCore c fun y => { y with flights := y.flights.filter fun g => g.n != n }).autoMark c k)
    else .next s

end Sys2Proof.Machine
end

