-- ==== Sys2Proof/Machine/VectorEngine.lean ====
section
/-! DEFINITION. The vector engine: shapes, registers, ports, element arithmetic, row forms, conversion (R222-R241). -/
namespace Sys2Proof.Machine

/-! ### The grid and the operands (R222-R224, R228) -/

/-- The grid of an entry and what it took with it. -/
structure Grid where
  rows : Nat
  cols : Nat
  iw : Nat
  snap : Snap
deriving DecidableEq, Repr

def Grid.of (p : Snap) : Grid :=
  { rows := p.shape.toNat / 2 ^ 10 % 64 + 1, cols := p.shape.toNat % 1024 + 1
    iw := 8 * 2 ^ (p.shape.toNat / 2 ^ 16 % 4), snap := p }
def State.grid (s : State) : Grid := Grid.of (((s.self.head .ve).map (·.snap)).getD Snap.zero)

/-- R224: the physical register of an operand code. -/
def Grid.reg (g : Grid) (w : EWord) (code : Nat) : Nat :=
  let n := 8 * w.vb + (code - 8)
  if n < 32 then n else 32 + (n - 32 + g.snap.rrb.toNat) % 32

/-- R223: a row pitch that is whole, and a register operand that fits. -/
def Grid.fits (g : Grid) (code : Nat) (bits : Nat) : Bool := bits % 8 == 0 && (code < 8 || decide (g.rows * (bits / 8) ≤ 4096))

/-- Row access `n` of a port. -/
def Grid.rowAddr (g : Grid) (p n : Nat) : Nat := PortSet.rowAddr (g.snap.ports[p % 8]'(Nat.mod_lt _ (by decide))) n
def Cursor.row (u : Cursor) (p : Nat) : Nat := u.rows[p % 8]'(Nat.mod_lt _ (by decide))
def Cursor.advance (u : Cursor) (p n : Nat) : Cursor :=
  { u with rows := u.rows.set (p % 8) (u.row p + n) (Nat.mod_lt _ (by decide)) }

/-- The rows of an operand, each of `rp` bytes, and the cursor after a port has popped it. -/
def State.vread (s : State) (g : Grid) (w : EWord) (u : Cursor) (code rp : Nat) : Except Fail (List Nat × Cursor) :=
  if code < 8 then do
    let l ← (List.range g.rows).mapM fun r => s.localRead (g.rowAddr code (u.row code + r)) rp
    .ok (l, u.advance code g.rows)
  else
    let key := vregKey s.core (g.reg w code) 0
    if s.poisoned key (g.rows * rp) then .error (Fail.of Code.poison)
    else .ok ((List.range g.rows).map fun r => s.readNat (key + rp * r) rp, u)

/-- R229: the rows that a write port will write next, as VFMA and VSEL read them. -/
def State.vreadX (s : State) (g : Grid) (w : EWord) (u : Cursor) (code rp : Nat) : Except Fail (List Nat) :=
  if code < 8 then (List.range g.rows).mapM fun r => do
    let a := g.rowAddr code (u.row code + r)
    let _ ← s.localSpot a rp
    s.localRead a rp
  else do
    let r ← s.vread g w u code rp
    .ok r.1

/-- The rows of a result in their places, and the cursor after a port has written them. -/
def State.vwrite (s : State) (g : Grid) (w : EWord) (u : Cursor) (code rp : Nat) (rows : List Nat) :
    Except Fail (List (Nat × List Byte) × Cursor) :=
  if code < 8 then do
    let l ← rows.zipIdx.mapM fun (e : Nat × Nat) => do
      let k ← s.localSpot (g.rowAddr code (u.row code + e.2)) rp
      .ok (k, leBytes rp e.1)
    .ok (l, u.advance code g.rows)
  else .ok ([(vregKey s.core (g.reg w code) 0, rows.flatMap (leBytes rp))], u)

/-! ### One repetition (R229) -/

/-- The next rows of a port, and a cursor behind them. -/
def Grid.spans (g : Grid) (u : Cursor) (code rp : Nat) (write : Bool) : List Span :=
  if code < 8 then (List.range g.rows).map fun r => Span.of write (g.rowAddr code (u.row code + r)) rp else []
def Grid.past (g : Grid) (u : Cursor) (code : Nat) : Cursor := if code < 8 then u.advance code g.rows else u
/-- R228, R374: every row that a repetition reads or writes, before any is read. -/
def Grid.rowsOf (g : Grid) (w : EWord) (u : Cursor) (z : Bool) (rx ry rz : Nat) : List Span :=
  let v := g.past u w.y.toNat
  let t := if z then g.past v w.z.toNat else v
  g.spans u w.y.toNat ry false ++ (if z then g.spans v w.z.toNat rz false else []) ++ g.spans t w.x.toNat rx true

/-- What a form reads. -/
structure Reads where
  x : Bool
  z : Bool
deriving DecidableEq, Repr

/-- A grid of codes from rows of bytes. -/
def Grid.codes (g : Grid) (ew : Nat) (rows : List Nat) : List (List Nat) := rows.map (unpackN ew g.cols)

/-- R229: read, compute every element into a staged result, commit. `ew` is the width of every element. -/
def State.vrep (s : State) (w : EWord) (u : Cursor) (rd : Reads) (ew clks : Nat)
    (f : Grid → List (List Nat) → List (List Nat) → List (List Nat) → List (List Nat)) : Rep :=
  if !u.lets w then .commit s u 1
  else
    let g := s.grid
    let rp := g.cols * ew / 8
    let r : Except Fail (List (Nat × List Byte) × Cursor) := do
      s.spansOk (g.rowsOf w u rd.z rp rp rp)
      let x ← if rd.x then s.vreadX g w u w.x.toNat rp else .ok []
      let y ← s.vread g w u w.y.toNat rp
      let z ← if rd.z then s.vread g w y.2 w.z.toNat rp else .ok ([], y.2)
      let out := f g (g.codes ew x) (g.codes ew y.1) (g.codes ew z.1)
      s.vwrite g w z.2 w.x.toNat rp (out.map (packN ew))
    match r with
    | .ok (l, v) => .commit (s.storeAll l) v clks
    | .error e => .fail e

/-- R223: the element width of a form. -/
inductive Wide where
  /-- FP32 under I = 0, IW under I = 1. -/
  | arith
  | iw
  | fp32
deriving DecidableEq, Repr
def Wide.bits (d : Wide) (g : Grid) (w : EWord) : Nat :=
  match d with
  | .arith => if w.k then g.iw else 32
  | .iw => g.iw
  | .fp32 => 32

/-- R223: the shape check over the operands that the form names. -/
def State.shapeBad (s : State) (d : Wide) (w : EWord) (codes : List Nat) : Option (BitVec 8) :=
  let g := s.grid
  if codes.all fun c => g.fits c (g.cols * d.bits g w) then none else some Code.shape

/-- R229: the clocks of a repetition. -/
def Grid.clks (g : Grid) (bits : Nat) : Nat := (g.rows * g.cols * bits + 8191) / 8192

/-- A form whose operands all have one width. -/
def Form.vec (w : EWord) (rd : Reads) (d : Wide)
    (f : Grid → List (List Nat) → List (List Nat) → List (List Nat) → List (List Nat)) : Form :=
  { bad := fun s => s.shapeBad d w ([w.x.toNat, w.y.toNat] ++ if rd.z then [w.z.toNat] else [])
    count := fun _ => none
    format := fun _ => none
    body := fun s u => s.vrep w u rd (d.bits s.grid w) (s.grid.clks (d.bits s.grid w)) f }

/-! ### Element arithmetic (R230-R232) -/

/-- An element-wise function of grids. -/
def each1 (f : Nat → Nat) (_ : Grid) (_ y _ : List (List Nat)) : List (List Nat) := y.map fun r => r.map f
def each2 (f : Nat → Nat → Nat) (_ : Grid) (_ y z : List (List Nat)) : List (List Nat) :=
  (y.zip z).map fun p => (p.1.zip p.2).map fun q => f q.1 q.2
def each3 (f : Nat → Nat → Nat → Nat) (_ : Grid) (x y z : List (List Nat)) : List (List Nat) :=
  (x.zip (y.zip z)).map fun p => (p.1.zip (p.2.1.zip p.2.2)).map fun q => f q.1 q.2.1 q.2.2

def fpOf (c : Nat) : Ext := decodeCode 0 c
def fpCode (x : Ext) : Nat := (toF32 x).toNat
/-- A two's-complement element and the code of a wrapped integer. -/
def intOf (iw c : Nat) : Int := (BitVec.ofNat iw c).toInt
def intCode (iw : Nat) (v : Int) : Nat := (BitVec.ofInt iw v).toNat
def canonF32 : Nat := 0x7FC00000

def fpAdd (y z : Nat) : Nat := fpCode (Ext.sum [fpOf y, fpOf z])
def fpSub (y z : Nat) : Nat := fpCode (Ext.sum [fpOf y, (fpOf z).neg])
def fpMul (y z : Nat) : Nat := fpCode ((fpOf y).mul (fpOf z))
def fpFma (x y z : Nat) : Nat := fpCode (Ext.sum [(fpOf y).mul (fpOf z), fpOf x])
/-- R230: the order of VMIN and VMAX, where −0 is less than +0. -/
def fpBelow (y z : Nat) : Bool :=
  Ext.lt (fpOf y) (fpOf z) || (Ext.same (fpOf y) (fpOf z) && (fpOf y).sign && !(fpOf z).sign)
def fpMin (y z : Nat) : Nat := if (fpOf y).isNaN || (fpOf z).isNaN then canonF32 else if fpBelow z y then z else y
def fpMax (y z : Nat) : Nat := if (fpOf y).isNaN || (fpOf z).isNaN then canonF32 else if fpBelow y z then z else y
def fpAbs (y : Nat) : Nat := if (fpOf y).isNaN then canonF32 else y % 2 ^ 31
def fpNeg (y : Nat) : Nat := if (fpOf y).isNaN then canonF32 else (y + 2 ^ 31) % 2 ^ 32
/-- Clip(Trunc(z), -512, 512). -/
def truncClip : Ext → Int
  | .nan => 0
  | .inf n => if n then -512 else 512
  | .fin n m e =>
    let v : Int := if 0 ≤ e then (if 10 ≤ e then (if m = 0 then 0 else 512) else (m * 2 ^ e.toNat : Nat)) else (m / 2 ^ (-e).toNat : Nat)
    clip (if n then -v else v) (-512) 512
def fpScl (y z : Nat) : Nat :=
  if (fpOf y).isNaN || (fpOf z).isNaN then canonF32 else fpCode ((fpOf y).scale (truncClip (fpOf z)))
/-- 1.0 and +0.0. -/
def fpBool (b : Bool) : Nat := if b then 0x3F800000 else 0

/-- The six comparisons. -/
inductive VCmp where
  | eq | ne | lt | le | gt | ge
deriving DecidableEq, Repr
def VCmp.fp (c : VCmp) (y z : Nat) : Nat :=
  let a := fpOf y
  let b := fpOf z
  fpBool (match c with
    | .eq => Ext.same a b
    | .ne => !Ext.same a b
    | .lt => Ext.lt a b
    | .le => Ext.lt a b || Ext.same a b
    | .gt => Ext.lt b a
    | .ge => Ext.lt b a || Ext.same a b)
def VCmp.int (c : VCmp) (iw y z : Nat) : Nat :=
  let a := intOf iw y
  let b := intOf iw z
  let r : Bool := match c with
    | .eq => decide (a = b)
    | .ne => decide (a ≠ b)
    | .lt => decide (a < b)
    | .le => decide (a ≤ b)
    | .gt => decide (b < a)
    | .ge => decide (b ≤ a)
  if r then 1 else 0

/-- A two-operand form that runs on FP32 or on integers. -/
def Form.bin (w : EWord) (fp : Nat → Nat → Nat) (int : Nat → Nat → Nat → Nat) : Form :=
  Form.vec w { x := false, z := true } .arith fun g x y z => each2 (if w.k then int g.iw else fp) g x y z
def Form.un (w : EWord) (fp : Nat → Nat) (int : Nat → Nat → Nat) : Form :=
  Form.vec w { x := false, z := false } .arith fun g x y z => each1 (if w.k then int g.iw else fp) g x y z

def execVadd (w : EWord) (s : State) : Out :=
  s.runWord .ve w (Form.bin w fpAdd fun iw y z => intCode iw (intOf iw y + intOf iw z))
def execVsub (w : EWord) (s : State) : Out :=
  s.runWord .ve w (Form.bin w fpSub fun iw y z => intCode iw (intOf iw y - intOf iw z))
def execVmul (w : EWord) (s : State) : Out :=
  s.runWord .ve w (Form.bin w fpMul fun iw y z => intCode iw (intOf iw y * intOf iw z))
def execVfma (w : EWord) (s : State) : Out :=
  s.runWord .ve w (Form.vec w { x := true, z := true } .fp32 (each3 fpFma))
def execVmin (w : EWord) (s : State) : Out :=
  s.runWord .ve w (Form.bin w fpMin fun iw y z => if intOf iw z < intOf iw y then z else y)
def execVmax (w : EWord) (s : State) : Out :=
  s.runWord .ve w (Form.bin w fpMax fun iw y z => if intOf iw y < intOf iw z then z else y)
def execVabs (w : EWord) (s : State) : Out :=
  s.runWord .ve w (Form.un w fpAbs fun iw y => intCode iw ((intOf iw y).natAbs : Int))
def execVneg (w : EWord) (s : State) : Out :=
  s.runWord .ve w (Form.un w fpNeg fun iw y => intCode iw (-intOf iw y))

/-- R229, R231: a function of one operand, at 64 elements per clock. -/
def Form.fn (w : EWord) (f : Fn) : Form :=
  { Form.vec w { x := false, z := false } .fp32 (each1 fun y => fpCode (f.apply (fpOf y))) with
    body := fun s u => s.vrep w u { x := false, z := false } 32 ((s.grid.rows * s.grid.cols + 63) / 64)
      (each1 fun y => fpCode (f.apply (fpOf y))) }

def execVexp2 (w : EWord) (s : State) : Out := s.runWord .ve w (Form.fn w .exp2)
def execVlog2 (w : EWord) (s : State) : Out := s.runWord .ve w (Form.fn w .log2)
def execVrcp (w : EWord) (s : State) : Out := s.runWord .ve w (Form.fn w .rcp)
def execVrsq (w : EWord) (s : State) : Out := s.runWord .ve w (Form.fn w .rsq)
def execVtanh (w : EWord) (s : State) : Out := s.runWord .ve w (Form.fn w .tanh)

def execVscl (w : EWord) (s : State) : Out :=
  s.runWord .ve w (Form.vec w { x := false, z := true } .fp32 (each2 fpScl))
/-- R230: VSEL selects and does not compute. -/
def execVsel (w : EWord) (s : State) : Out :=
  s.runWord .ve w (Form.vec w { x := true, z := true } .arith
    (each3 fun x y z => if (if w.k then x else x % 2 ^ 31) ≠ 0 then y else z))
def execVand (w : EWord) (s : State) : Out := s.runWord .ve w (Form.vec w { x := false, z := true } .iw (each2 (· &&& ·)))
def execVor (w : EWord) (s : State) : Out := s.runWord .ve w (Form.vec w { x := false, z := true } .iw (each2 (· ||| ·)))
def execVxor (w : EWord) (s : State) : Out := s.runWord .ve w (Form.vec w { x := false, z := true } .iw (each2 (· ^^^ ·)))
def execVshl (w : EWord) (s : State) : Out :=
  s.runWord .ve w (Form.vec w { x := false, z := true } .iw fun g x y z => each2 (fun a b => a * 2 ^ (b % g.iw) % 2 ^ g.iw) g x y z)
def execVshr (w : EWord) (s : State) : Out :=
  s.runWord .ve w (Form.vec w { x := false, z := true } .iw fun g x y z => each2 (fun a b => a / 2 ^ (b % g.iw)) g x y z)

/-- R232: leading zeros, index of the least set bit, set bits, of `w` bits. -/
def clzN (w v : Nat) : Nat := if v = 0 then w else w - 1 - v.log2
def ffsN (w v : Nat) : Nat := ((List.range w).find? fun i => v.testBit i).getD w
def popcN (w v : Nat) : Nat := ((List.range w).filter fun i => v.testBit i).length
def Form.count1 (w : EWord) (f : Nat → Nat → Nat) : Form :=
  Form.vec w { x := false, z := false } .iw fun g x y z => each1 (f g.iw) g x y z
def execVclz (w : EWord) (s : State) : Out := s.runWord .ve w (Form.count1 w clzN)
def execVffs (w : EWord) (s : State) : Out := s.runWord .ve w (Form.count1 w ffsN)
def execVpopc (w : EWord) (s : State) : Out := s.runWord .ve w (Form.count1 w popcN)

def execVcmpEq (w : EWord) (s : State) : Out := s.runWord .ve w (Form.bin w VCmp.eq.fp VCmp.eq.int)
def execVcmpNe (w : EWord) (s : State) : Out := s.runWord .ve w (Form.bin w VCmp.ne.fp VCmp.ne.int)
def execVcmpLt (w : EWord) (s : State) : Out := s.runWord .ve w (Form.bin w VCmp.lt.fp VCmp.lt.int)
def execVcmpLe (w : EWord) (s : State) : Out := s.runWord .ve w (Form.bin w VCmp.le.fp VCmp.le.int)
def execVcmpGt (w : EWord) (s : State) : Out := s.runWord .ve w (Form.bin w VCmp.gt.fp VCmp.gt.int)
def execVcmpGe (w : EWord) (s : State) : Out := s.runWord .ve w (Form.bin w VCmp.ge.fp VCmp.ge.int)

/-! ### Row forms (R233, R234) -/

/-- One level of the tree. -/
def pairUp (op : Nat → Nat → Nat) : List Nat → List Nat
  | a :: b :: l => op a b :: pairUp op l
  | l => l
/-- `n` levels. -/
def tree (op : Nat → Nat → Nat) : Nat → List Nat → List Nat
  | 0, l => l
  | n + 1, l => tree op n (pairUp op l)
/-- Ceil(Log2(n)). -/
def ceilLog2 (n : Nat) : Nat := if n ≤ 1 then 0 else (n - 1).log2 + 1
/-- R233: a row reduced to its first element, with the identity in the others. -/
def reduceRow (op : Nat → Nat → Nat) (id : Nat) (l : List Nat) : List Nat :=
  let k := ceilLog2 l.length
  (tree op k (l ++ List.replicate (2 ^ k - l.length) id)).headD id :: List.replicate (l.length - 1) id
def Form.reduce (w : EWord) (fp : Nat → Nat → Nat) (fpId : Nat) (pre : Nat → Nat) (int : Nat → Nat → Nat → Nat)
    (intId : Nat → Nat) : Form :=
  Form.vec w { x := false, z := false } .arith fun g _ y _ => y.map fun r =>
    if w.k then reduceRow (int g.iw) (intId g.iw) r else reduceRow fp fpId (r.map pre)

def execVredAdd (w : EWord) (s : State) : Out :=
  s.runWord .ve w (Form.reduce w fpAdd 0 (fun c => c) (fun iw a b => (a + b) % 2 ^ iw) fun _ => 0)
def execVredMin (w : EWord) (s : State) : Out :=
  s.runWord .ve w (Form.reduce w fpMin 0x7F800000 (fun c => c) (fun iw a b => if intOf iw b < intOf iw a then b else a)
    fun iw => 2 ^ (iw - 1) - 1)
def execVredMax (w : EWord) (s : State) : Out :=
  s.runWord .ve w (Form.reduce w fpMax 0xFF800000 (fun c => c) (fun iw a b => if intOf iw a < intOf iw b then b else a)
    fun iw => 2 ^ (iw - 1))
/-- R233: AMX takes magnitudes and ignores NaN elements. -/
def execVredAmx (w : EWord) (s : State) : Out :=
  s.runWord .ve w (Form.reduce w fpMax 0 (fun c => if (fpOf c).isNaN then 0 else c % 2 ^ 31) (fun _ a _ => a) fun _ => 0)

/-- The movement forms. -/
def Form.move (w : EWord) (z : Bool) (f : Grid → List (List Nat) → List (List Nat) → List (List Nat)) : Form :=
  Form.vec w { x := false, z := z } .iw fun g _ y z => f g y z

def execVbc (w : EWord) (s : State) : Out :=
  s.runWord .ve w (Form.move w false fun g y _ => y.map fun r => List.replicate g.cols (r.headD 0))
def execVperm (w : EWord) (s : State) : Out :=
  s.runWord .ve w (Form.move w true fun g y z => (y.zip z).map fun p => p.2.map fun i => p.1.getD (i % g.cols) 0)
/-- R234: element `j` of X is element `j` of Y in the transposed linear order. -/
def execVtrn (w : EWord) (s : State) : Out :=
  s.runWord .ve w (Form.move w false fun g y _ => (List.range g.rows).map fun r => (List.range g.cols).map fun c =>
    let p := r * g.cols + c
    (y.getD (p % g.rows) []).getD (p / g.rows) 0)
def execVmov (w : EWord) (s : State) : Out := s.runWord .ve w (Form.move w false fun _ y _ => y)
def execVld (w : EWord) (s : State) : Out := s.runWord .ve w (Form.move w false fun _ y _ => y)
def execVst (w : EWord) (s : State) : Out := s.runWord .ve w (Form.move w false fun _ y _ => y)
def execVrot (w : EWord) (s : State) : Out :=
  s.runWord .ve w (Form.move w true fun g y z => (y.zip z).map fun p =>
    let a := p.2.headD 0 % g.cols
    (List.range g.cols).map fun j => p.1.getD ((j + g.cols - a) % g.cols) 0)

/-! ### Stage predicates (R235) -/

/-- The predicates that the linear elements of a grid give. -/
def predsOf (l : List Nat) : BitVec 16 :=
  (List.range 16).foldl (fun p i => if l.getD i 0 % 2 ^ 31 ≠ 0 then p ||| (1#16 <<< i) else p) 0

def execVpst (w : EWord) (s : State) : Out :=
  s.runWord .ve w
    { bad := fun s => s.shapeBad .fp32 w [w.y.toNat]
      count := fun _ => none
      format := fun _ => none
      body := fun s u =>
        if !u.lets w then .commit s u 1
        else match (do
            s.spansOk (s.grid.spans u w.y.toNat (4 * s.grid.cols) false)
            s.vread s.grid w u w.y.toNat (4 * s.grid.cols)) with
          | .error e => .fail e
          | .ok (rows, v) => .commit s { v with pw := predsOf (s.grid.codes 32 rows).flatten } (s.grid.clks 32) }

/-! ### Conversion (R236-R238) -/

/-- The conversion that an entry's SYS.VFMT gives between two codes. -/
def Grid.conv (g : Grid) (src dst : Nat) : Fmt := { Fmt.unpack g.snap.fmt with af := src, of := dst }
/-- R223: the row pitch in bits of an operand of a format. -/
def Grid.pitch (g : Grid) (f : Fmt) (fmt : Nat) : Nat := g.cols * fmtWidth fmt + (if f.scaled fmt then 16 * (g.cols / f.bk) else 0)
/-- R223, R238: what refuses the shape of a VCVT, and its format. -/
def Grid.cvtBad (g : Grid) (w : EWord) (src dst : Nat) : Option (BitVec 8) :=
  let f := g.conv src dst
  if !g.fits w.x.toNat (g.pitch f dst) || !g.fits w.y.toNat (g.pitch f src) ||
      (f.factor && !g.fits w.z.toNat (32 * g.cols)) || ((f.hd != 0 || f.blocks) && g.cols % f.bk != 0)
  then some Code.shape else none
def Grid.cvtFormat (g : Grid) (src dst : Nat) : Option (BitVec 8) :=
  let f := g.conv src dst
  if f.hd = 3 ∨ f.rnd = 3 ∨ g.snap.fmt.toNat / 2 ^ 20 ≠ 0 ∨ g.snap.fmt.toNat % 256 ≠ 0 ∨ (f.sv ∧ ¬(dst = 5 ∧ f.blocks))
  then some Code.formatWord
  else none

/-- R236: the rows of one operand, converted. -/
def convRows (g : Grid) (f : Fmt) (q : Option Ext) (seed amax : Word) : List Nat → List Nat × Word × Word
  | [] => ([], seed, amax)
  | r :: l =>
    let eb := g.cols * fmtWidth f.af
    let x := decRow f f.af g.cols (r % 2 ^ eb) (r / 2 ^ eb) none
    let v := convRow f f.of q ((g.cols + (f.bk - 1)) / f.bk) { codes := [], entries := [], seed := seed, amax := amax } x
    let t := convRows g f q v.seed v.amax l
    ((packN (fmtWidth f.of) v.codes + (if f.scaled f.of then 2 ^ (g.cols * fmtWidth f.of) * packN 16 v.entries else 0)) :: t.1, t.2)

def State.cvtRep (s : State) (w : EWord) (u : Cursor) (src dst : Nat) : Rep :=
  if !u.lets w then .commit s u 1
  else
    let g := s.grid
    let f := g.conv src dst
    let r : Except Fail (List (Nat × List Byte) × Cursor × Word × Word) := do
      s.spansOk (g.rowsOf w u f.factor (g.pitch f dst / 8) (g.pitch f src / 8) (4 * g.cols))
      let y ← s.vread g w u w.y.toNat (g.pitch f src / 8)
      let z ← if f.factor then s.vread g w y.2 w.z.toNat (4 * g.cols) else .ok ([], y.2)
      let q := if f.factor then some (fpOf (z.1.headD 0 % 2 ^ 32)) else none
      let v := convRows g f q s.own.seedV 0 y.1
      let o ← s.vwrite g w z.2 w.x.toNat (g.pitch f dst / 8) v.1
      .ok (o.1, o.2, v.2)
    match r with
    | .error e => .fail e
    | .ok (l, v, seed, amax) =>
      .commit (((s.storeAll l).updCore s.core fun y => { y with seedV := seed }).putAmax f amax) v
        (g.clks (max (fmtWidth src) (fmtWidth dst)))

def execVcvt (src dst : BitVec 3) (w : EWord) (s : State) : Out :=
  s.runWord .ve w
    { bad := fun s => s.grid.cvtBad w src.toNat dst.toNat
      count := fun _ => none
      format := fun _ => none
      body := fun s u => s.cvtRep w u src.toNat dst.toNat
      setting := fun s => s.grid.cvtFormat src.toNat dst.toNat }

def execVstop (w : EWord) (s : State) : Out := s.runWord .ve w Form.nothing
def execVnop (w : EWord) (s : State) : Out := s.runWord .ve w Form.nothing

end Sys2Proof.Machine
end

