-- ==== Sys2Proof/Machine/Dispatch.lean ====
section
/-! DEFINITION. The dispatch of every instruction and every step to its meaning. -/
namespace Sys2Proof.Machine

/-- The meaning of an instruction, or of a step without an encoding, at a state. -/
def exec (i : Instr) (s : State) : Host.Outcome State Fault Refusal :=
  match i with
  | .add x1 x2 => Sys2Proof.Machine.execAdd x1 x2 s
  | .addR x1 x2 => Sys2Proof.Machine.execAddR x1 x2 s
  | .sub x1 x2 => Sys2Proof.Machine.execSub x1 x2 s
  | .subR x1 x2 => Sys2Proof.Machine.execSubR x1 x2 s
  | .mul x1 x2 => Sys2Proof.Machine.execMul x1 x2 s
  | .mulR x1 x2 => Sys2Proof.Machine.execMulR x1 x2 s
  | .mulhS x1 x2 => Sys2Proof.Machine.execMulhS x1 x2 s
  | .mulhU x1 x2 => Sys2Proof.Machine.execMulhU x1 x2 s
  | .divS x1 x2 => Sys2Proof.Machine.execDivS x1 x2 s
  | .divU x1 x2 => Sys2Proof.Machine.execDivU x1 x2 s
  | .remS x1 x2 => Sys2Proof.Machine.execRemS x1 x2 s
  | .remU x1 x2 => Sys2Proof.Machine.execRemU x1 x2 s
  | .and x1 x2 => Sys2Proof.Machine.execAnd x1 x2 s
  | .or x1 x2 => Sys2Proof.Machine.execOr x1 x2 s
  | .xor x1 x2 => Sys2Proof.Machine.execXor x1 x2 s
  | .andn x1 x2 => Sys2Proof.Machine.execAndn x1 x2 s
  | .shl x1 x2 => Sys2Proof.Machine.execShl x1 x2 s
  | .shr x1 x2 => Sys2Proof.Machine.execShr x1 x2 s
  | .sra x1 x2 => Sys2Proof.Machine.execSra x1 x2 s
  | .rot x1 x2 => Sys2Proof.Machine.execRot x1 x2 s
  | .min x1 x2 => Sys2Proof.Machine.execMin x1 x2 s
  | .minR x1 x2 => Sys2Proof.Machine.execMinR x1 x2 s
  | .max x1 x2 => Sys2Proof.Machine.execMax x1 x2 s
  | .maxR x1 x2 => Sys2Proof.Machine.execMaxR x1 x2 s
  | .abs x1 x2 => Sys2Proof.Machine.execAbs x1 x2 s
  | .absR x1 x2 => Sys2Proof.Machine.execAbsR x1 x2 s
  | .neg x1 x2 => Sys2Proof.Machine.execNeg x1 x2 s
  | .negR x1 x2 => Sys2Proof.Machine.execNegR x1 x2 s
  | .clz x1 x2 => Sys2Proof.Machine.execClz x1 x2 s
  | .ffs x1 x2 => Sys2Proof.Machine.execFfs x1 x2 s
  | .popc x1 x2 => Sys2Proof.Machine.execPopc x1 x2 s
  | .exts x1 x2 x3 x4 => Sys2Proof.Machine.execExts x1 x2 x3 x4 s
  | .extz x1 x2 x3 x4 => Sys2Proof.Machine.execExtz x1 x2 x3 x4 s
  | .sel x1 x2 x3 x4 => Sys2Proof.Machine.execSel x1 x2 x3 x4 s
  | .cmpeq x1 x2 => Sys2Proof.Machine.execCmpeq x1 x2 s
  | .cmpeqR x1 x2 => Sys2Proof.Machine.execCmpeqR x1 x2 s
  | .cmpne x1 x2 => Sys2Proof.Machine.execCmpne x1 x2 s
  | .cmpneR x1 x2 => Sys2Proof.Machine.execCmpneR x1 x2 s
  | .cmplt x1 x2 => Sys2Proof.Machine.execCmplt x1 x2 s
  | .cmpltR x1 x2 => Sys2Proof.Machine.execCmpltR x1 x2 s
  | .cmple x1 x2 => Sys2Proof.Machine.execCmple x1 x2 s
  | .cmpleR x1 x2 => Sys2Proof.Machine.execCmpleR x1 x2 s
  | .alld x1 x2 => Sys2Proof.Machine.execAlld x1 x2 s
  | .dset x1 x2 => Sys2Proof.Machine.execDset x1 x2 s
  | .dmsk x1 x2 => Sys2Proof.Machine.execDmsk x1 x2 s
  | .dexc x1 x2 => Sys2Proof.Machine.execDexc x1 x2 s
  | .dint x1 x2 => Sys2Proof.Machine.execDint x1 x2 s
  | .dlo x1 x2 => Sys2Proof.Machine.execDlo x1 x2 s
  | .dhi x1 x2 => Sys2Proof.Machine.execDhi x1 x2 s
  | .dcard x1 x2 => Sys2Proof.Machine.execDcard x1 x2 s
  | .dpickLo x1 x2 => Sys2Proof.Machine.execDpickLo x1 x2 s
  | .dpickHi x1 x2 => Sys2Proof.Machine.execDpickHi x1 x2 s
  | .dtst x1 x2 x3 => Sys2Proof.Machine.execDtst x1 x2 x3 s
  | .mov x1 x2 => Sys2Proof.Machine.execMov x1 x2 s
  | .pfix => Sys2Proof.Machine.execPfix s
  | .pclr => Sys2Proof.Machine.execPclr s
  | .ckpt x1 => Sys2Proof.Machine.execCkpt x1 s
  | .ckpop => Sys2Proof.Machine.execCkpop s
  | .ckrst => Sys2Proof.Machine.execCkrst s
  | .ckback => Sys2Proof.Machine.execCkback s
  | .aadd x1 x2 x3 => Sys2Proof.Machine.execAadd x1 x2 x3 s
  | .asub x1 x2 x3 => Sys2Proof.Machine.execAsub x1 x2 x3 s
  | .ascl x1 x2 x3 x4 => Sys2Proof.Machine.execAscl x1 x2 x3 x4 s
  | .alo x1 x2 => Sys2Proof.Machine.execAlo x1 x2 s
  | .ahi x1 x2 => Sys2Proof.Machine.execAhi x1 x2 s
  | .amov x1 x2 => Sys2Proof.Machine.execAmov x1 x2 s
  | .amovL2 x1 x2 => Sys2Proof.Machine.execAmovL2 x1 x2 s
  | .afromd x1 x2 => Sys2Proof.Machine.execAfromd x1 x2 s
  | .dfroma x1 x2 => Sys2Proof.Machine.execDfroma x1 x2 s
  | .acmpEq x1 x2 x3 => Sys2Proof.Machine.execAcmpEq x1 x2 x3 s
  | .acmpNe x1 x2 x3 => Sys2Proof.Machine.execAcmpNe x1 x2 x3 s
  | .acmpLt x1 x2 x3 => Sys2Proof.Machine.execAcmpLt x1 x2 x3 s
  | .acmpLe x1 x2 x3 => Sys2Proof.Machine.execAcmpLe x1 x2 x3 s
  | .ld x1 x2 x3 x4 x5 => Sys2Proof.Machine.execLd x1 x2 x3 x4 x5 s
  | .ldWcell x1 x2 x3 => Sys2Proof.Machine.execLdWcell x1 x2 x3 s
  | .st x1 x2 x3 x4 => Sys2Proof.Machine.execSt x1 x2 x3 x4 s
  | .pref x1 x2 => Sys2Proof.Machine.execPref x1 x2 s
  | .atomAdd x1 x2 => Sys2Proof.Machine.execAtomAdd x1 x2 s
  | .atomMin x1 x2 => Sys2Proof.Machine.execAtomMin x1 x2 s
  | .atomMax x1 x2 => Sys2Proof.Machine.execAtomMax x1 x2 s
  | .atomAnd x1 x2 => Sys2Proof.Machine.execAtomAnd x1 x2 s
  | .atomOr x1 x2 => Sys2Proof.Machine.execAtomOr x1 x2 s
  | .atomXor x1 x2 => Sys2Proof.Machine.execAtomXor x1 x2 s
  | .atomXchg x1 x2 => Sys2Proof.Machine.execAtomXchg x1 x2 s
  | .atomCas x1 x2 => Sys2Proof.Machine.execAtomCas x1 x2 s
  | .atomFaddx x1 x2 => Sys2Proof.Machine.execAtomFaddx x1 x2 s
  | .rowUpdate x1 x2 x3 x4 => Sys2Proof.Machine.execRowUpdate x1 x2 x3 x4 s
  | .dqPush x1 x2 x3 => Sys2Proof.Machine.execDqPush x1 x2 x3 s
  | .dqPop x1 x2 x3 => Sys2Proof.Machine.execDqPop x1 x2 x3 s
  | .dqSteal x1 x2 x3 => Sys2Proof.Machine.execDqSteal x1 x2 x3 s
  | .mark x1 => Sys2Proof.Machine.execMark x1 s
  | .qfen x1 => Sys2Proof.Machine.execQfen x1 s
  | .sfen x1 => Sys2Proof.Machine.execSfen x1 s
  | .reltag x1 => Sys2Proof.Machine.execReltag x1 s
  | .br x1 => Sys2Proof.Machine.execBr x1 s
  | .bri x1 => Sys2Proof.Machine.execBri x1 s
  | .beq x1 x2 x3 => Sys2Proof.Machine.execBeq x1 x2 x3 s
  | .bne x1 x2 x3 => Sys2Proof.Machine.execBne x1 x2 x3 s
  | .blt x1 x2 x3 => Sys2Proof.Machine.execBlt x1 x2 x3 s
  | .ble x1 x2 x3 => Sys2Proof.Machine.execBle x1 x2 x3 s
  | .bsngS x1 x2 => Sys2Proof.Machine.execBsngS x1 x2 s
  | .bsngN x1 x2 => Sys2Proof.Machine.execBsngN x1 x2 s
  | .call x1 x2 => Sys2Proof.Machine.execCall x1 x2 s
  | .ret x1 => Sys2Proof.Machine.execRet x1 s
  | .loop x1 x2 => Sys2Proof.Machine.execLoop x1 x2 s
  | .looprp x1 => Sys2Proof.Machine.execLooprp x1 s
  | .lrec x1 => Sys2Proof.Machine.execLrec x1 s
  | .node => Sys2Proof.Machine.execNode s
  | .idle => Sys2Proof.Machine.execIdle s
  | .halt => Sys2Proof.Machine.execHalt s
  | .trap x1 => Sys2Proof.Machine.execTrap x1 s
  | .rtt => Sys2Proof.Machine.execRtt s
  | .waitf x1 => Sys2Proof.Machine.execWaitf x1 s
  | .sigf x1 => Sys2Proof.Machine.execSigf x1 s
  | .clrf x1 => Sys2Proof.Machine.execClrf x1 s
  | .enqMe x1 => Sys2Proof.Machine.execEnqMe x1 s
  | .enqVe x1 => Sys2Proof.Machine.execEnqVe x1 s
  | .enqCe x1 => Sys2Proof.Machine.execEnqCe x1 s
  | .nest x1 => Sys2Proof.Machine.execNest x1 s
  | .ngo => Sys2Proof.Machine.execNgo s
  | .fmtq x1 => Sys2Proof.Machine.execFmtq x1 s
  | .tkpost x1 => Sys2Proof.Machine.execTkpost x1 s
  | .tkwait x1 => Sys2Proof.Machine.execTkwait x1 s
  | .port x1 x2 => Sys2Proof.Machine.execPort x1 x2 s
  | .shape x1 => Sys2Proof.Machine.execShape x1 s
  | .reelj x1 => Sys2Proof.Machine.execReelj x1 s
  | .reell x1 => Sys2Proof.Machine.execReell x1 s
  | .reels x1 => Sys2Proof.Machine.execReels x1 s
  | .reqMe x1 x2 => Sys2Proof.Machine.execReqMe x1 x2 s
  | .reqVe x1 x2 => Sys2Proof.Machine.execReqVe x1 x2 s
  | .reqCe x1 x2 => Sys2Proof.Machine.execReqCe x1 x2 s
  | .send x1 x2 x3 x4 => Sys2Proof.Machine.execSend x1 x2 x3 x4 s
  | .trel x1 x2 => Sys2Proof.Machine.execTrel x1 x2 s
  | .nmv x1 => Sys2Proof.Machine.execNmv x1 s
  | .pks x1 => Sys2Proof.Machine.execPks x1 s
  | .pkg x1 => Sys2Proof.Machine.execPkg x1 s
  | .pka x1 => Sys2Proof.Machine.execPka x1 s
  | .pacq x1 => Sys2Proof.Machine.execPacq x1 s
  | .prel => Sys2Proof.Machine.execPrel s
  | .srr x1 x2 => Sys2Proof.Machine.execSrr x1 x2 s
  | .srw x1 x2 => Sys2Proof.Machine.execSrw x1 x2 s
  | .sdeadD x1 => Sys2Proof.Machine.execSdeadD x1 s
  | .sdeadA x1 => Sys2Proof.Machine.execSdeadA x1 s
  | .bkpt x1 => Sys2Proof.Machine.execBkpt x1 s
  | .cut => Sys2Proof.Machine.execCut s
  | .trapEntry x1 x2 x3 x4 x5 x6 => Sys2Proof.Machine.execTrapEntry x1 x2 x3 x4 x5 x6 s
  | .mzero x1 => Sys2Proof.Machine.execMzero x1 s
  | .mload x1 => Sys2Proof.Machine.execMload x1 s
  | .mloadg x1 => Sys2Proof.Machine.execMloadg x1 s
  | .mstore x1 => Sys2Proof.Machine.execMstore x1 s
  | .mmac x1 => Sys2Proof.Machine.execMmac x1 s
  | .mmacs x1 => Sys2Proof.Machine.execMmacs x1 s
  | .mdrain x1 => Sys2Proof.Machine.execMdrain x1 s
  | .mhad x1 => Sys2Proof.Machine.execMhad x1 s
  | .mtrn x1 => Sys2Proof.Machine.execMtrn x1 s
  | .mnest x1 => Sys2Proof.Machine.execMnest x1 s
  | .mstop x1 => Sys2Proof.Machine.execMstop x1 s
  | .mnop x1 => Sys2Proof.Machine.execMnop x1 s
  | .nestEntryRun x1 => Sys2Proof.Machine.execNestEntryRun x1 s
  | .engineEntryStart x1 x2 => Sys2Proof.Machine.execEngineEntryStart x1 x2 s
  | .engineWordComplete x1 x2 => Sys2Proof.Machine.execEngineWordComplete x1 x2 s
  | .vadd x1 => Sys2Proof.Machine.execVadd x1 s
  | .vsub x1 => Sys2Proof.Machine.execVsub x1 s
  | .vmul x1 => Sys2Proof.Machine.execVmul x1 s
  | .vfma x1 => Sys2Proof.Machine.execVfma x1 s
  | .vmin x1 => Sys2Proof.Machine.execVmin x1 s
  | .vmax x1 => Sys2Proof.Machine.execVmax x1 s
  | .vabs x1 => Sys2Proof.Machine.execVabs x1 s
  | .vneg x1 => Sys2Proof.Machine.execVneg x1 s
  | .vexp2 x1 => Sys2Proof.Machine.execVexp2 x1 s
  | .vlog2 x1 => Sys2Proof.Machine.execVlog2 x1 s
  | .vrcp x1 => Sys2Proof.Machine.execVrcp x1 s
  | .vrsq x1 => Sys2Proof.Machine.execVrsq x1 s
  | .vtanh x1 => Sys2Proof.Machine.execVtanh x1 s
  | .vscl x1 => Sys2Proof.Machine.execVscl x1 s
  | .vsel x1 => Sys2Proof.Machine.execVsel x1 s
  | .vand x1 => Sys2Proof.Machine.execVand x1 s
  | .vor x1 => Sys2Proof.Machine.execVor x1 s
  | .vxor x1 => Sys2Proof.Machine.execVxor x1 s
  | .vshl x1 => Sys2Proof.Machine.execVshl x1 s
  | .vshr x1 => Sys2Proof.Machine.execVshr x1 s
  | .vclz x1 => Sys2Proof.Machine.execVclz x1 s
  | .vffs x1 => Sys2Proof.Machine.execVffs x1 s
  | .vpopc x1 => Sys2Proof.Machine.execVpopc x1 s
  | .vbc x1 => Sys2Proof.Machine.execVbc x1 s
  | .vperm x1 => Sys2Proof.Machine.execVperm x1 s
  | .vtrn x1 => Sys2Proof.Machine.execVtrn x1 s
  | .vmov x1 => Sys2Proof.Machine.execVmov x1 s
  | .vld x1 => Sys2Proof.Machine.execVld x1 s
  | .vst x1 => Sys2Proof.Machine.execVst x1 s
  | .vrot x1 => Sys2Proof.Machine.execVrot x1 s
  | .vpst x1 => Sys2Proof.Machine.execVpst x1 s
  | .vcmpEq x1 => Sys2Proof.Machine.execVcmpEq x1 s
  | .vcmpNe x1 => Sys2Proof.Machine.execVcmpNe x1 s
  | .vcmpLt x1 => Sys2Proof.Machine.execVcmpLt x1 s
  | .vcmpLe x1 => Sys2Proof.Machine.execVcmpLe x1 s
  | .vcmpGt x1 => Sys2Proof.Machine.execVcmpGt x1 s
  | .vcmpGe x1 => Sys2Proof.Machine.execVcmpGe x1 s
  | .vredAdd x1 => Sys2Proof.Machine.execVredAdd x1 s
  | .vredMin x1 => Sys2Proof.Machine.execVredMin x1 s
  | .vredMax x1 => Sys2Proof.Machine.execVredMax x1 s
  | .vredAmx x1 => Sys2Proof.Machine.execVredAmx x1 s
  | .vcvt x1 x2 x3 => Sys2Proof.Machine.execVcvt x1 x2 x3 s
  | .vstop x1 => Sys2Proof.Machine.execVstop x1 s
  | .vnop x1 => Sys2Proof.Machine.execVnop x1 s
  | .ccopy x1 => Sys2Proof.Machine.execCcopy x1 s
  | .cgath x1 => Sys2Proof.Machine.execCgath x1 s
  | .cscat x1 => Sys2Proof.Machine.execCscat x1 s
  | .cfill x1 => Sys2Proof.Machine.execCfill x1 s
  | .cwait x1 => Sys2Proof.Machine.execCwait x1 s
  | .cwaitRetest x1 => Sys2Proof.Machine.execCwaitRetest x1 s
  | .cpost x1 => Sys2Proof.Machine.execCpost x1 s
  | .catom x1 => Sys2Proof.Machine.execCatom x1 s
  | .clink x1 => Sys2Proof.Machine.execClink x1 s
  | .cend x1 => Sys2Proof.Machine.execCend x1 s
  | .cnop x1 => Sys2Proof.Machine.execCnop x1 s
  | .queueEntryIssue x1 x2 x3 => Sys2Proof.Machine.execQueueEntryIssue x1 x2 x3 s
  | .accessPerform x1 x2 => Sys2Proof.Machine.execAccessPerform x1 x2 s
  | .loadValueReturn x1 x2 => Sys2Proof.Machine.execLoadValueReturn x1 x2 s
  | .inFlightRetire x1 x2 => Sys2Proof.Machine.execInFlightRetire x1 x2 s
  | .reelRelease => Sys2Proof.Machine.execReelRelease s
  | .reqAccept x1 => Sys2Proof.Machine.execReqAccept x1 s
  | .sendAccept x1 => Sys2Proof.Machine.execSendAccept x1 s
  | .strandStart x1 => Sys2Proof.Machine.execStrandStart x1 s
  | .taskSwitch x1 x2 => Sys2Proof.Machine.execTaskSwitch x1 x2 s
  | .endingToDormant x1 x2 => Sys2Proof.Machine.execEndingToDormant x1 x2 s
  | .timerWheelSlot x1 => Sys2Proof.Machine.execTimerWheelSlot x1 s
  | .mailboxGo x1 x2 => Sys2Proof.Machine.execMailboxGo x1 x2 s
  | .residencyPoll x1 => Sys2Proof.Machine.execResidencyPoll x1 s
  | .distributorIssue x1 => Sys2Proof.Machine.execDistributorIssue x1 s
  | .overlayLoad x1 => Sys2Proof.Machine.execOverlayLoad x1 s
  | .transferRun x1 => Sys2Proof.Machine.execTransferRun x1 s
  | .park x1 => Sys2Proof.Machine.execPark x1 s
  | .lendingEnd x1 => Sys2Proof.Machine.execLendingEnd x1 s
  | .rotation x1 => Sys2Proof.Machine.execRotation x1 s
  | .preemptLight x1 => Sys2Proof.Machine.execPreemptLight x1 s
  | .preemptFull x1 => Sys2Proof.Machine.execPreemptFull x1 s
  | .preemptResume x1 => Sys2Proof.Machine.execPreemptResume x1 s
  | .preemptKill x1 => Sys2Proof.Machine.execPreemptKill x1 s
  | .killTransfer x1 => Sys2Proof.Machine.execKillTransfer x1 s
  | .leaseGrant x1 => Sys2Proof.Machine.execLeaseGrant x1 s
  | .tableWalkComplete x1 x2 x3 => Sys2Proof.Machine.execTableWalkComplete x1 x2 x3 s
  | .priResponse x1 x2 => Sys2Proof.Machine.execPriResponse x1 x2 s
  | .tfresRetry x1 x2 => Sys2Proof.Machine.execTfresRetry x1 x2 s
  | .tfresRefuse x1 x2 => Sys2Proof.Machine.execTfresRefuse x1 x2 s
  | .mtfresRetry x1 => Sys2Proof.Machine.execMtfresRetry x1 s
  | .mtfresRefuse x1 => Sys2Proof.Machine.execMtfresRefuse x1 s
  | .tlbinv x1 => Sys2Proof.Machine.execTlbinv x1 s
  | .mtlbinv => Sys2Proof.Machine.execMtlbinv s
  | .atsInvalidation x1 x2 => Sys2Proof.Machine.execAtsInvalidation x1 x2 s
  | .eventRingRoom x1 x2 => Sys2Proof.Machine.execEventRingRoom x1 x2 s
  | .drawEstimateWindow => Sys2Proof.Machine.execDrawEstimateWindow s
  | .sensorSample x1 => Sys2Proof.Machine.execSensorSample x1 s
  | .alertPeriodExpiry => Sys2Proof.Machine.execAlertPeriodExpiry s
  | .talrtWrite x1 => Sys2Proof.Machine.execTalrtWrite x1 s
  | .refreshDue x1 x2 x3 x4 x5 => Sys2Proof.Machine.execRefreshDue x1 x2 x3 x4 x5 s
  | .selfRefreshEntry x1 x2 x3 => Sys2Proof.Machine.execSelfRefreshEntry x1 x2 x3 s
  | .vilvWrite x1 x2 x3 => Sys2Proof.Machine.execVilvWrite x1 x2 x3 s
  | .vilvMigrationDone x1 x2 => Sys2Proof.Machine.execVilvMigrationDone x1 x2 s
  | .rcapmsg x1 => Sys2Proof.Machine.execRcapmsg x1 s
  | .capLeaseExpiry => Sys2Proof.Machine.execCapLeaseExpiry s
  | .powerSample x1 => Sys2Proof.Machine.execPowerSample x1 s
  | .ptpstepWrite x1 => Sys2Proof.Machine.execPtpstepWrite x1 s
  | .ptpMessage x1 x2 => Sys2Proof.Machine.execPtpMessage x1 x2 s
  | .partitionEnable x1 => Sys2Proof.Machine.execPartitionEnable x1 s
  | .partitionDisable x1 => Sys2Proof.Machine.execPartitionDisable x1 s
  | .scrubDone x1 => Sys2Proof.Machine.execScrubDone x1 s
  | .getVersion x1 => Sys2Proof.Machine.execGetVersion x1 s
  | .getCapabilities x1 => Sys2Proof.Machine.execGetCapabilities x1 s
  | .negotiateAlgorithms x1 x2 x3 x4 x5 => Sys2Proof.Machine.execNegotiateAlgorithms x1 x2 x3 x4 x5 s
  | .getDigests x1 => Sys2Proof.Machine.execGetDigests x1 s
  | .getCertificate x1 x2 => Sys2Proof.Machine.execGetCertificate x1 x2 s
  | .challenge x1 x2 => Sys2Proof.Machine.execChallenge x1 x2 s
  | .getMeasurements x1 x2 => Sys2Proof.Machine.execGetMeasurements x1 x2 s
  | .keyExchange x1 => Sys2Proof.Machine.execKeyExchange x1 s
  | .finish x1 => Sys2Proof.Machine.execFinish x1 s
  | .endSession x1 => Sys2Proof.Machine.execEndSession x1 s
  | .keyUpdate x1 => Sys2Proof.Machine.execKeyUpdate x1 s
  | .lockInterface x1 => Sys2Proof.Machine.execLockInterface x1 s
  | .startInterface x1 => Sys2Proof.Machine.execStartInterface x1 s
  | .stopInterface x1 => Sys2Proof.Machine.execStopInterface x1 s
  | .alabinFlitGroup x1 x2 x3 => Sys2Proof.Machine.execAlabinFlitGroup x1 x2 x3 s
  | .reset x1 x2 x3 => Sys2Proof.Machine.execReset x1 x2 x3 s
  | .stackTrained x1 => Sys2Proof.Machine.execStackTrained x1 s
  | .svcFull => Sys2Proof.Machine.execSvcFull s
  | .traceSample x1 x2 => Sys2Proof.Machine.execTraceSample x1 x2 s
  | .patrolScrub x1 x2 => Sys2Proof.Machine.execPatrolScrub x1 x2 s
  | .controlRegisterWrite x1 x2 x3 x4 => Sys2Proof.Machine.execControlRegisterWrite x1 x2 x3 x4 s
  | .alabinStreamRekey x1 x2 => Sys2Proof.Machine.execAlabinStreamRekey x1 x2 s
  | .atsTranslationCompletion x1 x2 x3 x4 => Sys2Proof.Machine.execAtsTranslationCompletion x1 x2 x3 x4 s
  | .ideKm x1 => Sys2Proof.Machine.execIdeKm x1 s
  | .segmentTrim x1 x2 => Sys2Proof.Machine.execSegmentTrim x1 x2 s

end Sys2Proof.Machine
end

