-- ==== Sys2Proof/Machine/Registers.lean ====
section
/-! DEFINITION. The register operands of every sequencer form (R142): which registers it reads and which it writes, and
the forms that wait for every result bound for a domain register. A register is an address register (true) or a domain
register (false), and its number. -/
namespace Sys2Proof

def Src2.regs : Src2 → List (Bool × Nat)
  | .reg a b => [(false, a.toNat), (false, b.toNat)]
  | .lit2 a _ => [(false, a.toNat)]
  | .lit1 _ b => [(false, b.toNat)]
def SrcV.regs : SrcV → List (Bool × Nat)
  | .reg b => [(false, b.toNat)]
  | .lit _ => []
def SrcA.regs : SrcA → List (Bool × Nat)
  | .reg b => [(true, b.toNat)]
  | .lit _ => []
/-- The source of a store (R163). -/
def StSrc.regs (t : TKind) : StSrc → List (Bool × Nat)
  | .reg r _ => if t = .ta then [(true, r.toNat % 32)] else [(false, r.toNat)]
  | .lit _ => []
def AForm.regs : AForm → List (Bool × Nat)
  | .s _ _ v => v.regs
  | .a _ v => v.regs
def CasForm.regs : CasForm → List (Bool × Nat)
  | .s _ _ v c => [(false, v.toNat), (false, c.toNat)]
  | .a _ v c => [(true, v.toNat), (true, c.toNat)]
/-- The registers of ALLD (R150). -/
def allRun (d : DReg) (m : BitVec 4) : List (Bool × Nat) := (List.range m.toNat).map fun i => (false, d.toNat + i)

/-- The registers that a form reads. -/
def Instr.srcs : Instr → List (Bool × Nat)
  | .add _ s2 => s2.regs
  | .addR d s2 => [(false, d.toNat)] ++ s2.regs
  | .sub _ s2 => s2.regs
  | .subR d s2 => [(false, d.toNat)] ++ s2.regs
  | .mul _ s2 => s2.regs
  | .mulR d s2 => [(false, d.toNat)] ++ s2.regs
  | .mulhS _ s2 => s2.regs
  | .mulhU _ s2 => s2.regs
  | .divS _ s2 => s2.regs
  | .divU _ s2 => s2.regs
  | .remS _ s2 => s2.regs
  | .remU _ s2 => s2.regs
  | .and _ s2 => s2.regs
  | .or _ s2 => s2.regs
  | .xor _ s2 => s2.regs
  | .andn _ s2 => s2.regs
  | .shl _ s2 => s2.regs
  | .shr _ s2 => s2.regs
  | .sra _ s2 => s2.regs
  | .rot _ s2 => s2.regs
  | .min _ s2 => s2.regs
  | .minR d s2 => [(false, d.toNat)] ++ s2.regs
  | .max _ s2 => s2.regs
  | .maxR d s2 => [(false, d.toNat)] ++ s2.regs
  | .abs _ a => [(false, a.toNat)]
  | .absR d a => [(false, d.toNat), (false, a.toNat)]
  | .neg _ a => [(false, a.toNat)]
  | .negR d a => [(false, d.toNat), (false, a.toNat)]
  | .clz _ a => [(false, a.toNat)]
  | .ffs _ a => [(false, a.toNat)]
  | .popc _ a => [(false, a.toNat)]
  | .exts _ a _ _ => [(false, a.toNat)]
  | .extz _ a _ _ => [(false, a.toNat)]
  | .sel _ c a b => [(false, c.toNat), (false, a.toNat), (false, b.toNat)]
  | .cmpeq _ s2 => s2.regs
  | .cmpeqR d s2 => [(false, d.toNat)] ++ s2.regs
  | .cmpne _ s2 => s2.regs
  | .cmpneR d s2 => [(false, d.toNat)] ++ s2.regs
  | .cmplt _ s2 => s2.regs
  | .cmpltR d s2 => [(false, d.toNat)] ++ s2.regs
  | .cmple _ s2 => s2.regs
  | .cmpleR d s2 => [(false, d.toNat)] ++ s2.regs
  | .alld d m => allRun d m
  | .dset _ s2 => s2.regs
  | .dmsk d a => [(false, d.toNat), (true, a.toNat)]
  | .dexc d v => [(false, d.toNat)] ++ v.regs
  | .dint d a => [(false, d.toNat), (false, a.toNat)]
  | .dlo _ a => [(false, a.toNat)]
  | .dhi _ a => [(false, a.toNat)]
  | .dcard _ a => [(false, a.toNat)]
  | .dpickLo _ a => [(false, a.toNat)]
  | .dpickHi _ a => [(false, a.toNat)]
  | .dtst _ a v => [(false, a.toNat)] ++ v.regs
  | .mov _ a => [(false, a.toNat)]
  | .aadd _ a v => [(true, a.toNat)] ++ v.regs
  | .asub _ a v => [(true, a.toNat)] ++ v.regs
  | .ascl _ a v _ => [(true, a.toNat), (false, v.toNat)]
  | .alo _ a => [(true, a.toNat)]
  | .ahi _ a => [(true, a.toNat)]
  | .amov _ a => [(true, a.toNat)]
  | .afromd _ v => [(false, v.toNat)]
  | .dfroma _ a => [(true, a.toNat)]
  | .acmpEq _ a b => [(true, a.toNat), (true, b.toNat)]
  | .acmpNe _ a b => [(true, a.toNat), (true, b.toNat)]
  | .acmpLt _ a b => [(true, a.toNat), (true, b.toNat)]
  | .acmpLe _ a b => [(true, a.toNat), (true, b.toNat)]
  | .ld _ _ _ base _ => [(true, base.toNat)]
  | .ldWcell _ base _ => [(true, base.toNat)]
  | .st _ t base src => [(true, base.toNat)] ++ src.regs t
  | .pref base _ => [(true, base.toNat)]
  | .atomAdd f base => f.regs ++ [(true, base.toNat)]
  | .atomMin f base => f.regs ++ [(true, base.toNat)]
  | .atomMax f base => f.regs ++ [(true, base.toNat)]
  | .atomAnd f base => f.regs ++ [(true, base.toNat)]
  | .atomOr f base => f.regs ++ [(true, base.toNat)]
  | .atomXor f base => f.regs ++ [(true, base.toNat)]
  | .atomXchg f base => f.regs ++ [(true, base.toNat)]
  | .atomCas f base => f.regs ++ [(true, base.toNat)]
  | .atomFaddx base v => [(true, base.toNat)] ++ v.regs
  | .rowUpdate _ _ base row => [(true, base.toNat)] ++ row.regs
  | .dqPush _ h v => [(true, h.toNat), (true, v.toNat)]
  | .dqPop _ h _ => [(true, h.toNat)]
  | .dqSteal _ h _ => [(true, h.toNat)]
  | .reltag w => [(false, w.toNat)]
  | .bri a => [(true, a.toNat)]
  | .beq a b _ => [(false, a.toNat), (false, b.toNat)]
  | .bne a b _ => [(false, a.toNat), (false, b.toNat)]
  | .blt a b _ => [(false, a.toNat), (false, b.toNat)]
  | .ble a b _ => [(false, a.toNat), (false, b.toNat)]
  | .bsngS a _ => [(false, a.toNat)]
  | .bsngN a _ => [(false, a.toNat)]
  | .ret a => [(true, a.toNat)]
  | .loop c _ => [(false, c.toNat)]
  | .lrec a => [(true, a.toNat)]
  | .enqMe a => [(true, a.toNat)]
  | .enqVe a => [(true, a.toNat)]
  | .enqCe a => [(true, a.toNat)]
  | .nest a => [(true, a.toNat)]
  | .fmtq v => v.regs
  | .port a _ => [(true, a.toNat)]
  | .shape v => v.regs
  | .reelj a => [(true, a.toNat)]
  | .reell a => [(true, a.toNat)]
  | .reels a => [(true, a.toNat)]
  | .reqMe a t => [(true, a.toNat)] ++ t.regs
  | .reqVe a t => [(true, a.toNat)] ++ t.regs
  | .reqCe a t => [(true, a.toNat)] ++ t.regs
  | .send a t l _ => [(true, a.toNat), (false, t.toNat), (false, l.toNat)]
  | .trel r t => [(true, r.toNat), (true, t.toNat)]
  | .nmv a => [(true, a.toNat)]
  | .pks a => [(true, a.toNat)]
  | .pkg a => [(true, a.toNat)]
  | .pka a => [(true, a.toNat)]
  | .srw d _ => [(false, d.toNat)]
  | .sdeadD a => [(true, a.toNat)]
  | .sdeadA a => [(true, a.toNat)]
  | _ => []

/-- The registers that a form writes. -/
def Instr.dsts (i : Instr) : List (Bool × Nat) :=
  match i with
  | .add d _ => [(false, d.toNat)]
  | .addR d _ => [(false, d.toNat)]
  | .sub d _ => [(false, d.toNat)]
  | .subR d _ => [(false, d.toNat)]
  | .mul d _ => [(false, d.toNat)]
  | .mulR d _ => [(false, d.toNat)]
  | .mulhS d _ => [(false, d.toNat)]
  | .mulhU d _ => [(false, d.toNat)]
  | .divS d _ => [(false, d.toNat)]
  | .divU d _ => [(false, d.toNat)]
  | .remS d _ => [(false, d.toNat)]
  | .remU d _ => [(false, d.toNat)]
  | .and d _ => [(false, d.toNat)]
  | .or d _ => [(false, d.toNat)]
  | .xor d _ => [(false, d.toNat)]
  | .andn d _ => [(false, d.toNat)]
  | .shl d _ => [(false, d.toNat)]
  | .shr d _ => [(false, d.toNat)]
  | .sra d _ => [(false, d.toNat)]
  | .rot d _ => [(false, d.toNat)]
  | .min d _ => [(false, d.toNat)]
  | .minR d _ => [(false, d.toNat)]
  | .max d _ => [(false, d.toNat)]
  | .maxR d _ => [(false, d.toNat)]
  | .abs d _ => [(false, d.toNat)]
  | .absR d _ => [(false, d.toNat)]
  | .neg d _ => [(false, d.toNat)]
  | .negR d _ => [(false, d.toNat)]
  | .clz d _ => [(false, d.toNat)]
  | .ffs d _ => [(false, d.toNat)]
  | .popc d _ => [(false, d.toNat)]
  | .exts d _ _ _ => [(false, d.toNat)]
  | .extz d _ _ _ => [(false, d.toNat)]
  | .sel d _ _ _ => [(false, d.toNat)]
  | .cmpeq d _ => [(false, d.toNat)]
  | .cmpeqR d _ => [(false, d.toNat)]
  | .cmpne d _ => [(false, d.toNat)]
  | .cmpneR d _ => [(false, d.toNat)]
  | .cmplt d _ => [(false, d.toNat)]
  | .cmpltR d _ => [(false, d.toNat)]
  | .cmple d _ => [(false, d.toNat)]
  | .cmpleR d _ => [(false, d.toNat)]
  | .dset d _ => [(false, d.toNat)]
  | .dmsk d _ => [(false, d.toNat)]
  | .dexc d _ => [(false, d.toNat)]
  | .dint d _ => [(false, d.toNat)]
  | .dlo d _ => [(false, d.toNat)]
  | .dhi d _ => [(false, d.toNat)]
  | .dcard d _ => [(false, d.toNat)]
  | .dpickLo d _ => [(false, d.toNat)]
  | .dpickHi d _ => [(false, d.toNat)]
  | .dtst d _ _ => [(false, d.toNat)]
  | .mov d _ => [(false, d.toNat)]
  | .aadd d _ _ => [(true, d.toNat)]
  | .asub d _ _ => [(true, d.toNat)]
  | .ascl d _ _ _ => [(true, d.toNat)]
  | .alo d _ => [(false, d.toNat)]
  | .ahi d _ => [(false, d.toNat)]
  | .amov d _ => [(true, d.toNat)]
  | .amovL2 d _ => [(true, d.toNat)]
  | .afromd d _ => [(true, d.toNat)]
  | .dfroma d _ => [(false, d.toNat)]
  | .acmpEq d _ _ => [(false, d.toNat)]
  | .acmpNe d _ _ => [(false, d.toNat)]
  | .acmpLt d _ _ => [(false, d.toNat)]
  | .acmpLe d _ _ => [(false, d.toNat)]
  | .call l _ => [(true, l.toNat)]
  | .srr d _ => [(false, d.toNat)]
  | .alld d m => allRun d m
  | _ => i.results

/-- Relational posts (R107). -/
def Instr.isPost : Instr → Bool
  | .addR _ _ => true
  | .subR _ _ => true
  | .mulR _ _ => true
  | .minR _ _ => true
  | .maxR _ _ => true
  | .absR _ _ => true
  | .negR _ _ => true
  | .cmpeqR _ _ => true
  | .cmpneR _ _ => true
  | .cmpltR _ _ => true
  | .cmpleR _ _ => true
  | .alld _ _ => true
  | _ => false
/-- Forms that run stored relations. -/
def Instr.propagates (i : Instr) : Bool :=
  i.isPost || (match i with
    | .dmsk _ _ => true
    | .dexc _ _ => true
    | .dint _ _ => true
    | .pfix => true
    | _ => false)
/-- R142: forms that do not issue while any result bound for a domain register is outstanding. -/
def Instr.wholeFile (i : Instr) : Bool :=
  i.propagates || (match i with
    | .ckpt _ => true
    | .ckrst => true
    | .ckpop => true
    | .ckback => true
    | _ => false)

end Sys2Proof
end

