-- ==== Sys2Proof/Machine/Turn.lean ====
section
/-! DEFINITION. What one turn of the machine does: the issue of a sequencer word, an advance of an engine, a step without
an encoding, a clock, an error that appears; and the turn that the machine takes where its agenda names none (R12, R24,
R25, R27, R142, R302, R307, R338, R345, R364, R365; log entry 3, DESIGN CHOICE). -/
namespace Sys2Proof

/-- R345: the forms that are illegal on the management core. -/
def Instr.notMgmt : Instr → Bool
  | .enqMe _ => true
  | .enqVe _ => true
  | .enqCe _ => true
  | .nest _ => true
  | .ngo => true
  | .fmtq _ => true
  | .tkpost _ => true
  | .tkwait _ => true
  | .port _ _ => true
  | .shape _ => true
  | .reqMe _ _ => true
  | .reqVe _ _ => true
  | .reqCe _ _ => true
  | .send _ _ _ _ => true
  | .nmv _ => true
  | .pks _ => true
  | .pkg _ => true
  | .pka _ => true
  | _ => false

/-- R142: an instruction does not issue while these registers await results. -/
def Instr.blockedBy (i : Instr) (l : List (Bool × Nat)) : Bool :=
  (i.srcs ++ i.dsts).any l.contains || (i.wholeFile && l.any fun r => !r.1)

end Sys2Proof

namespace Sys2Proof.Machine

/-! ### The fetch (R121, R365) -/

/-- The eight bytes at a strand's program counter. -/
def State.fetch (s : State) (c : Nat) (pc : BitVec 17) : List Byte := s.read (imemKey c pc.toNat) 8

/-- What a strand of core `c` issues at its program counter, or the cause that it traps with. -/
def State.fetched (s : State) (c : Nat) (pc : BitVec 17) : Except (BitVec 8) Instr :=
  if s.poisoned (imemKey c pc.toNat) 8 then .error Code.machine
  else match decode .seq (s.fetch c pc) with
    | .ok i => if c = mgmtCore ∧ i.notMgmt then .error Code.illegal else .ok i
    | .error _ => .error Code.illegal

/-! ### Operand waits (R25, R142) -/

/-- The registers that await a result: of entries that have issued, and of entries in the load and store queues. -/
def Core.awaited (y : Core) (k : Fin 9) : List (Bool × Nat) :=
  ((y.flightsOf k.val).flatMap fun f => if f.written then [] else f.e.i.results) ++
    (y.strands[k].allQueued.ld.flatMap fun e => e.i.results) ++ y.strands[k].allQueued.st.flatMap fun e => e.i.results

/-! ### Parity (R189, R364) -/

/-- The registers and the counter in which an instruction finds a parity error, by kind: 0 domain register, 1 address
register, 2 token counter. Forms that run stored relations read what the store mentions; CKPT reads every domain
register. -/
def Strand.readsOf (x : Strand) (i : Instr) : List (Nat × Nat) :=
  (i.srcs.map fun r => ((if r.1 then 1 else 0), r.2)) ++
    (if i.propagates then ((List.range 64).filter x.rel.mentioned.getLsbD).map fun r => (0, r) else []) ++
    (match i with
      | .ckpt _ => (List.range 64).map fun r => (0, r)
      | .tkwait e => [(2, tokenIx (engIx e) 0)]
      | _ => [])

/-- The errors that an instruction finds. -/
def Strand.found (x : Strand) (i : Instr) : List (Nat × Nat) :=
  if x.bad.isEmpty then [] else ((x.readsOf i).filter fun p => x.bad.contains p && !x.isDead p).eraseDups

/-- The errors found are repaired from valid copies; none where one of them has no valid copy. -/
def State.repaired (s : State) (i : Instr) : Option State :=
  let l := s.self.found i
  if l.isEmpty then some s
  else if l.all s.self.hasCopy then
    some ((s.upd fun x => { x with bad := x.bad.filter fun p => !l.contains p }).updCore s.core fun y =>
      { y with repair := y.repair.up l.length })
  else none

/-! ### A load that the strand needs (R307) -/

/-- The head of the load queue is held for a cause that traps. -/
def Strand.heldLoad (x : Strand) : Option (QEntry × BitVec 8 × DWord) :=
  match x.q.ld with
  | e :: _ => match e.held with
    | .cause code a => some (e, code, a)
    | _ => none
  | [] => none

/-- The head of the store queue waits for an earlier entry of the load queue. -/
def State.storesNeed (s : State) (c : Nat) (k : Fin 9) (h : QEntry) : Bool :=
  match (s.strandAt c k).q.st with
  | [] => false
  | e :: _ => decide (h.po < e.po) && (s.overlaps c e [h] || (match e.i with
      | .tkpost _ => true
      | .sigf _ => true
      | .reels _ => true
      | .mark q => q.getLsbD 4
      | _ => false))

/-- The engine of a command queue has blocked at a marker that stands behind the entry. -/
def cmdNeeds (h : QEntry) (q : List Cmd) : Bool :=
  match q with
  | [] => false
  | e :: _ => match e.kind with
    | .marker id q => q.getLsbD 4 && decide (h.po < id)
    | _ => false
/-- R156: the spill slot that a checkpoint form, or a backtrack in hardware, waits for. -/
def Rel.spillSlot (r : Rel) (i : Instr) : Option Nat :=
  match i with
  | .nest _ => none
  | .port _ _ => none
  | .ckpt _ => if 16 ≤ r.ckd then some (r.ckd - 16) else none
  | _ => if 16 < r.ckd then some (r.ckd - 17) else none
/-- The word at the program counter waits for the load queue: a MARK for room in it, a checkpoint form for a load from its spill slot,
a word for a result. -/
def State.wordNeeds (s : State) (c : Nat) (k : Fin 9) : Bool :=
  let x := s.strandAt c k
  match s.fetched c x.pc with
  | .error _ => false
  | .ok i => match x.wait, i with
    | .queueFull _, .mark q => q.getLsbD 4 && decide (64 ≤ x.allQueued.ld.length)
    | .spill, i => (x.rel.spillSlot i).any fun p => x.q.ld.any fun e => chunksMeet [(localKey c (x.rel.slot p), 1088)] (s.touches c e)
    | .operand, i => i.blockedBy (x.q.ld.flatMap fun e => e.i.results)
    | _, _ => false
/-- The strand has blocked on the load queue: on a result of it, on its room, or on its issue; or one of its engines has. A PACQ waits
for it until it has asked for its lease. -/
def State.needsLoad (s : State) (c : Nat) (k : Fin 9) (h : QEntry) : Bool :=
  let x := s.strandAt c k
  ((x.st == .ready || x.st == .waiting) && (cmdNeeds h x.q.me || cmdNeeds h x.q.ve || cmdNeeds h x.q.ce)) ||
  x.st == .waiting && (s.storesNeed c k h || s.wordNeeds c k || (match x.wait with
    | .loadQueue => true
    | .drain => true
    | .lease => !x.lease.pend
    | _ => false))

/-! ### An error in a queue of a strand that is stopped (R365) -/

/-- The error in a queue, in-flight record or tag table whose machine check is still to come; the strand without it. -/
def Strand.flawed (x : Strand) : Bool := x.bad.contains (3, 0)
def Strand.unflawed (x : Strand) : Strand := { x with bad := x.bad.filter (· != (3, 0)) }
/-- A strand that can take a trap now. -/
def Strand.traps (x : Strand) : Bool := x.st == .ready || x.st == .waiting || x.st == .ending

/-! ### The issue (R24, R25, R338) -/

/-- R23, R25: the strand waits at a word that has not issued: it issues once its wait is met. -/
def Strand.atWord (x : Strand) : Bool :=
  x.st == .waiting && !x.wait.issued && x.wait != .idle && !(x.lease.left && !x.trap.hm)
/-- A slot whose strand may issue: it is READY, or it waits at a word that has not issued; one that asks for its lease
again waits for it first (R320). -/
def Strand.mayTry (x : Strand) : Bool := (x.st == .ready || x.atWord) && !x.lease.again

/-- R181: a join of the strand is held; while its handler runs, only one that the handler made (R306). -/
def Core.joinHeld (y : Core) (k : Nat) : Bool :=
  let x := y.strands[k % 9]'(Nat.mod_lt _ (by decide))
  (y.flightsOf k).any fun f => f.e.i.releasedFrom == some .reelHeld && f.ans == .wait && !(x.trap.hm && decide (f.e.po < x.trap.cutPo))

/-- R25: the strand waits for room in the timer wheel with the TREL at the head of its store queue. -/
def Core.trelHeld (y : Core) (k : Nat) : Bool :=
  let x := y.strands[k % 9]'(Nat.mod_lt _ (by decide))
  (x.q.st.head?.bind fun e => e.held.wheelSince).isSome
/-- What an instruction of the strand has started stops it at its next word. -/
def Core.stuck (y : Core) (k : Nat) : Bool := y.joinHeld k || y.trelHeld k

/-- A READY strand, which takes part in the round (R24). -/
def Core.inRound (y : Core) (k : Nat) : Bool :=
  let x := y.strands[k % 9]'(Nat.mod_lt _ (by decide))
  x.st == .ready && !x.lease.again && !y.stuck k
/-- R24: the sequencer has not issued in this clock, and no READY strand stands before slot `k` in the round. -/
def Core.inTurn (y : Core) (k clk : Nat) : Bool :=
  y.issuedAt != some clk && (List.range ((k + 7 - y.rr % 8) % 8)).all fun i => !y.inRound ((y.rr + 1 + i) % 8)

/-- R24, R295, R337: the acting strand, which stood at position `po`, has issued its word or trapped at it; a word at which
it waits takes no issue slot. -/
def State.counted (s : State) (po : Nat) : State :=
  if s.self.po = po ∧ s.self.st = .waiting then s
  else (s.upd fun x => if x.st = .dormant then x else { x with eff := { x.eff with slots := x.eff.slots + 1 } }).updCore s.core fun y =>
    { y with rr := s.slot.val, issuedAt := some s.clk }

/-- What the acting strand has issued is counted. -/
def countIssue (po : Nat) : Out → Out
  | .next t => .next (t.counted po)
  | r => r

/-- The acting strand issues the word at its program counter, waits for it, or traps at it; the fetch finds the errors of the row
(R365). -/
def issueWord (s : State) : Out :=
  let s := s.meetFlaws s.core s.slot.val [(imemKey s.core s.self.pc.toNat, 8)]
  countIssue s.self.po (match s.fetched s.core s.self.pc with
    | .error code => s.trapHere code
    | .ok i =>
      if i.blockedBy (s.own.awaited s.slot) then s.await .operand
      else match s.repaired i with
        | none => s.trapHere Code.machine
        | some t => exec i t)

/-- Slot `k` of core `c` may take the turn. -/
def State.canTry (s : State) (c k : Nat) : Bool :=
  decide (k < 8) && (s.strandAt c (slotIx k)).mayTry && !(s.coreAt c).stuck k && (s.coreAt c).inTurn k s.clk &&
    !s.withheld c && !(s.coreAt c).dark

/-- R23: the wait of strand `k` of core `c` at a word is met: the word would not wait now. -/
def State.waitMet (s : State) (c : Nat) (k : Fin 9) : Bool :=
  let x := s.strandAt c k
  x.atWord && !x.lease.again && !(s.coreAt c).stuck k.val && (match issueWord { s with core := c, slot := k } with
    | .next t => (t.strandAt c k).st != .waiting || (t.strandAt c k).po != x.po
    | _ => true)
/-- R23: the strands whose waits are met are READY. They keep the wait in its field until their word issues, for their place
among the waiters and for the record of the wait (R25, R358). -/
def State.wakeMet (s : State) : State :=
  s.mapCores (fun _ => true) fun c y => { y with
    strands := Vector.ofFn fun k =>
      if k.val < 8 ∧ s.waitMet c k then { y.strands[k] with st := .ready } else y.strands[k] }

/-- The turn of slot `k` of core `c`. The machine check of a queue or record that was found while the strand was stopped comes first
(R365; log entry 88, DEDUCED), then the trap of a held load that the strand needs (R307). -/
def issueTurn (c k : Nat) (s : State) : Out :=
  let s : State := { s with core := c, slot := slotIx k }
  if decide (k < 8) && s.self.flawed && s.self.traps then
    .next ((s.upd Strand.unflawed).trapAt c s.slot (Cause.plain Code.machine) s.self.pc)
  else match s.self.heldLoad with
  | some (e, code, a) =>
    if decide (k < 8) && s.needsLoad c s.slot e then
      .next ((s.upd fun x => x.setHead false { e with held := .taken }).trapAt c s.slot { code := code, arg := 0, agent := 4, addr := a, seq := e.qseq, part := none } s.self.pc)
    else if s.canTry c k then issueWord s else .next s
  | none => if s.canTry c k then issueWord s else .next s

/-! ### Engines (R27, R127, R242, R338) -/

/-- The ME or VE begins the word at its cursor, or goes on with the word it runs. -/
def State.runEngine (s : State) (kind : CmdKind) (e : Eng) (u : Cursor) : Out :=
  match u.phase with
  | .fetch => match s.fetchEng kind u with
    | .fail f => .next ((s.fetchMeets kind u).engFault e f)
    | .word v buf =>
      let s := s.fetchMeets kind u
      match decodeEng (e == .ve) (BitVec.ofNat 48 v) with
      | .ok i => exec i (s.putCursor e { u with word := BitVec.ofNat 256 v, rowBuf := buf })
      | .error _ => .next (s.engFault e (Fail.of Code.engine))
  | .run => match decodeEng (e == .ve) (u.word.setWidth 48) with
    | .ok i => exec i s
    | .error _ => .next s
  | _ => .next s

/-- Engine `e` of core `c` serves no slot: it takes the next head, or reads the counter of a waiting CWAIT again. -/
def takeTurn (c : Nat) (e : Eng) (s : State) : Out :=
  let again : Bool := e == .ce && (match (s.coreAt c).pickSlot .ce with
    | some k => ((s.strandAt c (slotIx k)).curCe.map Cursor.atCwait) == some true
    | none => false)
  if again then exec (.cwaitRetest c) s else exec (.engineEntryStart c e) s

/-- R326: a chain that a REFUSE reached while its strand was stopped or in its handler traps once its queue runs again; what
is held otherwise stays. -/
def State.chainCause (s : State) (h : Cmd) (u : Cursor) : State :=
  match u.held with
  | .cause code a =>
    if s.self.st = .dormant then s
    else (s.putCursor .ce { u with held := .taken }).trapAt s.core s.slot
      { code := code, arg := 0, agent := 3, addr := a, seq := h.qseq, part := none } s.self.pc
  | _ => s

/-- R80, R320: the slots of a core with an atomic action of a chain that a replay issues again now. -/
def State.restrikeSlot (s : State) (c : Nat) : Option (Nat × Restrike) :=
  (List.range 8).findSome? fun k => (s.dueStrike c k).map fun r => (k, r)
/-- One advance of engine `e` of core `c`. The management core has no engines: its command queues take markers and fences
alone, which leave them here (R345). -/
def engineStep (c : Nat) (e : Eng) (s : State) : Out :=
  if (s.coreAt c).dark then .next s
  else match ((s.coreAt c).eng e).serving with
    | none => takeTurn c e s
    | some k =>
      let t : State := { s with core := c, slot := slotIx k }
      match t.self.cursor e, t.self.head e with
      | some u, some h =>
        if t.self.st = .dormant ∧ t.self.flawed then .next ((t.upd Strand.unflawed).holdDormant e (Fail.of Code.machine))
        else if u.held ≠ .no then .next (if e = .ce then t.chainCause h u else t)
        else if u.phase = .push ∨ u.phase = .done then exec (.engineWordComplete c e) t
        else if e = .ce then t.runChain h.kind exec
        else if t.withheld c then .next t
        else if u.nestEntry then exec (.nestEntryRun c) t
        else t.runEngine h.kind e u
      | _, _ => .next s

/-- The counters that the repetition or unit at a cursor would pop hold a token each, or have been popped. -/
def State.poppable (s : State) (kind : CmdKind) (e : Eng) (u : Cursor) : Bool :=
  let held (w : EWord) : Bool := (popTokens e w.pop).all fun i => s.self.token i != 0
  e == .ce || u.nestEntry || u.popped || (match u.phase, s.fetchEng kind u with
    | .fetch, .word v _ => held (EWord.unpack (BitVec.ofNat 48 v))
    | .run, _ => held u.eword
    | _, _ => false)
/-- R63, R64, R76: a moment of the reads of the next repetition or unit of engine `e` comes: what orders it has been met, and every
earlier access of the core had been performed when the first came (R65). -/
def State.beginApart (s : State) (c : Nat) (e : Eng) : State :=
  match ((s.coreAt c).eng e).serving with
  | none => s
  | some k =>
    let t : State := { s with core := c, slot := slotIx k }
    match t.self.cursor e, t.self.head e with
    | some u, some h =>
      let old := ((s.coreAt c).eng e).apart
      if u.held = .no ∧ (u.phase = .fetch ∨ u.phase = .run) ∧ (!old.isEmpty || (s.coreAt c).flights.all (·.done)) ∧
          t.poppable h.kind e u ∧ !(s.coreAt c).dark ∧ (e = .ce ∨ !t.withheld c) then
        s.updCore c fun y => y.putEng e { y.eng e with apart := old ++ [(s.steps, s.mem)] }
      else s
    | _, _ => s
/-- The state in which an engine advances whose reads have begun. -/
def State.opened (s : State) (c : Nat) (e : Eng) : State :=
  { s.updCore c (fun y => y.putEng e { y.eng e with apart := [] }) with view := ((s.coreAt c).eng e).apart }
/-- What has been performed at several moments is over. -/
def closeView : Out → Out
  | .next t => .next { t with view := [] }
  | r => r
/-- R13, R308: an advance that would leave the core more than the 4,096 entries that it has does not happen yet. -/
def State.within (s : State) (c : Nat) : Out → Out
  | .next t => .next (if (s.coreAt c).entries < (t.coreAt c).entries ∧ 4096 < (t.coreAt c).entries then s else t)
  | r => r
/-- The engine's advance, at one moment or, where its reads have begun, at several. -/
def engineAdvance (c : Nat) (e : Eng) (s : State) : Out :=
  if ((s.coreAt c).eng e).apart.isEmpty then engineStep c e s else closeView (engineStep c e (s.opened c e))
/-- The turn of an engine; before a chain advances, the CE issues again what a replay owes (R80, R320). -/
def engineTurn (c : Nat) (e : Eng) (s : State) : Out :=
  s.within c (match (if e = .ce ∧ !(s.coreAt c).dark then s.restrikeSlot c else none) with
    | some (k, r) => .next (s.restrike c k r)
    | none => engineAdvance c e s)

/-! ### Turns -/

/-- R364: a parity error in a register or a counter of a strand. -/
def State.parityError (s : State) (c k kind r : Nat) : State :=
  s.updAt c (slotIx k) fun x => if x.bad.contains (kind, r) then x else { x with bad := x.bad ++ [(kind, r)] }

/-- R365: an error in a queue, an in-flight record or a tag table of slot `k` of core `c` is found: corrected, or a machine check at
the strand that owns it, with its event, which has no address. One that is FROZEN or PARKED takes it when it goes on, and an entry that
a REQ brought to a DORMANT slot faults once its engine serves it (log entry 88, DEDUCED). -/
def State.queueError (s : State) (c k : Nat) (double : Bool) : State :=
  if !double then s.updCore c fun y => { y with corr := y.corr.up 1 }
  else
    let s := (s.updCore c fun y => { y with unc := y.unc.up 1 }).emit c (k % 8) 6 0 0 0
    let x := s.strandAt c (slotIx (k % 8))
    if x.st = .dormant ∧ x.allQueued.allEmpty then s
    else if !x.traps then s.updAt c (slotIx (k % 8)) fun x => { x.unflawed with bad := x.unflawed.bad ++ [(3, 0)] }
    else s.trapAt c (slotIx (k % 8)) (Cause.plain Code.machine) x.pc

/-- A clock: the GOs of the one that ends are judged (R294, R355), releases fall due (R38), invalidations of host pages
complete (R327), rows and events that waited for a bank are written (R18), strands whose waits are met are READY (R23); at the end of
a window of 256 the draw estimates are formed (R337). -/
def tickTurn (s : State) : Out :=
  let t := s.judgeGos.advance.closeAts.flushLate.flushTrace.flushRings.wakeMet
  if t.clk % 256 = 0 then exec .drawEstimateWindow t else .next t

/-! ### A trap and a full pre-emption in one clock (R306, R323) -/

/-- What a turn makes of the state, kept where it takes a trap of strand `k` of core `c`. -/
def State.keepTrap (s : State) (c : Nat) (k : Fin 9) (r : Out) : State :=
  match r with
  | .next t =>
    if (!(s.strandAt c k).trap.hm && (t.strandAt c k).trap.hm) ||
        ((s.strandAt c k).st != .frozen && (t.strandAt c k).st == .frozen) then t else s
  | _ => s
/-- The traps that strand `k` of core `c` takes in this clk. -/
def State.trapsDue (s : State) (c : Nat) (k : Fin 9) : State :=
  let eng (e : Eng) (s : State) : State :=
    if ((s.coreAt c).eng e).serving = some k.val then s.keepTrap c k (engineTurn c e s) else s
  let s := s.keepTrap c k (issueTurn c k.val s)
  let s := eng .ce (eng .ve (eng .me s))
  let s := s.keepTrap c k (execQueueEntryIssue c k.val false s)
  s.keepTrap c k (execQueueEntryIssue c k.val true s)
/-- R323: before a FULL the named strands take the traps of its clk. -/
def State.trapsFirst (s : State) (i : Instr) : State :=
  match i with
  | .preemptFull c => if s.asked c 2 then (s.named c).foldl (fun s k => s.trapsDue c k) s else s
  | _ => s

/-- R341: a held alert reaches strand 0 of the management core before it issues. -/
def State.alertDue (s : State) (c k : Nat) : Bool :=
  c == mgmtCore && k == 0 && s.pkg.alertHeld && (s.strandAt c 0).mayTry && !(s.strandAt c 0).trap.hm

def runTurn (t : Turn) (s : State) : Out :=
  match t with
  | .issue c k => if s.alertDue c k then .next s.deliverAlert else issueTurn c k s
  | .engine c e => engineTurn c e s
  | .apart c e => .next (s.beginApart c e)
  | .part c n w => .next (s.partOfAccess c n w)
  | .event i => exec i (s.trapsFirst i)
  | .tick => tickTurn s
  | .parity c k kind r => .next (s.parityError c k kind r)
  | .biterr key double => .next (s.bitError key double)
  | .queueErr c k double => .next (s.queueError c k double)
  | .finish c => .next (s.bringForward c)

/-! ### The machine's own choice (log entry 3, DESIGN CHOICE) -/

/-- What slot `k` of core `c` can do. -/
def Strand.turns (c k clk : Nat) (x : Strand) : List Turn :=
  (if x.st == .ready || x.st == .waiting then [Turn.issue c k] else []) ++
    (match x.q.ld with
      | [] => []
      | e :: _ => if e.held = .walk then [.event (.tableWalkComplete c k false)] else [.event (.queueEntryIssue c k false)]) ++
    (match x.q.st with
      | [] => []
      | e :: _ => if e.held = .walk then [.event (.tableWalkComplete c k true)] else [.event (.queueEntryIssue c k true)]) ++
    (if x.st == .ending then [.event (.endingToDormant c k)] else []) ++
    (if x.st == .ending && x.flawed then [Turn.issue c k] else []) ++
    (if x.st == .waiting && x.wait == .drain then [.event (.taskSwitch c k)] else []) ++
    (if x.trace.smp && decide (x.trace.last + x.trace.smpint.toNat ≤ clk) then [.event (.traceSample c k)] else [])

/-- What an access of the in-flight record can do. -/
def Flight.turns (c : Nat) (f : Flight) : List Turn :=
  if !f.done then [.event (.accessPerform c f.n)]
  else if !f.written && !f.e.i.results.isEmpty then [.event (.loadValueReturn c f.n)]
  else [.event (.inFlightRetire c f.n)]

/-- What core `c` can do. -/
def Core.turns (c clk : Nat) (y : Core) : List Turn :=
  ((List.range 8).flatMap fun k => (y.strands[k % 9]'(Nat.mod_lt _ (by decide))).turns c k clk) ++
    y.flights.flatMap (Flight.turns c) ++ [.engine c .me, .engine c .ve, .engine c .ce] ++
    (if y.messages.isEmpty && y.placed.isEmpty && y.ready.isEmpty then [] else [Turn.event (.strandStart c)]) ++
    (if y.wheel.isEmpty then [] else [.event (.timerWheelSlot c)]) ++
    (if (y.strands[8]).st == .ready then [.event (.transferRun c)] else []) ++
    (if y.dark then [.event (.lendingEnd c)] else []) ++ (if y.mbox.fin.isSome then [.finish c] else []) ++
    (if y.pre.go then
      [.event (.preemptLight c), .event (.preemptFull c), .event (.preemptResume c), .event (.preemptKill c),
       .event (.killTransfer c)] else [])

/-- What the package can do. -/
def State.packageTurns (s : State) : List Turn :=
  ((List.range 4).flatMap fun d => if (s.die d).board.isEmpty then [] else
      [Turn.event (.residencyPoll d), .event (.distributorIssue d)]) ++
    (List.range 4).map (fun d => .event (.rotation d)) ++
    ((List.range s.net.length).map fun i => .event (.reqAccept i)) ++
    (if s.releases.isEmpty then [] else [.event .reelRelease]) ++
    ((s.segs.filter fun g => !g.2.reqs.isEmpty).map fun g => .event (.leaseGrant g.1)) ++
    ((List.range 16).flatMap fun p =>
      (if (s.part p).tlbinvGo then [Turn.event (.tlbinv p)] else []) ++
      (if (s.part p).scrub then [.event (.scrubDone p)] else [])) ++
    (if s.pkg.mtlbinvGo then [.event .mtlbinv] else []) ++
    (if s.pkg.fullPend then [.event .svcFull] else []) ++
    (if s.pkg.talrtEn && s.pkg.alerting != 0 && decide (s.pkg.alertAt ≤ s.clk) then [.event .alertPeriodExpiry] else []) ++
    (match s.pkg.rcapExpiry with
      | some t => if t ≤ s.clk then [.event .capLeaseExpiry] else []
      | none => [])

/-- Every turn that is due, the clock last. -/
def State.due (s : State) : List Turn :=
  (s.cores.flatMap fun e => e.2.turns e.1 s.clk) ++ s.packageTurns ++ [.tick]

/-- The turn taken where the agenda names none: the due turns in turn. -/
def nextTurn (s : State) : Turn := (s.due[s.steps % s.due.length]?).getD .tick

end Sys2Proof.Machine
end

