-- ==== Sys2Proof/Machine/Step.lean ====
section
/-! DEFINITION. One step: the turn that stands first in the agenda, or the machine's own choice; and the placement of a
word where the next step fetches it (log entry 3, DESIGN CHOICE). -/
namespace Sys2Proof.Machine

/-- The turn that the next step takes. -/
def State.turn (s : State) : Turn := s.agenda.head?.getD (nextTurn s)
/-- The state in which that turn is taken. -/
def State.stepped (s : State) : State := { s with agenda := s.agenda.tail, steps := s.steps + 1 }
/-- A turn that a package whose firmware was refused takes all the same: its reset (R354). -/
def Turn.revives : Turn → Bool
  | .event (.reset _ _ _) => true
  | _ => false

/-- One step of the machine. -/
def step (s : State) : Host.Outcome State Fault Refusal :=
  if s.service || s.turn.revives then runTurn s.turn s.stepped else .fault .noService

/-! ### Placing a word (log entry 3, DESIGN CHOICE) -/

/-- Slot 0 of core 0, whose sequencer is in turn. -/
def State.placeSlot (s : State) (f : Strand → Strand) : State :=
  (s.updAt 0 0 fun x => f { x with st := .ready, wait := .none }).updCore 0 fun y => { y with rr := 7, issuedAt := none }
/-- A STREAM entry that engine `e` has begun. -/
def Strand.placeStream (e : Eng) (x : Strand) : Strand :=
  ({ x with q := Queues.empty.pushCmd e (.stream none) 0 Snap.zero }).putCursor e (some (Cursor.start 0 0))

/-- The state with an instruction of the opcode table placed where the next step fetches it: at the program counter of
slot 0 of core 0; as the word or the entry at which an engine of core 0 stands for that slot. -/
def State.withFetchWord (s : State) (nbits w : Nat) : State :=
  let s : State := match tableReader nbits w with
    | .seq => { (s.placeSlot id).write (imemKey 0 (s.strandAt 0 0).pc.toNat) (leBytes 8 w) with agenda := [.issue 0 0] }
    | .me =>
      { ((s.placeSlot (Strand.placeStream .me)).updCore 0 fun y => y.serve .me (some 0) 0).write (imemKey 0 0) (leBytes 6 w) with
        agenda := [.engine 0 .me] }
    | .ve =>
      { ((s.placeSlot (Strand.placeStream .ve)).updCore 0 fun y => y.serve .ve (some 0) 0).write (imemKey 0 0) (leBytes 6 w) with
        agenda := [.engine 0 .ve] }
    | .ce =>
      { ((s.placeSlot (Strand.placeStream .ce)).updCore 0 fun y => y.serve .ce (some 0) 0).write (localKey 0 0) (leBytes 32 w) with
        agenda := [.engine 0 .ce] }
  s

end Sys2Proof.Machine
end

