-- ==== Sys2Proof/Safety.lean ====
section
/-! DEFINITION. What a safe run is, and the terms that statements use: canonical memory and domains, the frame of a word
that has issued, the readiness of an engine. -/
namespace Sys2Proof.Machine

/-- R103: every domain register of a strand, and every domain that its checkpoints hold, is in canonical form. -/
def Strand.domainsOk (x : Strand) : Bool := x.d.toList.all Dom.canonical && x.rel.cks.all fun k => k.d.toList.all Dom.canonical
/-- The same for every strand: of a slot, of a switched-out record, of a parked core. -/
def State.domainsOk (s : State) : Bool :=
  (s.cores.all fun p => p.2.strands.toList.all Strand.domainsOk && p.2.ready.all fun r => r.kept.all fun k => k.strand.domainsOk) &&
    s.saved.all fun p => p.strand.domainsOk

/-! ### The meaning of relations (R107) -/

/-- The value of an operand under an assignment of the registers. -/
def Opd.value (f : DReg → Int) : Opd → Int
  | .reg r => f r
  | .lit l => l.toInt
/-- R107: an assignment satisfies a stored relation. -/
def StoreEntry.Holds (e : StoreEntry) (f : DReg → Int) : Prop :=
  let iff (d : Int) (p : Bool) : Prop := d = if p then 1 else 0
  match e.op, e.args.map (Opd.value f) with
  | .add, [d, a, b] => d = a + b
  | .sub, [d, a, b] => d = a - b
  | .mul, [d, a, b] => d = a * b
  | .min, [d, a, b] => d = min a b
  | .max, [d, a, b] => d = max a b
  | .abs, [d, a] => d = a.natAbs
  | .neg, [d, a] => d = -a
  | .eq, [d, a, b] => iff d (decide (a = b))
  | .ne, [d, a, b] => iff d (decide (a ≠ b))
  | .lt, [d, a, b] => iff d (decide (a < b))
  | .le, [d, a, b] => iff d (decide (a ≤ b))
  | .alld, l => l.Pairwise (· ≠ ·)
  | _, _ => False
/-- The operands of a relation are as its form gives them. -/
def StoreEntry.Formed (e : StoreEntry) : Prop :=
  match e.op with
  | .alld => ∃ l : List DReg, e.args = l.map .reg
  | .abs => ∃ d a : DReg, e.args = [.reg d, .reg a]
  | .neg => ∃ d a : DReg, e.args = [.reg d, .reg a]
  | _ => ∃ (d : DReg) (x : Src2), e.args = x.opds d

/-- The memory has its one canonical form. -/
def State.memOk (s : State) : Bool := Memory.wf s.mem

/-- Everything but the acting strand is as before: every byte of memory, every other strand of every core, the flags, the
tiles and the engines of every core, every control register of the package. -/
def State.OnlySelf (s t : State) : Prop := t = s.putSelf t.self

/-- What a word leaves of its strand: the domain registers but for `ds`, the address registers but for `as`, and every
field that is neither a register, nor a mark of the constraint store, nor where the strand goes on. A register that is
written is live, and marks pending the entries that mention it (R141, R189). -/
structure Strand.Kept (x y : Strand) (ds : List DReg) (as : List AReg) : Prop where
  doms : ∀ r : DReg, r ∉ ds → y.d[r.toNat] = x.d[r.toNat]
  addrs : ∀ r : AReg, r ∉ as → y.a[r.toNat] = x.a[r.toNat]
  deadD : y.deadD = ds.foldl (fun q r => q.write r.toNat) x.deadD
  deadA : y.deadA = as.foldl (fun q r => q.write r.toNat) x.deadA
  rel : y.rel = { x.rel with store := ds.foldl markPending x.rel.store }
  rest : y = { x with d := y.d, a := y.a, deadD := y.deadD, deadA := y.deadA, bad := y.bad, rel := y.rel, pc := y.pc,
                      loops := y.loops, po := y.po, st := y.st, wait := y.wait }

/-- The strand goes on with the next word in sequence, or at the start of a loop whose last word this was (R169). -/
structure Strand.WentOn (x y : Strand) : Prop where
  pc : y.pc = (afterWord x.pc x.loops).1
  loops : y.loops = (afterWord x.pc x.loops).2
  po : y.po = x.po + 1
  ready : y.st = .ready ∧ y.wait = .none

/-- The acting strand's word has issued: it replaced the domain registers `ds` and the address registers `as` and nothing
else, and goes on. -/
structure State.Issued (s t : State) (ds : List DReg) (as : List AReg) : Prop where
  only : s.OnlySelf t
  kept : s.self.Kept t.self ds as
  on : s.self.WentOn t.self

/-- The acting strand's word has issued and the strand stands at `pc`. -/
structure State.Jumped (s t : State) (pc : BitVec 17) (as : List AReg) : Prop where
  only : s.OnlySelf t
  kept : s.self.Kept t.self [] as
  at_ : t.self.pc = pc ∧ t.self.po = s.self.po + 1 ∧ t.self.st = .ready ∧ t.self.wait = .none

/-- The acting strand waits at its word, and nothing else has changed. -/
structure State.Waits (s t : State) (w : Wait) : Prop where
  only : s.OnlySelf t
  waits : t.self.st = .waiting ∧ t.self.wait = w
  rest : t.self = { s.self with st := t.self.st, wait := t.self.wait, since := t.self.since, sinceClk := t.self.sinceClk }

/-! ### Repetitions of engine words and units of chain entries -/

/-- R26, R93: a form that takes a format word finds one that is legal for it at the head of the format queue, those that a cut set aside
before a handler's, and takes it away. -/
def State.Takes (s : State) (fmt : Option (Fmt → Bool)) (t : State) (v : Word) : Prop :=
  match fmt with
  | none => t = s ∧ v = 0
  | some ok => s.self.allQueued.fmt.head? = some v ∧ (Fmt.unpack v).ok = true ∧ ok (Fmt.unpack v) = true ∧
      (s.pkg.full = true ∨ (Fmt.unpack v).reduced = true) ∧ t = s.upd Strand.dropFmt

/-- R39, R40: how many times a word runs, in which state it goes on: as its form says, as the row pointer says, whose count every
later reader of the kernel execution then sees, or as its field says. -/
inductive State.Counts (s : State) (w : EWord) (count : Option Nat) : State → Nat → Prop where
  | form (n : Nat) : count = some n → 0 < n → State.Counts s w count s n
  | row (n : Nat) : count = none → 0 < n → w.rpt = 0x3FF → s.rowCount s.core s.self = .count n →
      State.Counts s w count ((s.rowRead s.core s.slot).upd fun x => x.latchRow n) n
  | field : count = none → w.rpt ≠ 0x3FF → State.Counts s w count s (w.rpt.toNat + 1)
theorem State.Counts.pos {s t : State} {w : EWord} {count : Option Nat} {n : Nat} (h : s.Counts w count t n) : 0 < n := by
  cases h with
  | form _ _ h => exact h
  | row _ _ h => exact h
  | field => exact Nat.succ_pos _

/-- R28: the counters that a word pops hold a token each, and no error. -/
def State.Pops (s : State) (e : Eng) (w : EWord) : Prop :=
  s.self.badToken (popTokens e w.pop) = false ∧ ∀ i ∈ popTokens e w.pop, s.self.token i ≠ 0

/-- R28, R40, R93, R197: the word that engine `e` runs for the acting strand is to make a repetition, in state `t` and with
cursor `u`: the first one with its format word taken, each one with its pops made where it has any to make. No bit error
stands undiscovered. -/
inductive State.AtRep (s : State) (e : Eng) (w : EWord) (fmt : Option (Fmt → Bool)) (count : Option Nat) :
    State → Cursor → Prop where
  | again (u : Cursor) : s.self.cursor e = some u → u.phase = .run → u.popped = true → u.rep < u.total → s.flaws = [] →
      State.AtRep s e w fmt count s u
  | pops (u : Cursor) : s.self.cursor e = some u → u.phase = .run → u.popped = false → u.rep < u.total → s.flaws = [] → s.Pops e w →
      State.AtRep s e w fmt count ((s.engWoke e u (s.wokeBy u)).upd fun x => x.pop (popTokens e w.pop))
        { u with popped := true, since := none }
  | first (u : Cursor) (n : Nat) (r t : State) (v : Word) : s.self.cursor e = some u → u.phase = .fetch →
      t.flaws = [] → s.Counts w count r n → r.Takes fmt t v → r.self.badToken (popTokens e w.pop) = false → t.Pops e w →
      State.AtRep s e w fmt count ((t.engWoke e u (t.wokeBy u)).upd fun x => x.pop (popTokens e w.pop))
        { u with phase := .run, popped := true, rep := 0, total := n, fmt := v, since := none }

/-- What every repetition of state `s` leaves beside its effect `t`: its cursor goes on from `v`, a wait that it ended is
traced, and the clocks for which the engine was busy for the strand are counted. -/
def State.repDone (s t : State) (e : Eng) (w : EWord) (u v : Cursor) (clks : Nat) : State :=
  (((t.engWoke e u (s.wokeBy u)).putCursor e (v.turn w.each)).upd fun x => x.busy e clks s.clk).skipBytes e w u

/-- R29, R198, R199: what a command leaves of the marks of its tiles: none that it wrote is partial, and those that it
loaded or stored into are full once its last repetition has written them. -/
def State.tilesDone (t : State) (k : Uses) (last : Bool) : State :=
  let t := t.updCore t.core fun y => { y with part := y.part &&& ~~~(tilesOf k.writes) }
  if k.acc || !last || tilesOf k.writes == 0 then t
  else t.updCore t.core fun y => y.putFull (strandNumber t.core t.slot.val) (tilesOf k.writes) true
/-- The cursor with the tiles that its word uses. -/
def Cursor.uses (u : Cursor) (k : Uses) : Cursor :=
  { u with reads := u.reads ||| tilesOf k.reads, writes := u.writes ||| tilesOf k.writes, acc := k.acc }

/-! ### Trace records (R357-R359) -/

/-- The trace unit of strand `k` of core `c` can write its next record at a key at once. -/
structure State.TraceReady (s : State) (c : Nat) (k : Fin 9) (key : Nat) : Prop where
  on : (s.strandAt c k).trace.tre = true
  runs : (s.strandAt c k).st ≠ .frozen ∧ (s.strandAt c k).st ≠ .parked
  whole : (s.strandAt c k).trace.gap = 0
  target : s.traceTarget c (s.strandAt c k).trace = some key
  free : s.traceHeld c k = false ∧ s.late = [] ∧ s.holdsAny true [(key, 32)] = false ∧ s.sleeping [(key, 32)] = false ∧ s.flaws = []
/-- A record of a type with words 2 and 3 stands there, and no other byte has changed. -/
structure State.Traced (s t : State) (c : Nat) (k : Fin 9) (key type w2 w3 : Nat) : Prop where
  bytes : t.mem = s.mem.write key (leBytes 8 s.pkg.ptp.toNat ++
    leBytes 8 (type * 2 ^ 56 + (strandNumber c k.val).toNat * 2 ^ 32 + (s.strandAt c k).trace.count.toNat) ++ leBytes 8 w2 ++ leBytes 8 w3)
  count : (t.strandAt c k).trace.prod = (s.strandAt c k).trace.prod + 1 ∧
    (t.strandAt c k).trace.count = (s.strandAt c k).trace.count + 1 ∧ (t.strandAt c k).trace.drop = (s.strandAt c k).trace.drop

/-- The chain entry that the copy engine runs for the acting strand stands before unit `u.unit` of `total`. -/
def State.AtUnit (s : State) (u : Cursor) (total : Nat) : Prop :=
  u.unit < total ∧ ∃ c, s.self.curCe = some c ∧ c.held = .no ∧
    ((c.phase = .run ∧ u = c) ∨ (c.phase = .fetch ∧ u = { c with phase := .run, unit := 0, seen := [] }))

/-- What a unit leaves beside its effect `t`: the cursor goes on from `v` to the next unit, or the entry is done. -/
def State.unitDone (t : State) (v : Cursor) (n total clks : Nat) : State :=
  (t.putCursor .ce { v with unit := n + 1, phase := if n + 1 = total then .done else .run }).upd fun x => x.busy .ce clks t.clk

/-! ### The queues' traffic -/

/-- R63, R68, R80, R306: the head of the load or the store queue (`st`) of slot `k` of core `c` is met by its order: no entry stands
before it that overlaps, none that a cut set aside in the queue, no replay, and no operation whose refusal it would have to follow.
It issues for the first time. -/
structure State.AtHead (s : State) (c k : Nat) (st : Bool) (e : QEntry) (rest : List QEntry) : Prop where
  slot : k < 8
  runs : (s.strandAt c (slotIx k)).issues = true
  head : (s.strandAt c (slotIx k)).queue st = e :: rest
  free : e.held = .no ∧ e.tag = none ∧ e.ra = none ∧ e.replay = none
  order : s.overlaps c e ((s.strandAt c (slotIx k)).rivals st e) = false ∧ (s.strandAt c (slotIx k)).behindCut st e = false ∧
    (s.coreAt c).replaying k = false ∧ (st && (s.coreAt c).bankBusy k) = false
  flaws : s.flaws = []
/-- The strand without the head of the queue. -/
def Strand.without (x : Strand) (st : Bool) (rest : List QEntry) : Strand :=
  if st then { x with q := { x.q with st := rest } } else { x with q := { x.q with ld := rest } }
/-- R63, R308, R311: the head has issued as the in-flight entry `f`, its tag the strand's next where it is TAGGED; memory is as
before. -/
structure State.Sent (s t : State) (c k : Nat) (st : Bool) (rest : List QEntry) (f : Flight) : Prop where
  mem : t.mem = s.mem
  strand : t.strandAt c (slotIx k) = { (s.strandAt c (slotIx k)).without st rest with
    tag := if f.cls = .tagged then { (s.strandAt c (slotIx k)).tag with next := (s.strandAt c (slotIx k)).tag.next + 1 }
           else (s.strandAt c (slotIx k)).tag }
  flights : (t.coreAt c).flights = (s.coreAt c).flights ++ [f]
  open_ : f.done = false ∧ f.written = false ∧ f.slot = k ∧ f.st = st
  tag : f.tag = if f.cls = .tagged then some { ctx := (s.strandAt c (slotIx k)).tag.ctx, seq := (s.strandAt c (slotIx k)).tag.next } else none
/-- The record has room, and the strand's tags. -/
def State.hasRoom (s : State) (c k : Nat) : Bool := !(s.coreAt c).crowded && (s.strandAt c (slotIx k)).tag.room

/-- Access `n` of core `c`, in flight as `f` under tag `g`, may be performed at its bank on the bytes from key `a` on: its earlier
accesses to the bank have been, the bank has room for its tag and has not seen it, and no row holds an error. -/
structure State.AtBank (s : State) (c n : Nat) (f : Flight) (a m : Nat) (g : Tag) : Prop where
  found : (s.coreAt c).flights.find? (fun f => f.n == n) = some f
  open_ : f.done = false ∧ f.reads = [] ∧ f.out = none ∧ f.tag = some g ∧ f.ra = [(a, m)]
  place : hostBase ≤ a ∧ ∃ b, f.place = .bank b
  order : s.behindPath c f = false ∧ s.afterSteal f = false
  room : s.tagFound f.place g = none ∧ s.tagRoom c f.place = true
  clean : s.poison = [] ∧ s.flaws = []

/-- Access `n` of core `c` is near-memory entry `f`, in flight toward the unit of stack `h`, its tables in HBM; nothing goes before it,
and no row that it reaches is held, asleep or in error. -/
structure State.NearUnit (s : State) (c n : Nat) (f : Flight) (h : Nat) : Prop where
  found : (s.coreAt c).flights.find? (fun f => f.n == n) = some f
  place : f.place = .nmu h ∧ ∀ x ∈ f.ra, x.1 + x.2 ≤ hostBase
  order : s.stays c f = false ∧ s.holdsAny true f.reached = false ∧ s.sleeping f.reached = false
  room : f.out = none → ∀ g, f.tag = some g → s.tagFound f.place g = none ∧ s.tagRoom c f.place = true
  clean : s.flaws = [] ∧ s.memOk = true
/-- The unit has taken it, and it stands before its last moment: the rows of its tables are as at its first, at model step `step`; of a
PKA every update is still to be performed. -/
structure State.AtUnitOf (s : State) (c n : Nat) (f : Flight) (h step : Nat) : Prop where
  near : s.NearUnit c n f h
  taken : if nmKind f.e.i = some .pka then f.reads = [] ∧ f.out = some (runPka (leNat (f.e.data.take 64)) f.ra (f.e.data.drop 64))
    else f.reads = [(step, s.mem)] ∧ f.out = none

/-! ### Blocks of elements (R88, R96, R203, R208) -/

/-- Block `b` of `n` elements of a row. -/
def blockOf (n b : Nat) (x : List Ext) : List Ext := (x.drop (n * b)).take n
/-- R203, R209: a block as it is encoded: rotated, scaled by its factor. -/
def Fmt.block (f : Fmt) (q : Option Ext) (x : List Ext) : List Ext :=
  let y := if f.hd = 1 then (hadamard x f.bk).take x.length
    else if f.hd = 2 then x.map fun v => v.scale (-(f.bk.log2 : Int)) else x
  match q with
  | some k => y.map fun v => v.mul k
  | none => y
/-- Its codes, and its scale entry, without draws. -/
def Fmt.encoded (f : Fmt) (x : List Ext) : List Nat × Nat :=
  if f.scaled f.of then ((encodeBlock x f.of f.sv f.mode f.sat 0).codes, (encodeBlock x f.of f.sv f.mode f.sat 0).entry)
  else (x.map fun v => round f.of f.mode f.sat 0 v, 0x8000)
/-- What a read at an untranslated local address gives. -/
def State.localVal (s : State) (a n : Nat) : Nat :=
  match s.localRead a n with
  | .ok v => v
  | .error _ => 0
/-- R207, R208: element (r, k) of the sparse operand whose directory record stands at `p`: the value that its row lists for the column,
else zero. -/
def State.sparseAt (s : State) (f : Fmt) (fmt p : Nat) (q : Option Ext) (r k : Nat) : Ext :=
  let w := fmtWidth fmt
  let ptr (i : Nat) : Nat := s.localVal (s.localVal (p + 32) 4 + 8 + 2 * i) 2
  match (List.range (ptr (r + 1) - ptr r)).find? fun n => s.localVal (s.localVal (p + 36) 4 + (ptr r + n)) 1 == k with
  | some n =>
    let e := w * (ptr r + n)
    (decRow f fmt 1 (s.localVal (s.localVal (p + 40) 4 + e / 8) (max (w / 8) 1) / 2 ^ (e % 8) % 2 ^ w) 0 q).headD Ext.zero
  | none => Ext.zero

/-! ### Partitions (R51, R330, R349) -/

/-- A chunk of keys that an access of core `c` reaches lies in the share of partition `p`: a vault of its columns, host memory, slices of
its columns or granted to it, or the memory of the core or of its partner. -/
def State.InShare (s : State) (p c : Nat) (x : Nat × Nat) : Prop :=
  (x.1 + x.2 ≤ hostBase ∧ (s.part p).cols.getLsbD (vaultCol (x.1 / 2 ^ 37) (x.1 / 2 ^ 33 % 16)) = true) ∨
  (hostBase ≤ x.1 ∧ x.1 < ballBase) ∨
  (ballBase ≤ x.1 ∧ x.1 + x.2 ≤ localBase ∧ ∀ b, x.1 ≤ b → b < x.1 + x.2 →
    ((s.part p).cols ||| (s.part p).ball).getLsbD (gcolOf ((b - ballBase) / 2 ^ 20)) = true) ∨
  ∃ j ∈ [c, partnerOf c], localKey j 0 ≤ x.1 ∧ x.1 + x.2 ≤ localKey j 0x200000

end Sys2Proof.Machine
end

