-- ==== Sys2Proof/Certificates/Slice0/Obligations.lean ====
section
/-! DEFINITION. The statements for the provers. -/
open Sys2Proof Sys2Proof.Machine

/-! ### Integer forms -/

/-- R146, R148: the value forms replace DST with the result of their operation on the values of the two sources, at every
operand form, and change nothing else; the functional compares write {1} or {0}. -/
def Obligations.ValueFormsAndComparesGiveResults : Prop :=
  (∀ (s : State) (d : DReg) (x : Src2) (a b : Word), (s.src1 x).val = some a → (s.src2 x).val = some b →
    ∀ p ∈ [(Instr.mul d x, BitVec.ofInt 32 (a.toInt * b.toInt)),
           (Instr.mulhS d x, BitVec.ofInt 32 (a.toInt * b.toInt / 2 ^ 32)),
           (Instr.mulhU d x, BitVec.ofNat 32 (a.toNat * b.toNat / 2 ^ 32)),
           (Instr.divS d x, if b = 0 then -1 else BitVec.ofInt 32 (a.toInt.tdiv b.toInt)),
           (Instr.divU d x, if b = 0 then -1 else a / b),
           (Instr.remS d x, if b = 0 then a else BitVec.ofInt 32 (a.toInt.tmod b.toInt)),
           (Instr.remU d x, if b = 0 then a else a % b),
           (Instr.and d x, a &&& b), (Instr.or d x, a ||| b), (Instr.xor d x, a ^^^ b), (Instr.andn d x, a &&& ~~~b),
           (Instr.shl d x, a <<< (b.toNat % 32)), (Instr.shr d x, a >>> (b.toNat % 32)),
           (Instr.sra d x, a.sshiftRight (b.toNat % 32)), (Instr.rot d x, a.rotateLeft (b.toNat % 32))],
      ∃ t, exec p.1 s = .next t ∧ t.self.d[d.toNat] = Dom.single p.2 ∧ s.Issued t [d] []) ∧
  ∀ (s : State) (d : DReg) (x : Src2) (a b : Word), (s.src1 x).val = some a → (s.src2 x).val = some b →
    ∀ p ∈ [(Instr.cmpeq d x, decide (a = b)), (Instr.cmpne d x, decide (a ≠ b)),
           (Instr.cmplt d x, decide (a.toInt < b.toInt)), (Instr.cmple d x, decide (a.toInt ≤ b.toInt))],
      ∃ t, exec p.1 s = .next t ∧ t.self.d[d.toNat] = Dom.single (if p.2 then 1 else 0) ∧ s.Issued t [d] []

/-- R106: the functional forms wrap on values, and MIN and MAX compare as signed; on sets they keep every result: whatever
members the sources have, the wrapped result of the operation on them is a member of the domain written. -/
def Obligations.FunctionalFormsGiveTheirResults : Prop :=
  (∀ (s : State) (d : DReg) (x : Src2) (a b : Word), (s.src1 x).val = some a → (s.src2 x).val = some b →
    ∀ p ∈ [(Instr.add d x, a + b), (Instr.sub d x, a - b), (Instr.min d x, if a.toInt ≤ b.toInt then a else b),
           (Instr.max d x, if a.toInt ≤ b.toInt then b else a)],
      ∃ t, exec p.1 s = .next t ∧ t.self.d[d.toNat] = Dom.single p.2 ∧ s.Issued t [d] []) ∧
  ∀ (s : State) (d : DReg) (x : Src2) (v w : Int), (s.src1 x).canonical = true → (s.src2 x).canonical = true →
    (s.src1 x).has v = true → (s.src2 x).has w = true →
    ∀ p ∈ [(Instr.add d x, v + w), (Instr.sub d x, v - w), (Instr.min d x, min v w), (Instr.max d x, max v w)],
      ∃ t, exec p.1 s = .next t ∧ (t.self.d[d.toNat]).has (wrap 32 p.2) = true ∧ s.Issued t [d] []

/-- R106, R148: the forms of one source on a value: magnitude and negation wrap; leading zeros, least set bit, set bits;
the extracted field with its sign, or zero-extended. On a set, magnitude and negation keep every result: whatever member the
source has, the wrapped result is a member of the domain written. -/
def Obligations.OneSourceFormsGiveTheirResults : Prop :=
  (∀ (s : State) (d r : DReg) (pos : BitVec 5) (width : BitVec 6) (a : Word), (s.rd r).val = some a →
    1 ≤ width.toNat → pos.toNat + width.toNat ≤ 32 →
    ∀ p ∈ [(Instr.abs d r, if a.toInt < 0 then -a else a), (Instr.neg d r, -a), (Instr.clz d r, a.clz),
           (Instr.ffs d r, a.ctz), (Instr.popc d r, a.cpop),
           (Instr.exts d r pos width, ((a >>> pos.toNat).setWidth width.toNat).signExtend 32),
           (Instr.extz d r pos width, ((a >>> pos.toNat).setWidth width.toNat).setWidth 32)],
      ∃ t, exec p.1 s = .next t ∧ t.self.d[d.toNat] = Dom.single p.2 ∧ s.Issued t [d] []) ∧
  ∀ (s : State) (d r : DReg) (v : Int), (s.rd r).canonical = true → (s.rd r).has v = true →
    ∀ p ∈ [(Instr.abs d r, (v.natAbs : Int)), (Instr.neg d r, -v)],
      ∃ t, exec p.1 s = .next t ∧ (t.self.d[d.toNat]).has (wrap 32 p.2) = true ∧ s.Issued t [d] []

/-- R149: SEL copies the whole domain of one of two sources, by the value of the third; without a value it traps. -/
def Obligations.SelCopiesAWholeDomain : Prop :=
  (∀ (s : State) (d c a b : DReg) (v : Word), (s.rd c).val = some v →
    ∃ t, exec (.sel d c a b) s = .next t ∧ t.self.d[d.toNat] = (if v = 0 then s.rd b else s.rd a) ∧ s.Issued t [d] []) ∧
  ∀ (s : State) (d c a b : DReg), (s.rd c).val = none →
    exec (.sel d c a b) s = .next (s.trapAt s.core s.slot (Cause.plain 0x03) s.self.pc)

/-- R140: a form that needs a value takes the indeterminate-source trap, precise at its word, where its first source is no
singleton, or its second is none. R110: a relation posted to a full store takes the store-full trap. R158: a count or an
address that does not fit in 32 signed bits takes the integer-overflow trap at DCARD or DFROMA. R114, R152: a narrowing that
would leave no member, or a DSET with l above h, changes no domain and takes FAIL, where no checkpoint is restored in hardware. -/
def Obligations.SequencerFormsTrapAndFail : Prop :=
  ((∀ (s : State) (d : DReg) (x : Src2), (s.src1 x).val = none ∨ ((s.src1 x).val.isSome ∧ (s.src2 x).val = none) →
    ∀ i ∈ [Instr.mul d x, Instr.mulhS d x, Instr.mulhU d x, Instr.divS d x, Instr.divU d x, Instr.remS d x, Instr.remU d x,
           Instr.and d x, Instr.or d x, Instr.xor d x, Instr.andn d x, Instr.shl d x, Instr.shr d x, Instr.sra d x,
           Instr.rot d x, Instr.cmpeq d x, Instr.cmpne d x, Instr.cmplt d x, Instr.cmple d x, Instr.dset d x],
      exec i s = .next (s.trapAt s.core s.slot (Cause.plain 0x03) s.self.pc)) ∧
  (∀ (s : State) (d a : DReg) (x : Src2) (m : BitVec 4), 256 ≤ s.self.rel.store.length →
    ∀ i ∈ [Instr.addR d x, Instr.subR d x, Instr.mulR d x, Instr.minR d x, Instr.maxR d x, Instr.cmpeqR d x,
           Instr.cmpneR d x, Instr.cmpltR d x, Instr.cmpleR d x, Instr.absR d a, Instr.negR d a, Instr.alld d m],
      (i = .alld d m → 2 ≤ m.toNat ∧ m.toNat ≤ 8 ∧ d.toNat + m.toNat ≤ 64) →
      exec i s = .next (s.trapAt s.core s.slot (Cause.plain 0x07) s.self.pc)) ∧
  ∀ (s : State) (d r : DReg) (a : AReg),
    (2 ^ 31 ≤ (s.rd r).card → exec (.dcard d r) s = .next (s.trapAt s.core s.slot (Cause.plain 0x08) s.self.pc)) ∧
    ((s.ra a).toInt < -2 ^ 31 ∨ 2 ^ 31 ≤ (s.ra a).toInt →
      exec (.dfroma d a) s = .next (s.trapAt s.core s.slot (Cause.plain 0x08) s.self.pc))) ∧
  ∀ (s : State) (d r : DReg) (x : Src2), s.self.rel.ab = false ∨ s.self.rel.ckd = 0 →
    (∀ l h, (s.src1 x).val = some l → (s.src2 x).val = some h → h.toInt < l.toInt →
      exec (.dset d x) s = .next (s.trapAt s.core s.slot (Cause.plain 0x05) s.self.pc)) ∧
    ((s.rd d).canonical = true → (s.rd r).canonical = true → (∀ u, ¬ ((s.rd d).has u = true ∧ (s.rd r).has u = true)) →
      exec (.dint d r) s = .next (s.trapAt s.core s.slot (Cause.plain 0x05) s.self.pc))

/-- R107, R110, R112, R153: a relation that is posted to a store with room, and whose propagation leaves no domain empty, is
appended to the store; the domains are those of the propagation, PXF is set where the budget stopped it, and then PLE = 1 takes
the propagation-limit trap after the commit, to the next word; the address registers and all else are as before. PFIX runs what
is pending, and with nothing pending changes nothing. R108, R109, R111, R112: from canonical domains a propagation, of a new relation
or behind the registers `own` that an instruction has narrowed itself, fails only
where no assignment of members solves the stored relations and the new one; it only takes members away, keeps every assignment
that solves them, leaves canonical domains, and changes no register that it does not name; marks are left exactly where the
budget stopped it; and a relation whose operands it leaves as single values, not stopped, holds of them. -/
def Obligations.RelationsArePosted : Prop :=
  (∀ (s : State) (d a : DReg) (x : Src2) (m : BitVec 4) (p : Propagated),
    let left (t : State) : Prop := s.OnlySelf t ∧ s.self.WentOn t.self ∧
      t.self.rel = { s.self.rel with store := p.store, pxf := s.self.rel.pxf || p.stopped } ∧
      (∀ r ∈ p.changed, t.self.d[r.toNat] = p.file[r.toNat]) ∧
      (∀ r, r ∉ p.changed → t.self.d[r.toNat] = s.self.d[r.toNat]) ∧ t.self.a = s.self.a ∧ t.self.q = s.self.q
    let ends (i : Instr) : Prop :=
      ((p.stopped = false ∨ s.self.rel.ple = false) → ∃ t, exec i s = .next t ∧ left t) ∧
      (p.stopped = true → s.self.rel.ple = true →
        ∃ t, exec i s = .next (t.trapAt t.core t.slot (Cause.plain 0x06) t.self.pc) ∧ left t)
    (s.self.rel.store.length < 256 →
      ∀ q ∈ [(Instr.addR d x, RelOp.add, x.opds d), (Instr.subR d x, RelOp.sub, x.opds d),
             (Instr.mulR d x, RelOp.mul, x.opds d), (Instr.minR d x, RelOp.min, x.opds d),
             (Instr.maxR d x, RelOp.max, x.opds d), (Instr.cmpeqR d x, RelOp.eq, x.opds d),
             (Instr.cmpneR d x, RelOp.ne, x.opds d), (Instr.cmpltR d x, RelOp.lt, x.opds d),
             (Instr.cmpleR d x, RelOp.le, x.opds d), (Instr.absR d a, RelOp.abs, [.reg d, .reg a]),
             (Instr.negR d a, RelOp.neg, [.reg d, .reg a]),
             (Instr.alld d m, RelOp.alld, (List.range m.toNat).map fun i => .reg (d + BitVec.ofNat 6 i))],
        (q.1 = .alld d m → 2 ≤ m.toNat ∧ m.toNat ≤ 8 ∧ d.toNat + m.toNat ≤ 64) →
        propagate s.self.rel.store s.self.rel.budget.toNat (some { op := q.2.1, args := q.2.2, pending := false })
          (runFix { op := q.2.1, args := q.2.2, pending := false } s.file) = some p →
        ends q.1 ∧ p.store.length = s.self.rel.store.length + 1) ∧
    (propagate s.self.rel.store s.self.rel.budget.toNat none (some (s.file, [])) = some p → ends .pfix) ∧
    ((∀ e ∈ s.self.rel.store, e.pending = false) → ∃ t, exec .pfix s = .next t ∧ s.Issued t [] [])) ∧
  ∀ (store : List StoreEntry) (budget : Nat) (c : Option StoreEntry) (file : DFile) (own : List DReg),
    (∀ r : DReg, (file[r.toNat]).canonical = true) →
    let all := store ++ c.toList
    let solves (f : DReg → Int) : Prop := (∀ r : DReg, (file[r.toNat]).has (f r) = true) ∧ ∀ e ∈ all, e.Holds f
    let run := propagate store budget c (match c with
      | some e => runFix e file
      | none => some (file, own))
    ((∃ f, solves f) → run.isSome = true) ∧
    ∀ p, run = some p →
      (∀ r : DReg, (p.file[r.toNat]).canonical = true ∧
        (∀ v, (p.file[r.toNat]).has v = true → (file[r.toNat]).has v = true) ∧
        (∀ f, solves f → (p.file[r.toNat]).has (f r) = true) ∧ (r ∉ p.changed → p.file[r.toNat] = file[r.toNat])) ∧
      p.store.map (fun e => (e.op, e.args)) = all.map (fun e => (e.op, e.args)) ∧ p.stopped = p.store.any (·.pending) ∧
      ∀ e, c = some e → e.Formed → p.stopped = false → (∀ a ∈ e.args, (a.dom p.file).sng = true) →
        e.Holds fun r => (p.file[r.toNat]).l

/-! ### Domain forms, propagation control, checkpoints -/

/-- R151: the forms that inspect a domain, and DSET with l at most h. R104, R151, R152: DPICK splits a canonical domain at the midpoint
of its bounds: the lower half and the upper half have exactly the members of their side; the upper half of a singleton is the singleton.
A narrowing of a canonical domain takes away exactly the members that it names: DMSK those of the window whose mask bit is 0, DEXC
one value of the window or the last member (any other value beyond the window changes nothing), DINT those outside the source. Under an
empty store that is all it does. Under a store it performs one propagation behind it: what that leaves is committed, with the
propagation-limit trap of R112 where the budget stopped it under PLE = 1, and where it fails nothing changes and FAIL is taken
(R114). -/
def Obligations.DomainFormsInspectSetAndNarrow : Prop :=
  (∀ (s : State) (d r : DReg) (v : SrcV) (x : Src2) (w l h : Word), (s.srcV v).val = some w → (s.src1 x).val = some l →
     (s.src2 x).val = some h → l.toInt ≤ h.toInt →
     ∀ p ∈ [(Instr.dlo d r, Dom.single (s.rd r).lo), (Instr.dhi d r, Dom.single (s.rd r).hi), (Instr.mov d r, s.rd r),
            (Instr.dcard d r, Dom.single (BitVec.ofNat 32 (s.rd r).card)),
            (Instr.dtst d r v, Dom.single (if (s.rd r).has w.toInt then 1 else 0)),
            (Instr.dset d x, Dom.range l.toInt h.toInt)],
       (p.1 = .dcard d r → (s.rd r).card < 2 ^ 31) → ∃ t, exec p.1 s = .next t ∧ t.self.d[d.toNat] = p.2 ∧ s.Issued t [d] []) ∧
  (∀ (s : State) (d r : DReg), (s.rd r).canonical = true →
    (∃ t, exec (.dpickLo d r) s = .next t ∧ s.Issued t [d] [] ∧
      ∀ v, (t.self.d[d.toNat]).has v = ((s.rd r).has v && decide (2 * v ≤ (s.rd r).lo.toInt + (s.rd r).hi.toInt))) ∧
    ∃ t, exec (.dpickHi d r) s = .next t ∧ s.Issued t [d] [] ∧
      ∀ v, (t.self.d[d.toNat]).has v =
        ((s.rd r).has v && ((s.rd r).sng || decide ((s.rd r).lo.toInt + (s.rd r).hi.toInt < 2 * v)))) ∧
  ∀ (s : State) (d r : DReg) (a : AReg) (v : SrcV) (w : Word), (s.rd d).canonical = true → (s.rd r).canonical = true →
    s.self.deadD.mask.getLsbD d.toNat = false → (s.srcV v).val = some w →
    ∀ q ∈ [(Instr.dmsk d a, fun u : Int => decide (64 ≤ u - (s.rd d).lo.toInt) || (s.ra a).getLsbD (u - (s.rd d).lo.toInt).toNat),
           (Instr.dexc d v, fun u : Int => decide (u ≠ w.toInt) || decide (64 ≤ u - (s.rd d).lo.toInt ∧ u ≠ (s.rd d).hi.toInt)),
           (Instr.dint d r, fun u : Int => (s.rd r).has u)],
      (s.self.rel.store = [] → (∃ u, (s.rd d).has u = true ∧ q.2 u = true) →
        ∃ t, exec q.1 s = .next t ∧ s.OnlySelf t ∧ s.self.WentOn t.self ∧
          (∀ u, (t.self.d[d.toNat]).has u = ((s.rd d).has u && q.2 u)) ∧
          (∀ q, q ≠ d → t.self.d[q.toNat] = s.self.d[q.toNat]) ∧ t.self.a = s.self.a ∧ t.self.rel = s.self.rel) ∧
      ∀ n : Dom, n.canonical = true → (∀ u, n.has u = ((s.rd d).has u && q.2 u)) →
        let run := propagate s.self.rel.store s.self.rel.budget.toNat none
          (some (if n = s.rd d then (s.file, []) else (s.file.set d.toNat n, [d])))
        (run = none → s.self.rel.ab = false ∨ s.self.rel.ckd = 0 →
          exec q.1 s = .next (s.trapAt s.core s.slot (Cause.plain 0x05) s.self.pc)) ∧
        ∀ p, run = some p →
          let left (t : State) : Prop := s.OnlySelf t ∧ s.self.WentOn t.self ∧
            t.self.rel = { s.self.rel with store := p.store, pxf := s.self.rel.pxf || p.stopped } ∧
            (∀ r ∈ p.changed, t.self.d[r.toNat] = p.file[r.toNat]) ∧
            (∀ r, r ∉ p.changed → t.self.d[r.toNat] = s.self.d[r.toNat]) ∧ t.self.a = s.self.a ∧ t.self.q = s.self.q
          (p.stopped = false ∨ s.self.rel.ple = false → ∃ t, exec q.1 s = .next t ∧ left t) ∧
          (p.stopped = true → s.self.rel.ple = true →
            ∃ t, exec q.1 s = .next (t.trapAt t.core t.slot (Cause.plain 0x06) t.self.pc) ∧ left t)

/-- R154: PCLR empties the store and the checkpoint stack and clears the marks, and leaves the domain registers, the budget,
PXF and SYS.PCTL; PSTAT then reads SH = 0, CKD = 0 and PND = 0. -/
def Obligations.PclrEmptiesTheStore : Prop :=
  ∀ s : State, ∃ t, exec .pclr s = .next t ∧ s.OnlySelf t ∧ s.self.WentOn t.self ∧ t.self.d = s.self.d ∧
    t.self.rel = { s.self.rel with store := [], cks := [], ckd := 0 } ∧ t.self.rel.pctl = s.self.rel.pctl ∧
    t.self.rel.pstat = (if s.self.rel.pxf then 2 else 0)

/-- R115, R155: CKPT pushes the domains, the alternative, the store's height and marks, the budget and PXF; at depth 16 and
beyond the entry at depth CKD - 16 goes to its spill slot, and no other byte of memory changes. The domains pushed are those
that a read of the registers gives: of a dead register (R189) a free value, log entry 5. -/
def Obligations.CkptPushes : Prop :=
  ∀ (s : State) (off : BitVec 20), 0 ≤ (s.self.pc.toNat : Int) + 8 * off.toInt →
    (s.self.pc.toNat : Int) + 8 * off.toInt ≤ 0x1FFF8 → s.self.rel.ckd < 16 + s.self.rel.ckSlots.toNat →
    (16 ≤ s.self.rel.ckd → s.self.rel.slotOk (s.self.rel.ckd - 16) = true ∧ s.slotBusy (s.self.rel.ckd - 16) = false) →
    ∃ (t : State) (k : Ckpt), exec (.ckpt off) s = .next t ∧ s.self.WentOn t.self ∧
      k = { d := s.file, alt := (BitVec.ofInt 17 (s.self.pc.toNat + 8 * off.toInt)).setWidth 64, sh := s.self.rel.store.length,
            budget := s.self.rel.budget, pxf := s.self.rel.pxf, pending := s.self.rel.store.map (·.pending) } ∧
      t.self.rel.cks.head? = some k ∧ t.self.rel.ckd = s.self.rel.ckd + 1 ∧
      t.self.rel.store = s.self.rel.store ∧ t.self.d = s.self.d ∧ t.self.a = s.self.a ∧
      (s.self.rel.ckd < 16 → t.mem = s.mem ∧ t.self.rel.cks = k :: s.self.rel.cks) ∧
      (16 ≤ s.self.rel.ckd → t.self.rel.cks = k :: s.self.rel.cks.take 15 ∧
        t.mem.read (localKey s.core (64 * s.self.rel.ckBase.toNat + 1088 * (s.self.rel.ckd - 16)))
          ((s.self.rel.cks.getLast?.map Ckpt.bytes).getD []).length = (s.self.rel.cks.getLast?.map Ckpt.bytes).getD [] ∧
        ∀ o, o < localKey s.core (64 * s.self.rel.ckBase.toNat + 1088 * (s.self.rel.ckd - 16)) ∨
          localKey s.core (64 * s.self.rel.ckBase.toNat + 1088 * (s.self.rel.ckd - 16)) +
            ((s.self.rel.cks.getLast?.map Ckpt.bytes).getD []).length ≤ o → t.mem.byte o = s.mem.byte o)

/-- R115, R116, R155: CKRST restores the top entry and keeps it; CKPOP drops it; CKBACK restores it, drops it and goes to its
alternative, the low 17 bits of what the entry holds (all of it for an entry that CKPT pushed; of one that was read back, log entry
54). At a depth of at most 16 no memory takes part; beyond it CKPOP and CKBACK read the entry at depth CKD - 17 back from its spill
slot, and change nothing else but what that read finds of the slot's bit errors (R365). A spill slot gives back what it holds: the
bytes of a checkpoint with canonical domains, read under a store of its height or above, are that checkpoint. -/
def Obligations.CheckpointsReturn : Prop :=
  (∀ (s : State) (k : Ckpt) (l : List Ckpt), s.self.rel.cks = k :: l → 0 < s.self.rel.ckd → s.self.rel.ckd ≤ 16 →
    (∃ t, exec .ckrst s = .next t ∧ s.OnlySelf t ∧ s.self.WentOn t.self ∧ t.self.d = k.d ∧ t.self.a = s.self.a ∧
      t.self.rel.budget = k.budget ∧ t.self.rel.pxf = k.pxf ∧ t.self.rel.cks = k :: l ∧ t.self.rel.ckd = s.self.rel.ckd ∧
      t.self.rel.store = (s.self.rel.store.take k.sh).zipWith (fun e p => { e with pending := p }) k.pending) ∧
    (∃ t, exec .ckpop s = .next t ∧ s.OnlySelf t ∧ s.self.WentOn t.self ∧ t.self.d = s.self.d ∧
      t.self.rel = { s.self.rel with cks := l, ckd := s.self.rel.ckd - 1 }) ∧
    ∃ t, exec .ckback s = .next t ∧ s.OnlySelf t ∧ t.self.pc = k.alt.setWidth 17 ∧ t.self.po = s.self.po + 1 ∧ t.self.st = .ready ∧
      t.self.d = k.d ∧ t.self.a = s.self.a ∧ t.self.rel.cks = l ∧ t.self.rel.ckd = s.self.rel.ckd - 1 ∧
      t.self.rel.budget = k.budget ∧ t.self.rel.pxf = k.pxf) ∧
  (∀ (s : State) (k old : Ckpt) (l : List Ckpt), s.self.rel.cks = k :: l → 16 < s.self.rel.ckd →
    s.self.rel.slotOk (s.self.rel.ckd - 17) = true → s.slotBusy (s.self.rel.ckd - 17) = false →
    (Ckpt.ofBytes (s.mem.read (localKey s.core (64 * s.self.rel.ckBase.toNat + 1088 * (s.self.rel.ckd - 17))) 1088)
        s.self.rel.store.length = some old →
      ∃ t, exec .ckpop s = .next t ∧ s.slotMet.OnlySelf t ∧ s.self.WentOn t.self ∧
        t.self.rel = { s.self.rel with cks := l ++ [old], ckd := s.self.rel.ckd - 1 }) ∧
    (k.pending.length = k.sh → k.sh ≤ s.self.rel.store.length →
      Ckpt.ofBytes (s.mem.read (localKey s.core (64 * s.self.rel.ckBase.toNat + 1088 * (s.self.rel.ckd - 17))) 1088) k.sh = some old →
      ∃ t, exec .ckback s = .next t ∧ s.slotMet.OnlySelf t ∧ t.self.pc = k.alt.setWidth 17 ∧ t.self.d = k.d ∧
        t.self.rel.cks = l ++ [old] ∧ t.self.rel.ckd = s.self.rel.ckd - 1)) ∧
  ∀ (k : Ckpt) (height : Nat), (∀ i : Fin 64, (k.d[i.val]).canonical = true) → k.sh ≤ height → k.sh ≤ 256 →
    k.pending.length = k.sh → Ckpt.ofBytes k.bytes height = some k

/-! ### Address forms -/

/-- R140, R157: the address forms give their results, every address result modulo 2^64; the forms that bring an address register into
a domain register give its halves, its value where it fits in 32 signed bits (else the integer-overflow trap), and compares
as unsigned. A domain source that is no singleton takes the indeterminate-source trap. -/
def Obligations.AddressFormsGiveResults : Prop :=
  (∀ (s : State) (d a : AReg) (v : SrcV) (r : DReg) (sh : BitVec 3) (l w u : Word), (s.srcV v).val = some w →
    (s.rd r).val = some u → sh.toNat ≤ 6 →
    ∀ p ∈ [(Instr.aadd d a v, s.ra a + w.signExtend 64), (Instr.asub d a v, s.ra a - w.signExtend 64),
           (Instr.ascl d a r sh, s.ra a + u.signExtend 64 * 2 ^ sh.toNat), (Instr.amov d a, s.ra a),
           (Instr.amovL2 d l, l.signExtend 64), (Instr.afromd d r, u.signExtend 64)],
      ∃ t, exec p.1 s = .next t ∧ t.self.a[d.toNat] = p.2 ∧ s.Issued t [] [d]) ∧
  (∀ (s : State) (d : DReg) (a b : AReg),
    ∀ p ∈ [(Instr.alo d a, (s.ra a).setWidth 32), (Instr.ahi d a, (s.ra a >>> 32).setWidth 32),
           (Instr.acmpEq d a b, if s.ra a = s.ra b then 1 else 0), (Instr.acmpNe d a b, if s.ra a = s.ra b then 0 else 1),
           (Instr.acmpLt d a b, if s.ra a < s.ra b then 1 else 0), (Instr.acmpLe d a b, if s.ra a ≤ s.ra b then 1 else 0)],
      ∃ t, exec p.1 s = .next t ∧ t.self.d[d.toNat] = Dom.single p.2 ∧ s.Issued t [d] []) ∧
  (∀ (s : State) (d a : AReg) (v : SrcV) (r : DReg) (sh : BitVec 3), (s.srcV v).val = none → (s.rd r).val = none →
    sh.toNat ≤ 6 → ∀ i ∈ [Instr.aadd d a v, .asub d a v, .ascl d a r sh, .afromd d r],
      exec i s = .next (s.trapAt s.core s.slot (Cause.plain 0x03) s.self.pc)) ∧
  ∀ (s : State) (d : DReg) (a : AReg),
    (-2 ^ 31 ≤ (s.ra a).toInt → (s.ra a).toInt < 2 ^ 31 → ∃ t, exec (.dfroma d a) s = .next t ∧
      t.self.d[d.toNat] = Dom.single (BitVec.ofInt 32 (s.ra a).toInt) ∧ s.Issued t [d] []) ∧
    ((s.ra a).toInt < -2 ^ 31 ∨ 2 ^ 31 ≤ (s.ra a).toInt →
      exec (.dfroma d a) s = .next (s.trapAt s.core s.slot (Cause.plain 0x08) s.self.pc))

/-! ### The load and store queues -/

/-- R25, R160, R162, R164: a load or a prefetch enters the load queue, which has room, with the address of its base and offset,
and the strand goes on; nothing else changes. A form that enters a full load or store queue waits for room, and nothing
enters (the forms of the store queue that carry an operand: O13, O14). While a handler runs, what stands at the cut counts for the
room (R260, log entry 16). -/
def Obligations.LoadsEnterTheLoadQueueOrWait : Prop :=
  (∀ (s : State) (w : Width) (k : TKind) (dst : BitVec 6) (r : DReg) (base : AReg) (off : BitVec 20),
    s.self.allQueued.ld.length < 64 →
    ∀ i ∈ [Instr.ld w k dst base off, Instr.ldWcell r base off, Instr.pref base off],
      ∃ (t : State) (e : QEntry), exec i s = .next t ∧ s.OnlySelf t ∧ s.self.WentOn t.self ∧
        t.self.q = { s.self.q with ld := s.self.q.ld ++ [e], seqLd := s.self.q.seqLd + 1 } ∧
        e.i = i ∧ e.ea = s.ra base + off.signExtend 64 ∧ e.po = s.self.po ∧ e.qseq = s.self.q.seqLd ∧ e.held = .no ∧
        t.self.d = s.self.d ∧ t.self.a = s.self.a) ∧
  ∀ (s : State) (w : Width) (k : TKind) (dst : BitVec 6) (r : DReg) (b x y z : AReg) (al : SrcA) (off : BitVec 20) (n : BitVec 8)
    (l : Word) (g : Eng) (op : AOp) (wide : Bool),
    (64 ≤ s.self.allQueued.ld.length → ∀ i ∈ [Instr.ld w k dst b off, Instr.ldWcell r b off, Instr.pref b off],
      ∃ t, exec i s = .next t ∧ s.Waits t .loadQueue) ∧
    (64 ≤ s.self.allQueued.st.length →
      ∀ i ∈ [Instr.sigf n, Instr.clrf n, Instr.tkpost g, Instr.reelj b, Instr.reell b, Instr.reels b, Instr.nmv b, Instr.pks b,
             Instr.pkg b, Instr.pka b, Instr.rowUpdate op wide b al, Instr.dqPush r b x, Instr.dqPop r b x, Instr.dqSteal r b x,
             Instr.st w .ta b (.reg dst off), Instr.st w k b (.lit l), Instr.atomAdd (.a x al) b, Instr.atomXchg (.a x al) b,
             Instr.atomCas (.a x y z) b],
        ∃ t, exec i s = .next t ∧ s.Waits t .storeQueue)

/-- R25, R163, R165, R166, R167, R175, R179, R181, R184, R185, R313: the forms that enter the store queue, which has room, take their
address and their operands with them, and the strand goes on; nothing else changes. With the queue full each of them waits for room,
and nothing enters. RELTAG enters with a watermark of 28 bits, and a value outside it is an illegal operand; TREL enters while the timer
wheel has room and no strand waits before it for that room, and waits for the wheel else: while it is full, or behind a strand that
has waited longer. -/
def Obligations.FormsEnterTheStoreQueue : Prop :=
  (∀ (s : State) (w : Width) (b : AReg) (r v c : DReg) (vl : SrcV) (h x y : AReg) (al : SrcA) (off : BitVec 20) (l : Word)
    (zx wide : Bool) (op : AOp) (n : BitVec 8) (g : Eng) (rv vv cv lv : Word), (s.rd r).val = some rv →
    (s.rd v).val = some vv → (s.rd c).val = some cv → (s.srcV vl).val = some lv →
    ∀ p ∈ [(Instr.st w .ts b (.reg r off), s.ra b + off.signExtend 64, rv.setWidth 64, (0 : DWord)),
           (Instr.st w .tz b (.reg r off), s.ra b + off.signExtend 64, rv.setWidth 64, 0),
           (Instr.st w .ta b (.reg (x.setWidth 6) off), s.ra b + off.signExtend 64, s.ra x, 0),
           (Instr.st w .ts b (.lit l), s.ra b, l.signExtend 64, 0), (Instr.st w .tz b (.lit l), s.ra b, l.signExtend 64, 0),
           (Instr.st w .ta b (.lit l), s.ra b, l.signExtend 64, 0),
           (Instr.atomAdd (.s zx r vl) b, s.ra b, lv.setWidth 64, 0), (Instr.atomAdd (.a x al) b, s.ra b, s.srcA al, 0),
           (Instr.atomMin (.s zx r vl) b, s.ra b, lv.setWidth 64, 0), (Instr.atomMin (.a x al) b, s.ra b, s.srcA al, 0),
           (Instr.atomMax (.s zx r vl) b, s.ra b, lv.setWidth 64, 0), (Instr.atomMax (.a x al) b, s.ra b, s.srcA al, 0),
           (Instr.atomAnd (.s zx r vl) b, s.ra b, lv.setWidth 64, 0), (Instr.atomAnd (.a x al) b, s.ra b, s.srcA al, 0),
           (Instr.atomOr (.s zx r vl) b, s.ra b, lv.setWidth 64, 0), (Instr.atomOr (.a x al) b, s.ra b, s.srcA al, 0),
           (Instr.atomXor (.s zx r vl) b, s.ra b, lv.setWidth 64, 0), (Instr.atomXor (.a x al) b, s.ra b, s.srcA al, 0),
           (Instr.atomXchg (.s zx r vl) b, s.ra b, lv.setWidth 64, 0), (Instr.atomXchg (.a x al) b, s.ra b, s.srcA al, 0),
           (Instr.atomCas (.s zx r v c) b, s.ra b, vv.setWidth 64, cv.setWidth 64),
           (Instr.atomCas (.a x y h) b, s.ra b, s.ra y, s.ra h), (Instr.atomFaddx b vl, s.ra b, lv.setWidth 64, 0),
           (Instr.rowUpdate op wide b al, s.ra b, s.srcA al, 0), (Instr.dqPush r h x, s.ra h, s.ra x, 0),
           (Instr.dqPop r h x, s.ra h, 0, 0), (Instr.dqSteal r h x, s.ra h, 0, 0), (Instr.sigf n, 0, 0, 0), (Instr.clrf n, 0, 0, 0),
           (Instr.tkpost g, 0, 0, 0), (Instr.reell b, s.ra b, 0, 0), (Instr.reelj b, s.ra b, 0, 0), (Instr.nmv b, s.ra b, 0, 0), (Instr.pks b, s.ra b, 0, 0),
           (Instr.pkg b, s.ra b, 0, 0), (Instr.pka b, s.ra b, 0, 0)],
      (s.self.allQueued.st.length < 64 → ∃ (t : State) (e : QEntry), exec p.1 s = .next t ∧ s.OnlySelf t ∧ s.self.WentOn t.self ∧
        t.self.q = { s.self.q with st := s.self.q.st ++ [e], seqSt := s.self.q.seqSt + 1 } ∧
        e.i = p.1 ∧ e.ea = p.2.1 ∧ e.v = p.2.2.1 ∧ e.c = p.2.2.2 ∧ e.po = s.self.po ∧ e.qseq = s.self.q.seqSt ∧
        e.held = .no ∧ t.self.d = s.self.d ∧ t.self.a = s.self.a) ∧
      (64 ≤ s.self.allQueued.st.length → ∃ t, exec p.1 s = .next t ∧ s.Waits t .storeQueue)) ∧
  (∀ (s : State) (w : DReg) (v : Word), (s.rd w).val = some v →
    (0 ≤ v.toInt → v.toInt < 2 ^ 28 →
      (s.self.allQueued.st.length < 64 →
        ∃ (t : State) (e : QEntry), exec (.reltag w) s = .next t ∧ s.OnlySelf t ∧ s.self.WentOn t.self ∧
          t.self.q = { s.self.q with st := s.self.q.st ++ [e], seqSt := s.self.q.seqSt + 1 } ∧ e.i = .reltag w ∧
          e.v = v.setWidth 64) ∧
      (64 ≤ s.self.allQueued.st.length → ∃ t, exec (.reltag w) s = .next t ∧ s.Waits t .storeQueue)) ∧
    (v.toInt < 0 ∨ 2 ^ 28 ≤ v.toInt → exec (.reltag w) s = .next (s.trapAt s.core s.slot (Cause.plain 0x02) s.self.pc))) ∧
  ∀ (s : State) (r x : AReg),
    (s.own.wheel.length < 256 → s.own.wheelBehind s.slot = false →
      (s.self.allQueued.st.length < 64 →
        ∃ (t : State) (e : QEntry), exec (.trel r x) s = .next t ∧ s.OnlySelf t ∧ s.self.WentOn t.self ∧
          t.self.q = { s.self.q with st := s.self.q.st ++ [e], seqSt := s.self.q.seqSt + 1 } ∧ e.i = .trel r x ∧
          e.ea = s.ra r ∧ e.v = s.ra x) ∧
      (64 ≤ s.self.allQueued.st.length → ∃ t, exec (.trel r x) s = .next t ∧ s.Waits t .storeQueue)) ∧
    (256 ≤ s.own.wheel.length ∨ s.own.wheelBehind s.slot = true → ∃ t, exec (.trel r x) s = .next t ∧ s.Waits t .trel)

/-- R25, R181, R182, R183: an arrival, a remote enqueue or a message enters the store queue, has issued, and its strand then waits
for the answer; with the queue full it waits at its word for room, and nothing enters; a target whose bits 15 and 14 are not 0, or a
length above 256, is an illegal operand, for SEND whatever its other source holds (R374). While the bank holds a join of a strand
outside its handler, the strand issues nothing. -/
def Obligations.RemoteFormsEnterAndWait : Prop :=
  (∀ (s : State) (b : AReg) (g l : DReg) (gl : SrcV) (h : BitVec 14) (target n : Word),
    (s.rd g).val = some target → (s.srcV gl).val = some target → (s.rd l).val = some n →
    (target.extractLsb' 14 2 = 0 → 0 ≤ n.toInt → n.toInt ≤ 256 →
      ∀ p ∈ [(Instr.reels b, Wait.reelPhase, (0 : DWord), (0 : DWord)),
             (Instr.reqMe b gl, .accept, target.setWidth 64, 0), (Instr.reqVe b gl, .accept, target.setWidth 64, 0),
             (Instr.reqCe b gl, .accept, target.setWidth 64, 0),
             (Instr.send b g l h, .accept, target.setWidth 64, n.setWidth 64)],
        (s.self.allQueued.st.length < 64 → ∃ (t : State) (e : QEntry), exec p.1 s = .next t ∧ s.OnlySelf t ∧
          t.self.q = { s.self.q with st := s.self.q.st ++ [e], seqSt := s.self.q.seqSt + 1 } ∧
          e.i = p.1 ∧ e.ea = s.ra b ∧ e.v = p.2.2.1 ∧ e.c = p.2.2.2 ∧ t.self.st = .waiting ∧ t.self.wait = p.2.1 ∧
          t.self.pc = (afterWord s.self.pc s.self.loops).1 ∧ t.self.po = s.self.po + 1 ∧ t.self.d = s.self.d ∧
          t.self.a = s.self.a) ∧
        (64 ≤ s.self.allQueued.st.length → ∃ t, exec p.1 s = .next t ∧ s.Waits t .storeQueue)) ∧
    (target.extractLsb' 14 2 ≠ 0 →
      ∀ i ∈ [Instr.reqMe b gl, Instr.reqVe b gl, Instr.reqCe b gl],
        exec i s = .next (s.trapAt s.core s.slot (Cause.plain 0x02) s.self.pc))) ∧
  (∀ (s : State) (b : AReg) (g l : DReg) (h : BitVec 14),
    ((∃ target, (s.rd g).val = some target ∧ target.extractLsb' 14 2 ≠ 0) ∨ (∃ n, (s.rd l).val = some n ∧ (n.toInt < 0 ∨ 256 < n.toInt)) →
      exec (.send b g l h) s = .next (s.trapAt s.core s.slot (Cause.plain 0x02) s.self.pc))) ∧
  ∀ (s : State) (c : Nat) (k : Fin 9) (f : Flight) (b : AReg), f ∈ (s.coreAt c).flights → f.slot = k.val → f.e.i = .reelj b →
    f.ans = .wait → (s.strandAt c k).trap.hm = false → (s.strandAt c k).heldLoad = none →
    issueTurn c k.val s = .next { s with core := c, slot := slotIx k.val }

/-- R25, R69, R75, R167: with room in every queue that they name, and no remote enqueue before them in one of these (R25), MARK and QFEN
put one entry into each of these queues at once, and into no other, and the strand goes on; the entry carries the word's position in
program order. Where a named queue is full, or a remote enqueue has waited for it longer, they wait, and nothing enters. -/
def Obligations.MarkersAndFencesEnterEveryNamedQueue : Prop :=
  ∀ (s : State) (q : BitVec 5) (f : BitVec 3),
    let free (e : Eng) : Prop := (s.self.allQueued.cmds e).length < 64 ∧ s.reqFirst e = false
    let full (e : Eng) : Prop := 64 ≤ (s.self.allQueued.cmds e).length ∨ s.reqFirst e = true
    ((q.getLsbD 4 = true → s.self.allQueued.ld.length < 64) → (q.getLsbD 3 = true → s.self.allQueued.st.length < 64) →
      (q.getLsbD 2 = true → free .me) → (q.getLsbD 1 = true → free .ve) → (q.getLsbD 0 = true → free .ce) →
      ∃ (t : State) (a b : List QEntry) (m v c : List Cmd), exec (.mark q) s = .next t ∧ s.OnlySelf t ∧ s.self.WentOn t.self ∧
        t.self.q.ld = s.self.q.ld ++ a ∧ t.self.q.st = s.self.q.st ++ b ∧ t.self.q.me = s.self.q.me ++ m ∧
        t.self.q.ve = s.self.q.ve ++ v ∧ t.self.q.ce = s.self.q.ce ++ c ∧ t.self.q.fmt = s.self.q.fmt ∧
        a.map (fun e => (e.i, e.v)) = (if q.getLsbD 4 then [(Instr.mark q, BitVec.ofNat 64 s.self.po)] else []) ∧
        b.map (fun e => (e.i, e.v)) = (if q.getLsbD 3 then [(Instr.mark q, BitVec.ofNat 64 s.self.po)] else []) ∧
        m.map (·.kind) = (if q.getLsbD 2 then [.marker s.self.po q] else []) ∧
        v.map (·.kind) = (if q.getLsbD 1 then [.marker s.self.po q] else []) ∧
        c.map (·.kind) = (if q.getLsbD 0 then [.marker s.self.po q] else [])) ∧
    ((q.getLsbD 4 = true ∧ 64 ≤ s.self.allQueued.ld.length) ∨ (q.getLsbD 3 = true ∧ 64 ≤ s.self.allQueued.st.length) ∨
      (q.getLsbD 2 = true ∧ full .me) ∨ (q.getLsbD 1 = true ∧ full .ve) ∨ (q.getLsbD 0 = true ∧ full .ce) →
      ∃ t, exec (.mark q) s = .next t ∧ s.Waits t (.queueFull (q.setWidth 3))) ∧
    ((f.getLsbD 2 = true → free .me) → (f.getLsbD 1 = true → free .ve) → (f.getLsbD 0 = true → free .ce) →
      ∃ (t : State) (m v c : List Cmd), exec (.qfen f) s = .next t ∧ s.OnlySelf t ∧ s.self.WentOn t.self ∧
        t.self.q.ld = s.self.q.ld ∧ t.self.q.st = s.self.q.st ∧ t.self.q.me = s.self.q.me ++ m ∧
        t.self.q.ve = s.self.q.ve ++ v ∧ t.self.q.ce = s.self.q.ce ++ c ∧
        m.map (·.kind) = (if f.getLsbD 2 then [.fence s.self.po (f.getLsbD 2) (f.getLsbD 1) (f.getLsbD 0)] else []) ∧
        v.map (·.kind) = (if f.getLsbD 1 then [.fence s.self.po (f.getLsbD 2) (f.getLsbD 1) (f.getLsbD 0)] else []) ∧
        c.map (·.kind) = (if f.getLsbD 0 then [.fence s.self.po (f.getLsbD 2) (f.getLsbD 1) (f.getLsbD 0)] else [])) ∧
    ((f.getLsbD 2 = true ∧ full .me) ∨ (f.getLsbD 1 = true ∧ full .ve) ∨ (f.getLsbD 0 = true ∧ full .ce) →
      ∃ t, exec (.qfen f) s = .next t ∧ s.Waits t (.queueFull f))

/-- R70, R71: SFEN issues, and changes nothing else, where no write stands in the strand's store queue, what a trap
has set aside counted, and its issued writes
have been performed; and where each write that stands or is under way goes to places that all lie beyond the radius: the
greatest SYS.SCOPE field up to its level, or, for level 15, every place. A write to a place within the radius that has not
been performed makes it wait, with the radius that it read at its issue. Which entries count as writes is a reading, log entry 36, and
that what a trap has set aside counts is log entry 16. -/
def Obligations.SfenWaitsForItsRadius : Prop :=
  ∀ (s : State) (n : BitVec 4) (r : Nat), s.self.wait = .sfen r ∨ ((∀ q, s.self.wait ≠ .sfen q) ∧ r = s.own.radius n) →
    (s.self.allQueued.st = [] → (∀ f ∈ s.own.flights, f.slot = s.slot.val → f.st = true → f.done = true) →
      ∃ t, exec (.sfen n) s = .next t ∧ s.Issued t [] []) ∧
    ((∀ e ∈ s.self.allQueued.st, ∃ l, s.entryPlaces s.core e = some l ∧ ∀ p ∈ l, withinRadius s.core r p = false) →
      (∀ f ∈ s.own.flights, f.slot = s.slot.val → f.done = true ∨
        ∃ l, s.flightPlaces s.core f = some l ∧ ∀ p ∈ l, withinRadius s.core r p = false) →
      ∃ t, exec (.sfen n) s = .next t ∧ s.Issued t [] []) ∧
    (∀ e p l, e ∈ s.self.allQueued.st → e.i.isWrite = true → s.entryPlaces s.core e = some l → p ∈ l → withinRadius s.core r p = true →
      ∃ t, exec (.sfen n) s = .next t ∧ s.Waits t (.sfen r)) ∧
    (∀ f p l, f ∈ s.own.flights → f.slot = s.slot.val → f.st = true → f.e.i.isWrite = true → f.done = false →
      s.flightPlaces s.core f = some l → p ∈ l → withinRadius s.core r p = true →
      ∃ t, exec (.sfen n) s = .next t ∧ s.Waits t (.sfen r)) ∧
    s.own.radius 15 = 256 ∧ (n ≠ 15 → s.own.radius n = ((s.own.scope.toList.take (n.toNat + 1)).map (·.toNat)).foldl max 0)

/-! ### Control -/

/-- R121, R168, R169: a branch taken to a target in instruction memory leaves the loops whose bodies it leaves and stands at
the target; CALL writes its link; a branch not taken goes on. BSNG looks at a set without a trap (R104). A target outside
instruction memory takes the instruction-address fault at its word, and the link is not written. -/
def Obligations.BranchesAndCallsGoToTheirTargets : Prop :=
  ((∀ (s : State) (a b : DReg) (r : AReg) (off : BitVec 20) (x y : Word) (t0 : Int), (s.rd a).val = some x →
    (s.rd b).val = some y → t0 = (s.self.pc.toNat : Int) + 8 * off.toInt → 0 ≤ t0 → t0 ≤ 0x1FFF8 →
    (∀ p ∈ [(Instr.br off, true), (Instr.beq a b off, decide (x = y)), (Instr.bne a b off, decide (x ≠ y)),
            (Instr.blt a b off, decide (x.toInt < y.toInt)), (Instr.ble a b off, decide (x.toInt ≤ y.toInt)),
            (Instr.bsngS a off, true), (Instr.bsngN a off, false)],
      ∃ t, exec p.1 s = .next t ∧
        (p.2 = true → s.Jumped t (BitVec.ofInt 17 t0) [] ∧ t.self.loops = leaveLoops (BitVec.ofInt 17 t0) s.self.loops) ∧
        (p.2 = false → s.Issued t [] [])) ∧
    (∃ t, exec (.call r off) s = .next t ∧ s.Jumped t (BitVec.ofInt 17 t0) [r] ∧ t.self.loops = s.self.loops ∧
      t.self.a[r.toNat] = BitVec.ofNat 64 (s.self.pc.toNat + 8)) ∧
    ((s.ra r).toNat < 0x20000 → (s.ra r).toNat % 8 = 0 →
      (∃ t, exec (.bri r) s = .next t ∧ s.Jumped t ((s.ra r).setWidth 17) [] ∧
        t.self.loops = leaveLoops ((s.ra r).setWidth 17) s.self.loops) ∧
      ∃ t, exec (.ret r) s = .next t ∧ s.Jumped t ((s.ra r).setWidth 17) [] ∧ t.self.loops = s.self.loops)) ∧
  ∀ (s : State) (a : DReg) (off : BitVec 20) (t0 : Int), (s.rd a).val = none →
    t0 = (s.self.pc.toNat : Int) + 8 * off.toInt → 0 ≤ t0 → t0 ≤ 0x1FFF8 →
    (∃ t, exec (.bsngN a off) s = .next t ∧ s.Jumped t (BitVec.ofInt 17 t0) []) ∧
    ∃ t, exec (.bsngS a off) s = .next t ∧ s.Issued t [] []) ∧
  ∀ (s : State) (a b : DReg) (r : AReg) (off : BitVec 20) (x : Word) (t0 : Int), (s.rd a).val = some x →
    (s.rd b).val = some x → t0 = (s.self.pc.toNat : Int) + 8 * off.toInt → t0 < 0 ∨ 0x1FFF8 < t0 →
    (∀ i ∈ [Instr.br off, Instr.beq a b off, Instr.ble a b off, Instr.bsngS a off, Instr.call r off, Instr.ckpt off],
      exec i s = .next (s.trapAt s.core s.slot { Cause.plain 0x04 with addr := BitVec.ofInt 64 t0 } s.self.pc)) ∧
    (0x20000 ≤ (s.ra r).toNat → ∀ i ∈ [Instr.bri r, Instr.ret r],
      exec i s = .next (s.trapAt s.core s.slot { Cause.plain 0x04 with addr := s.ra r } s.self.pc))

/-- R169: LOOP enters a body whose last word lies in instruction memory and is no control word, as many times as its count says, or
goes past it where the count is below 1; LOOPRP, once no replay is under way, takes its count from the row-pointer port, and every
later reader of the kernel execution then sees that count (R39). At the last word of a body execution goes back to its first word
while trips are left, and past it when none is. -/
def Obligations.LoopsRepeatTheirBodies : Prop :=
  (∀ (s : State) (c : DReg) (off : BitVec 20) (n : Int) (m : Nat), s.loopFault off = none → s.self.loops.length < 4 →
    ∀ p ∈ [(Instr.loop c off, s), (Instr.looprp off, (s.rowRead s.core s.slot).upd fun x => x.latchRow m)],
      (p.1 = .loop c off → ∃ w, (s.rd c).val = some w ∧ w.toInt = n) →
      (p.1 = .looprp off → s.own.replaying s.slot.val = false ∧ s.rowCount s.core s.self = .count m ∧ n = m) →
      ∃ t, exec p.1 s = .next t ∧
        (1 ≤ n → p.2.Jumped t (s.self.pc + 8) [] ∧ t.self.loops =
          { start := s.self.pc + 8, last := BitVec.ofInt 17 (s.self.pc.toNat + 8 * off.toInt), left := n.toNat } ::
            s.self.loops) ∧
        (n < 1 → p.2.Jumped t (BitVec.ofInt 17 (s.self.pc.toNat + 8 * off.toInt) + 8) [] ∧ t.self.loops = s.self.loops)) ∧
  ∀ (pc : BitVec 17) (f : LoopFrame) (l : List LoopFrame),
    (f.last = pc → 1 < f.left → afterWord pc (f :: l) = (f.start, { f with left := f.left - 1 } :: l)) ∧
    (f.last = pc → f.left ≤ 1 → afterWord pc (f :: l) = afterWord pc l) ∧
    (f.last ≠ pc → afterWord pc (f :: l) = (pc + 8, f :: l)) ∧ afterWord pc [] = (pc + 8, [])

/-- R171, R172, R173: LREC makes a record ready that follows R137, once the strand's stores have been performed and no replay is
under way; NODE goes on once every queue, with what a trap has set aside, is empty and every entry has retired; IDLE has issued and
waits. -/
def Obligations.RecordsNodesAndIdle : Prop :=
  ∀ (s : State) (a : AReg) (bs : List Byte),
    (s.self.got = none → s.own.storesDone s.slot = true → s.own.replaying s.slot.val = false → s.flaws = [] → (s.ra a).toNat % 32 = 0 → s.peek s.core (s.ra a).toNat 32 = .bytes bs →
      Rec.ok (BitVec.ofNat 256 (leNat bs)) = true → s.own.ready.length < 64 → s.own.closing = none →
      s.behind (fun y => y.wait == .lrec && y.got.isSome) = false →
      ∃ (t : State) (r : Ready), exec (.lrec a) s = .next t ∧ t.own.ready = s.own.ready ++ [r] ∧
        r.record = BitVec.ofNat 256 (leNat bs) ∧ r.prio = s.self.prio ∧ r.owner = s.self.owner ∧ s.self.WentOn t.self ∧
        t.mem = s.mem ∧ t.self.d = s.self.d ∧ t.self.a = s.self.a ∧ t.self.q = s.self.q) ∧
    (s.self.allQueued.allEmpty = true → s.own.settled s.slot = true → s.self.light = none →
      ∃ t, exec .node s = .next t ∧ s.Issued t [] []) ∧
    ∃ t, exec .idle s = .next t ∧ s.OnlySelf t ∧ t.self.st = .waiting ∧ t.self.wait = .idle ∧
      t.self.pc = (afterWord s.self.pc s.self.loops).1 ∧ t.self.po = s.self.po + 1 ∧ t.self.d = s.self.d ∧ t.self.a = s.self.a ∧
      t.self.q = s.self.q

/-- R170, R225: HALT of a strand that runs no record, outside its handler, with its queues empty and its entries retired: the
slot is ENDING, and its store, its checkpoints and its format queue are emptied; with an entry left it waits at its word. At
the end of a kernel execution other than the last, with no lower class waiting, HALT goes to the kernel's first word with its
stage predicates shifted and its rotating base lowered by one. -/
def Obligations.HaltEndsOrRepeats : Prop :=
  (∀ s : State,
    (s.self.q.drained = true → s.own.settled s.slot = true → s.self.trap.hm = false → s.self.run = none →
      s.self.lease.held = false →
      ∃ t, exec .halt s = .next t ∧ s.OnlySelf t ∧ t.self.st = .ending ∧ t.self.wait = .none ∧ t.self.pc = s.self.pc + 8 ∧
        t.self.q = { s.self.q with fmt := [] } ∧ t.self.rel = { s.self.rel with store := [], cks := [], ckd := 0 } ∧
        t.self.loops = [] ∧ t.self.d = s.self.d ∧ t.self.a = s.self.a) ∧
    (s.self.q.drained = false → ∃ t, exec .halt s = .next t ∧ s.Waits t .drain)) ∧
  ∀ (s : State) (r : Run), s.self.q.drained = true → s.own.settled s.slot = true → s.self.trap.hm = false →
    s.self.run = some r → r.part = .kernel → r.iter + 1 < Rec.executions r.record → s.own.wantsSwitch s.self.prio = false →
    ∃ t, exec .halt s = .next t ∧ s.OnlySelf t ∧ t.self.st = .ready ∧ t.self.pc = BitVec.ofNat 17 (Rec.ker r.record) ∧
      t.self.run = some { r with iter := r.iter + 1 } ∧ t.self.ve.rrb = s.self.ve.rrb - 1 ∧
      t.self.ve.pred = (s.self.ve.pred <<< 1) ||| (if r.iter + 1 < Rec.trip r.record then 1 else 0) ∧
      t.self.d = s.self.d ∧ t.self.a = s.self.a ∧ t.self.q = s.self.q

/-- R260, R305, R306: a strand outside its handler that takes a trap enters it: HM is 1, SYS.TPC holds the return address, the
cause, its argument, its agent, its address and its queue number are saved, the queues stand at the cut and what they held is set
aside but for what a replay is issuing again (R80), and the strand goes on at SYS.TVEC; its registers, memory and every other core
are as before. A trap of a strand in its handler freezes the strand where it stands. What the handler's queues hold and what is set
aside is a reading, log entry 16. -/
def Obligations.TrapsSaveWhatTheySay : Prop :=
  (∀ (s : State) (c : Nat) (k : Fin 9) (e : Cause) (ret : BitVec 17), (s.strandAt c k).trap.hm = false →
    (s.strandAt c k).lease.pend = false → e.code ≠ 0x26 → e.code ≠ 0x22 → e.part = none →
    let x := s.strandAt c k
    let y := (s.trapAt c k e ret).strandAt c k
    y.trap.hm = true ∧ y.trap.tpc = ret &&& 0x1FFF8 ∧ y.trap.code = e.code ∧ y.trap.arg = e.arg ∧ y.trap.agent = e.agent ∧
      y.trap.tval = e.addr ∧ y.trap.tseq = e.seq ∧ y.trap.part = false ∧ y.trap.tvec = x.trap.tvec ∧ y.pc = x.trap.tvec ∧
      y.st = .ready ∧ y.wait = .none ∧ y.q.ld = x.q.ld.filter QEntry.goesOn ∧ y.q.st = x.q.st.filter QEntry.goesOn ∧ y.q.me = [] ∧ y.q.ve = [] ∧ y.q.ce = [] ∧ y.q.fmt = [] ∧
      y.trap.aside.isSome = true ∧ y.d = x.d ∧ y.a = x.a ∧ y.rel = x.rel ∧ y.tokens = x.tokens ∧ y.ve = x.ve ∧ y.loops = x.loops ∧
      (s.trapAt c k e ret).mem = s.mem ∧ (∀ j, j ≠ c → (s.trapAt c k e ret).coreAt j = s.coreAt j)) ∧
  ∀ (s : State) (c : Nat) (k : Fin 9) (e : Cause) (ret : BitVec 17), (s.strandAt c k).trap.hm = true →
    (s.strandAt c k).st = .ready → e.code ≠ 0x26 → e.code ≠ 0x22 → e.part = none →
    let y := (s.trapAt c k e ret).strandAt c k
    y = { s.strandAt c k with st := .frozen, back := .ready, backWait := .none }

/-- R174, R260, R307: TRAP has issued and enters the handler with code 0x12 and its argument, SYS.TPC holding the next word in
sequence; the event of a trap at the cut of a READY strand enters its handler with the listed cause that it carries (R304). -/
def Obligations.TrapAndItsEventEnterTheHandler : Prop :=
  (∀ (s : State) (n : BitVec 8), s.self.trap.hm = false → s.self.lease.pend = false →
    ∃ t, exec (.trap n) s = .next t ∧ t.self.trap.hm = true ∧ t.self.trap.code = 0x12 ∧ t.self.trap.arg = n ∧
      t.self.trap.tpc = (afterWord s.self.pc s.self.loops).1 &&& 0x1FFF8 ∧ t.self.pc = s.self.trap.tvec ∧
      t.self.po = s.self.po + 1 ∧ t.self.st = .ready ∧ t.self.d = s.self.d ∧ t.self.a = s.self.a ∧ t.mem = s.mem) ∧
  ∀ (s : State) (c k : Nat) (code : BitVec 8) (agent : BitVec 3) (addr : DWord) (seq : BitVec 16),
    (s.strandAt c (slotIx k)).st = .ready → (s.strandAt c (slotIx k)).trap.hm = false →
    (s.strandAt c (slotIx k)).lease.pend = false → 1 ≤ code.toNat → code.toNat ≤ 0x26 → code ≠ 0x26 → code ≠ 0x22 →
    ∃ t, exec (.trapEntry c k code agent addr seq) s = .next t ∧
      (t.strandAt c (slotIx k)).trap.hm = true ∧ (t.strandAt c (slotIx k)).trap.code = code ∧
      (t.strandAt c (slotIx k)).trap.agent = agent ∧ (t.strandAt c (slotIx k)).trap.tval = addr ∧
      (t.strandAt c (slotIx k)).trap.tseq = seq ∧ (t.strandAt c (slotIx k)).pc = (s.strandAt c (slotIx k)).trap.tvec ∧
      (t.strandAt c (slotIx k)).d = (s.strandAt c (slotIx k)).d ∧ t.mem = s.mem

/-- R260, R306: RTT in a handler ends it: the strand goes on at SYS.TPC in the state that the trap left, and the queues and cursors
that the cut set aside come back before what the handler has put into them and behind what had issued before the cut; an entry whose
fault trapped issues again; outside a handler RTT is illegal. That what was set aside comes before the handler's own entries is a
reading, log entry 16. -/
def Obligations.RttReturns : Prop :=
  (∀ (s : State) (q : Queues) (m v c : Option Cursor),
    let old := fun e : QEntry => decide (e.po < s.self.trap.cutPo)
    let back (e : QEntry) : QEntry := { e with held := if e.held = .taken then .no else e.held }
    s.self.trap.hm = true → s.self.trap.aside = some (q, m, v, c) →
    s.pkg.alertHeld = false →
    ∃ t, exec .rtt s = .next t ∧ s.OnlySelf t ∧ t.self.trap.hm = false ∧ t.self.trap.cut = false ∧ t.self.trap.aside = none ∧
      t.self.pc = s.self.trap.tpc ∧ t.self.st = s.self.trap.ret ∧ t.self.wait = s.self.trap.retWait ∧
      t.self.q = { s.self.q with me := q.me ++ s.self.q.me, ve := q.ve ++ s.self.q.ve, ce := q.ce ++ s.self.q.ce,
                                 fmt := q.fmt ++ s.self.q.fmt,
                                 ld := (s.self.q.ld.filter old ++ q.ld ++ s.self.q.ld.filter fun e => !old e).map back,
                                 st := (s.self.q.st.filter old ++ q.st ++ s.self.q.st.filter fun e => !old e).map back } ∧
      t.self.curMe = m ∧ t.self.curVe = v ∧ t.self.curCe = c.map (fun u => { u with held := if u.held = .taken then .no else u.held }) ∧ t.self.d = s.self.d ∧ t.self.a = s.self.a) ∧
  ∀ s : State, s.self.trap.hm = false → exec .rtt s = .next (s.trapAt s.core s.slot (Cause.plain 0x01) s.self.pc)

/-- R190, R329, R357, R358, R360: BKPT with BKE = 1 freezes the strand of a core of the grid after its word, with VIOL clear, and
writes an event of KIND 5 with the word's address and its code where the partition's ring has room; with BKE = 0, and on the
management core, it only goes on. CUT without trace only goes on; with TRE = 1 a CUT writes a cut record of 32 bytes at the place
of its index, with the time, the strand, the record's number and the heads of its queues, and a TKWAIT that ends a wait long
enough, or a WAITF that finds its flag set when a resumption tests the wait again (R320), writes a wait record, with the setter of
the flag; no other byte changes, and a record whose page is not there is dropped and counted. That the heads of a strand in its handler are
those of what is set aside with it is a reading, log entry 16. -/
def Obligations.BreakpointsAndCuts : Prop :=
  (∀ (s : State) (n : BitVec 8),
    (s.self.trace.bke = true → s.core ≠ 2048 → ∃ t, exec (.bkpt n) s = .next t ∧ t.self.st = .frozen ∧ t.self.viol = false ∧
      t.self.back = .ready ∧ t.self.backWait = .none ∧ t.self.pc = (afterWord s.self.pc s.self.loops).1 ∧
      t.self.po = s.self.po + 1 ∧ t.self.d = s.self.d ∧ t.self.a = s.self.a ∧ t.self.q = s.self.q ∧
      ∀ p : Nat, s.self.trace.tre = false → s.partOf s.core = some p →
        let base := pteAddr (s.part p).evbase.toNat + 32 * (s.part p).evprod.toNat
        (s.part p).kept = [] → (s.part p).evprod + 1 ≠ (s.part p).evcons → (s.part p).tds ≠ 3 →
        hostBase ≤ pteAddr (s.part p).evbase.toNat →
        (t.part p).evprod = (s.part p).evprod + 1 ∧
        t.mem = s.mem.write base (leBytes 32 (s.self.pc.toNat * 2 ^ 192 + n.toNat * 2 ^ 176 + s.core % 2048 * 2 ^ 165 +
          s.slot.val % 8 * 2 ^ 162 + 5))) ∧
    (s.self.trace.bke = false ∨ s.core = 2048 → ∃ t, exec (.bkpt n) s = .next t ∧ s.Issued t [] []) ∧
    (∃ t, exec .cut s = .next t ∧ s.self.WentOn t.self ∧ t.self.d = s.self.d ∧ t.self.a = s.self.a ∧ t.self.q = s.self.q) ∧
    (s.self.trace.tre = false → ∃ t, exec .cut s = .next t ∧ s.Issued t [] [])) ∧
  (∀ (s : State) (key : Nat), s.TraceReady s.core s.slot key →
    (s.self.st = .ready → (∀ u ∈ s.self.curMe, u.since = none) → (∀ u ∈ s.self.curVe, u.since = none) →
      let q := s.self.allQueued
      ∃ t, exec .cut s = .next t ∧ s.Traced t s.core s.slot key 2
        ((q.seqMe - BitVec.ofNat 16 q.me.length).toNat + (q.seqVe - BitVec.ofNat 16 q.ve.length).toNat * 2 ^ 16 +
          (q.seqCe - BitVec.ofNat 16 q.ce.length).toNat * 2 ^ 32 + (q.seqFmt - BitVec.ofNat 16 q.fmt.length).toNat * 2 ^ 48)
        ((q.seqLd - BitVec.ofNat 16 q.ld.length).toNat + (q.seqSt - BitVec.ofNat 16 q.st.length).toNat * 2 ^ 16)) ∧
    ∀ (e : Eng) (i : Nat), i = (match e with | .me => 3 | .ve => 6 | .ce => 9) → s.self.token i ≠ 0 → s.self.wait ≠ .none →
      s.self.trace.wre = true → s.self.sinceClk + max s.self.trace.wmin.toNat 1 ≤ s.clk → s.clk < s.self.sinceClk + 2 ^ 32 →
      ∃ t, exec (.tkwait e) s = .next t ∧ t.self.token i = s.self.token i - 1 ∧ s.Traced t s.core s.slot key 1
        (2 ^ 56 + i * 2 ^ 32 + (s.clk - s.self.sinceClk))
        ((strandNumber s.core s.slot.val).toNat * 2 ^ 48 + i / 3 * 2 ^ 45 + s.self.pc.toNat)) ∧
  (∀ (s : State) (key setter agent : Nat) (n : BitVec 8), s.TraceReady s.core s.slot key → s.own.flags.getLsbD n.toNat = true →
    s.self.wait = .flag n.toNat → s.own.flagBy = [(n.toNat, (BitVec.ofNat 16 setter, agent))] → setter < 2 ^ 16 → agent < 8 →
    s.self.trace.wre = true → s.self.sinceClk + max s.self.trace.wmin.toNat 1 ≤ s.clk → s.clk < s.self.sinceClk + 2 ^ 32 →
    ∃ t, exec (.waitf n) s = .next t ∧ s.self.WentOn t.self ∧ s.Traced t s.core s.slot key 1
      (n.toNat * 2 ^ 32 + (s.clk - s.self.sinceClk)) (setter * 2 ^ 48 + agent * 2 ^ 45 + s.self.pc.toNat)) ∧
  ∀ s : State, s.self.trace.tre = true → s.self.st = .ready → s.traceHeld s.core s.slot = false → s.flaws = [] →
    s.traceTarget s.core s.self.trace = none → (∀ u ∈ s.self.curMe, u.since = none) → (∀ u ∈ s.self.curVe, u.since = none) →
    ∃ t, exec .cut s = .next t ∧ t.mem = s.mem ∧ t.self.trace.count = s.self.trace.count ∧
      t.self.trace.drop = (if s.self.trace.drop = 0xFFFFFFFF then s.self.trace.drop else s.self.trace.drop + 1) ∧
      t.self.trace.gap = s.self.trace.gap + 1 ∧ t.self.trace.prod = BitVec.ofNat 32 ((s.self.trace.prod.toNat / 128 + 1) * 128)

/-! ### Flags, command queues, tables, tokens -/

/-- R28, R175, R179: WAITF consumes a flag that reads 1, with nothing else changed but the record of a traced wait (R358, O24), and waits
for one that reads 0; a flag that read 1 and was set again in the
present clk reads 1 again, since a clear goes before a set. TKWAIT takes one token from a counter that holds one, and waits
at 0. -/
def Obligations.FlagsAndTokensAreConsumed : Prop :=
  ∀ (s : State) (n : BitVec 8) (e : Eng) (i : Nat), i = (match e with | .me => 3 | .ve => 6 | .ce => 9) →
    (s.self.wait ≠ .flag n.toNat ∨ s.self.trace.wre = false ∨ s.self.trace.tre = false → s.own.flags.getLsbD n.toNat = true →
      s.own.setIn s.clk n ≠ some true → ∃ t, exec (.waitf n) s = .next t ∧ (∀ m, t.own.flags.getLsbD m = (s.own.flags.getLsbD m && decide (m ≠ n.toNat))) ∧
        s.self.WentOn t.self ∧ s.self.Kept t.self [] [] ∧ t.mem = s.mem ∧ t.own.full = s.own.full) ∧
    (s.self.wait ≠ .flag n.toNat ∨ s.self.trace.wre = false ∨ s.self.trace.tre = false → s.own.flags.getLsbD n.toNat = true →
      s.own.setIn s.clk n = some true → ∃ t, exec (.waitf n) s = .next t ∧ s.Issued t [] []) ∧
    (s.own.flags.getLsbD n.toNat = false → ∃ t, exec (.waitf n) s = .next t ∧ s.Waits t (.flag n.toNat)) ∧
    (s.self.wait = .none ∨ s.self.trace.wre = false ∨ s.self.trace.tre = false → s.self.token i ≠ 0 →
      ∃ t, exec (.tkwait e) s = .next t ∧ s.OnlySelf t ∧ s.self.WentOn t.self ∧ t.self.token i = s.self.token i - 1 ∧
        (∀ j, j < 12 → j ≠ i → t.self.token j = s.self.token j) ∧ t.self.d = s.self.d ∧ t.self.a = s.self.a ∧
        t.self.q = s.self.q) ∧
    (s.self.token i = 0 → ∃ t, exec (.tkwait e) s = .next t ∧ s.Waits t (.token i))

/-- R25, R176, R226: ENQ puts a stream with room before it, and no remote enqueue that began to wait before, into its queue, with
the port sets, the shape, the format, the rotating base and the predicates that the strand holds; a stream address that is
misaligned or lies outside instruction memory takes the instruction-address fault. -/
def Obligations.EnqPutsAStreamWithItsSnapshot : Prop :=
  ∀ (s : State) (a : AReg),
    ((s.ra a).toNat < 0x20000 → (s.ra a).toNat % 64 = 0 →
      ∀ p ∈ [(Instr.enqMe a, Eng.me), (Instr.enqVe a, .ve)], (s.self.allQueued.cmds p.2).length < 64 →
        s.reqFirst p.2 = false → ∃ (t : State) (x : Cmd), exec p.1 s = .next t ∧ s.OnlySelf t ∧ s.self.WentOn t.self ∧
          t.self.q.cmds p.2 = s.self.q.cmds p.2 ++ [x] ∧ x.kind = .stream none ∧ x.addr = s.ra a ∧
          x.snap = { ports := s.self.ve.ports, shape := s.self.ve.shape, fmt := s.self.ve.fmt, rrb := s.self.ve.rrb,
                     pred := s.self.ve.pred } ∧
          (∀ g, g ≠ p.2 → t.self.q.cmds g = s.self.q.cmds g) ∧ t.self.q.ld = s.self.q.ld ∧ t.self.q.st = s.self.q.st ∧
          t.self.q.fmt = s.self.q.fmt ∧ t.self.d = s.self.d ∧ t.self.a = s.self.a) ∧
    (s.self.allQueued.ce.length < 64 → s.reqFirst .ce = false →
      ∃ (t : State) (x : Cmd), exec (.enqCe a) s = .next t ∧ s.OnlySelf t ∧ s.self.WentOn t.self ∧
        t.self.q.ce = s.self.q.ce ++ [x] ∧ x.kind = .stream none ∧ x.addr = s.ra a ∧ t.self.q.me = s.self.q.me ∧
        t.self.q.ve = s.self.q.ve ∧ t.self.d = s.self.d ∧ t.self.a = s.self.a) ∧
    (0x20000 ≤ (s.ra a).toNat ∨ (s.ra a).toNat % 64 ≠ 0 → ∀ i ∈ [Instr.enqMe a, Instr.enqVe a],
      exec i s = .next (s.trapAt s.core s.slot { Cause.plain 0x04 with addr := s.ra a } s.self.pc))

/-- R177, R178, R180, R222, R227: NEST fills the shadow table and PORT a port set from 64-byte aligned bytes of the own scratchpad
that no earlier store is to change, while no replay is under way; NGO arms the shadow and queues a NEST entry; FMTQ queues a format
word unchecked; SHAPE sets a legal shape. -/
def Obligations.TablesPortsAndFormatsAreTaken : Prop :=
  ∀ (s : State) (a : AReg) (p : BitVec 3) (v : SrcV) (w : Word), (s.srcV v).val = some w →
    (s.flaws = [] → s.own.replaying s.slot.val = false → (s.ra a).toNat % 64 = 0 → (s.ra a).toNat + 192 ≤ 0x100000 → s.scratchBusy (s.ra a).toNat 192 = false →
      s.poisoned (localKey s.core (s.ra a).toNat) 192 = false → s.self.nest.st ≠ .armed →
      Nest.ok (BitVec.ofNat 1536 (s.readNat (localKey s.core (s.ra a).toNat) 192)) = true →
      ∃ t, exec (.nest a) s = .next t ∧ s.OnlySelf t ∧ s.self.WentOn t.self ∧
        t.self.nest = { s.self.nest with shadow := BitVec.ofNat 1536 (s.readNat (localKey s.core (s.ra a).toNat) 192),
                                         st := .filled } ∧ t.self.d = s.self.d ∧ t.self.a = s.self.a ∧ t.self.q = s.self.q) ∧
    (s.flaws = [] → s.own.replaying s.slot.val = false → (s.ra a).toNat % 64 = 0 → (s.ra a).toNat + 64 ≤ 0x100000 → s.scratchBusy (s.ra a).toNat 64 = false →
      s.poisoned (localKey s.core (s.ra a).toNat) 64 = false →
      PortSet.ok (BitVec.ofNat 512 (s.readNat (localKey s.core (s.ra a).toNat) 64)) = true →
      ∃ t, exec (.port a p) s = .next t ∧ s.OnlySelf t ∧ s.self.WentOn t.self ∧
        t.self.ve = { s.self.ve with
          ports := s.self.ve.ports.set p.toNat (BitVec.ofNat 512 (s.readNat (localKey s.core (s.ra a).toNat) 64)) } ∧
        t.self.d = s.self.d ∧ t.self.a = s.self.a ∧ t.self.q = s.self.q) ∧
    (s.self.nest.st = .filled → s.self.allQueued.me.length < 64 → s.reqFirst .me = false →
      ∃ (t : State) (x : Cmd), exec .ngo s = .next t ∧ s.OnlySelf t ∧ s.self.WentOn t.self ∧
        t.self.nest = { s.self.nest with st := .armed } ∧ t.self.q.me = s.self.q.me ++ [x] ∧ x.kind = .nest ∧
        t.self.q.ve = s.self.q.ve ∧ t.self.d = s.self.d ∧ t.self.a = s.self.a) ∧
    (s.self.allQueued.fmt.length < 32 →
      ∃ t, exec (.fmtq v) s = .next t ∧ s.OnlySelf t ∧ s.self.WentOn t.self ∧
        t.self.q = { s.self.q with fmt := s.self.q.fmt ++ [w], seqFmt := s.self.q.seqFmt + 1 } ∧ t.self.d = s.self.d ∧
        t.self.a = s.self.a) ∧
    (shapeOk w = true →
      ∃ t, exec (.shape v) s = .next t ∧ s.OnlySelf t ∧ s.self.WentOn t.self ∧ t.self.ve = { s.self.ve with shape := w } ∧
        t.self.d = s.self.d ∧ t.self.a = s.self.a ∧ t.self.q = s.self.q)

/-! ### Leases, system registers, dead registers -/

/-- R186, R336, R372: PACQ whose earlier entries have issued: on the management core it holds its lease at once; on a grid core its
request goes behind those of its segment and the strand waits at its word; with an entry in its queues it waits. The request
at the head is granted, and its PACQ issues, once its level fits beside what the segment holds without the strand's own old
lease, whose units leave in the same action; one that does not fit stays. PREL gives a held lease back, and without one it
only goes on. -/
def Obligations.LeasesAreGrantedInOrder : Prop :=
  (∀ (s : State) (level : BitVec 4), s.self.allQueued.ld = [] → s.self.allQueued.st = [] →
    (s.core = 2048 → ∃ t, exec (.pacq level) s = .next t ∧ s.OnlySelf t ∧ s.self.WentOn t.self ∧
      t.self.lease = { pend := false, held := true, level := level, again := false, left := false } ∧ t.self.d = s.self.d ∧
      t.self.a = s.self.a ∧ t.self.q = s.self.q) ∧
    (s.core ≠ 2048 → s.self.lease.pend = false → ∃ t, exec (.pacq level) s = .next t ∧
      (t.seg (segOf s.core)).reqs = (s.seg (segOf s.core)).reqs ++ [{ core := s.core, slot := s.slot.val, level := level }] ∧
      (t.seg (segOf s.core)).held = (s.seg (segOf s.core)).held ∧ t.self.lease = { s.self.lease with pend := true } ∧
      t.self.st = .waiting ∧ t.self.wait = .lease ∧ t.self.pc = s.self.pc ∧ t.self.d = s.self.d ∧ t.self.a = s.self.a ∧
      t.mem = s.mem)) ∧
  (∀ (s : State) (level : BitVec 4), s.self.allQueued.ld ≠ [] ∨ s.self.allQueued.st ≠ [] →
    ∃ t, exec (.pacq level) s = .next t ∧ s.Waits t .lease) ∧
  (∀ (s : State) (rest : List LeaseReq) (g c k : Nat) (level : BitVec 4) (old : BitVec 4), k < 8 →
    (s.seg g).reqs = { core := c, slot := k, level := level } :: rest → (s.strandAt c (slotIx k)).st = .waiting →
    (s.strandAt c (slotIx k)).wait = .lease → (s.strandAt c (slotIx k)).lease.again = false →
    (s.strandAt c (slotIx k)).lease.left = false →
    old = (if (s.strandAt c (slotIx k)).lease.held then (s.strandAt c (slotIx k)).lease.level else 0) →
    ((s.seg g).held.toNat + level.toNat ≤ (s.seg g).cap.toNat + old.toNat →
      ∃ t, exec (.leaseGrant g) s = .next t ∧ (t.seg g).reqs = rest ∧
        (t.seg g).held = (s.seg g).held + level.setWidth 8 - old.setWidth 8 ∧
        (t.strandAt c (slotIx k)).lease = { pend := false, held := true, level := level, again := false, left := false } ∧
        (s.strandAt c (slotIx k)).WentOn (t.strandAt c (slotIx k)) ∧ (t.strandAt c (slotIx k)).d = (s.strandAt c (slotIx k)).d ∧
        t.mem = s.mem) ∧
    ((s.seg g).cap.toNat + old.toNat < (s.seg g).held.toNat + level.toNat → exec (.leaseGrant g) s = .next s)) ∧
  ∀ s : State, ∃ t, exec .prel s = .next t ∧ s.self.WentOn t.self ∧ t.self.d = s.self.d ∧ t.self.a = s.self.a ∧
    t.self.q = s.self.q ∧ t.mem = s.mem ∧
    t.self.lease = (if s.self.lease.held then { s.self.lease with held := false, level := 0 } else s.self.lease) ∧
    (t.seg (segOf s.core)).held = (if s.self.lease.held ∧ s.core ≠ 2048 then
      (s.seg (segOf s.core)).held - s.self.lease.level.setWidth 8 else (s.seg (segOf s.core)).held)

/-- R3, R4, R140, R187, R188, R239, R356: SRR of an assigned register replaces its destination, whatever that holds, with what the
register reads; SRW of a set takes the indeterminate-source trap; SRW of a value to a register of the strand writes it under its
access code, a shape that is none taking the shape fault (R226); a number that is not assigned is illegal. What SRR reads after it:
a read-only register is as it was; a field that is read and written holds the value's bits, a reserved one 0; a field that ones
clear has lost those bits. -/
def Obligations.SystemRegistersAreReadAndWritten : Prop :=
  ∀ (s : State) (d : DReg) (num : BitVec 12) (v w : Word),
    (s.sysRead s.core s.slot.val num.toNat = some v →
      (∃ t, exec (.srr d num) s = .next t ∧ t.self.d[d.toNat] = Dom.single v ∧ s.self.Kept t.self [d] [] ∧
        s.self.WentOn t.self ∧ t.mem = s.mem) ∧
      ((s.rd d).val = none → exec (.srw d num) s = .next (s.trapAt s.core s.slot (Cause.plain 0x03) s.self.pc)) ∧
      ((s.rd d).val = some w → num ≠ 0x030 ∨ shapeOk w = true →
        ∃ t, exec (.srw d num) s = .next t ∧ t.self = (s.self.putReg num.toNat w).retire ∧
          t.own = { s.own.putReg num.toNat w with strands := t.own.strands } ∧ t.mem = s.mem ∧
          ∀ p ∈ ([(0x000, v), (0x002, v), (0x004, v), (0x005, v), (0x006, v), (0x007, v), (0x014, v), (0x040, v), (0x041, v),
                  (0x042, v), (0x082, v), (0x083, v), (0x084, v), (0x085, v), (0x086, v), (0x010, v &&& ~~~(w &&& 2)),
                  (0x022, v &&& ~~~w), (0x0C5, v &&& ~~~w), (0x0CB, v &&& ~~~w), (0x001, w &&& 0x000FF800), (0x011, w &&& 0xFFFF),
                  (0x012, w &&& 0xFFFF0003),
                  (0x013, if 16 < s.self.rel.ckd then v else if 239 < (w.extractLsb' 20 8).toNat
                    then 0x0EF00000 ||| (w &&& 0x000FFFC0) else w &&& 0x0FFFFFC0),
                  (0x020, if w = 0 then 1 else w), (0x021, if w = 0 then 1 else w), (0x030, w), (0x031, w &&& 0x1F),
                  (0x032, w &&& 0x000FFF00), (0x033, w &&& 0xFFFF), (0x080, w &&& 0x1FFF8), (0x081, w &&& 0x1FFF8),
                  (0x0C0, w &&& 0xFF0F), (0x0C1, w &&& 0xFFFFF000), (0x0C2, w &&& 0x01FFFFFF),
                  (0x0C3, if w &&& 0xFFFF = 0 then 1 else w &&& 0xFFFF), (0x0C4, v),
                  (0x0C6, if w.toNat < 256 then 256 else w)] ++
                 (if s.self.amaxClk = Vector.replicate 4 0 then [0x034#12, 0x035, 0x036, 0x037].map fun k => (k, amaxStore w)
                  else []) : List (BitVec 12 × Word)), p.1 = num → t.sysRead s.core s.slot.val num.toNat = some p.2) ∧
      ((s.rd d).val = some w → num = 0x030 → shapeOk w = false → exec (.srw d num) s = .next (s.trapAt s.core s.slot (Cause.plain 0x11) s.self.pc))) ∧
    (s.sysRead s.core s.slot.val num.toNat = none → ∀ i ∈ [Instr.srr d num, Instr.srw d num],
      exec i s = .next (s.trapAt s.core s.slot (Cause.plain 0x01) s.self.pc))

/-- R189, R364: SDEAD declares the registers of its mask dead, but for a domain register that a stored relation mentions; a mask of
address registers above 32 bits is an illegal operand. No register's value changes, and a mask that names a register ends the pairings
of the other kind (R364), which is a reading, log entry 37. -/
def Obligations.SdeadDeclaresRegistersDead : Prop :=
  ∀ (s : State) (a : AReg),
    (∃ t, exec (.sdeadD a) s = .next t ∧ s.OnlySelf t ∧ s.self.WentOn t.self ∧ t.self.d = s.self.d ∧ t.self.a = s.self.a ∧
      t.self.deadA = (if s.ra a = 0 then s.self.deadA else { s.self.deadA with dup := [] }) ∧
      ∀ i, i < 64 → t.self.deadD.mask.getLsbD i = (s.self.deadD.mask.getLsbD i ||
        ((s.ra a).getLsbD i && !(s.self.rel.store.any fun e => e.mentions (BitVec.ofNat 6 i))))) ∧
    ((s.ra a).toNat < 2 ^ 32 → ∃ t, exec (.sdeadA a) s = .next t ∧ s.OnlySelf t ∧ s.self.WentOn t.self ∧ t.self.d = s.self.d ∧
      t.self.a = s.self.a ∧ t.self.deadD = (if s.ra a = 0 then s.self.deadD else { s.self.deadD with dup := [] }) ∧
      ∀ i, i < 32 → t.self.deadA.mask.getLsbD i = (s.self.deadA.mask.getLsbD i || (s.ra a).getLsbD i)) ∧
    (2 ^ 32 ≤ (s.ra a).toNat → exec (.sdeadA a) s = .next (s.trapAt s.core s.slot (Cause.plain 0x02) s.self.pc))

/-! ### The matrix engine -/

/-- R29, R197-R210: a repetition of an ME word whose tiles are in the state that R29 asks for and whose work meets no fault
commits that work, moves its pointer where the form has one, clears the partial marks of the tiles it writes, fills with its
last repetition those that it loads, drains, rotates or transposes into, and its cursor goes on; nothing else changes. That
a repetition is performed in one step is the model's choice, log entry 12; when its tile is full is a reading, log entry 18.
-/
def Obligations.MatrixWordsCommit : Prop :=
  ∀ (s t : State) (u : Cursor) (w : EWord) (g : Staged),
    let o := t.cmd3 u
    let x := w.x.toNat
    let y := w.y.toNat
    let z := w.z.toNat
    ∀ p ∈ ([
      (.mzero w, none, ⟨[], [x], false⟩, .ok { Staged.none' 128 with tile := some (x, []) }, id),
      (.mload w, some Fmt.loadOk, ⟨[], [x], false⟩,
        if z = 0 then t.loadWork o x (o.shape y).1 (o.shape y).2 fun r => o.ptr y + imgPitch o.f o.f.af * r
        else t.loadWork o x o.ext.m o.ext.k fun r => PortSet.rowAddr (t.portSnap .me (z - 8)) (u.row (z - 8) + r),
        fun r => if z = 0 then r.stepPtr w y false else r),
      (.mloadg w, some Fmt.gatherOk, ⟨[], [x], false⟩, t.gatherWork o x o.ext.m (o.shape y).2 (o.ptr y), fun r => r.stepPtr w y true),
      (.mstore w, some Fmt.storeOk, ⟨[x], [], false⟩, t.storeWork o.f x (o.shape y).1 (o.shape y).2 (o.ptr y),
        fun r => r.stepPtr w y false),
      (.mmac w, some Fmt.macOk, ⟨[y, z], [x], true⟩, t.macWork o x y z, id),
      (.mmacs w, some Fmt.macsOk, ⟨[], [x], true⟩, t.macsWork o x (o.ptr y) (o.ptr z), fun r => r.stepPtr w y false),
      (.mdrain w, some Fmt.drainOk, ⟨[x], [y], false⟩, t.drainWork o x y, id),
      (.mhad w, some Fmt.hadOk, ⟨[y], [x], false⟩, t.hadWork o x y (if w.z = 0 then 16 else if w.z = 1 then 32 else 128), id),
      (.mtrn w, some Fmt.trnOk, ⟨[y], [x], false⟩, t.trnWork o.f x y, id)] :
      List (Instr × Option (Fmt → Bool) × Uses × Except Fail Staged × (State → State))),
      s.AtRep .me w p.2.1 none t u → t.own.tileWait t.slot u p.2.2.1.reads p.2.2.1.writes p.2.2.1.acc = none →
      p.2.2.2.1 = .ok g →
      ∃ v, exec p.1 s =
          .next (t.repDone ((p.2.2.2.2 (t.commit o.f g)).tilesDone p.2.2.1 (u.rep + 1 == u.total)) .me w u v g.clks) ∧
        v.reads = u.reads ||| tilesOf p.2.2.1.reads ∧ v.writes = u.writes ||| tilesOf p.2.2.1.writes ∧ v.rep = u.rep ∧
        v.total = u.total ∧ v.addr = u.addr ∧
        (p.1 = .mload w → z ≠ 0 → ∀ q, v.row q = u.row q + if q % 8 = (z - 8) % 8 then 128 else 0)

/-- R194-R196, R201, R203-R205, R207-R210: what the commands of the ME make of their tiles and images. MLOAD copies codes and scale
entries where AF = OF, and otherwise encodes the decoded blocks, rotated and multiplied as the format says; rows and columns beyond the
extents hold zeros, blocks beyond them the entry 0x8000. MLOADG loads the rows that its index vector names. MSTORE changes the valid
codes and the entries of their blocks alone. MDRAIN encodes the accumulators. MHAD sums each block under the sign matrix. MMACS adds the
exact sum of the products of the listed elements to each accumulator within the extents. The largest magnitude is that of the elements
before q (R95). Encodings without draws are stated here, R92's rounding being the model's round. That an element which MMACS does not
list adds +0 is log entry 32, the sign of a zero in Hn x is log entry 55, and the columns of a cut MHAD block beyond ext(K) are log entry
56. -/
def Obligations.MatrixCommandsConvertTheirRows : Prop :=
  ∀ (s : State) (o : Cmd3) (t ty rows cols p pb n : Nat) (addr img ix : Nat → Nat) (q qb : Option Ext), t < 16 → ty < 16 → rows ≤ 128 →
    cols ≤ 128 → o.f.bk = 16 ∨ o.f.bk = 32 → o.f.af < 8 → o.f.of < 8 → o.ext.m ≤ 128 → o.ext.n ≤ 128 → o.ext.k ≤ 128 →
    s.factor o.f o.i = .ok q →
    let f := o.f
    let w := fmtWidth f.af
    let code (u : State) (t i j w : Nat) : Nat := u.tileRow t i / 2 ^ (w * j) % 2 ^ w
    let entry (u : State) (t i b : Nat) : Nat := u.tileRow t i / 2 ^ (2048 + 16 * b) % 2 ^ 16
    let frame (u : State) (t : Nat) : Prop := ∀ a, a < tileKey s.core t ∨ tileKey s.core t + 0x10000 ≤ a → u.mem.byte a = s.mem.byte a
    let made (u : State) (t n : Nat) (x : Nat → List Ext) : Prop := frame u t ∧
      (∀ i j, i < 128 → j < 128 → code u t i j (fmtWidth f.of) =
        if i < n ∧ j < (x i).length then (f.encoded (f.block q (blockOf f.bk (j / f.bk) (x i)))).1.getD (j % f.bk) 0 % 2 ^ fmtWidth f.of else 0) ∧
      (f.scaled f.of = true → ∀ i b, i < 128 → b < 128 / f.bk → entry u t i b =
        if i < n ∧ f.bk * b < (x i).length then (f.encoded (f.block q (blockOf f.bk b (x i)))).2 % 2 ^ 16 else 0x8000) ∧
      (f.amx = true → u.self.ve.amax.toList.getD (f.amxIx % 4) 0 = amaxMax (s.self.ve.amax.toList.getD (f.amxIx % 4) 0)
        (((List.range n).flatMap fun i => (List.range (128 / f.bk)).flatMap fun b => f.block none (blockOf f.bk b (x i))).foldl amaxUpdate 0))
    (s.view = [] → s.own.flights = [] → p + n ≤ 0x100000 → s.poisoned (localKey s.core p) n = false →
      s.localRead p n = .ok (s.readNat (localKey s.core p) n)) ∧
    ((∀ r, r < rows → s.localRead (addr r) (imgPitch f f.af) = .ok (img r)) →
      s.spansOk (f.factorAt o.i ++ imageSpans f rows addr) = .ok () →
      ∃ g, s.loadWork o t rows cols addr = .ok g ∧
        (f.af = f.of → frame (s.commit f g) t ∧ ∀ i, i < 128 →
          (∀ j, j < 128 → code (s.commit f g) t i j w = if i < rows ∧ j < cols then img i / 2 ^ (w * j) % 2 ^ w else 0) ∧
          (f.scaled f.af = true → ∀ b, b < 128 / f.bk → entry (s.commit f g) t i b =
            if i < rows ∧ f.bk * b < cols then img i / 2 ^ (128 * w + 16 * b) % 2 ^ 16 else 0x8000)) ∧
        (f.af ≠ f.of → f.rnd ≠ 1 → made (s.commit f g) t rows fun i =>
          decRow f f.af cols (img i % 2 ^ (128 * w)) (img i / 2 ^ (128 * w)) none)) ∧
    (f.factor = false → (∀ r, r < rows → s.localRead (o.i + 4 * r) 4 = .ok (ix r)) →
      s.spansOk ((List.range rows).map fun r => Span.of false (o.i + 4 * r) 4) = .ok () →
      s.gatherWork o t rows cols p = s.loadWork o t rows cols fun r => p + imgPitch f f.af * ix r) ∧
    (s.view = [] → s.own.flights = [] → p + imgPitch f f.af * rows ≤ 0x100000 → s.tileClean t rows = true →
      ∃ g, s.storeWork f t rows cols p = .ok g ∧
        (∀ i, i < rows →
          (∀ j, j < 128 → (s.commit f g).readNat (localKey s.core (p + imgPitch f f.af * i)) (16 * w) / 2 ^ (w * j) % 2 ^ w =
            if j < cols then code s t i j w
            else s.readNat (localKey s.core (p + imgPitch f f.af * i)) (16 * w) / 2 ^ (w * j) % 2 ^ w) ∧
          (f.scaled f.af = true → ∀ b, b < 128 / f.bk →
            (s.commit f g).readNat (localKey s.core (p + imgPitch f f.af * i + 16 * w + 2 * b)) 2 =
              if f.bk * b < cols then entry s t i b else s.readNat (localKey s.core (p + imgPitch f f.af * i + 16 * w + 2 * b)) 2)) ∧
        ∀ a, a < localKey s.core p ∨ localKey s.core p + imgPitch f f.af * rows ≤ a → (s.commit f g).mem.byte a = s.mem.byte a) ∧
    (s.tileClean t o.ext.m = true → f.rnd ≠ 1 → ∃ g, s.drainWork o t ty = .ok g ∧
      made (s.commit f g) ty o.ext.m fun i => (List.range o.ext.n).map fun j =>
        if f.af = 6 then Ext.ofUnits 0 (BitVec.ofNat 32 (code s t i j 32)).toInt else decodeCode 0 (code s t i j 32)) ∧
    (s.tileClean ty o.ext.m = true → ∀ m ∈ [16, 32, 128], ∃ g, s.hadWork o t ty m = .ok g ∧ frame (s.commit f g) t ∧
      ∀ i j, i < 128 → j < 128 → code (s.commit f g) t i j 32 = if i < o.ext.m then
        (toF32 ((hadamard (blockOf m (j / m) (decRow f f.af o.ext.k (s.tileRow ty i) (rowEntries (s.tileRow ty i)) q)) m).getD (j % m)
          Ext.zero)).toNat else 0) ∧
    (s.factor f (o.i + 4) = .ok qb → ∀ g, s.macsWork o t p pb = .ok g →
      (∀ i j, i < o.ext.m → j < o.ext.n → (s.commit f g).readNat (rowKey s.core t i + 4 * j) 4 =
        (macsElem f.integer (products ((List.range o.ext.k).map (s.sparseAt f f.af p q i)) ((List.range o.ext.k).map (s.sparseAt f f.bf pb qb j)))
          (BitVec.ofNat 32 (s.readNat (rowKey s.core t i + 4 * j) 4))).toNat) ∧
      ∀ a, (∀ i, i < o.ext.m → a < rowKey s.core t i ∨ rowKey s.core t i + 4 * o.ext.n ≤ a) → (s.commit f g).mem.byte a = s.mem.byte a)

/-- R98, R206: the product of MMAC changes exactly the accumulator elements within the extents, each to the sum that R98 gives of
the products of a row of A and a row of B and the element before; every other byte stays. R202, R210: MTRN writes element (i, j) of
TY to element (j, i) of TX, bit for bit, for all 128 × 128 elements; MZERO makes every byte of its tile 0. No byte outside the tile
changes. -/
def Obligations.ProductsTransposesAndClears : Prop :=
  (∀ (s : State) (o : Cmd3) (tc ta tb : Nat) (qa qb : Option Ext) (g : Staged), tc < 16 → ta < 16 → tb < 16 → o.ext.m ≤ 128 →
     o.ext.n ≤ 128 → o.ext.k ≤ 128 → s.factor o.f o.i = .ok qa → s.factor o.f (o.i + 4) = .ok qb → s.macWork o tc ta tb = .ok g →
     (∀ i j, i < o.ext.m → j < o.ext.n →
       (s.commit o.f g).readNat (rowKey s.core tc i + 4 * j) 4 =
         (macElem o.f.integer
           (products (decRow o.f o.f.af o.ext.k (s.tileRow ta i) (rowEntries (s.tileRow ta i)) qa)
             (decRow o.f o.f.bf o.ext.k (s.tileRow tb j) (rowEntries (s.tileRow tb j)) qb))
           (BitVec.ofNat 32 (s.readNat (rowKey s.core tc i + 4 * j) 4))).toNat) ∧
     ∀ a, (∀ i, i < o.ext.m → a < rowKey s.core tc i ∨ rowKey s.core tc i + 4 * o.ext.n ≤ a) →
       (s.commit o.f g).mem.byte a = s.mem.byte a) ∧
  ∀ (s : State) (f : Fmt) (tx ty : Nat) (g : Staged), tx < 16 → ty < 16 → f.af < 8 →
    (s.trnWork f tx ty = .ok g →
      (∀ i j, i < 128 → j < 128 → (s.commit f g).tileRow tx j / 2 ^ (fmtWidth f.af * i) % 2 ^ fmtWidth f.af =
        s.tileRow ty i / 2 ^ (fmtWidth f.af * j) % 2 ^ fmtWidth f.af) ∧
      ∀ a, a < tileKey s.core tx ∨ tileKey s.core tx + 0x10000 ≤ a → (s.commit f g).mem.byte a = s.mem.byte a) ∧
    ∀ a, (s.commit f { Staged.none' 128 with tile := some (tx, []) }).mem.byte a =
      if tileKey s.core tx ≤ a ∧ a < tileKey s.core tx + 0x10000 then 0 else s.mem.byte a

/-- R40, R127, R135, R211, R212: MNEST and a NEST entry run the body of the active table once for each of its executions: at
the pointers and the origins of the execution's index vector, the body's form commits its work as its own word does, and
the pointers stand there; an MNEST that names another body takes the nest-table fault. MNOP, MSTOP, VNOP and VSTOP make
their repetitions with no other effect: those that pop nothing begin with the first of their executions done. That a body is performed
in one step is the model's choice, log entry 12; when its tile is full is log entry 18; that a tile is named by its address is log
entry 32. -/
def Obligations.NestsStopsAndNops : Prop :=
  (∀ (s : State) (u : Cursor) (w : EWord), s.flaws = [] → u.phase = .fetch → u.since = none → w.pop = 0 → w.rpt ≠ 0x3FF →
    let v : Cursor := { u with popped := true, rep := 1, total := w.rpt.toNat + 1, fmt := 0,
                               phase := if w.each then .push else if w.rpt = 0 then .done else .run }
    (s.self.curMe = some u → ∀ i ∈ [Instr.mnop w, Instr.mstop w], ∃ t, exec i s = .next t ∧ s.OnlySelf t ∧
      t.self = { s.self with curMe := some v, eff := { s.self.eff with me := s.self.eff.me.add 1 s.clk } }) ∧
    (s.self.curVe = some u → ∀ i ∈ [Instr.vnop w, Instr.vstop w], ∃ t, exec i s = .next t ∧ t.mem = s.mem ∧
      t.self = { s.self with curVe := some v, eff := { s.self.eff with ve := s.self.eff.ve.add 1 s.clk } })) ∧
  (∀ (s t : State) (u : Cursor) (w : EWord),
    (s.AtRep .me w none none t u → ∀ i ∈ [Instr.mnop w, Instr.mstop w], exec i s = .next (t.repDone t .me w u u 1)) ∧
    (s.AtRep .ve w none none t u → ∀ i ∈ [Instr.vnop w, Instr.vstop w], exec i s = .next (t.repDone t .ve w u u 1)) ∧
    (s.self.curMe = some u → u.phase = .fetch → w.z.toNat ≠ Nest.body s.self.nest.active →
      exec (.mnest w) s = .next (s.engFault .me (Fail.of 0x0F)))) ∧
  ∀ (s t : State) (u : Cursor) (w : EWord) (g : Staged) (tc ta tb : Nat),
    let n := s.self.nest.active
    let ix := Nest.index n u.rep
    let p (k : Nat) : Nat := Nest.pointer n k ix
    let o : Cmd3 := { a := p 0, b := p 1, c := p 2, i := p 3, ext := Nest.ext3 n ix, f := Fmt.unpack u.fmt }
    let put (r : State) : State := r.upd fun x =>
      { x with nest := { x.nest with ptrA := BitVec.ofNat 32 (p 0), ptrB := BitVec.ofNat 32 (p 1),
                                     ptrC := BitVec.ofNat 32 (p 2), ptrI := BitVec.ofNat 32 (p 3) } }
    Nest.tileAt o.c = some tc →
    ∀ q ∈ ([(1, ⟨[], [tc], false⟩, t.loadWork o tc o.ext.m o.ext.k fun r => o.a + imgPitch o.f o.f.af * r),
            (2, ⟨[], [tc], false⟩, t.gatherWork o tc o.ext.m o.ext.k o.a),
            (3, ⟨[tc], [], false⟩, t.storeWork o.f tc o.ext.m o.ext.n o.a),
            (4, ⟨[ta, tb], [tc], true⟩, t.macWork o tc ta tb),
            (5, ⟨[], [tc], true⟩, t.macsWork o tc o.a o.b)] : List (Nat × Uses × Except Fail Staged)),
      Nest.body n = q.1 → (q.1 = 4 → Nest.tileAt o.a = some ta ∧ Nest.tileAt o.b = some tb ∧ ta ≠ tc ∧ tb ≠ tc) →
      t.own.tileWait t.slot u q.2.1.reads q.2.1.writes q.2.1.acc = none → q.2.2 = .ok g →
      (s.AtRep .me w (some (nestFormat q.1)) (some (Nest.executions n)) t u → w.z.toNat = q.1 →
        ∃ v, v.idx = Nest.index n (u.rep + 1) ∧ v.rep = u.rep ∧ v.total = u.total ∧ exec (.mnest w) s =
          .next (t.repDone ((put (t.commit o.f g)).tilesDone q.2.1 (!Nest.later n 2 o.c ix)) .me w u v g.clks)) ∧
      (s.AtRep .me (EWord.unpack 0) (some (nestFormat q.1)) (some (Nest.executions n)) t u →
        (s.own.eng .me).serving = some s.slot.val → s.withheld s.core = false →
        (∀ c, s.self.curMe = some c → c.nestEntry = true ∧ c.held = .no) →
        ∃ v, v.idx = Nest.index n (u.rep + 1) ∧ v.rep = u.rep ∧ v.total = u.total ∧ exec (.nestEntryRun s.core) s =
          .next (t.repDone ((put (t.commit o.f g)).tilesDone q.2.1 (!Nest.later n 2 o.c ix)) .me (EWord.unpack 0) u v g.clks))

/-- R27-R29, R74, R75, R195: a free engine takes, of the slots in turn after the one that it served last, the first whose queue head
it may begin: a fence whose entries are done leaves its queue, a stream entry is begun at its address with the pointers of the ME at
their bases, a NEST entry takes the shadow table. A finished word of the ME or VE makes its pushes once its writes have been
performed, and then only those to full counters wait; then an ME word empties the tiles it read unless K = 1, and the stream goes on
to the next word, or ends with a stop; a repetition under EACH makes its pushes and the next one goes on. -/
def Obligations.EntriesBeginAndComplete : Prop :=
  (∀ (s : State) (e : Eng) (c k : Nat) (h : Cmd), k < 8 → ((s.coreAt c).eng e).serving = none → (s.coreAt c).headReady e k = true →
    (∀ i, i < (k + 7 - ((s.coreAt c).eng e).last % 8) % 8 → (s.coreAt c).headReady e ((((s.coreAt c).eng e).last + 1 + i) % 8) = false) →
    (s.strandAt c (slotIx k)).head e = some h → (s.strandAt c (slotIx k)).cursor e = none →
    ∃ t, exec (.engineEntryStart c e) s = .next t ∧ t.mem = s.mem ∧
      (∀ src, h.kind = .stream src →
        ((t.coreAt c).eng e).serving = some k ∧
        (t.strandAt c (slotIx k)).cursor e = some (Cursor.start h.addr h.snap.pred) ∧
        (t.strandAt c (slotIx k)).q = (s.strandAt c (slotIx k)).q ∧
        (e = .me → (t.strandAt c (slotIx k)).nest.ptrA = BitVec.ofNat 32 (Nest.base (s.strandAt c (slotIx k)).nest.active 0))) ∧
      (h.kind = .nest → e = .me →
        ((t.coreAt c).eng e).serving = some k ∧
        (t.strandAt c (slotIx k)).nest.active = (s.strandAt c (slotIx k)).nest.shadow ∧
        (t.strandAt c (slotIx k)).nest.st = .empty) ∧
      (∀ id m v f, h.kind = .fence id m v f →
        ((t.coreAt c).eng e).serving = none ∧
        (t.strandAt c (slotIx k)).q.cmds e = ((s.strandAt c (slotIx k)).q.cmds e).tail)) ∧
  ∀ (s : State) (e : Eng) (u : Cursor) (l now : List Nat), e ≠ .ce → (s.own.eng e).serving = some s.slot.val → s.slot.val < 8 →
    s.self.cursor e = some u → u.nestEntry = false → l = (pushTokens e u.eword.push).filter (fun i => !u.pushed.contains i) →
    now = l.filter (fun i => s.self.token i != 255) → s.self.badToken l = false →
    ((u.phase = .done ∧ u.eword.each = false) ∨ (u.phase = .push ∧ u.eword.each = true) → s.own.rowsOut s.slot.val = true → l ≠ [] →
      exec (.engineWordComplete s.core e) s = .next s) ∧
    ((s.own.rowsOut s.slot.val = true → l = []) →
    (u.phase = .done → u.eword.each = false →
      ∃ t, exec (.engineWordComplete s.core e) s = .next t ∧ t.mem = s.mem ∧ t.self.tokens = (s.self.push now).tokens ∧
        (now ≠ l → t.self.cursor e = some { u with pushed := u.pushed ++ now } ∧ t.self.q = s.self.q ∧ t.own.full = s.own.full) ∧
        (now = l → t.own.full = (if e = .me ∧ u.eword.k = false then s.own.full &&& ~~~u.reads else s.own.full) ∧
          (u.isStop = false → t.self.cursor e = some (u.next (u.addr + 6)) ∧ t.self.q = s.self.q) ∧
          (u.isStop = true → t.self.cursor e = none ∧ t.self.q = s.self.q.dropCmd e ∧ (t.own.eng e).serving = none))) ∧
    (u.phase = .push → u.eword.each = true → u.rep ≠ u.total → now = l →
      ∃ t, exec (.engineWordComplete s.core e) s = .next t ∧ t.mem = s.mem ∧ t.self.tokens = (s.self.push now).tokens ∧
        t.self.cursor e = some { u with phase := .run, popped := false, pushed := [] } ∧ t.self.q = s.self.q))

/-! ### The vector engine -/

/-- R129, R222-R234: a repetition of a VE word whose predicate lets it run reads its operands, computes every element and
writes the result where its destination stands, and its cursor goes on past the rows that its ports popped and wrote;
nothing else changes. The element functions are those of R230-R234: FP32 sums, differences, products and fused products
rounded once to nearest, integers of the width IW that wrap under I = 1, comparisons that give 1.0 or 1 and 0, trees of a
row, moves. That a repetition is performed in one step is the model's choice, log entry 12; how the functions are computed
is log entry 42. -/
def Obligations.VectorWordsApplyTheirElements : Prop :=
  ∀ (s t : State) (u uy uz v : Cursor) (w : EWord) (l : List (Nat × List Byte)) (xs ys zs : List Nat),
    let g := t.grid
    let arith := if w.k then g.iw else 32
    let i2 (f : Int → Int → Int) (a b : Nat) : Nat :=
      (BitVec.ofInt g.iw (f (BitVec.ofNat g.iw a).toInt (BitVec.ofNat g.iw b).toInt)).toNat
    let fp (x : Ext) : Nat := (toF32 x).toNat
    let f32 (a : Nat) : Ext := decodeCode 0 a
    let put (ew : Nat) (rows : List (List Nat)) : Except Fail (List (Nat × List Byte) × Cursor) :=
      t.vwrite g w uz w.x.toNat (g.cols * ew / 8) (rows.map (packN ew))
    let ends (i : Instr) (clks : Nat) : Prop := exec i s = .next (t.repDone (t.storeAll l) .ve w u v clks)
    s.AtRep .ve w none none t u → u.lets w = true →
    (∀ p ∈ ([
        (.vadd w, .arith, arith, fun a b => if w.k then i2 (· + ·) a b else fp (Ext.sum [f32 a, f32 b])),
        (.vsub w, .arith, arith, fun a b => if w.k then i2 (· - ·) a b else fp (Ext.sum [f32 a, (f32 b).neg])),
        (.vmul w, .arith, arith, fun a b => if w.k then i2 (· * ·) a b else fp ((f32 a).mul (f32 b))),
        (.vmin w, .arith, arith, fun a b => if w.k then (if intOf g.iw b < intOf g.iw a then b else a) else fpMin a b),
        (.vmax w, .arith, arith, fun a b => if w.k then (if intOf g.iw a < intOf g.iw b then b else a) else fpMax a b),
        (.vscl w, .fp32, 32, fpScl), (.vand w, .iw, g.iw, fun a b => a &&& b), (.vor w, .iw, g.iw, fun a b => a ||| b),
        (.vxor w, .iw, g.iw, fun a b => a ^^^ b), (.vshl w, .iw, g.iw, fun a b => a * 2 ^ (b % g.iw) % 2 ^ g.iw),
        (.vshr w, .iw, g.iw, fun a b => a / 2 ^ (b % g.iw)),
        (.vcmpEq w, .arith, arith, fun a b => if w.k then VCmp.eq.int g.iw a b else VCmp.eq.fp a b),
        (.vcmpNe w, .arith, arith, fun a b => if w.k then VCmp.ne.int g.iw a b else VCmp.ne.fp a b),
        (.vcmpLt w, .arith, arith, fun a b => if w.k then VCmp.lt.int g.iw a b else VCmp.lt.fp a b),
        (.vcmpLe w, .arith, arith, fun a b => if w.k then VCmp.le.int g.iw a b else VCmp.le.fp a b),
        (.vcmpGt w, .arith, arith, fun a b => if w.k then VCmp.gt.int g.iw a b else VCmp.gt.fp a b),
        (.vcmpGe w, .arith, arith, fun a b => if w.k then VCmp.ge.int g.iw a b else VCmp.ge.fp a b)] :
        List (Instr × Wide × Nat × (Nat → Nat → Nat))),
      s.shapeBad p.2.1 w [w.x.toNat, w.y.toNat, w.z.toNat] = none →
      t.vread g w u w.y.toNat (g.cols * p.2.2.1 / 8) = .ok (ys, uy) → t.vread g w uy w.z.toNat (g.cols * p.2.2.1 / 8) = .ok (zs, uz) →
      put p.2.2.1 (((g.codes p.2.2.1 ys).zip (g.codes p.2.2.1 zs)).map fun r => (r.1.zip r.2).map fun e => p.2.2.2 e.1 e.2) = .ok (l, v) →
      ends p.1 (g.clks p.2.2.1)) ∧
    (∀ p ∈ ([
        (.vfma w, .fp32, 32, fun x y z => fp (Ext.sum [(f32 y).mul (f32 z), f32 x])),
        (.vsel w, .arith, arith, fun x y z => if (if w.k then x else x % 2 ^ 31) ≠ 0 then y else z)] :
        List (Instr × Wide × Nat × (Nat → Nat → Nat → Nat))),
      s.shapeBad p.2.1 w [w.x.toNat, w.y.toNat, w.z.toNat] = none →
      t.vreadX g w u w.x.toNat (g.cols * p.2.2.1 / 8) = .ok xs → t.vread g w u w.y.toNat (g.cols * p.2.2.1 / 8) = .ok (ys, uy) →
      t.vread g w uy w.z.toNat (g.cols * p.2.2.1 / 8) = .ok (zs, uz) →
      put p.2.2.1 (((g.codes p.2.2.1 xs).zip ((g.codes p.2.2.1 ys).zip (g.codes p.2.2.1 zs))).map fun r =>
        (r.1.zip (r.2.1.zip r.2.2)).map fun e => p.2.2.2 e.1 e.2.1 e.2.2) = .ok (l, v) →
      ends p.1 (g.clks p.2.2.1)) ∧
    (∀ p ∈ ([
        (.vabs w, .arith, arith, g.clks arith, List.map fun r => if w.k then i2 (fun a _ => (a.natAbs : Int)) r 0 else fpAbs r),
        (.vneg w, .arith, arith, g.clks arith, List.map fun r => if w.k then i2 (fun a _ => -a) r 0 else fpNeg r),
        (.vexp2 w, .fp32, 32, (g.rows * g.cols + 63) / 64, List.map fun r => fp (Fn.exp2.apply (f32 r))),
        (.vlog2 w, .fp32, 32, (g.rows * g.cols + 63) / 64, List.map fun r => fp (Fn.log2.apply (f32 r))),
        (.vrcp w, .fp32, 32, (g.rows * g.cols + 63) / 64, List.map fun r => fp (Fn.rcp.apply (f32 r))),
        (.vrsq w, .fp32, 32, (g.rows * g.cols + 63) / 64, List.map fun r => fp (Fn.rsq.apply (f32 r))),
        (.vtanh w, .fp32, 32, (g.rows * g.cols + 63) / 64, List.map fun r => fp (Fn.tanh.apply (f32 r))),
        (.vclz w, .iw, g.iw, g.clks g.iw, List.map (clzN g.iw)), (.vffs w, .iw, g.iw, g.clks g.iw, List.map (ffsN g.iw)),
        (.vpopc w, .iw, g.iw, g.clks g.iw, List.map (popcN g.iw)), (.vmov w, .iw, g.iw, g.clks g.iw, id),
        (.vld w, .iw, g.iw, g.clks g.iw, id), (.vst w, .iw, g.iw, g.clks g.iw, id),
        (.vbc w, .iw, g.iw, g.clks g.iw, fun r => List.replicate g.cols (r.headD 0)),
        (.vredAdd w, .arith, arith, g.clks arith, fun r =>
          if w.k then reduceRow (fun a b => (a + b) % 2 ^ g.iw) 0 r else reduceRow fpAdd 0 r),
        (.vredMin w, .arith, arith, g.clks arith, fun r =>
          if w.k then reduceRow (fun a b => if intOf g.iw b < intOf g.iw a then b else a) (2 ^ (g.iw - 1) - 1) r
          else reduceRow fpMin 0x7F800000 r),
        (.vredMax w, .arith, arith, g.clks arith, fun r =>
          if w.k then reduceRow (fun a b => if intOf g.iw a < intOf g.iw b then b else a) (2 ^ (g.iw - 1)) r
          else reduceRow fpMax 0xFF800000 r)] :
        List (Instr × Wide × Nat × Nat × (List Nat → List Nat))),
      s.shapeBad p.2.1 w [w.x.toNat, w.y.toNat] = none →
      t.vread g w u w.y.toNat (g.cols * p.2.2.1 / 8) = .ok (ys, uz) →
      put p.2.2.1 ((g.codes p.2.2.1 ys).map p.2.2.2.2) = .ok (l, v) → ends p.1 p.2.2.2.1) ∧
    (s.shapeBad .arith w [w.x.toNat, w.y.toNat] = none → w.k = false → t.vread g w u w.y.toNat (g.cols * 32 / 8) = .ok (ys, uz) →
      put 32 ((g.codes 32 ys).map fun r => reduceRow fpMax 0 (r.map fun c => if (f32 c).isNaN then 0 else c % 2 ^ 31)) = .ok (l, v) →
      ends (.vredAmx w) (g.clks 32)) ∧
    (s.shapeBad .iw w [w.x.toNat, w.y.toNat] = none → t.vread g w u w.y.toNat (g.cols * g.iw / 8) = .ok (ys, uz) →
      put g.iw ((List.range g.rows).map fun r => (List.range g.cols).map fun c =>
        ((g.codes g.iw ys).getD ((r * g.cols + c) % g.rows) []).getD ((r * g.cols + c) / g.rows) 0) = .ok (l, v) →
      ends (.vtrn w) (g.clks g.iw)) ∧
    (s.shapeBad .iw w [w.x.toNat, w.y.toNat, w.z.toNat] = none → t.vread g w u w.y.toNat (g.cols * g.iw / 8) = .ok (ys, uy) →
      t.vread g w uy w.z.toNat (g.cols * g.iw / 8) = .ok (zs, uz) →
      (put g.iw (((g.codes g.iw ys).zip (g.codes g.iw zs)).map fun p => p.2.map fun i => p.1.getD (i % g.cols) 0) = .ok (l, v) →
        ends (.vperm w) (g.clks g.iw)) ∧
      (put g.iw (((g.codes g.iw ys).zip (g.codes g.iw zs)).map fun p => (List.range g.cols).map fun j =>
          p.1.getD ((j + g.cols - p.2.headD 0 % g.cols) % g.cols) 0) = .ok (l, v) →
        ends (.vrot w) (g.clks g.iw)))

/-- R222-R224, R228, R229: a vector register gives and takes its rows one after the other from its first byte, and no other
byte changes; a port pops its rows at the addresses of its set, and its counter goes on by the rows of the grid. R226, R229, R235, R236:
a word whose predicate is 0, of whatever form, makes its repetition with no effect. VPST writes the sixteen working
predicates from the first elements of its grid, 0 beyond its last. VCVT converts the rows of its source: each element is decoded, its
block rotated, scaled by the factor and encoded with its scale entry, as the conversion of R203 does, and the seed of the VE and the
largest-magnitude register, that of the elements before the factor (R95), go on with them; the contents are stated here for roundings
without draws. That a repetition is performed in one step is the model's choice, log entry 12. -/
def Obligations.VectorOperandsPredicatesAndConversions : Prop :=
  (∀ (s : State) (g : Grid) (w : EWord) (u : Cursor) (code rp : Nat) (rows : List Nat), rows.length = g.rows →
     (∀ x ∈ rows, x < 2 ^ (8 * rp)) →
     (8 ≤ code → s.poisoned (vregKey s.core (g.reg w code) 0) (g.rows * rp) = false →
       (∃ l, s.vread g w u code rp = .ok (l, u) ∧ l.length = g.rows ∧
         ∀ r, r < g.rows → l[r]? = some (s.readNat (vregKey s.core (g.reg w code) 0 + rp * r) rp)) ∧
       ∃ l, s.vwrite g w u code rp rows = .ok (l, u) ∧
         (∀ r, r < g.rows → (s.storeAll l).readNat (vregKey s.core (g.reg w code) 0 + rp * r) rp = rows.getD r 0) ∧
         ∀ a, a < vregKey s.core (g.reg w code) 0 ∨ vregKey s.core (g.reg w code) 0 + g.rows * rp ≤ a →
           (s.storeAll l).mem.byte a = s.mem.byte a) ∧
     (code < 8 → ∀ l v, s.vread g w u code rp = .ok (l, v) → l.length = g.rows ∧
       (∀ q, v.row q = u.row q + if q % 8 = code then g.rows else 0) ∧
       ∀ r, r < g.rows → ∃ x, l[r]? = some x ∧ s.localRead (g.rowAddr code (u.row code + r)) rp = .ok x)) ∧
  (∀ (g : Grid) (f : Fmt) (q : Option Ext) (seed : Word) (rows : List Nat), f.bk = 16 ∨ f.bk = 32 → f.rnd ≠ 1 →
    let r := convRows g f q seed 0 rows
    let n := g.cols * fmtWidth f.af
    let m := fmtWidth f.of
    let x (i : Nat) : List Ext := decRow f f.af g.cols (rows.getD i 0 % 2 ^ n) (rows.getD i 0 / 2 ^ n) none
    r.1.length = rows.length ∧ r.2.1 = seed ∧
    (f.amx = true → r.2.2 = ((List.range rows.length).flatMap fun i => (List.range ((g.cols + f.bk - 1) / f.bk)).flatMap fun b =>
      f.block none (blockOf f.bk b (x i))).foldl amaxUpdate 0) ∧
    ∀ i, i < rows.length →
      (∀ j, j < g.cols → r.1.getD i 0 / 2 ^ (m * j) % 2 ^ m =
        (f.encoded (f.block q (blockOf f.bk (j / f.bk) (x i)))).1.getD (j % f.bk) 0 % 2 ^ m) ∧
      (f.scaled f.of = true → ∀ b, b < g.cols / f.bk →
        r.1.getD i 0 / 2 ^ (g.cols * m + 16 * b) % 2 ^ 16 = (f.encoded (f.block q (blockOf f.bk b (x i)))).2 % 2 ^ 16)) ∧
  ∀ (s t : State) (u v : Cursor) (w : EWord) (src dst : BitVec 3), s.AtRep .ve w none none t u →
    (u.lets w = false → ∀ q ∈ ([
        (s.shapeBad .iw w [w.x.toNat, w.y.toNat], [.vmov w, .vld w, .vst w, .vbc w, .vclz w, .vffs w, .vpopc w, .vtrn w]),
        (s.shapeBad .iw w [w.x.toNat, w.y.toNat, w.z.toNat], [.vand w, .vor w, .vxor w, .vshl w, .vshr w, .vperm w, .vrot w]),
        (s.shapeBad .arith w [w.x.toNat, w.y.toNat], [.vabs w, .vneg w, .vredAdd w, .vredMin w, .vredMax w] ++
          if w.k then [] else [.vredAmx w]),
        (s.shapeBad .arith w [w.x.toNat, w.y.toNat, w.z.toNat], [.vadd w, .vsub w, .vmul w, .vmin w, .vmax w, .vsel w, .vcmpEq w,
          .vcmpNe w, .vcmpLt w, .vcmpLe w, .vcmpGt w, .vcmpGe w]),
        (s.shapeBad .fp32 w [w.x.toNat, w.y.toNat], [.vexp2 w, .vlog2 w, .vrcp w, .vrsq w, .vtanh w]),
        (s.shapeBad .fp32 w [w.x.toNat, w.y.toNat, w.z.toNat], [.vscl w, .vfma w]), (s.shapeBad .fp32 w [w.y.toNat], [.vpst w]),
        ((s.grid.cvtBad w src.toNat dst.toNat).or (s.grid.cvtFormat src.toNat dst.toNat), [.vcvt src dst w])] :
        List (Option (BitVec 8) × List Instr)), q.1 = none → ∀ i ∈ q.2, exec i s = .next (t.repDone t .ve w u u 1)) ∧
    (u.lets w = true → s.shapeBad .fp32 w [w.y.toNat] = none → ∀ rows, t.vread t.grid w u w.y.toNat (4 * t.grid.cols) = .ok (rows, v) →
      ∃ p, exec (.vpst w) s = .next (t.repDone t .ve w u { v with pw := p } (t.grid.clks 32)) ∧
        ∀ i, i < 16 → p.getLsbD i = decide ((t.grid.codes 32 rows).flatten.getD i 0 % 2 ^ 31 ≠ 0)) ∧
    (u.lets w = true → s.grid.cvtBad w src.toNat dst.toNat = none → s.grid.cvtFormat src.toNat dst.toNat = none →
      ∀ (f : Fmt) (rows : List Nat) (uy : Cursor) (zs : List Nat) (uz : Cursor) (l : List (Nat × List Byte)),
        f = t.grid.conv src.toNat dst.toNat → t.vread t.grid w u w.y.toNat (t.grid.pitch f src.toNat / 8) = .ok (rows, uy) →
        (if f.factor then t.vread t.grid w uy w.z.toNat (4 * t.grid.cols) else .ok ([], uy)) = .ok (zs, uz) →
        ∀ r, r = convRows t.grid f (if f.factor then some (decodeCode 0 (zs.headD 0 % 2 ^ 32)) else none) t.own.seedV 0 rows →
          t.vwrite t.grid w uz w.x.toNat (t.grid.pitch f dst.toNat / 8) r.1 = .ok (l, v) →
          exec (.vcvt src dst w) s = .next (t.repDone
            (((t.storeAll l).updCore t.core fun y => { y with seedV := r.2.1 }).putAmax f r.2.2) .ve w u v
            (t.grid.clks (max (fmtWidth src.toNat) (fmtWidth dst.toNat)))))

/-! ### The copy engine -/

/-- R132, R242, R243, R374: the units of a chain entry, one row each: CCOPY copies its row, CFILL repeats its pattern of eight
bytes, CGATH and CSCAT take one side from the index list (a row that a CGATH has read once stands for its later uses), and
the entry is done with its last unit; nothing else changes, but for what a read or a write of a vault row leaves at the
vault (R342, R366). Accesses that stand where nothing holds them meet nothing on their way, and a unit reads its source as it stands
at one of the moments of its reads and writes those bytes at its destination. A unit is performed at one moment, and
then its writes are stores, or its reads have several, and then each row that it writes outside the own scratchpad, tiles and registers
is an access of its own on its way there, at the address of its bytes (R63, R64); which of the two is the model's choice, log entry
12; the reuse of a row read once is log entry 33. -/
def Obligations.ChainUnitsMoveRows : Prop :=
  (∀ (s r t : State) (u : Cursor) (e : CEntry) (ix : Nat) (bs : List Byte) (l : List (Nat × Nat)),
    let n := Chain.len e
    let rows := Chain.rows e
    let all := Chain.rows e * Chain.planes e
    let v : Cursor := { u with heldAt := [] }
    let src := (e.addr0 + BitVec.ofNat 64 (n * u.unit)).toNat
    let dst := (e.addr1 + BitVec.ofNat 64 (n * u.unit)).toNat
    (s.AtUnit u all →
      (s.ceMove (Chain.src e u.unit) (Chain.dst e u.unit) n = .ok (t, bs) →
        exec (.ccopy e) s = .next (t.unitDone v u.unit all ((n + 63) / 64))) ∧
      (s.ceSpot (Chain.dst e u.unit) n = .ok (t, l) →
        exec (.cfill e) s = .next ((t.engWrites (Chain.dst e u.unit) l
          ((List.range n).map fun b => e.addr0.extractLsb' (8 * (b % 8)) 8)).unitDone v u.unit all ((n + 63) / 64)))) ∧
    (s.AtUnit u rows →
      (s.ceIndex e u.unit { va := dst, n := n, write := true } = .ok (r, ix) →
        (∀ p, u.seen.find? (fun (p : Nat × List Byte) => p.1 == ix) = some p → r.ceSpot dst n = .ok (t, l) →
          exec (.cgath e) s = .next ((t.engWrites dst l p.2).unitDone v u.unit rows ((n + 63) / 64))) ∧
        (u.seen.find? (fun (p : Nat × List Byte) => p.1 == ix) = none →
          r.ceMove (e.addr0 + BitVec.ofNat 64 (Chain.pitch e * ix)).toNat dst n = .ok (t, bs) →
          exec (.cgath e) s = .next (t.unitDone { v with seen := (ix, bs) :: u.seen } u.unit rows ((n + 63) / 64)))) ∧
      (s.ceIndex e u.unit { va := src, n := n, write := false } = .ok (r, ix) →
        r.ceMove src (e.addr1 + BitVec.ofNat 64 (Chain.pitch e * ix)).toNat n = .ok (t, bs) →
        exec (.cscat e) s = .next (t.unitDone v u.unit rows ((n + 63) / 64))))) ∧
  (∀ (s : State) (va : Nat) (l : List (Nat × Nat)) (k : Nat) (bs : List Byte),
    (s.view = [] → s.engWrites va l bs = s.storeChunks l bs) ∧
    (s.view ≠ [] → (further s.core k = false → s.engWrite va k bs = s.store k bs) ∧
      (further s.core k = true → bs ≠ [] → k % 64 + bs.length ≤ 64 → (s.engWrite va k bs).mem = s.mem ∧
        ∃ f, (s.coreAt s.core).flights ++ [f] = ((s.engWrite va k bs).coreAt s.core).flights ∧ f.e.i = rowForm ∧ f.e.data = bs ∧
          f.e.ea = BitVec.ofNat 64 va ∧ f.ra = [(k, bs.length)] ∧ f.place = placeOf s.core k ∧ f.slot = s.slot.val ∧
          f.done = false ∧ f.tag = none))) ∧
  ∀ (s : State) (e : CEntry) (src dst n i : Nat) (w : Bool) (l m : List (Nat × Nat)),
    (∀ h, (s.stack h).asleep = [] ∧ (s.stack h).holds = []) → s.dmaStopped s.core .host = false → s.own.flights = [] → s.poison = [] →
    s.flaws = [] → s.reels = [] → s.tableCells s.core src n = [] → s.tableCells s.core dst n = [] →
    s.reach s.core dst n w true = .at m →
    let beside (t : State) : Prop := t.mem = s.mem ∧ t.cores = s.cores ∧ t.view = s.view
    (w = true → ∃ t, beside t ∧ s.ceSpot dst n = .ok (t, m)) ∧
    (w = true → s.reach s.core src n false true = .at l →
      ∃ t, beside t ∧ s.ceMove src dst n = .ok (t.engWrites dst m (s.seen l), s.seen l)) ∧
    ((Chain.addr2 e + BitVec.ofNat 64 (4 * i)).toNat = src → n = 4 → s.reach s.core src 4 false true = .at l →
      ∃ t, beside t ∧ s.ceIndex e i { va := dst, n := n, write := w } = .ok (t, leNat (s.seen l)))

/-- R52, R53, R243, R244, R308: CATOM and CPOST update one aligned location and no other byte: CATOM by its operation on elements
of its width, CPOST by an addition modulo 2^32. On the own scratchpad the unit is performed as it issues; toward a bank or a
vault it issues as a TAGGED in-flight entry with the strand's next tag, the chain waits, its place performs the update in one
step and records the tag, and the chain then goes on with its next unit. That a unit on the own scratchpad has one moment is
the model's choice, log entry 12. -/
def Obligations.ChainAtomicsUpdateOneLocation : Prop :=
  ∀ (s r : State) (u : Cursor) (e : CEntry) (l : List (Nat × Nat)) (p : Place) (a : Struck) (c m : Nat) (f : Flight) (g : Tag),
    let n := if (Chain.addr2 e).getLsbD 4 then 8 else 4
    let op (old : Nat) := opOf ((Chain.addr2 e).toNat % 16) (8 * n) old e.addr1.toNat
    let post (old : Nat) := (old + e.addr1.toNat) % 2 ^ 32
    let v : Cursor := { u with heldAt := [] }
    (∀ x ∈ [(Instr.catom e, n, Chain.len e / n, op), (.cpost e, 4, 1, post)],
      (x.1 = .catom e → e.addr0.toNat % n = 0 ∧ Chain.len e % n = 0 ∧ (n = 8 ∨ e.addr1.toNat < 2 ^ 32)) →
      s.AtUnit u x.2.2.1 →
      (u.atom = none → s.ceAim (e.addr0 + BitVec.ofNat 64 (x.2.1 * u.unit)).toNat x.2.1 true Place.adds = .ok (l, p) →
        (p = .scratch → s.ceArrive l false = .ok r → s.poisonedChunks l = false →
          exec x.1 s = .next ((r.storeChunks l (leBytes x.2.1 (x.2.2.2 (leNat (s.readChunks l))))).unitDone v u.unit x.2.2.1 1)) ∧
        (p ≠ .scratch → s.slot.val ≠ 8 → s.own.crowded = false → s.self.tag.room = true →
          ∃ t h, exec x.1 s = .next t ∧ t.mem = s.mem ∧ t.own.flights = s.own.flights ++ [h] ∧ h.e.i = x.1 ∧ h.cls = .tagged ∧
            h.tag = some { ctx := s.self.tag.ctx, seq := s.self.tag.next } ∧ h.ra = l ∧ h.place = p ∧ h.done = false ∧
            t.self = { s.self with
              tag := { s.self.tag with next := s.self.tag.next + 1 }
              curCe := some { v with atom := some { tag := h.tag, ra := l, hit := false, replay := none } } })) ∧
      (u.atom = some a → (a.hit = true → exec x.1 s = .next (s.unitDone { v with atom := none } u.unit x.2.2.1 1)) ∧
        (a.hit = false → s.own.striking s.slot.val = true → exec x.1 s = .next (s.putCursor .ce v)))) ∧
    ((s.coreAt c).flights.find? (fun f => f.n == m) = some f → f.done = false → f.reads = [] → f.out = none → s.stays c f = false →
      (∃ b, f.place = .bank b ∨ f.place = .vault b) → s.holdsAny true f.ra = false → s.sleeping f.ra = false → s.flaws = [] →
      f.tag = some g → s.tagFound f.place g = none → s.tagRoom c f.place = true → s.inReel f.ra = false →
      s.poisonedChunks f.ra = false → ∀ x ∈ [(Instr.catom e, n, op), (.cpost e, 4, post)], f.e.i = x.1 →
        ∃ t, exec (.accessPerform c m) s = .next t ∧
          t.mem = (s.storeChunks f.ra (leBytes x.2.1 (x.2.2 (leNat (s.readChunks f.ra))))).mem ∧
          (t.coreAt c).flights = ((s.coreAt c).answer m (.value (BitVec.ofNat 64 (leNat (s.readChunks f.ra))))).flights ∧
          t.tags = s.tags ++ [{ place := f.place, tag := g, ans := .value (BitVec.ofNat 64 (leNat (s.readChunks f.ra))),
                                released := false, part := s.asid c }] ∧
          ∀ w b, (s.strandAt c (slotIx f.slot)).curCe = some w → w.atom = some b → b.tag = f.tag →
            (t.strandAt c (slotIx f.slot)).curCe = some { w with atom := some { b with hit := true } })

/-- R133, R242, R244, R293: CWAIT is done once its counter, 4-byte aligned, has reached its target, modulo 2^32; else the CE leaves the
chain at its queue head and serves the next strand, and reads the counter again when the chain's turn returns. CLINK, CEND and
CNOP are done at once; once the rows of the chain have been performed, the entry that follows is the next 32 bytes, or the target
of CLINK, and CEND ends the chain. The entry of a TRANSFER runs as that of a chain does, in slot 8 of its core, and its CEND
completes its launch. That a TRANSFER runs in slot 8 is the model's form, log entry 20. -/
def Obligations.ChainsGoOnAndEnd : Prop :=
  (∀ (s r : State) (u : Cursor) (e : CEntry) (n : Nat), s.self.curCe = some u → u.held = .no →
    (u.phase ≠ .done → (∃ x, s.ceAim e.addr0.toNat 4 false (fun _ => true) = .ok x) →
      s.ceRead e.addr0.toNat 4 true = .ok (r, leBytes 4 n) → n < 2 ^ 32 →
      ((n + 2 ^ 32 - e.addr1.toNat % 2 ^ 32) % 2 ^ 32 < 2 ^ 31 →
        exec (.cwait e) s = .next (r.upd fun x => { x with curCe := some { u with phase := .done, heldAt := [] } })) ∧
      (2 ^ 31 ≤ (n + 2 ^ 32 - e.addr1.toNat % 2 ^ 32) % 2 ^ 32 → s.slot.val ≠ 8 →
        ∃ t, exec (.cwait e) s = .next t ∧ t.self.curCe = some { u with phase := .run, heldAt := [] } ∧
          (t.own.eng .ce).serving = none ∧ t.mem = r.mem ∧ t.self.q = s.self.q)) ∧
    (∀ (c : Nat) (k : Nat), k < 8 → (s.own.eng .ce).serving = none → s.core = c → s.slot = slotIx k →
      s.own.pickSlot .ce = some k → u.atCwait = true → e = CEntry.unpack u.word → n < 2 ^ 32 →
      (∃ x, (s.updCore c fun y => y.serve .ce (some k) k).ceAim e.addr0.toNat 4 false (fun _ => true) = .ok x) →
      (s.updCore c fun y => y.serve .ce (some k) k).ceRead e.addr0.toNat 4 true = .ok (r, leBytes 4 n) →
      (n + 2 ^ 32 - e.addr1.toNat % 2 ^ 32) % 2 ^ 32 < 2 ^ 31 →
      ∃ t, exec (.cwaitRetest c) s = .next t ∧ t.self.curCe = some { u with phase := .done, heldAt := [] } ∧
        (t.own.eng .ce).serving = some k ∧ t.mem = r.mem) ∧
    (u.phase = .run → ∀ i ∈ [Instr.clink e, Instr.cend e, Instr.cnop e],
      exec i s = .next (s.upd fun x => { x with curCe := some { u with phase := .done } })) ∧
    (u.phase = .fetch → ∀ i ∈ [Instr.clink e, Instr.cend e, Instr.cnop e],
      exec i s = .next (s.upd fun x => { x with curCe := some { u with phase := .done, unit := 0, seen := [] } })) ∧
    (∀ k, k < 8 → s.slot = slotIx k → (s.own.eng .ce).serving = some k → u.phase = .done → s.own.rowsOut k = false →
      u.word.getLsbD 8 = false → u.word.getLsbD 9 = false →
      ∃ t, exec (.engineWordComplete s.core .ce) s = .next t ∧ t.mem = s.mem ∧
        (u.word.setWidth 8 = (9 : BitVec 8) → t.self.curCe = none ∧ t.self.q = { s.self.q with ce := s.self.q.ce.tail } ∧
          (t.own.eng .ce).serving = none) ∧
        (u.word.setWidth 8 ≠ (9 : BitVec 8) → ∃ v, t.self.curCe = some v ∧ v.phase = .fetch ∧ t.self.q = s.self.q ∧
          v.addr = (if u.word.setWidth 8 = (8 : BitVec 8) then u.word.extractLsb' 64 64 else u.addr + 32)))) ∧
  ∀ (s t : State) (c : Nat) (u : Cursor) (e : CEntry), t = { s with core := c, slot := 8 } → t.self.st = .ready →
    t.self.curCe = some u → u.held = .no →
    (u.phase = .run → ∀ i ∈ [Instr.ccopy e, Instr.cgath e, Instr.cscat e, Instr.cfill e, Instr.cwait e, Instr.cpost e, Instr.catom e],
      decodeChain u.word = .ok i → exec (.transferRun c) s = exec i t) ∧
    (u.phase = .run → decodeChain u.word = .ok (.cend e) →
      ∃ r, exec (.transferRun c) s = .next r ∧ r.self.curCe = some { u with phase := .done } ∧ r.mem = s.mem) ∧
    (u.phase = .done → u.word.setWidth 8 = (9 : BitVec 8) → u.word.getLsbD 9 = false → (s.coreAt c).mbox.capture = none →
      ∃ r, exec (.transferRun c) s = .next r ∧ (r.strandAt c 8).st = .dormant ∧ (r.coreAt c).mbox.status = 4 ∧
        (r.coreAt c).mbox.go = false ∧ r.mem = s.mem)

/-! ### The queues' traffic -/

/-- R63, R68, R69, R72, R80, R161-R165, R175, R179, R182-R184, R308, R311, R313: a queue head whose order is met leaves its queue:
a store to the own scratchpad with its bytes written, a load from an own place, the tiles among them, with its value given to its
in-flight entry, an access to a further place with an in-flight entry of its class (a write of the partner window CORE_LOCAL, any
other TAGGED with the next tag), a REQ and a SEND, whose payload is read, toward the port of their target; TREL enters its record
in the wheel; RELTAG issues once no TAGGED entry below its watermark is open; TKPOST counts up; a flag is set or cleared (a clear
in the clk of a set of the flag goes before it); a marker passes. An access outside the partition, and a REQ to a strand outside
it, freezes the strand. That the address of that event is the block's is a reading, log entry 27. -/
def Obligations.QueueHeadsIssue : Prop :=
  ∀ (s : State) (c k : Nat) (e : QEntry) (rest : List QEntry) (l : List (Nat × Nat)) (p : Place) (w : Width) (m : TKind)
    (dst : BitVec 6) (b : AReg) (src : StSrc) (off : BitVec 20) (n : BitVec 8) (q : BitVec 5) (o : SrcV),
    let x := s.strandAt c (slotIx k)
    (s.AtHead c k false e rest → e.i = .ld w m dst b off → (s.coreAt c).crowded = false →
      (s.aim c e = .go l p → (p = .scratch ∨ p = .tile) → s.poisonedChunks l = false →
        ∃ t f, exec (.queueEntryIssue c k false) s = .next t ∧ t.mem = s.mem ∧ t.strandAt c (slotIx k) = x.without false rest ∧
          (t.coreAt c).flights.getLast? = some f ∧ f.e = e ∧ f.done = true ∧ f.written = false ∧
          f.ans = .value (BitVec.ofNat 64 (leNat (s.readChunks l)))) ∧
      (s.aim c e = .go l p → p ≠ .scratch → p ≠ .tile →
        ∃ t f, exec (.queueEntryIssue c k false) s = .next t ∧ s.Sent t c k false rest f ∧ f.e = e ∧ f.place = p ∧ f.ra = l ∧
          f.cls = .pure)) ∧
    (s.AtHead c k true e rest →
      (e.i = .st w m b src →
        (s.aim c e = .go l .scratch →
          ∃ t, exec (.queueEntryIssue c k true) s = .next t ∧ t.mem = (s.storeChunks l (leBytes w.bytes e.v.toNat)).mem ∧
            t.strandAt c (slotIx k) = x.without true rest ∧ (t.coreAt c).flights = (s.coreAt c).flights) ∧
        (s.aim c e = .go l p → p ≠ .scratch → p ≠ .tile → s.hasRoom c k = true →
          ∃ t f, exec (.queueEntryIssue c k true) s = .next t ∧ s.Sent t c k true rest f ∧ f.e = e ∧ f.place = p ∧ f.ra = l ∧
            f.cls = if p = .partner then .coreLocal else .tagged) ∧
        (s.aim c e = .violation → exec (.queueEntryIssue c k true) s = .next (s.violate c (slotIx k) e.ea.toNat 5))) ∧
      (∀ r ∈ [(Instr.reqMe b o, 64), (.reqVe b o, 64), (.reqCe b o, 32)], e.i = r.1 → rangeOf c e.ea.toNat = .scratch →
        e.ea.toNat % r.2 = 0 →
        (s.outside c e.v = false → s.hasRoom c k = true →
          ∃ t f, exec (.queueEntryIssue c k true) s = .next t ∧ s.Sent t c k true rest f ∧ f.e = e ∧
            f.place = .port (e.v.toNat % 2 ^ 14 / 8) ∧ f.cls = .tagged) ∧
        (s.outside c e.v = true → exec (.queueEntryIssue c k true) s = .next (s.violate c (slotIx k) e.ea.toNat 5))) ∧
      (∀ z g h, e.i = .send b z g h → s.outside c e.v = false → s.hasRoom c k = true →
        (if e.c.toNat % 65536 = 0 then l = [] else s.reach c e.ea.toNat (e.c.toNat % 65536) false false = .at l) →
        (s.coreAt c).pathBusy c l = false → s.heldUp c l = false → s.poisonedChunks l = false →
        ∃ t f, exec (.queueEntryIssue c k true) s = .next t ∧ s.Sent t c k true rest f ∧ f.e = { e with data := s.readChunks l } ∧
          f.place = .port (e.v.toNat % 2 ^ 14 / 8) ∧ f.cls = .tagged) ∧
      (∀ d bs, e.i = .trel b d → (s.coreAt c).wheel.length < 256 → (s.coreAt c).wheelBehind (slotIx k) = false →
        (∀ f ∈ (s.coreAt c).flights, f.slot = k → f.st = true → f.done = true) → e.ea.toNat % 32 = 0 →
        s.peek c e.ea.toNat 32 = .bytes bs → Rec.ok (BitVec.ofNat 256 (leNat bs)) = true →
        ∃ t, exec (.queueEntryIssue c k true) s = .next t ∧ t.mem = s.mem ∧ t.strandAt c (slotIx k) = x.without true rest ∧
          (t.coreAt c).wheel = (s.coreAt c).wheel ++
            [{ record := BitVec.ofNat 256 (leNat bs), time := e.v, late := false, prio := x.prio, owner := x.owner }]) ∧
      (∀ r v, e.i = .reltag r → (s.coreAt c).crowded = false →
        v = (if (x.tag.next - x.tag.wmark).toNat < (e.v.setWidth 28 - x.tag.wmark).toNat then x.tag.next else e.v.setWidth 28) →
        (∀ g ∈ (s.coreAt c).openTags (slotIx k), (v - x.tag.wmark).toNat ≤ (g.seq - x.tag.wmark).toNat) →
        ∃ t f, exec (.queueEntryIssue c k true) s = .next t ∧ s.Sent t c k true rest f ∧ f.e = { e with v := v.setWidth 64 } ∧
          f.cls = .pure) ∧
      (∀ g i, e.i = .tkpost g → i = tokenIx 0 (engIx g) → (s.coreAt c).priorDone (slotIx k) e.po = true → x.badToken [i] = false →
        x.token i ≠ 255 → ∃ t, exec (.queueEntryIssue c k true) s = .next t ∧ t.mem = s.mem ∧
          (t.strandAt c (slotIx k)).q = { x.q with st := rest } ∧
          ∀ j, j < 12 → (t.strandAt c (slotIx k)).token j = x.token j + if j = i then 1 else 0) ∧
      (e.i = .sigf n → (s.coreAt c).priorDone (slotIx k) e.po = true → (s.coreAt c).flagWaiter n = none →
        ∃ t, exec (.queueEntryIssue c k true) s = .next t ∧ t.mem = s.mem ∧
          ∀ j, j < 256 → (t.coreAt c).flags.getLsbD j = ((s.coreAt c).flags.getLsbD j || decide (j = n.toNat))) ∧
      (e.i = .clrf n → (s.coreAt c).setIn s.clk n = none → ∃ t, exec (.queueEntryIssue c k true) s = .next t ∧ t.mem = s.mem ∧
          ∀ j, j < 256 → (t.coreAt c).flags.getLsbD j = ((s.coreAt c).flags.getLsbD j && decide (j ≠ n.toNat))) ∧
      (e.i = .mark q → (s.coreAt c).markerClear (slotIx k) e.v.toNat q = true →
        ∃ t, exec (.queueEntryIssue c k true) s = .next t ∧ t.mem = s.mem ∧ t.strandAt c (slotIx k) = x.without true rest))

/-- R63, R162, R165, R308, R312: an access to the Ballroom whose earlier accesses to the bank have been performed is performed:
a load reads its bytes, a store writes them and its tag is recorded with its acknowledgement. One that is not naturally aligned is a
set of byte events (R64): more moments of it may come before, in which a load takes in what its bytes may be and a store writes one of
its bytes, its tag recorded with the first; each byte that a load reads stands as at one of its moments. Which moments come is the
model's choice, log entry 12. A row that an engine has written is stored. The value of a performed load
or atomic is then written to its register, at its width and with its sign; an entry of which nothing more will come retires. -/
def Obligations.AccessesArePerformedAndReturn : Prop :=
  ∀ (s : State) (c n a m b : Nat) (f : Flight) (g : Tag) (w : Width) (t0 : TKind) (dst : BitVec 6) (base : AReg) (off : BitVec 20)
    (src : StSrc) (v : DWord) (zx : Bool) (o : SrcV) (oa : SrcA) (r : AReg),
    (s.coreAt c).flights.find? (fun f => f.n == n) = some f →
    (s.stays c f = false → f.place = .bank b → f.ra = [(a, m)] → hostBase ≤ a → s.flaws = [] → f.out = none →
      (f.e.i = .ld w t0 dst base off → f.tag = none →
        (s.poisoned a m = false → ∃ t, exec (.accessPerform c n) s = .next t ∧ t.mem = s.mem ∧
          t.coreAt c = (s.coreAt c).answer n (.value (BitVec.ofNat 64 (leNat ((List.range m).map fun i =>
            (s.moment f.reads (a + i)).byte (a + i))))) ∧
          (f.reads = [] → t.coreAt c = (s.coreAt c).answer n (.value (BitVec.ofNat 64 (leNat (s.read a m)))))) ∧
        (f.e.ea.toNat % w.bytes ≠ 0 → (s.partOfAccess c n false).mem = s.mem ∧
          ((s.partOfAccess c n false).coreAt c).flights.find? (fun f => f.n == n) =
            some { f with reads := f.reads ++ [(s.steps, s.mem)] })) ∧
      (f.e.i = .st w t0 base src → f.tag = some g → s.tagFound (.bank b) g = none → s.tagRoom c (.bank b) = true →
        s.inReel [(a, m)] = false →
        (∃ t, exec (.accessPerform c n) s = .next t ∧ t.mem = (s.storeChunks [(a, m)] (leBytes w.bytes f.e.v.toNat)).mem ∧
          t.coreAt c = (s.coreAt c).answer n .go ∧
          t.tags = s.tags ++ [{ place := .bank b, tag := g, ans := .go, released := false, part := s.asid c }]) ∧
        (f.e.ea.toNat % w.bytes ≠ 0 → m = w.bytes → ∃ i l, i < m ∧
          (s.partOfAccess c n true).mem = (s.store (a + i) [(leBytes w.bytes f.e.v.toNat).getD i 0]).mem ∧
          (s.partOfAccess c n true).tags = s.tags ++ [{ place := .bank b, tag := g, ans := .none, released := false, part := s.asid c }] ∧
          ((s.partOfAccess c n true).coreAt c).flights.find? (fun f => f.n == n) = some { f with out := some l } ∧ l.length + 1 = m)) ∧
      (f.e.i = rowForm → f.tag = none → s.inReel [(a, m)] = false →
        ∃ t, exec (.accessPerform c n) s = .next t ∧ t.mem = (s.storeChunks [(a, m)] f.e.data).mem ∧
          t.coreAt c = (s.coreAt c).answer n .go)) ∧
    (f.done = true → f.written = false → f.ans = .value v → s.stopped c (slotIx f.slot) = false →
      (∀ p ∈ [(Instr.ld .w8 .ts dst base off, (v.setWidth 8).signExtend 32), (Instr.ld .w8 .tz dst base off, (v.setWidth 8).setWidth 32),
              (Instr.ld .w16 .ts dst base off, (v.setWidth 16).signExtend 32),
              (Instr.ld .w16 .tz dst base off, (v.setWidth 16).setWidth 32), (Instr.ld .w32 .ts dst base off, v.setWidth 32),
              (Instr.ld .w32 .tz dst base off, v.setWidth 32), (Instr.ldWcell dst base off, v.setWidth 32),
              (Instr.atomAdd (.s zx dst o) base, v.setWidth 32), (Instr.atomXchg (.s zx dst o) base, v.setWidth 32)],
        f.e.i = p.1 → ∃ t, exec (.loadValueReturn c n) s = .next t ∧ t.mem = s.mem ∧
          t.strandAt c (slotIx f.slot) = (s.strandAt c (slotIx f.slot)).setD dst (Dom.single p.2)) ∧
      (∀ p ∈ [(Instr.ld .w64 .ta (r.setWidth 6) base off, v), (Instr.ld .w32 .ta (r.setWidth 6) base off, (v.setWidth 32).setWidth 64),
              (Instr.atomAdd (.a r oa) base, v)],
        f.e.i = p.1 → ∃ t, exec (.loadValueReturn c n) s = .next t ∧ t.mem = s.mem ∧
          t.strandAt c (slotIx f.slot) = (s.strandAt c (slotIx f.slot)).setA r p.2)) ∧
    (f.ended = true → s.stopped c (slotIx f.slot) = false →
      ∃ t, exec (.inFlightRetire c n) s = .next t ∧ t.mem = s.mem ∧
        (t.coreAt c).flights = (s.coreAt c).flights.filter fun h => h.n != n)

/-- R30, R31, R52, R54, R56, R57, R64, R165, R166, R312: what a bank makes of an access that writes, in one step, its tag recorded
with the result: an atomic gives back the old value of its location and stores its operation of it; a row update acts on each
element of its row, and FADDX on the cell; a push, pop and steal move an end of their deque and write or give an entry, and
report a full or an empty one; a join, an arrival and a leave of a reel change its counts, and the last arrival completes the
phase: it releases the arrivals and then the joins that waited. That what reel operations have left live is a reel cell, and
nothing else, is the model's choice, log entry 60. -/
def Obligations.BanksPerformTheirOperations : Prop :=
  ∀ (s : State) (c n a m : Nat) (f : Flight) (g : Tag) (fm : AForm) (cas : CasForm) (x0 x1 : AReg) (row : SrcA) (v : SrcV) (d : DReg)
    (wide : Bool), s.AtBank c n f a m g →
    let old := s.readNat a m
    let done (t : State) (ans : Answer) : Prop := exec (.accessPerform c n) s = .next t ∧
      (t.coreAt c).flights = ((s.coreAt c).answer n ans).flights
    let full (t : State) (ans : Answer) : Prop := done t ans ∧
      t.tags = s.tags ++ [{ place := f.place, tag := g, ans := ans, released := false, part := s.asid c }]
    let ops : List (AOp × ((w : Nat) → BitVec w → BitVec w → BitVec w)) :=
      [(.add, fun _ x y => x + y), (.min, fun _ x y => if y.toInt < x.toInt then y else x),
       (.max, fun _ x y => if x.toInt < y.toInt then y else x), (.and, fun _ x y => x &&& y), (.or, fun _ x y => x ||| y),
       (.xor, fun _ x y => x ^^^ y)]
    (s.inReel [(a, m)] = false →
      (∀ o ∈ ops, ∀ i, ((i = Instr.atomAdd fm x0 ∧ o.1 = .add) ∨ (i = .atomMin fm x0 ∧ o.1 = .min) ∨ (i = .atomMax fm x0 ∧ o.1 = .max) ∨
          (i = .atomAnd fm x0 ∧ o.1 = .and) ∨ (i = .atomOr fm x0 ∧ o.1 = .or) ∨ (i = .atomXor fm x0 ∧ o.1 = .xor)) →
        f.e.i = i → i.atomBytes = some m →
        ∃ t, full t (.value (BitVec.ofNat 64 old)) ∧
          t.mem = (s.writeNat a m (o.2 (8 * m) (BitVec.ofNat _ old) (BitVec.ofNat _ f.e.v.toNat)).toNat).mem) ∧
      (f.e.i = .atomXchg fm x0 → f.e.i.atomBytes = some m →
        ∃ t, full t (.value (BitVec.ofNat 64 old)) ∧ t.mem = (s.writeNat a m f.e.v.toNat).mem) ∧
      (f.e.i = .atomCas cas x0 → f.e.i.atomBytes = some m →
        ∃ t, full t (.value (BitVec.ofNat 64 old)) ∧
          t.mem = (s.writeNat a m (if old = f.e.c.toNat % 2 ^ (8 * m) then f.e.v.toNat else old)).mem) ∧
      (∀ o ∈ ops, f.e.i = .rowUpdate o.1 wide x0 row → m = 64 → ∃ t, full t .go ∧
        (∀ j, j < 64 / (if wide then 8 else 4) → t.readNat (a + (if wide then 8 else 4) * j) (if wide then 8 else 4) =
          (o.2 (8 * if wide then 8 else 4) (BitVec.ofNat _ (s.readNat (a + (if wide then 8 else 4) * j) (if wide then 8 else 4)))
            (BitVec.ofNat _ (leNat ((f.e.data.drop ((if wide then 8 else 4) * j)).take (if wide then 8 else 4))))).toNat) ∧
        ∀ k, k < a ∨ a + 64 ≤ k → t.mem.byte k = s.mem.byte k) ∧
      (f.e.i = .atomFaddx x0 v → m = 64 →
        ∃ t, full t .go ∧ t.mem = (s.writeNat a 64 (faddX old (f.e.v.setWidth 32))).mem) ∧
      (∀ cap bot top, m = 16 → old = cap * 2 ^ 64 + bot * 2 ^ 32 + top → 0 < cap → cap ≤ 4095 → bot < 2 ^ 32 → top < 2 ^ 32 →
        (a - ballBase) % 65536 + 16 + 8 * cap ≤ 65536 → (bot + 2 ^ 32 - top) % 2 ^ 32 ≤ cap →
        let len := (bot + 2 ^ 32 - top) % 2 ^ 32
        let entry (i : Nat) := a + 16 + 8 * (i % cap)
        let head (b t : Nat) := cap * 2 ^ 64 + b % 2 ^ 32 * 2 ^ 32 + t % 2 ^ 32
        (f.e.i = .dqPush d x0 x1 → (len = cap → ∃ t, full t (.deque 1 0) ∧ t.mem = s.mem) ∧
          (len < cap → ∃ t, full t (.deque 0 0) ∧
            t.mem = ((s.writeNat (entry bot) 8 f.e.v.toNat).writeNat a 16 (head (bot + 1) top)).mem)) ∧
        (f.e.i = .dqPop d x0 x1 → (len = 0 → ∃ t, full t (.deque 2 0) ∧ t.mem = s.mem) ∧
          (0 < len → ∃ t, full t (.deque 0 (BitVec.ofNat 64 (s.readNat (entry ((bot + 2 ^ 32 - 1) % 2 ^ 32)) 8))) ∧
            t.mem = (s.writeNat a 16 (head (bot + 2 ^ 32 - 1) top)).mem)) ∧
        (f.e.i = .dqSteal d x0 x1 → (len = 0 → ∃ t, full t (.deque 2 0) ∧ t.mem = s.mem) ∧
          (0 < len → ∃ t, full t (.deque 0 (BitVec.ofNat 64 (s.readNat (entry top) 8))) ∧
            t.mem = (s.writeNat a 16 (head bot (top + 1))).mem)))) ∧
    ∀ phase mem arr pend, m = 16 → phase < 2 ^ 32 → mem < 2 ^ 16 → arr < 2 ^ 16 → pend < 2 ^ 16 →
      let cell (p m a j : Nat) := p * 2 ^ 96 + m * 2 ^ 80 + a * 2 ^ 64 + j * 2 ^ 48
      old = cell phase mem arr pend →
      let put (t : State) (p m x j : Nat) : Prop := t.mem = (s.writeNat a 16 (cell p m x j)).mem ∧
        t.reels.contains a = decide (m ≠ 0 ∨ j ≠ 0)
      let mine (j : Bool) : ReelWait := { cell := a, join := j, tag := g, core := c, n := n }
      (f.e.i = .reelj x0 → mem + pend < 65535 →
        (mem = 0 → pend = 0 → ∃ t, done t .go ∧ put t 0 1 0 0) ∧
        (mem + pend ≠ 0 → arr = 0 → ∃ t, done t .go ∧ put t phase (mem + 1) 0 pend) ∧
        (mem + pend ≠ 0 → 0 < arr → ∃ t, done t .wait ∧ put t phase mem arr (pend + 1) ∧ t.reelWaits = s.reelWaits ++ [mine true])) ∧
      (f.e.i = .reels x0 → 0 < mem →
        (arr + 1 < mem → ∃ t, done t .wait ∧ put t phase mem (arr + 1) pend ∧ t.reelWaits = s.reelWaits ++ [mine false]) ∧
        (arr + 1 = mem → mem + pend < 2 ^ 16 → ∃ t, done t .wait ∧ put t ((phase + 1) % 2 ^ 32) (mem + pend) 0 0 ∧
          t.releases = s.releases ++ ((s.reelWaits ++ [mine false]).filter fun w => w.cell == a && !w.join) ++
            (s.reelWaits.filter fun w => w.cell == a && w.join) ∧
          t.reelWaits = s.reelWaits.filter fun w => w.cell != a)) ∧
      (f.e.i = .reell x0 → 0 < mem →
        (mem = 1 → ∃ t, done t .go ∧ put t 0 0 0 0) ∧
        (1 < mem → arr ≠ mem - 1 → ∃ t, done t .go ∧ put t phase (mem - 1) arr pend) ∧
        (1 < mem → arr = mem - 1 → mem - 1 + pend < 2 ^ 16 →
          ∃ t, done t .go ∧ put t ((phase + 1) % 2 ^ 32) (mem - 1 + pend) 0 0))

/-- R54, R64, R79, R216-R221: the unit of its stack takes a near-memory entry none of whose rows is poisoned, with a first moment of its
reads, and a PKA with its updates accepted; memory stays. An entry that the unit has taken, and whose table rows stand as they did at
its first moment, is then performed: NMV gives each row's exact sum of products, rounded once; PKS the first candidates
of each query, indices and scores, in rank order; PKG the exact sum of its weighted rows in the range held; the results are
written, or added into the exact cells; PKA adds each weighted gradient to its element of V, in the order of the queries and
candidates; then the flag is set. No other byte changes. Rank lists its entries by descending value, the lower index first among
equal ones. Which moments an entry has is the model's choice, log entry 12; that poison which appears after it was taken is not met is
log entry 84. -/
def Obligations.NearMemoryEntriesComputeTheirResults : Prop :=
  (∀ (s : State) (c n h : Nat) (f : Flight) (k : NmKind), s.NearUnit c n f h → nmKind f.e.i = some k → f.reads = [] → f.out = none →
    s.poisonedChunks f.reached = false →
    ∃ t, exec (.accessPerform c n) s = .next t ∧ t.mem = s.mem ∧
      (k ≠ .pka → t.tags = s.tags ∧
        (t.coreAt c).flights.find? (fun g => g.n == n) = some { f with reads := [(s.steps, s.mem)] }) ∧
      (k = .pka → (t.coreAt c).flights.find? (fun g => g.n == n) =
          some { f with out := some (runPka (leNat (f.e.data.take 64)) f.ra (f.e.data.drop 64)) } ∧
        ∀ g, f.tag = some g →
          t.tags = s.tags ++ [{ place := f.place, tag := g, ans := .none, released := false, part := s.asid c }])) ∧
  (∀ (s : State) (c n d h step : Nat) (f : Flight) (inp : List Byte) (ar : AReg), s.AtUnitOf c n f h step → d < 2 ^ 512 →
    f.e.data = leBytes 64 d ++ inp →
    let ones (l : List Byte) (n : Nat) : List Ext := (wordsOf l n).map ofF32
    let done (t : State) : Prop := exec (.accessPerform c n) s = .next t ∧
      (t.coreAt c).flights = ((s.coreAt c).answer n .go).flights ∧
      (Nm.setf d = true → (s.coreAt c).flagWaiter (Nm.fn d) = none → (t.coreAt c).flag (Nm.fn d) = true)
    let calm : Prop := (s.coreAt c).flagWaiter (Nm.fn d) = none ∨ Nm.setf d = false
    let put (t : State) (a count : Nat) (y : Nat → Word) : Prop :=
      let key (p : Nat) := (if a < 0x100000 then localKey c a else ballBase + (a - 0x100000000)) + (if Nm.om d then 64 else 4) * p
      (∀ p, p < count → if Nm.om d then t.readNat (key p) 64 = faddX (s.readNat (key p) 64) (y p)
        else t.readNat (key p) 4 = (y p).toNat) ∧
      (calm → ∀ k, k < key 0 ∨ key count ≤ k → t.mem.byte k = s.mem.byte k)
    let fits (a count : Nat) : Prop := (Nm.om d = false ∧ a + 4 * count ≤ 0x100000) ∨
      (0x100000000 ≤ a ∧ a + (if Nm.om d then 64 else 4) * count ≤ 0x180000000)
    let idx (q : Nat) := wordsOf (inp.drop (256 * q)) (Nm.kc d)
    let wt (q : Nat) := wordsOf (inp.drop (256 * Nm.n2 d + 4 * (q * Nm.kc d))) (Nm.kc d)
    let held (q : Nat) := ((idx q).zip (wt q)).filter fun e => decide (Nm.row0 d ≤ e.1.toNat) && decide (e.1.toNat < Nm.row0 d + Nm.n1 d)
    (f.e.i = .nmv ar → fits (Nm.addr d 2) (Nm.n1 d) → ∃ t, done t ∧ put t (Nm.addr d 2) (Nm.n1 d) fun r =>
      toF32 (Ext.sum (((s.nmRow [] f.ra d 0 r).zip (ones inp (Nm.wid d))).map fun p => p.1.mul p.2))) ∧
    (f.e.i = .pks ar → Nm.addr d 3 + 256 * Nm.n2 d ≤ 0x100000 → Nm.kc d ≤ 32 → ∃ t, done t ∧ ∀ q, q < Nm.n2 d →
      let score (half table i : Nat) := toF32 (Ext.sum (((ones (inp.drop (8 * Nm.wid d * q + 4 * Nm.wid d * half)) (Nm.wid d)).zip
        (s.nmRow [] f.ra d (Nm.tableBytes d * table) i)).map fun p => p.1.mul p.2))
      let best := candidates (Nm.n1 d) (Nm.kc d) ((List.range (Nm.n1 d)).map (score 0 0)) ((List.range (Nm.n1 d)).map (score 1 1))
      ∀ i e, best[i]? = some e → t.readNat (localKey c (Nm.addr d 3 + 256 * q + 4 * i)) 4 = e.1 % 2 ^ 32 ∧
        t.readNat (localKey c (Nm.addr d 3 + 256 * q + 128 + 4 * i)) 4 = e.2.toNat) ∧
    (f.e.i = .pkg ar → 0 < Nm.wid d → fits (Nm.addr d 3) (Nm.n2 d * Nm.wid d) →
      ∃ t, done t ∧ put t (Nm.addr d 3) (Nm.n2 d * Nm.wid d) fun p =>
        toF32 (Ext.sum ((held (p / Nm.wid d)).map fun e =>
          (ofF32 e.2).mul ((s.nmRow [] f.ra d 0 (e.1.toNat - Nm.row0 d)).getD (p % Nm.wid d) Ext.zero)))) ∧
    (∀ key size, f.e.i = .pka ar → calm → f.ra = [(key, size)] → 4 * Nm.wid d ≤ Nm.pitch d →
      Nm.pitch d * (Nm.n1 d - 1) + 4 * Nm.wid d ≤ size → ∃ t, done t ∧ ∀ r j, r < Nm.n1 d → j < Nm.wid d →
        t.readNat (key + Nm.pitch d * r + 4 * j) 4 =
          (((List.range (Nm.n2 d)).flatMap fun q => ((held q).filter fun e => e.1.toNat - Nm.row0 d == r).map fun e =>
              (e.2, (wordsOf (inp.drop (256 * Nm.n2 d + 4 * Nm.n2 d * Nm.kc d + 4 * (q * Nm.wid d))) (Nm.wid d)).getD j 0)).foldl
            (fun v x => toF32 (Ext.sum [ofF32 v, (ofF32 x.1).mul (ofF32 x.2)]))
            (BitVec.ofNat 32 (s.readNat (key + Nm.pitch d * r + 4 * j) 4))).toNat)) ∧
  ∀ (l : List Word) (k : Nat), let r := rankFirst k (l.zipIdx.map fun e => (e.2, e.1))
    r.length = min k l.length ∧ r.Pairwise fun a b => rankAbove a.2 b.2 = true ∨ (rankAbove b.2 a.2 = false ∧ a.1 < b.1)

/-- R32-R34, R37, R312, R353: a REQ whose target queue has room is accepted while its target's port has room for its tag, and is
refused before that: its command enters the queue of its target. A release reaches its core and ends the wait of its strand. A
core that has started no strand in this clk (R37), and whose strands its partition runs, starts the handler of a message in the
lowest free slot, with its payload in the slot's receive area, its length in D0 and the area's address in A0. -/
def Obligations.RequestsReleasesAndMessages : Prop :=
  ∀ (s : State) (i c k : Nat) (r : Request) (l : ReelWait) (rest : List ReelWait) (f : Flight) (m : Message) (ms : List Message),
    (s.net[i]? = some r → s.reqReady i r = true → s.portRoom r.src r.core = false → exec (.reqAccept i) s = .next (s.spillEvent r.src.1)) ∧
    (s.net[i]? = some r → s.reqReady i r = true → s.portRoom r.src r.core = true → ∃ (t : State) (x : Cmd), exec (.reqAccept i) s = .next t ∧ t.mem = s.mem ∧ t.net = s.net.eraseIdx i ∧
        (t.strandAt r.core (slotIx r.slot)).q.cmds r.eng = (s.strandAt r.core (slotIx r.slot)).q.cmds r.eng ++ [x] ∧
        x.kind = .stream (some r.src.1) ∧ x.addr = r.addr) ∧
    (s.releases = l :: rest → (s.coreAt l.core).flights.find? (fun f => f.n == l.n) = some f →
      (s.strandAt l.core (slotIx f.slot)).st ≠ .frozen →
      ∃ t, exec .reelRelease s = .next t ∧ t.mem = s.mem ∧ t.releases = rest ∧
        t.strandAt l.core (slotIx f.slot) =
          (s.strandAt l.core (slotIx f.slot)).wake (if l.join then .reelHeld else .reelPhase)) ∧
    ((s.coreAt c).messages = m :: ms → (s.coreAt c).dark = false → (s.coreAt c).closing = none →
      (s.coreAt c).startedAt ≠ some s.clk → (s.coreAt c).freeSlot = some k → s.pkg.alertHeld = false → s.halted c = false →
      (∀ n ∈ m :: ms, s.portRoom n.src c = true) →
      ∀ i ∈ [Instr.sendAccept c, Instr.strandStart c], ∃ t, exec i s = .next t ∧
        (t.strandAt c (slotIx k)).st = .ready ∧ (t.strandAt c (slotIx k)).pc = m.handler ∧
        (t.strandAt c (slotIx k)).d[0] = Dom.single (BitVec.ofNat 32 m.payload.length) ∧
        (t.strandAt c (slotIx k)).a[0] = BitVec.ofNat 64 ((s.coreAt c).msgBase.toNat * 2048 + 256 * k) ∧
        (t.strandAt c (slotIx k)).prio = m.prio ∧ (t.coreAt c).messages = ms ∧
        t.mem = (s.store (localKey c (((s.coreAt c).msgBase.toNat * 2048 + 256 * k) % 0x100000)) m.payload).mem)

/-! ### Strands, launches, placement, pre-emption -/

/-- R23, R36, R38, R292, R302, R357, R358, R362: an ENDING slot whose queues are empty and whose entries have retired is DORMANT
again, and a launch that it ran is done, at once, or once its capture record is final; a strand that stands drained at a qualifying
kernel boundary gives its slot to a lower class and its record returns to the ready list; as a slot of 256 ns of the timer wheel
comes, the releases whose time it has reached enter the ready list, in their order, behind those that came before and found no
room, and one whose time a step back of the clock has moved ahead again waits; a sample that is due notes its clock, and with TRE = 1
writes a cut record. That a slot which a switch leaves is DORMANT is the model's choice, log entry 61; the heads of a sample of a
strand in its handler are log entry 16. -/
def Obligations.StrandsEndSwitchAndAreReleased : Prop :=
  ∀ (s : State) (c k : Nat) (l : LaunchId) (r : Run) (n : Nat),
    let x := s.strandAt c (slotIx k)
    let y := s.coreAt c
    let slot : DWord := BitVec.ofNat 64 (s.pkg.ptp.toNat / 256 * 256)
    let past (w : Release) : Bool := decide (w.time.toNat ≤ slot.toNat)
    let due := (y.wheel.filter fun w => w.late && past w) ++
      if y.wheelAt = slot then [] else y.wheel.filter fun w => !w.late && past w
    (k < 8 → x.st = .ending → x.q.allEmpty = true → y.settled (slotIx k) = true →
      ∃ t, exec (.endingToDormant c k) s = .next t ∧ (t.strandAt c (slotIx k)).st = .dormant ∧
        (t.strandAt c (slotIx k)).run = none ∧ (t.strandAt c (slotIx k)).owner = none ∧ (t.strandAt c (slotIx k)).d = x.d ∧ t.mem = s.mem ∧
        (x.owner = some l → x.launched = true → (s.coreAt l.1).mbox.running l = true → (s.coreAt l.1).mbox.fin = none →
          ((s.coreAt l.1).mbox.capture = none ∨ s.partOf l.1 = none →
            (t.coreAt l.1).mbox.status = 4 ∧ (t.coreAt l.1).mbox.go = false ∧
            (t.coreAt l.1).mbox.doneseq = (s.coreAt l.1).mbox.seq) ∧
          ∀ p q, (s.coreAt l.1).mbox.capture = some q → s.partOf l.1 = some p →
            (t.coreAt l.1).mbox = { (s.coreAt l.1).mbox with
              fresh := false
              fin := some { status := 4, refused := false, at_ := (s.part p).csbase.toNat, len := (s.part p).cslen.toNat,
                            got := [], lost := false, time := s.pkg.ptp } })) ∧
    (x.st = .waiting → x.wait = .drain → decode .seq (s.read (imemKey c x.pc.toNat) 8) = .ok .halt → x.q.drained = true →
      y.settled (slotIx k) = true → x.qualifies = true → y.wantsSwitch x.prio = true → x.atBoundary = some (r, n) →
      x.lease.held = false → x.bad = [] →
      ∃ t, exec (.taskSwitch c k) s = .next t ∧ t.mem = s.mem ∧ (t.strandAt c (slotIx k)).st = .dormant ∧
        (t.coreAt c).ready.length = y.ready.length + 1 ∧
        ∃ e ∈ (t.coreAt c).ready, e.record = r.record ∧ e.prio = x.prio ∧ e.kept = some (x.keep r n)) ∧
    (y.dark = false → y.closing = none → y.ready.length + due.length ≤ 64 →
      ∃ t, exec (.timerWheelSlot c) s = .next t ∧ t.mem = s.mem ∧
        (t.coreAt c).wheel = (y.wheel.filter fun w => w.late && !past w) ++
          (y.wheel.filter fun w => !w.late && (y.wheelAt == slot || !past w)) ∧
        (t.coreAt c).ready.map (·.record) = y.ready.map (·.record) ++ due.map (·.record)) ∧
    (x.st = .ready → x.trace.smp = true → x.trace.last + x.trace.smpint.toNat ≤ s.clk →
      (x.trace.tre = false → ∃ t, exec (.traceSample c k) s = .next t ∧ t.mem = s.mem ∧
        t.strandAt c (slotIx k) = { x with trace := { x.trace with last := s.clk } }) ∧
      ∀ key, s.TraceReady c (slotIx k) key → (∀ u ∈ x.curMe, u.since = none) → (∀ u ∈ x.curVe, u.since = none) →
        let q := x.allQueued
        ∃ t, exec (.traceSample c k) s = .next t ∧ (t.strandAt c (slotIx k)).trace.last = s.clk ∧ s.Traced t c (slotIx k) key 2
          ((q.seqMe - BitVec.ofNat 16 q.me.length).toNat + (q.seqVe - BitVec.ofNat 16 q.ve.length).toNat * 2 ^ 16 +
            (q.seqCe - BitVec.ofNat 16 q.ce.length).toNat * 2 ^ 32 + (q.seqFmt - BitVec.ofNat 16 q.fmt.length).toNat * 2 ^ 48)
          ((q.seqLd - BitVec.ofNat 16 q.ld.length).toNat + (q.seqSt - BitVec.ofNat 16 q.st.length).toNat * 2 ^ 16 + 2 * 2 ^ 32)) ∧
    (x.st = .ready → s.clk < x.trace.last + x.trace.smpint.toNat → exec (.traceSample c k) s = .next s)

/-- R290-R294, R278, R298, R361, R362: GO on a mailbox of the grid sets GO, the energy used and the class; with capture on it also
writes the first two rows of a capture record, or sets OVF where there is no room; at the end of the clk the launch is refused with
its status, or enters the scoreboard of its die under that clk, waiting or resident; the residency test makes resident what has
reached its target; the distributor issues, at most once in 16 clk, the launch that goes next: refused with its status, as a
transfer in slot 8 of its core, or as a record placed on a core whose image is loaded; a record whose partner core is to be parked
first closes that core to new work; nothing issues while it may not. The load puts TEXT and ESTR into the instruction memory and
SPAD into the scratchpad, zeros behind their bytes, and changes no other byte. A captured launch that has ended reads its checksum
region row by row, writes its last row with the digest, and is over. The order of the grounds for a refusal is a reading, log
entry 13; that the mailbox stands in a capture record as it is after GO is log entry 15; that the region is read row by row is log
entry 76; SM3 is that of its standard, log entry 8; that a TRANSFER runs in slot 8 is the model's form, log entry 20. -/
def Obligations.LaunchesAreSubmittedAndIssued : Prop :=
  ∀ (s : State) (by_ : Func) (c die k : Nat) (e : BitVec 4) (b : Launch) (i : Image) (r : BitVec 256) (p : Nat) (f : Ending),
    let m := (s.coreAt c).mbox
    let go : Mailbox := { m with go := true, enused := 0, ecls := m.prio, launch := s.steps, capture := none, fresh := true }
    let key := (s.part p).capbase.toNat + 128 * (s.part p).capProd.toNat
    let free (k n : Nat) : Prop := s.late = [] ∧ s.heldUp c [(k, n)] = false
    let u := s.updCore c fun y => { y with mbox := { m with fresh := false } }
    (c < 2048 → s.blockOk by_ c = true → m.go = false →
      ((∀ p, s.partOf c = some p → (s.part p).capEn = false) →
        ∃ t, exec (.mailboxGo by_ c) s = .next t ∧ t.mem = s.mem ∧ (t.coreAt c).mbox = go) ∧
      (s.partOf c = some p → (s.part p).capEn = true →
        ((s.part p).capProd + 1 = (s.part p).capCons → ∃ t, exec (.mailboxGo by_ c) s = .next t ∧ t.mem = s.mem ∧
          (t.coreAt c).mbox = go ∧ (t.part p).capOvf = true) ∧
        ((s.part p).capProd + 1 ≠ (s.part p).capCons → free key 64 → free (key + 64) 64 →
          ∃ t, exec (.mailboxGo by_ c) s = .next t ∧ (t.part p).capProd = (s.part p).capProd + 1 ∧
            (t.coreAt c).mbox = { go with capture := some ((s.part p).capProd.toNat, s.pkg.ptp) } ∧
            t.mem = (s.mem.write key (leBytes 64 go.bits)).write (key + 64)
              (leBytes 8 s.pkg.ptp.toNat ++ leBytes 2 c ++ List.replicate 54 0)))) ∧
    (m.go = true → exec (.mailboxGo by_ c) s = .next s) ∧
    (m.fresh = true → m.capture = none →
      (u.refusal c = some e → ((s.judge c).coreAt c).mbox.status = e ∧ ((s.judge c).coreAt c).mbox.go = false ∧
        ((s.judge c).coreAt c).mbox.doneseq = m.seq ∧ (s.judge c).mem = s.mem) ∧
      (u.refusal c = none → ((s.judge c).coreAt c).mbox.status = (if m.rctr = 0 then 2 else 1) ∧ (s.judge c).mem = s.mem ∧
        ((s.judge c).die (dieOf c)).board = (s.die (dieOf c)).board ++
          [{ core := c, order := s.clk, resident := m.rctr == 0, since := s.clk }])) ∧
    (s.flaws = [] → ∃ t, exec (.residencyPoll die) s = .next t ∧ t.mem = s.mem ∧
      (t.die die).board.map (fun b => (b.core, b.resident)) = (s.die die).board.map fun b => (b.core, b.resident ||
        decide ((s.readNat (ballBase + ((s.coreAt b.core).mbox.rctr.toNat - 0x100000000)) 4 + 2 ^ 32 -
          (s.coreAt b.core).mbox.rtgt.toNat) % 2 ^ 32 < 2 ^ 31))) ∧
    (s.pkg.fullPend = true ∨ (s.die die).mayIssue s.clk = false ∨ s.nextLaunch die = none → exec (.distributorIssue die) s = .next s) ∧
    (s.pkg.fullPend = false → (s.die die).mayIssue s.clk = true → (s.coreAt b.core).mbox.capture = none → s.flaws = [] →
      (∀ q, s.nextLaunch die = some (b, q) → s.areaBusy (s.issueCells b q) = false) →
      (s.nextLaunch die = some (b, .refuse e) →
        ∃ t, exec (.distributorIssue die) s = .next t ∧ (t.coreAt b.core).mbox.status = e ∧ (t.coreAt b.core).mbox.go = false ∧
          t.mem = s.mem) ∧
      (s.nextLaunch die = some (b, .transfer) →
        ∃ (t : State) (u : Cursor), exec (.distributorIssue die) s = .next t ∧ (t.coreAt b.core).mbox.status = 3 ∧
          (t.strandAt b.core 8).st = .ready ∧ (t.strandAt b.core 8).curCe = some u ∧
          u.addr = (s.coreAt b.core).mbox.image ∧ u.phase = .fetch ∧ t.mem = s.mem) ∧
      (s.nextLaunch die = some (b, .close k) →
        ∃ t, exec (.distributorIssue die) s = .next t ∧ t.mem = s.mem ∧
          (t.coreAt (partnerOf k)).closing = some (b.core, (s.coreAt b.core).mbox.launch)) ∧
      (s.nextLaunch die = some (b, .kernel k i r) → (s.coreAt k).loaded (b.core, (s.coreAt b.core).mbox.launch) = true →
        (Rec.ok r = true → i.entry % 32 = 0 → Rec.hot r = false →
          ∃ (t : State) (p : Placed), exec (.distributorIssue die) s = .next t ∧ (t.coreAt b.core).mbox.status = 3 ∧
            (t.coreAt k).placed = (s.coreAt k).placed ++ [p] ∧ p.record = r ∧ p.argb = (s.coreAt b.core).mbox.argb ∧
            t.mem = s.mem) ∧
        (Rec.ok r = false ∨ i.entry % 32 ≠ 0 →
          ∃ t, exec (.distributorIssue die) s = .next t ∧ (t.coreAt b.core).mbox.status = Status.record ∧
            (t.coreAt b.core).mbox.go = false ∧ t.mem = s.mem))) ∧
    (s.pkg.fullPend = false → s.nextLaunch (dieOf c) = some (b, .kernel k i r) → b.core = c → s.flaws = [] →
      s.areaBusy (s.imageCells c m.image.toNat) = false →
      ∃ t, exec (.overlayLoad c) s = .next t ∧ (t.coreAt k).loaded (c, m.launch) = true ∧
        ((s.coreAt k).loaded (c, m.launch) = true → t.mem = s.mem) ∧
        ((s.coreAt k).loaded (c, m.launch) = false → (i.sections.map (·.kind)).Nodup →
          (∀ x ∈ i.sections, x.bytes.length ≤ x.msize ∧ (x.kind = 1 ∨ x.kind = 2 → x.addr + x.msize ≤ 0x20000) ∧
            (x.kind = 3 → x.addr + x.msize ≤ 0x100000) ∧ ∀ y ∈ i.sections, x.kind = 1 → y.kind = 2 → x.addr + x.msize ≤ y.addr) →
          let base (x : Section) : Option Nat := if x.kind = 1 ∨ x.kind = 2 then some (imemKey k x.addr)
            else if x.kind = 3 then some (localKey k x.addr) else none
          (∀ x ∈ i.sections, ∀ o, base x = some o → ∀ j, j < x.msize → t.mem.byte (o + j) = x.bytes.getD j 0) ∧
          ∀ a, (∀ x ∈ i.sections, ∀ o, base x = some o → a < o ∨ o + x.msize ≤ a) → t.mem.byte a = s.mem.byte a)) ∧
    (∀ slot at_, m.fin = some f → m.capture = some (slot, at_) → s.partOf c = some p → s.flaws = [] →
      (f.got.length < f.len → f.lost = false → ∀ bs, s.dmaStopped c .host = false →
        s.peek c (f.at_ + f.got.length) (min 64 (f.len - f.got.length)) = .bytes bs →
        ((s.bringForward c).coreAt c).mbox = { m with fin := some { f with got := f.got ++ bs } } ∧ (s.bringForward c).mem = s.mem) ∧
      (f.len ≤ f.got.length ∨ f.lost = true → free ((s.part p).capbase.toNat + 128 * slot + 64) 64 →
        ((s.bringForward c).coreAt c).mbox.status = f.status ∧ ((s.bringForward c).coreAt c).mbox.go = false ∧
        ((s.bringForward c).coreAt c).mbox.doneseq = m.seq ∧
        ∃ sum, (f.refused = true ∨ f.len = 0 → sum = List.replicate 8 0) ∧
          (f.refused = false → f.len ≠ 0 → f.lost = false → sum = (sm3 f.got).take 8) ∧
          (s.bringForward c).mem = s.mem.write ((s.part p).capbase.toNat + 128 * slot + 64)
            (leBytes 8 at_.toNat ++ leBytes 2 c ++ leBytes 1 f.status.toNat ++ leBytes 1 0 ++ leBytes 4 m.enused.toNat ++
              leBytes 8 f.time.toNat ++ sum ++ List.replicate 32 0)))

/-- R18, R49, R298-R300, R342, R366: the partner of a hot record's core is parked: its READY and WAITING strands are PARKED, its 2 MiB
stand in its park area as its engines' accesses under way left them, it is dark, and its memory is lent. Once the borrower runs no
hot record and no access to the window is under way, the bytes of the park area come back into the memory of the dark core, and no other
byte changes; it is dark no more, and each of its PARKED strands goes on in the state that it had. A rotation that is due frees the
slot of its strand, counts, and notes its clock, and the strand goes on in the same slot of the target with its program counter,
registers, counters and port sets; one that is not due changes nothing. Each of them waits while a row of its table walks or of its
area is held or asleep, and wakes it. Which strand rotates and when is a reading, log entry 25; that an area is waited for as a
whole is the model's choice, log entry 53. -/
def Obligations.CoresParkLendAndRotate : Prop :=
  (∀ (s : State) (c : Nat) (b : Launch) (k : Nat) (i : Image) (r : BitVec 256) (l : List (Nat × Nat)),
    let w := s.arriveAt c 0 (s.parkCells c)
    let v := w.areaTouched (w.parkReach c)
    let u := v.settleRows c
    let same (x y : Strand) : Prop := x.pc = y.pc ∧ x.d = y.d ∧ x.a = y.a ∧ x.tokens = y.tokens ∧ x.ve = y.ve ∧ x.rel = y.rel
    s.memOk = true → s.flaws = [] →
    (s.nextLaunch (dieOf c) = some (b, .kernel k i r) → partnerOf k = c → Rec.hot r = true → Rec.ok r = true → i.entry % 32 = 0 →
      (s.coreAt c).dark = false → s.pkg.fullPend = false →
      (s.heldUp c (s.parkCells c) = true → exec (.park c) s = .next w) ∧
      (s.heldUp c (s.parkCells c) = false → w.areaBusy (w.parkReach c) = true → exec (.park c) s = .next v) ∧
      (s.heldUp c (s.parkCells c) = false → w.areaBusy (w.parkReach c) = false → v.parkArea c = some l →
        l.Pairwise (fun a b => a.1 + a.2 ≤ b.1 ∨ b.1 + b.2 ≤ a.1) →
        ∃ t, exec (.park c) s = .next t ∧ (t.coreAt c).dark = true ∧ (t.coreAt c).closing = none ∧
          (t.coreAt (partnerOf c)).act = true ∧ (∀ o, o < 0x200000 → t.areaRead l o 1 = [u.mem.byte (localKey c o)]) ∧
          ∀ j, j < 8 → (u.strandAt c (slotIx j)).st = .ready ∨ (u.strandAt c (slotIx j)).st = .waiting →
            (t.strandAt c (slotIx j)).st = .parked ∧ same (t.strandAt c (slotIx j)) (u.strandAt c (slotIx j)))) ∧
    (c < 2048 → (s.coreAt c).dark = true → (s.coreAt (partnerOf c)).hot = false → (s.coreAt (partnerOf c)).windowBusy = false →
      (s.coreAt (partnerOf c)).reading = false →
      (s.heldUp c (s.parkCells c) = true → exec (.lendingEnd c) s = .next w) ∧
      (s.heldUp c (s.parkCells c) = false → w.parkArea c = some l →
        (w.areaBusy (w.parkReach c) = true → exec (.lendingEnd c) s = .next v) ∧
        (w.areaBusy (w.parkReach c) = false → ∃ t, exec (.lendingEnd c) s = .next t ∧ (t.coreAt c).dark = false ∧
          (t.coreAt (partnerOf c)).act = false ∧ (∀ o, o < 0x200000 → [t.mem.byte (localKey c o)] = u.areaRead l o 1) ∧
          (∀ a, a < localKey c 0 ∨ localKey c 0x200000 ≤ a → t.mem.byte a = u.mem.byte a) ∧
          ∀ j, j < 8 → (u.strandAt c (slotIx j)).st = .parked →
            (t.strandAt c (slotIx j)).st = (u.strandAt c (slotIx j)).back ∧
            (t.strandAt c (slotIx j)).wait = (u.strandAt c (slotIx j)).backWait ∧
            same (t.strandAt c (slotIx j)) (u.strandAt c (slotIx j)))))) ∧
  (∀ (s : State) (d : Nat), (∀ j, s.rotationOf j = none) → exec (.rotation d) s = .next s) ∧
  ∀ (s t : State) (c g : Nat) (k : Fin 9) (l : List (Nat × Nat)), c < 2048 → c ∈ s.listed → (∀ j, j ≠ c → s.rotationOf j = none) →
    s.rotationOf c = some t → s.flaws = [] → (s.coreAt c).longest = some k → s.rotationArea c = some l → s.rotationTarget c = some g →
    let w := s.arriveAt c 0 (s.rotationCells c g)
    let v := w.areaTouched (s.rotationReach c g l)
    let u := v.saveFull c (2 ^ k.val) l
    let x := s.strandAt c k
    let y := t.strandAt g k
    exec (.rotation (dieOf c)) s = .next t ∧
    (s.heldUp c (s.rotationCells c g) = true → t = w) ∧
    (s.heldUp c (s.rotationCells c g) = false → s.areaBusy (s.rotationReach c g l) = true → t = s.areaTouched (s.rotationReach c g l)) ∧
    (s.heldUp c (s.rotationCells c g) = false → s.areaBusy (s.rotationReach c g l) = false →
      (t.strandAt c k).st = .dormant ∧ (t.strandAt c k).q.allEmpty = true ∧ (t.strandAt c k).run = none ∧
      (t.seg (segOf c)).lastRot = some t.clk ∧ (t.die (dieOf c)).rotc = (if (s.die (dieOf c)).rotc = 0xFFFF then 0xFFFF
        else (s.die (dieOf c)).rotc + 1) ∧
      (x.st = .ready ∨ x.st = .waiting → x.domainsOk = true → l.Pairwise (fun a b => a.1 + a.2 ≤ b.1 ∨ b.1 + b.2 ≤ a.1) →
        u.onWay (partnerOf g) = [] → (∀ m, u.parkArea (partnerOf g) = some m → ∀ a ∈ m, ∀ b ∈ l, a.1 + a.2 ≤ b.1 ∨ b.1 + b.2 ≤ a.1) →
        y.st ≠ .dormant ∧ y.st ≠ .frozen ∧ y.pc = x.pc ∧ y.d = x.d ∧ y.a = x.a ∧ y.tokens = x.tokens ∧ y.ve.ports = x.ve.ports))

/-- R18, R314-R322, R342, R362: a request of the pre-emption block whose save area is misaligned, unmapped or outside the partition
ends with status 8. LIGHT marks the named strands, and with none named is done; FULL is done with status 3: where it names every
slot in use those are DORMANT, else they are FROZEN, and the record of each holds its program counter, registers, counters and port
sets; each of the three waits while a row of the table walks for its area is held or asleep; RESUME is refused by its checks, or
done: the slot of each full record of a core-bound area holds what the record does. KILL of strands whose entries have all ended is
done: their slots are DORMANT and their leases given back; else it drops their queues and goes on; KILL with MASK = 0 ends the
TRANSFER, with VIOLATION where it is frozen and else with KILLED, once its units have been performed and its capture record is
final. That KILL drops queues at once is a reading, log entry 24; that an area is waited for as a whole is the model's choice, log
entry 53. -/
def Obligations.PreemptionRequestsAreServed : Prop :=
  ∀ (s : State) (c : Nat) (l : List (Nat × Nat)) (e : BitVec 4),
    let y := s.coreAt c
    let ends (i : Instr) (status : BitVec 4) (t : State) : Prop :=
      exec i s = .next t ∧ (t.coreAt c).pre.status = status ∧ (t.coreAt c).pre.go = false
    let done (i : Instr) (status : BitVec 4) : Prop := ∃ t, ends i status t
    let kept (t : State) (k : Fin 9) : Strand := strandOf c fun o n => t.areaRead l (0x20000 + 0x40000 * k.val + o) n
    let holds (a b : Strand) : Prop := a.pc = b.pc ∧ a.d = b.d ∧ a.a = b.a ∧ a.tokens = b.tokens ∧ a.ve.ports = b.ve.ports
    let apart : Prop := l.Pairwise fun a b => a.1 + a.2 ≤ b.1 ∨ b.1 + b.2 ≤ a.1
    let w := s.arriveAt c 0 (s.saveCells c)
    c < 2048 → y.pre.go = true → s.flaws = [] →
    (s.heldUp c (s.saveCells c) = true →
      (y.pre.mode = 1 → (∀ x ∈ y.strands.toList, x.light = none) → exec (.preemptLight c) s = .next w) ∧
      (y.pre.mode = 2 → exec (.preemptFull c) s = .next w) ∧ (y.pre.mode = 3 → exec (.preemptResume c) s = .next w)) ∧
    (s.heldUp c (s.saveCells c) = false → w.saveArea c = none →
      (y.pre.mode = 1 → (∀ x ∈ y.strands.toList, x.light = none) → done (.preemptLight c) 8) ∧
      (y.pre.mode = 2 → done (.preemptFull c) 8) ∧ (y.pre.mode = 3 → done (.preemptResume c) 8)) ∧
    (s.heldUp c (s.saveCells c) = false → w.saveArea c = some l →
      (y.pre.mode = 1 → (∀ x ∈ y.strands.toList, x.light = none) → w.areaBusy l = false →
        (s.named c = [] → done (.preemptLight c) 3) ∧
        (s.named c ≠ [] → ∃ t, exec (.preemptLight c) s = .next t ∧ (t.coreAt c).pre.go = true ∧
          ∀ k ∈ s.named c, (t.strandAt c k).light = some y.pre.save)) ∧
      (y.pre.mode = 2 → w.areaBusy (l ++ w.onWay c) = false → ∃ t, ends (.preemptFull c) 3 t ∧
        ∀ k ∈ s.named c, (t.strandAt c k).st =
            (if ∀ j : Fin 9, j.val < 8 → j ∈ s.named c ∨ (s.strandAt c j).st = .dormant then .dormant else .frozen) ∧
          (apart → (s.strandAt c k).domainsOk = true → holds (kept t k) (s.strandAt c k))) ∧
      (y.pre.mode = 3 → w.areaBusy l = false →
        let v := w.areaTouched l
        let u := v.arriveAt c 0 (v.resumeCells c l)
        (v.heldUp c (v.resumeCells c l) = true → exec (.preemptResume c) s = .next u) ∧
        (v.heldUp c (v.resumeCells c l) = false → u.areaBusy (l ++ u.resumeReach c l ++ u.onWay c) = false →
          (u.resumeRefusal c l = some e → done (.preemptResume c) e) ∧
          (u.resumeRefusal c l = none → y.dark = false → (u.resumeParks c l = true → (u.parkArea (partnerOf c)).isSome = true ∧
              u.partnerEnding c l = false) →
            ∃ t, ends (.preemptResume c) 3 t ∧
              (u.portArea l = false → u.onWay c = [] → (u.resumeParks c l = true → u.onWay (partnerOf c) = [] ∧
                  ∀ m, u.parkArea (partnerOf c) = some m → ∀ a ∈ m, ∀ b ∈ l, a.1 + a.2 ≤ b.1 ∨ b.1 + b.2 ≤ a.1) → ∀ k ∈ u.fullSlots l,
                holds (t.strandAt c k) (kept u k) ∧ (t.strandAt c k).st ≠ .dormant ∧ (t.strandAt c k).st ≠ .frozen))))) ∧
    (y.pre.mode = 4 → y.pre.mask ≠ 0 → (s.named c = [] → done (.preemptKill c) 3) ∧
      ((∀ k ∈ s.named c, ∀ f ∈ y.flights, f.slot = k.val → f.ended = true) → ∃ t, ends (.preemptKill c) 3 t ∧
        ∀ k ∈ s.named c, (t.strandAt c k).st = .dormant ∧ (t.strandAt c k).lease.held = false ∧
          (s.named c = [k] → (s.strandAt c k).lease.held = true → (s.strandAt c k).lease.pend = false →
            (t.seg (segOf c)).held = (s.seg (segOf c)).held - (s.strandAt c k).lease.level.setWidth 8)) ∧
      (∀ (k : Fin 9) (f : Flight), s.named c = [k] → f ∈ y.flights → f.slot = k.val → f.ended = false →
        ∃ t, exec (.preemptKill c) s = .next t ∧
        (t.coreAt c).pre.status = 2 ∧ (t.strandAt c k).q.me = [] ∧ (t.strandAt c k).q.ld = [] ∧ (t.strandAt c k).q.st = [] ∧
        (t.strandAt c k).curMe = none ∧ (t.strandAt c k).st = .frozen)) ∧
    (y.pre.mode = 4 → y.pre.mask = 0 →
      ((s.strandAt c 8).st = .dormant → y.mbox.fin = none → ends (.killTransfer c) 3 (s.preEnd c 3)) ∧
      ((s.strandAt c 8).st ≠ .dormant → s.unitsDone c = false → ∃ t, exec (.killTransfer c) s = .next t ∧ t.mem = s.mem ∧
        (t.coreAt c).pre.status = 2 ∧ (t.strandAt c 8).st = (if (s.strandAt c 8).st = .frozen then .frozen else .ending)) ∧
      ((s.strandAt c 8).st ≠ .dormant → s.unitsDone c = true → y.mbox.fin = none →
        (y.mbox.capture = none → ∃ t, ends (.killTransfer c) 3 t ∧ t.mem = s.mem ∧ (t.strandAt c 8).st = .dormant ∧
          (t.coreAt c).mbox.go = false ∧ (t.coreAt c).mbox.status = (if (s.strandAt c 8).st = .frozen then 11 else 13)) ∧
        (∀ p q, y.mbox.capture = some q → s.partOf c = some p → y.mbox.kind = true → ∃ t, exec (.killTransfer c) s = .next t ∧
          (t.coreAt c).pre.status = 2 ∧ (t.coreAt c).mbox.go = y.mbox.go ∧
          ∃ f, (t.coreAt c).mbox.fin = some f ∧ f.status = (if (s.strandAt c 8).st = .frozen then 11 else 13))))

/-! ### Isolation -/

/-- R45, R48, R51, R165, R330, R349: an access of a core of a partition reaches only its own memory, its partner's, the vaults of the
partition's columns, the Ballroom slices of its columns and of those that BALL grants, and host memory. A load or store outside is not
performed: its strand is frozen in place with VIOL, its queues, registers and in-flight record intact, every other strand runs on, and
no byte changes but in the partition's event ring. A word that a sequencer issues changes no byte outside its own scratchpad and the
partition's event ring (where nothing is traced, no bit error stands undiscovered and no light pre-emption is due). -/
def Obligations.PartitionsAreIsolated : Prop :=
  ∀ (s t : State) (c k p va n : Nat) (write now st : Bool) (l : List (Nat × Nat)) (e : QEntry) (rest : List QEntry) (turns : List Turn),
    c < 2048 → s.partOf c = some p →
    let ring := pteAddr (s.part p).evbase.toNat
    (0 < n → s.reach c va n write now = .at l → ∀ x ∈ l, s.InShare p c x) ∧
    (∀ (j : Fin 9) (a g : Nat), ∃ u, u = s.violate c j a g ∧ (u.strandAt c j).st = .frozen ∧ (u.strandAt c j).viol = true ∧
      (u.strandAt c j).q = (s.strandAt c j).q ∧ (u.strandAt c j).d = (s.strandAt c j).d ∧ (u.strandAt c j).a = (s.strandAt c j).a ∧
      (u.strandAt c j).tag = (s.strandAt c j).tag ∧ (∀ i, (u.coreAt i).flights = (s.coreAt i).flights) ∧
      (∀ i m, (i ≠ c ∨ m ≠ j) → u.strandAt i m = s.strandAt i m) ∧ ∀ o, o < ring ∨ ring + 8192 ≤ o → u.mem.byte o = s.mem.byte o) ∧
    (s.AtHead c k st e rest → (∃ w m b d o, e.i = .ld w m d b o) ∨ (∃ w m b src, e.i = .st w m b src) → s.aim c e = .violation →
      exec (.queueEntryIssue c k st) s = .next (s.violate c (slotIx k) e.ea.toNat (if st then 5 else 4))) ∧
    (s.service = true → s.agenda = .issue c k :: turns → k < 8 → s.flaws = [] → (s.strandAt c (slotIx k)).light = none →
      (∀ i m, (s.strandAt i m).trace.tre = false) → step s = .next t →
      ∀ o, (o < localKey c 0 ∨ localKey c 0x100000 ≤ o) → (o < ring ∨ ring + 8192 ≤ o) → t.mem.byte o = s.mem.byte o)

/-! ### Translation -/

/-- R324-R329: a walk that finds a page fills the TLBs and lets its entry go on; one that finds a fault holds an aligned load under
a fault number, with an event in its ring of 256 records (R329), and a misaligned or unsupported one for that cause (R374). The
host's translation fills its die's TLB; its answer to a page request lets the entries go on, or reports the fault. RETRY lets a held
entry go on; REFUSE traps a store with the cause of its fault, freezes the strand in its handler (R306), and leaves a frozen
strand's entry to trap later; an invalidation drops what it names, and is complete once no access uses its pages; room in an event
ring takes kept records while its bank is free (R18, R342). The numbering of faults is the model's choice, log entry 35; that a walk
which meets poison stops its entry for it is log entry 74, and when an invalidation is complete log entry 49. -/
def Obligations.TranslationsAreFoundHeldAndDropped : Prop :=
  ∀ (s : State) (c k p n die : Nat) (e : QEntry) (rest : List QEntry) (va pa log : Nat) (w : Bool) (code : BitVec 8) (f : Fid)
    (a host : DWord) (size : BitVec 3) (cons : BitVec 8),
    let x := s.strandAt c (slotIx k)
    let ring := if c = 2048 then pteAddr s.pkg.mevbase.toNat else pteAddr (s.part ((s.partOf c).getD 0)).evbase.toNat
    let key := pteAddr (s.part p).evbase.toNat + 32 * (s.part p).evprod.toNat
    (x.q.ld = e :: rest → e.held = .walk → e.i.isPref = false →
      (s.missOf c e = none → ∃ t, exec (.tableWalkComplete c k false) s = .next t ∧ t.mem = s.mem ∧
        (t.strandAt c (slotIx k)).q.ld = { e with held := .no } :: rest) ∧
      (s.missOf c e = some va → s.heldUp c (s.tableCells c va 1) = true → exec (.tableWalkComplete c k false) s = .next s) ∧
      (s.missOf c e = some va → s.heldUp c (s.tableCells c va 1) = false → s.flaws = [] → s.walk c va = .page pa log w → pa < hostBase →
        ∃ t, exec (.tableWalkComplete c k false) s = .next t ∧ t.mem = s.mem ∧
          (t.strandAt c (slotIx k)).q.ld = { e with held := .no } :: rest ∧ tlbOf (s.asid c) va pa log w ∈ (t.coreAt c).tlb) ∧
      (s.missOf c e = some va → s.heldUp c (s.tableCells c va 1) = false → s.flaws = [] → s.walk c va = .page pa log w →
        hostBase ≤ pa → paOk pa = true → ∃ t, exec (.tableWalkComplete c k false) s = .next t ∧ t.mem = s.mem ∧
          (t.strandAt c (slotIx k)).q.ld =
            (if e.placeOk .host then e else { e with held := .cause Code.unsupported e.ea }) :: rest) ∧
      (s.missOf c e = some va → s.heldUp c (s.tableCells c va 1) = false → s.flaws = [] → s.walk c va = .cause code →
        (e.ea.toNat % e.alignment ≠ 0 ∨ code = Code.poison) → ∃ t, exec (.tableWalkComplete c k false) s = .next t ∧ t.mem = s.mem ∧
          (t.strandAt c (slotIx k)).q.ld =
            { e with held := .cause (if e.ea.toNat % e.alignment ≠ 0 then Code.align else Code.poison) e.ea } :: rest) ∧
      (s.missOf c e = some va → s.heldUp c (s.tableCells c va 1) = false → s.flaws = [] → s.walk c va = .cause code →
        e.ea.toNat % e.alignment = 0 → code ≠ Code.poison →
        ∃ t, exec (.tableWalkComplete c k false) s = .next t ∧
          (∀ o, o < ring ∨ ring + 8192 ≤ o → t.mem.byte o = s.mem.byte o) ∧
          (t.strandAt c (slotIx k)).q.ld = { e with held := .fid (s.nextFid % 65536) } :: rest ∧
          t.fids = s.fids ++ [{ fid := s.nextFid % 65536, part := s.asid c, core := c, slot := (slotIx k).val, cause := code,
                                va := BitVec.ofNat 64 va }])) ∧
    (p < 16 → (s.part p).ptroot.getLsbD 0 = true → s.walkFrom p a.toNat 4 (pteAddr (s.part p).ptroot.toNat) = Walk.page pa log w →
      hostBase ≤ pa → paOk pa = true → host.getLsbD 0 = true →
      ∃ t, exec (.atsTranslationCompletion die p a host) s = .next t ∧ t.mem = s.mem ∧
        tlbOf p a.toNat (hostBase + host.toNat / 4096 * 4096 % hostBase) log (w && host.getLsbD 1) ∈ (t.die die).tlb) ∧
    (∃ t, exec (.priResponse n true) s = .next t ∧ t.mem = s.mem ∧ ∀ (c : Nat) (k : Fin 9),
      t.strandAt c k = (s.strandAt c k).mapHeld fun h => if h.isPri n then .no else h) ∧
    (∀ h : PriHeld, s.heldPri n = [h] → h.pref = false → ∃ t, exec (.priResponse n false) s = .next t ∧
      t.fids = s.fids ++ [{ fid := s.nextFid % 65536, part := s.asid h.core, core := h.core, slot := (slotIx h.slot).val, cause := h.code,
                            va := BitVec.ofNat 64 h.addr }]) ∧
    (∀ i ∈ [(Instr.tfresRetry p n, p), (Instr.mtfresRetry n, 16)],
      s.fids.find? (fun g => g.fid == n && g.part == i.2) = some f →
      ∃ t, exec i.1 s = .next t ∧ t.mem = s.mem ∧ t.fids = s.fids.filter (· != f) ∧
        t.strandAt f.core (slotIx f.slot) = (s.strandAt f.core (slotIx f.slot)).mapHeld (swapHeld (.fid n) .no)) ∧
    (∀ i ∈ [(Instr.tfresRefuse p n, p), (Instr.mtfresRefuse n, 16)],
      s.fids.find? (fun g => g.fid == n && g.part == i.2) = some f → f.slot < 8 → f.cause ≠ 0x22 → f.cause ≠ 0x26 →
      (s.strandAt f.core (slotIx f.slot)).st = .ready → (s.strandAt f.core (slotIx f.slot)).trap.hm = false →
      (s.strandAt f.core (slotIx f.slot)).lease.pend = false →
      (s.strandAt f.core (slotIx f.slot)).q.st.head?.map (·.held) = some (.fid n) →
      ∃ t, exec i.1 s = .next t ∧ t.mem = s.mem ∧ t.fids = s.fids.filter (· != f) ∧
        (t.strandAt f.core (slotIx f.slot)).trap.code = f.cause ∧ (t.strandAt f.core (slotIx f.slot)).trap.tval = f.va ∧
        (t.strandAt f.core (slotIx f.slot)).pc = (s.strandAt f.core (slotIx f.slot)).trap.tvec) ∧
    (∀ i ∈ [(Instr.tfresRefuse p n, p), (Instr.mtfresRefuse n, 16)],
      s.fids.find? (fun g => g.fid == n && g.part == i.2) = some f → f.slot < 8 →
      (s.strandAt f.core (slotIx f.slot)).q.st.head?.map (·.held) = some (.fid n) →
      ((s.strandAt f.core (slotIx f.slot)).st = .ready → (s.strandAt f.core (slotIx f.slot)).trap.hm = true →
        ∃ t, exec i.1 s = .next t ∧ (t.strandAt f.core (slotIx f.slot)).st = .frozen) ∧
      ((s.strandAt f.core (slotIx f.slot)).st = .frozen → ∃ t, exec i.1 s = .next t ∧ t.mem = s.mem ∧
        (t.strandAt f.core (slotIx f.slot)).st = .frozen ∧
        (t.strandAt f.core (slotIx f.slot)).q.st.head?.map (·.held) = some (.cause f.cause f.va))) ∧
    ((s.part p).tlbinvGo = true → ∃ t, exec (.tlbinv p) s = .next t ∧ t.mem = s.mem ∧
      ((t.part p).tlbinvGo = false ∨ s.usesPage (fun j _ => s.asid j == p % 16)
        ((s.part p).tlbinv.toNat / 4096 % 2 ^ 45 * 4096) (invLog ((s.part p).tlbinv.toNat / 2 ^ 60 % 8)) = true) ∧
      ∀ d, d < 4 → ∀ g ∈ (t.die d).tlb, g.part = p % 16 → g.hit ((s.part p).tlbinv.toNat / 4096 % 2 ^ 45 * 4096)
        (invLog ((s.part p).tlbinv.toNat / 2 ^ 60 % 8)) = false) ∧
    (s.pkg.mtlbinvGo = true → ∃ t, exec .mtlbinv s = .next t ∧ t.mem = s.mem ∧
      ∀ g ∈ (t.coreAt 2048).tlb, g.part = 16 → g.hit (s.pkg.mtlbinv.toNat / 4096 % 2 ^ 45 * 4096)
        (invLog (s.pkg.mtlbinv.toNat / 2 ^ 60 % 8)) = false) ∧
    (∃ t, exec (.atsInvalidation a size) s = .next t ∧ t.mem = s.mem ∧ ((a, size) ∈ t.pkg.atsInv ↔
        s.usesPage (fun _ l => inHost l) (a.toNat / 4096 * 4096) (invLog size.toNat) = true) ∧
      ∀ d, d < 4 → ∀ g ∈ (t.die d).tlb, hostBase ≤ g.pa.toNat → g.hit (a.toNat / 4096 * 4096) (invLog size.toNat) = false) ∧
    ∃ t, exec (.eventRingRoom p cons) s = .next t ∧ (t.part p).evcons = cons ∧
      ((s.part p).kept = [] → t.mem = s.mem) ∧
      ∀ ev, (s.part p).kept = [ev] → (s.part p).evprod + 1 ≠ cons → ((s.part p).tds = 3 → pteAddr (s.part p).evbase.toNat < hostBase) →
        s.holdsAny true [(key, 32)] = false → s.sleeping [(key, 32)] = false → (t.part p).kept = [] ∧
        (t.part p).evprod = (s.part p).evprod + 1 ∧
        t.mem = s.mem.write key (leBytes 32 ev.toNat)

/-! ### Power, heat and time -/

/-- R302, R334, R337-R344: the draw window starts every strand's counts anew, and the clocks for
which an engine is still busy with a repetition fall into the next windows; a sample holds its readings, counts the
sensors in alert and sets each stack's refresh rate with its hysteresis; the alert falls again after its period; refreshes
hold their banks or are put off eight times at most; a pseudo-channel outside its vault's interleave falls asleep after 2^20
clocks; a newer cap message sets the cap and its lease, whose end brings the fallback; the throttle level follows the power
by one step; a trim moves a voltage by one step; PTP time steps, and messages of the source's port alone reach firmware.
When the events are taken is the agenda's, log entries 11 and 39; that a trim event makes a segment trimmed is log entry 22,
and that PTPSTEP starts PTP time is log entry 23; the clock of a cap lease is log entry 29; that a forced refresh of all banks makes
the allowance of postponed ones whole again is log entry 53. -/
def Obligations.PowerHeatAndTimeFollowTheirRules : Prop :=
  ∀ (s : State) (rs : List Reading) (g h v pc bank p : Nat) (n : BitVec 5) (m step : DWord) (w : Word) (up post : Bool),
    (s.clk % 256 ≠ 0 ∨ s.drawnAt = s.clk → exec .drawEstimateWindow s = .next s) ∧
    (s.clk % 256 = 0 → s.drawnAt ≠ s.clk → (∀ c k, s.overdrawn c k = false) → ∃ t, exec .drawEstimateWindow s = .next t ∧ t.mem = s.mem ∧ t.drawnAt = s.clk ∧
      ∀ (c : Nat) (k : Fin 9), (t.strandAt c k).eff.slots = 0 ∧
        (t.strandAt c k).eff.me.now = min (s.strandAt c k).eff.me.upto (s.clk + 256) - s.clk ∧
        (t.strandAt c k).eff.me.upto = (s.strandAt c k).eff.me.upto ∧ (t.strandAt c k).d = (s.strandAt c k).d) ∧
    (s.pkg.talrtEn = false → ∃ t, exec (.sensorSample rs) s = .next t ∧ t.mem = s.mem ∧ t.cores = s.cores ∧
      t.pkg.alerting = t.countAlerting ∧ (∀ temp, rs = [.seg g temp] → (t.seg g).temp = temp) ∧
      ∀ h, h < 8 → (t.stack h).doubled =
        (if (List.range 32).any (fun i => decide (680 < (t.group h i).temp.toInt)) then true
         else if (List.range 32).all (fun i => decide ((t.group h i).temp.toInt ≤ 672)) then false else (s.stack h).doubled)) ∧
    (s.pkg.talrtEn = true → s.pkg.alerting ≠ 0 → s.pkg.alertAt ≤ s.clk → (s.strandAt 2048 0).st = .dormant →
      ∃ t, exec .alertPeriodExpiry s = .next t ∧ t.mem = s.mem ∧ t.pkg.alertHeld = true ∧ t.pkg.alertAt = s.clk + 2 ^ 20) ∧
    (s.pkg.talrtEn = true → s.pkg.alerting ≠ 0 → s.pkg.alertAt ≤ s.clk → (s.strandAt 2048 0).st = .ready →
      (s.strandAt 2048 0).trap.hm = false → (s.strandAt 2048 0).lease.pend = false →
      ∃ t, exec .alertPeriodExpiry s = .next t ∧ t.pkg.alertHeld = false ∧ (t.strandAt 2048 0).trap.code = 0x27 ∧
        (t.strandAt 2048 0).pc = (s.strandAt 2048 0).trap.tvec) ∧
    (w.getLsbD 8 = false ∨ s.pkg.alerting = 0 → exec (.talrtWrite w) s =
      .next { s with pkg := { s.pkg with talrtEn := w.getLsbD 8, trip := w.setWidth 8 } }) ∧
    ((s.stack h).asleep.contains (pcIx v pc) = false → pc < 24 → bank < 64 →
      ∃ t, exec (.refreshDue h v pc bank post) s = .next t ∧ t.mem = s.mem ∧
      (post = false → (pcIx v pc, bank, s.clk + 120) ∈ (t.stack h).holds) ∧
      (post = true → SMap.get 0 (s.stack h).postponed (pcIx v pc) < 8 → (t.stack h).holds = (s.stack h).holds ∧
        SMap.get 0 (t.stack h).postponed (pcIx v pc) = SMap.get 0 (s.stack h).postponed (pcIx v pc) + 1) ∧
      (post = true → 8 ≤ SMap.get 0 (s.stack h).postponed (pcIx v pc) → (pcIx v pc, 64, s.clk + 352) ∈ (t.stack h).holds ∧
        SMap.get 0 (t.stack h).postponed (pcIx v pc) = 0)) ∧
    ((s.vault h v).n.toNat ≤ pc → pc < 24 → SMap.get 0 (s.stack h).lastUse (pcIx v pc) + 2 ^ 20 ≤ s.clk →
      (s.stack h).asleep.contains (pcIx v pc) = false → ∃ t, exec (.selfRefreshEntry h v pc) s = .next t ∧ t.mem = s.mem ∧
        (t.stack h).asleep = (s.stack h).asleep ++ [pcIx v pc]) ∧
    (∃ t, exec (.vilvWrite h v n) s = .next t ∧ t.mem = s.mem ∧
      (t.vault h v).n = (if n = 0 ∨ 24 < n.toNat then 24 else n) ∧
      (t.vault h v).busy = ((s.vault h v).busy || decide ((t.vault h v).n ≠ (s.vault h v).n))) ∧
    (∃ t, exec (.vilvMigrationDone h v) s = .next t ∧ t.mem = s.mem ∧ (t.vault h v).busy = false ∧
      (t.vault h v).n = (s.vault h v).n) ∧
    (s.pkg.rcapSeen = false ∨ (m.extractLsb' 32 32 ≠ s.pkg.rcapSeq ∧ (m.extractLsb' 32 32 - s.pkg.rcapSeq).toNat < 2 ^ 31) →
      ∃ t, exec (.rcapmsg m) s = .next t ∧ t.pkg.rcapSeq = m.extractLsb' 32 32 ∧ t.pkg.rcapFlr = false ∧
        t.pkg.rcapCap.toNat = min (m.extractLsb' 16 16).toNat 4000 ∧
        t.pkg.rcapExpiry = some (s.clk + (m.setWidth 16).toNat * s.clkPerMs) ∧ t.mem = s.mem) ∧
    (s.pkg.rcapSeen = true → m.extractLsb' 32 32 = s.pkg.rcapSeq → exec (.rcapmsg m) s = .next s) ∧
    (∀ due, s.pkg.rcapExpiry = some due → due ≤ s.clk → ∃ t, exec .capLeaseExpiry s = .next t ∧ t.pkg.rcapCap = 2400 ∧
      t.pkg.rcapFlr = true ∧ t.pkg.rcapExpiry = none ∧ t.mem = s.mem) ∧
    (∃ t, exec (.powerSample p) s = .next t ∧ t.mem = s.mem ∧ t.pkg.pthr.toNat =
      (if s.pkg.rcapCap.toNat < p then min (s.pkg.pthr.toNat + 1) 15
       else if 100 * p < 95 * s.pkg.rcapCap.toNat then s.pkg.pthr.toNat - 1 else s.pkg.pthr.toNat)) ∧
    (∃ t, exec (.segmentTrim g up) s = .next t ∧ t.mem = s.mem ∧ (t.seg g).trimmed = true ∧
      (t.seg g).vmv.toNat = if up then min ((s.seg g).vmv.toNat + 1) 255 else (s.seg g).vmv.toNat - 1) ∧
    (∃ t, exec (.ptpstepWrite step) s = .next t ∧ t.mem = s.mem ∧ t.pkg.ptp = s.pkg.ptp + step ∧ t.pkg.ptpOn = true) ∧
    (exec (.ptpMessage s.pkg.ptpsrc step) s = .next { s with pkg := { s.pkg with ptpMsgs := s.pkg.ptpMsgs ++ [step] } }) ∧
    (n ≠ s.pkg.ptpsrc → exec (.ptpMessage n step) s = .next s)

/-! ### Partitions, attestation, links, bring-up -/

/-- R349-R351, R354, R355, R366, R368: EN = 1 that R350 accepts holds the partition under a fresh key (what the management core
wrote there under its own key, log entry 58), and one that it refuses sets ERR; EN = 0 freezes the partition's strands and starts
its clearing, whose end leaves the home vaults of its columns zero. A flit group whose tag fails three times in a row closes its
stream, and a new key opens it. A trained stack is ready; FULL takes its switch with every slot DORMANT; the patrol corrects a
single-bit error and counts it in CORR, and poisons a row with a double-bit one, counts it in UNC and writes its event (R365); a
write of a register that the function maps takes its bits under their access codes, RW, RO and W1C, for the error counters, the save
area's base, PTP's rate, the roots, the segments and the registers of a partition (R4, R335, R367-R370), and one that is not mapped
changes nothing; reset keeps host memory alone and checks the firmware. That cleared and reset bytes read 0 after RESET is the
model's choice, log entry 4, and that firmware's signature comes as an operand is log entry 21; that FULL waits for every slot of
every core, the management core's among them, and that a clearing refuses another's EN, is log entry 28. The scrubber and the
clearing wait for banks that a refresh holds or that sleep (R18, R342), for a clearing as a whole, log entry 53. -/
def Obligations.PartitionsLinksAndBringUp : Prop :=
  ∀ (s : State) (p g c o port stream h row off : Nat) (k : Fin 9) (ok wide : Bool) (f : Func) (v : DWord) (ver : Word),
    ((s.part p).en = false → s.enableRefused p = false → ∃ t, exec (.partitionEnable p) s = .next t ∧
      (s.pkg.mkeyed = [] → t.mem = s.mem) ∧
      t.part p = { s.part p with en := true, key := true, parten := 0 }) ∧
    ((s.part p).en = false → s.enableRefused p = true → ∃ t, exec (.partitionEnable p) s = .next t ∧ t.mem = s.mem ∧
      t.part p = { s.part p with err := true }) ∧
    ((s.part p).en = true → ∃ t, exec (.partitionDisable p) s = .next t ∧ (t.part p).en = false ∧ (t.part p).key = false ∧
      (t.part p).scrub = true ∧
      (c ∈ s.coresOf p → k.val < 8 → (t.strandAt c k).st = .frozen ∨ (t.strandAt c k).st = .dormant)) ∧
    ((s.part p).scrub = true → (homeVaults (s.part p).cols).any s.vaultBusy = true →
      exec (.scrubDone p) s = .next ((homeVaults (s.part p).cols).foldl State.vaultTouched s)) ∧
    ((s.part p).scrub = true → (homeVaults (s.part p).cols).any s.vaultBusy = false →
      ∃ t, exec (.scrubDone p) s = .next t ∧ (t.part p).scrub = false ∧
      (g < 64 → (s.part p).cols.getLsbD g = true → o < 2 ^ 33 →
        t.mem.byte (hbmKey (2 * (g / 16)) (g % 16) 0 + o) = 0 ∧ t.mem.byte (hbmKey (2 * (g / 16) + 1) (g % 16) 0 + o) = 0)) ∧
    (port < 18 → ∃ t, exec (.alabinStreamRekey port stream) s = .next t ∧ t.mem = s.mem ∧
      (t.streamAt port stream).closed = false ∧ (t.streamAt port stream).fails = 0) ∧
    (port < 18 → (s.streamAt port stream).closed = false → ∃ t, exec (.alabinFlitGroup port stream ok) s = .next t ∧
      t.mem = s.mem ∧ (t.streamAt port stream).fails = (if ok then 0 else (s.streamAt port stream).fails + 1) ∧
      (t.streamAt port stream).closed = (!ok && decide (2 ≤ (s.streamAt port stream).fails))) ∧
    (∃ t, exec (.stackTrained h) s = .next t ∧ t.mem = s.mem ∧ (t.stack h).trained = true) ∧
    (s.pkg.full = false → s.fullAllowed = true → s.allDormant = true → ∃ t, exec .svcFull s = .next t ∧ t.mem = s.mem ∧
      t.pkg.full = true ∧ t.pkg.fullPend = false) ∧
    (s.pkg.full = false → s.fullAllowed = true → s.allDormant = false → ∃ t, exec .svcFull s = .next t ∧ t.mem = s.mem ∧
      t.pkg.full = false ∧ t.pkg.fullPend = true) ∧
    (h < 8 → row < 2 ^ 31 → s.areaBusy [(h * 2 ^ 37 + row * 64, 64)] = true →
      exec (.patrolScrub h row) s = .next (s.areaTouched [(h * 2 ^ 37 + row * 64, 64)])) ∧
    (h < 8 → row < 2 ^ 31 → s.areaBusy [(h * 2 ^ 37 + row * 64, 64)] = false →
      s.flaws = [(h * 2 ^ 37 + row * 64, false)] → (s.stack h).corr ≠ 0xFFFFFF →
      ∃ t, exec (.patrolScrub h row) s = .next t ∧ t.mem = s.mem ∧ t.flaws = [] ∧ t.poison = s.poison ∧
        (t.stack h).corr = (s.stack h).corr + 1) ∧
    (h < 8 → row < 2 ^ 31 → s.areaBusy [(h * 2 ^ 37 + row * 64, 64)] = false →
      s.flaws = [(h * 2 ^ 37 + row * 64, true)] → (s.stack h).unc ≠ 0xFFFF →
      ∃ t, exec (.patrolScrub h row) s = .next t ∧ t.flaws = [] ∧ h * 2 ^ 37 + row * 64 ∈ t.poison ∧
        (t.stack h).unc = (s.stack h).unc + 1 ∧ (t.stack h).corr = (s.stack h).corr ∧
        (s.partOfKey (h * 2 ^ 37 + row * 64) = none → t.mem = s.mem) ∧
        (s.partOfKey (h * 2 ^ 37 + row * 64) = some p → (s.part p).kept = [] → (s.part p).evprod + 1 = (s.part p).evcons →
          t.mem = s.mem ∧ (t.part p).kept = [eventRec 6 (rowAddr (h * 2 ^ 37 + row * 64)) 0 0 0 0])) ∧
    (ctlAligned off wide = true → s.maps f (regOf off) = true →
      let w := laneValue off wide v &&& laneMask off wide
      let low := (laneMask off wide).getLsbD 0
      let wrote (ok : State → Prop) : Prop := ∃ t, exec (.controlRegisterWrite f off wide v) s = .next t ∧ t.mem = s.mem ∧ ok t
      (regOf off = .stack h 0 → wrote fun t => (t.stack h).corr = (s.stack h).corr &&& ~~~(w.extractLsb' 40 24) ∧
        (t.stack h).unc = (s.stack h).unc &&& ~~~(w.extractLsb' 24 16) ∧ (t.stack h).scrint =
          (if low then (if w.extractLsb' 0 8 = 0 then 1 else w.extractLsb' 0 8) else (s.stack h).scrint)) ∧
      (∀ (x : BitVec 16) (y z : Byte), regOf off = .cerr c 0 → (s.coreAt c).corr = ⟨x.toNat, 0⟩ → (s.coreAt c).repair = ⟨y.toNat, 0⟩ →
        (s.coreAt c).unc = ⟨z.toNat, 0⟩ → wrote fun t => (t.coreAt c).corr.value 0xFFFF = (x &&& ~~~(w.extractLsb' 16 16)).toNat ∧
          (t.coreAt c).repair.value 0xFF = (y &&& ~~~(w.extractLsb' 8 8)).toNat ∧
          (t.coreAt c).unc.value 0xFF = (z &&& ~~~(w.extractLsb' 0 8)).toNat) ∧
      (regOf off = .park c → wrote fun t =>
        (t.coreAt c).parkBase = merge 0x01FFFFFFFFFFF000 (s.coreAt c).parkBase (laneValue off wide v) (laneMask off wide)) ∧
      (regOf off = .pkg 0x40 → low = true → wrote fun t => t.pkg.ptprate = w.extractLsb' 0 32) ∧
      (regOf off = .pkg 0x50 → wrote fun t =>
        t.pkg.mptroot = merge 0x001FFFFFFFFFF001 s.pkg.mptroot (laneValue off wide v) (laneMask off wide)) ∧
      (regOf off = .part p 0x00 → (s.part p).tds = 0 ∨ f = .vf p → wrote fun t =>
        (t.part p).ptroot = merge 0x001FFFFFFFFFF001 (s.part p).ptroot (laneValue off wide v) (laneMask off wide)) ∧
      (regOf off = .part p 0x28 → wrote fun t =>
        (t.part p).tagspill = merge 0x001FFFFFFF000000 (s.part p).tagspill (laneValue off wide v) (laneMask off wide)) ∧
      (regOf off = .part p 0x40 → (s.part p).en = true → (s.part p).tds = 0 ∨ f = .vf p →
        exec (.controlRegisterWrite f off wide v) s = .next s) ∧
      (regOf off = .part p 0x40 → f = .pf → (s.part p).tds ≠ 0 → ∃ t, exec (.controlRegisterWrite f off wide v) s = .next t ∧
        (t.part p).tds = 3 ∧ (t.part p).cols = (s.part p).cols) ∧
      (regOf off = .part p 0x80 → low = true → w.extractLsb' 16 8 = 0 → wrote fun t =>
        t.part p = { s.part p with degr := (s.part p).degr && !w.getLsbD 31, thr := 0,
                                   mck := (s.part p).mck &&& ~~~(w.extractLsb' 0 16) }) ∧
      (regOf off = .part p 0x80 → low = true → w.extractLsb' 16 8 ≠ 0 → (s.part p).thr = 0 →
        (w.extractLsb' 16 8).toNat ≤ ((s.part p).mck &&& ~~~(w.extractLsb' 0 16)).toNat →
        ∃ t, exec (.controlRegisterWrite f off wide v) s = .next t ∧ (t.part p).degr = true)) ∧
    (ctlAligned off wide = true → s.maps f (regOf off) = false → exec (.controlRegisterWrite f off wide v) s = .next s) ∧
    (ctlAligned off wide = true → s.maps f (regOf off) = true → regOf off = .seg g 0 → (laneMask off wide).getLsbD 0 = true →
      ∃ t, exec (.controlRegisterWrite f off wide v) s = .next t ∧ t.mem = s.mem ∧
        t.seg g = { s.seg g with ove := (laneValue off wide v).getLsbD 31, thr := (laneValue off wide v).extractLsb' 24 4,
                                 cap := (laneValue off wide v).extractLsb' 16 8 }) ∧
    (∃ t, exec (.reset ok ver []) s = .next t ∧ t.cores = [] ∧ t.clk = 0 ∧
      t.service = (ok && decide (Config.fusedVersion.toNat ≤ ver.toNat)) ∧
      ∀ a, t.mem.byte a = if hostBase ≤ a ∧ a < ballBase then s.mem.byte a else 0)

/-- R352, R353: the requests of attestation in their order open a session; each answers with its code, and one out of order,
or for what the responder does not have, answers ERROR and leaves the connection as it was. In a session the interface
locks, starts and stops, and takes its keys. The response codes are those of the SPDM standard and the model's choice, log
entry 7. -/
def Obligations.AttestationOpensSessions : Prop :=
  ∀ (s : State) (f : Func) (r p n : Nat) (b : BitVec 8), f.responder = some r →
    (∀ q ∈ ([(.getVersion f, fun _ => true, fun _ => .version, 0x04),
              (.getCapabilities f, fun x => x == .version, fun _ => .capabilities, 0x61),
              (.negotiateAlgorithms f 1 1 1 1, fun x => x == .capabilities, fun _ => .negotiated, 0x63),
              (.getDigests f, Spdm.open, id, 0x01), (.getCertificate f 0, Spdm.open, id, 0x02), (.challenge f 0, Spdm.open, id, 0x03),
              (.getMeasurements f 1, Spdm.open, id, 0x60), (.keyExchange f, fun x => x == .negotiated, fun _ => .handshake, 0x64),
              (.finish f, fun x => x == .handshake, fun _ => .session, 0x65),
              (.endSession f, fun x => x == .session, fun _ => .negotiated, 0x6C),
              (.keyUpdate f, fun x => x == .session, id, 0x69)] : List (Instr × (Spdm → Bool) × (Spdm → Spdm) × Nat)),
      ∃ t, exec q.1 s = .next t ∧ t.mem = s.mem ∧ t.cores = s.cores ∧
        (q.2.1 (s.responderAt r).phase = true → (t.responderAt r).phase = q.2.2.1 (s.responderAt r).phase ∧
          (t.responderAt r).out.head?.map (·.1) = some q.2.2.2) ∧
        (q.2.1 (s.responderAt r).phase = false → (t.responderAt r).phase = (s.responderAt r).phase ∧
          (t.responderAt r).out.head?.map (·.1) = some 0x7F)) ∧
    (∀ i ∈ [Instr.negotiateAlgorithms f b 1 0 1, .getCertificate f (n + 1), .challenge f (n + 1), .getMeasurements f (n + 6)],
      ∃ t, exec i s = .next t ∧ (t.responderAt r).phase = (s.responderAt r).phase ∧
        (t.responderAt r).out.head?.map (·.1) = some 0x7F) ∧
    (s.inSession p = true → (s.part p).en = true → (s.part p).scrub = false →
      ((s.part p).tds = 0 → ∃ t, exec (.lockInterface p) s = .next t ∧ t.mem = s.mem ∧ t.part p = { s.part p with tds := 1 }) ∧
      ((s.part p).tds = 1 → ∃ t, exec (.startInterface p) s = .next t ∧ t.mem = s.mem ∧ t.part p = { s.part p with tds := 2 }) ∧
      (∃ t, exec (.ideKm p) s = .next t ∧ t.mem = s.mem ∧ t.part p = { s.part p with ide := true }) ∧
      ∃ t, exec (.stopInterface p) s = .next t ∧ (t.part p).tds = 0 ∧ (t.part p).en = false ∧ (t.part p).scrub = true) ∧
    (s.inSession p = false → ∀ i ∈ [Instr.lockInterface p, .startInterface p, .stopInterface p, .ideKm p], exec i s = .next s)

/-! ### Encodings, the step, the whole machine -/

/-- R107, R121-R133: words of the spec's own examples decode to what they stand for. -/
def Obligations.SpecWordsDecode : Prop :=
  ∀ p ∈ [(64, 0x020808400C000000, Instr.mulR 1 (.reg 2 3)), (64, 0x000A084000000007, .addR 1 (.lit2 2 7)),
         (64, 0x010C18800000000A, .subR 3 (.lit1 10 4)), (64, 0x2202080000000009, .dexc 1 (.lit 9)),
         (64, 0x1C08000000000004, .alld 0 4), (64, 0x4000286E000FFFF0, .ld .w64 .ta 5 3 0xFFFF0),
         (64, 0x41020080FFFFFFFF, .st .w32 .ts 4 (.lit 0xFFFFFFFF)), (64, 0x4370204014600000, .atomCas (.s false 4 5 6) 2),
         (64, 0x4500001800000000, .mark 0x18), (64, 0x690000E000000002, .loop 7 2), (64, 0xA40000C008302468, .send 6 2 3 0x2468),
         (64, 0x8010006000000000, .enqVe 3), (64, 0xC300000058000081, .srw 22 0x081),
         (48, 0x044803801401, .mmac { pop := 2, push := 2, each := false, rpt := 7, step := 0, k := true, x := 4, y := 0, z := 1 }),
         (48, 0x480000598890, .vexp2 { pop := 0, push := 0, each := false, rpt := 0, step := 0x2CC, k := false, x := 8, y := 9,
                                       z := 0 })],
    decodeTableWord p.1 p.2.1 = some p.2.2

/-- R107, R121-R134: decoding an encoded well-formed instruction gives it back, with every operand at every value, and every word
that decodes is the one word of its instruction, which is well-formed. -/
def Obligations.DecodeAndEncodeAgree : Prop :=
  (∀ (i : Instr) (r : Reader) (bs : List Byte), i.wf = true → encode i = some (r, bs) →
    bs.length = r.size ∧ decode r bs = .ok i) ∧
  ∀ (i : Instr) (r : Reader) (bs : List Byte), decode r bs = .ok i → i.wf = true ∧ encode i = some (r, bs.take r.size)

/-- R24, R27, R121, R142, R242, R345, R365: a step that issues the word at a strand's program counter is the instruction that the
word decodes to, once the fetch has found the errors of its row, and counts its issue; a word that does not decode, or that is illegal
on the management core, takes the illegal-instruction trap, one in a poisoned row a machine check, and each takes the issue slot; a
step of an engine is the word or entry at its cursor, begun or gone on with, or one more execution of its NEST entry, is performed at
several moments where its reads have begun (R63), and happens only while the core's record has room (R13); before a chain advances the
CE issues again an atomic action that a replay owes (R80); a strand whose queues met an error while it was stopped takes its machine
check first, which is a reading, log entry 88; a step of an event is that event, where a FULL pre-emption goes after the traps
of its clk (R323). That the agenda names the turn, also the moment of an access of several events, is the model's choice, log entries 3
and 12. -/
def Obligations.StepRunsTheDecodedInstruction : Prop :=
  ∀ (s r t u : State) (c k : Nat) (rest : List Turn) (i : Instr), s.service = true →
    r = { s with agenda := rest, steps := s.steps + 1 } → t = { r with core := c, slot := slotIx k } →
    (s.agenda = .issue c k :: rest → t.alertDue c k = false → t.canTry c k = true → t.self.heldLoad = none → t.self.flawed = false →
      let m := t.meetFlaws c (slotIx k).val [(imemKey c t.self.pc.toNat, 8)]
      let word := m.read (imemKey c m.self.pc.toNat) 8
      (m.poisoned (imemKey c m.self.pc.toNat) 8 = true →
        step s = .next ((m.trapAt c (slotIx k) (Cause.plain 0x26) m.self.pc).counted m.self.po)) ∧
      (m.poisoned (imemKey c m.self.pc.toNat) 8 = false →
        (decode .seq word = .ok i → (c ≠ 2048 ∨ i.notMgmt = false) →
          i.blockedBy (m.own.awaited m.slot) = false → m.repaired i = some u → step s = countIssue m.self.po (exec i u)) ∧
        ((∀ j, decode .seq word ≠ .ok j) ∨ (c = 2048 ∧ decode .seq word = .ok i ∧ i.notMgmt = true) →
          step s = .next ((m.trapAt c (slotIx k) (Cause.plain 0x01) m.self.pc).counted m.self.po)))) ∧
    (∀ (e : Eng) (v : Cursor) (h : Cmd), s.agenda = .engine c e :: rest → (s.coreAt c).dark = false →
      ((s.coreAt c).eng e).serving = some k → t.self.cursor e = some v → t.self.head e = some h → v.held = .no →
      (t.self.st ≠ .dormant ∨ t.self.flawed = false) → (e = .ce → r.restrikeSlot c = none) →
      (((s.coreAt c).eng e).apart ≠ [] → v.phase = .run →
        (e ≠ .ce → t.withheld c = false → v.nestEntry = false → decodeEng (e == .ve) (v.word.setWidth 48) = .ok i →
          step s = r.within c (closeView (exec i (t.opened c e)))) ∧
        (e = .ce → decodeChain v.word = .ok i → step s = r.within c (closeView (exec i (t.opened c e))))) ∧
      (((s.coreAt c).eng e).apart = [] →
      (e ≠ .ce → t.withheld c = false →
        (v.nestEntry = true → v.phase = .fetch ∨ v.phase = .run → step s = r.within c (exec (.nestEntryRun c) t)) ∧
        (v.nestEntry = false → v.phase = .run → decodeEng (e == .ve) (v.word.setWidth 48) = .ok i → step s = r.within c (exec i t)) ∧
        ∀ (w : Nat) (buf : List (Nat × List Byte)), v.nestEntry = false → v.phase = .fetch → t.fetchEng h.kind v = .word w buf →
          decodeEng (e == .ve) (BitVec.ofNat 48 w) = .ok i → step s =
            r.within c (exec i ((t.fetchMeets h.kind v).putCursor e { v with word := BitVec.ofNat 256 w, rowBuf := buf }))) ∧
      (e = .ce →
        (v.phase = .run → decodeChain v.word = .ok i → step s = r.within c (exec i t)) ∧
        ∀ (q : State) (x : Cursor) (w : Nat), v.phase = .fetch → t.fetchChain h.kind v = .ok (q, x, w) →
          decodeChain (BitVec.ofNat 256 w) = .ok i →
          step s = r.within c (exec i (q.putCursor .ce { x with word := BitVec.ofNat 256 w }))))) ∧
    (s.agenda = .issue c k :: rest → t.alertDue c k = true → step s = .next r.deliverAlert) ∧
    (s.agenda = .issue c k :: rest → t.alertDue c k = false → k < 8 → t.self.flawed = true → t.self.traps = true →
      step s = .next ((t.upd Strand.unflawed).trapAt c (slotIx k) (Cause.plain 0x26) t.self.pc)) ∧
    (∀ (j : Nat) (x : Restrike), s.agenda = .engine c .ce :: rest → (s.coreAt c).dark = false → r.restrikeSlot c = some (j, x) →
      step s = r.within c (.next (r.restrike c j x))) ∧
    (∀ (n : Nat) (w : Bool), s.agenda = .part c n w :: rest → step s = .next (r.partOfAccess c n w)) ∧
    (s.agenda = .event i :: rest → step s = exec i (r.trapsFirst i) ∧ ((∀ j, i ≠ .preemptFull j) → step s = exec i r))

/-- Log entry 4: the memory keeps its one canonical form, in every step from every state whose memory has it. The canonical
form and the value 0 of an unlisted byte are the model's choice, log entries 2 and 4, and no rule of the spec. -/
def Obligations.MemoryStaysCanonical : Prop :=
  ∀ s t : State, s.memOk = true → step s = .next t → t.memOk = true

/-- R103, R104: every step from every state whose domains are canonical gives one whose domains are: every domain register of every
strand, of a slot, switched out, or saved, and every domain that a checkpoint holds. That a restored record's domain which is not
canonical reads as {0} is the model's choice, log entry 57, and that a dead register's free value is canonical is log entry 5. -/
def Obligations.DomainsStayCanonical : Prop :=
  ∀ (s t : State), s.domainsOk = true → step s = .next t → t.domainsOk = true

/-- R23, R105, R117, R175, R222, R260, R290, R355: the machine right after reset: every slot is DORMANT with its domain
registers at {0}, PBUDGET at 64 and its counters, handler registers and queues at 0 or empty; no flag reads 1, no launch
stands in a mailbox, no partition is enabled, the service is the reduced one; and its memory is canonical. That the reset
memory lists nothing is the model's choice, log entry 4. -/
def Obligations.ResetIsTheStateOfTheSpec : Prop :=
  State.reset.memOk = true ∧ State.reset.pkg.full = false ∧ (∀ p : Fin 16, (State.reset.part p.val).en = false) ∧
    ∀ (c : Nat) (k : Fin 9),
      let x := State.reset.strandAt c k
      x.st = .dormant ∧ (∀ r : Fin 64, x.d[r.val] = Dom.single 0) ∧ x.domainsOk = true ∧ x.rel.budget = 64 ∧ x.rel.store = [] ∧
        x.rel.ckd = 0 ∧ x.trap.hm = false ∧ x.trap.tvec = 0 ∧ x.q.allEmpty = true ∧ (∀ i, i < 12 → x.token i = 0) ∧
        x.ve.shape = 0x00027C1F ∧ (State.reset.coreAt c).flags = 0 ∧ (State.reset.coreAt c).mbox.go = false
end

