-- ==== Sys2Proof/Laws/Map.lean ====
section
/-! SUPPORT. The laws of sparse maps and of the memory of bytes: reading after writing, and the canonical form that every
memory operation keeps. -/
namespace Sys2Proof.Machine

/-! ### Reading -/

@[simp] theorem SMap.get_nil {α : Type} (d : α) (k : Nat) : SMap.get d [] k = d := rfl
theorem SMap.get_cons {α : Type} (d v : α) (m : SMap α) (j k : Nat) :
    SMap.get d ((j, v) :: m) k = if j = k then v else SMap.get d m k := rfl

/-- A list with no entry of a key does not bear on what the key reads. -/
theorem SMap.get_append_left {α : Type} (d : α) (m n : SMap α) (k : Nat) (h : ∀ e ∈ m, e.1 ≠ k) :
    SMap.get d (m ++ n) k = SMap.get d n k := by
  induction m with
  | nil => rfl
  | cons a m ih =>
    have ha := h a (by simp)
    simp only [List.cons_append, SMap.get, ha, if_false]
    exact ih fun e he => h e (by simp [he])

/-- A list that cannot read a key leaves what the key reads to the list before it. -/
theorem SMap.get_append_right {α : Type} (d : α) (m n : SMap α) (k : Nat) (h : ∀ e ∈ n, e.1 ≠ k) :
    SMap.get d (m ++ n) k = SMap.get d m k := by
  induction m with
  | nil => simpa using SMap.get_append_left d n [] k h
  | cons a m ih => simp only [List.cons_append, SMap.get, ih]

/-- A filter on keys that keeps a key does not bear on what it reads. -/
theorem SMap.get_filter {α : Type} (d : α) (m : SMap α) (p : Nat → Bool) (k : Nat) (h : p k = true) :
    SMap.get d (m.filter fun e => p e.1) k = SMap.get d m k := by
  induction m with
  | nil => rfl
  | cons a m ih =>
    by_cases ha : p a.1
    · simp [List.filter, ha, SMap.get, ih]
    · have : a.1 ≠ k := fun e => ha (e ▸ h)
      simp [List.filter, ha, SMap.get, ih, this]

/-- Outside the range of a splice everything reads as before, where the new entries lie in the range. -/
theorem SMap.get_splice_out {α : Type} (d : α) (m new : SMap α) (k n j : Nat)
    (hn : ∀ e ∈ new, k ≤ e.1 ∧ e.1 < k + n) (hj : j < k ∨ k + n ≤ j) :
    SMap.get d (m.splice k n new) j = SMap.get d m j := by
  have hnew : ∀ e ∈ new, e.1 ≠ j := fun e he => by have := hn e he; omega
  unfold SMap.splice
  rcases hj with h | h
  · rw [SMap.get_append_right d _ _ j (by simp; intros; omega), SMap.get_append_right d _ _ j hnew]
    exact SMap.get_filter d m (fun i => decide (i < k)) j (by simp [h])
  · rw [SMap.get_append_left d _ _ j]
    · exact SMap.get_filter d m (fun i => decide (k + n ≤ i)) j (by simp [h])
    · simp only [List.mem_append, List.mem_filter, decide_eq_true_eq]
      rintro e (⟨-, he⟩ | he)
      · omega
      · exact hnew e he

/-- In the range of a splice the new entries read. -/
theorem SMap.get_splice_in {α : Type} (d : α) (m new : SMap α) (k n j : Nat) (hj : k ≤ j ∧ j < k + n) :
    SMap.get d (m.splice k n new) j = SMap.get d new j := by
  unfold SMap.splice
  rw [SMap.get_append_right d _ _ j (by simp; intros; omega), SMap.get_append_left d _ _ j]
  simp only [List.mem_filter, decide_eq_true_eq]
  rintro e ⟨-, he⟩
  omega

@[simp] theorem SMap.get_put_same {α : Type} (d : α) (m : SMap α) (k : Nat) (v : α) : SMap.get d (m.put k v) k = v := by
  unfold SMap.put
  rw [SMap.get_splice_in d m _ k 1 k (by omega)]
  simp [SMap.get]
theorem SMap.get_put_other {α : Type} (d : α) (m : SMap α) (k j : Nat) (v : α) (h : j ≠ k) :
    SMap.get d (m.put k v) j = SMap.get d m j :=
  SMap.get_splice_out d m _ k 1 j (by simp) (by omega)
theorem SMap.get_put {α : Type} (d : α) (m : SMap α) (k j : Nat) (v : α) :
    SMap.get d (m.put k v) j = if j = k then v else SMap.get d m j := by
  split
  · subst_vars; simp
  · exact SMap.get_put_other d m k j v ‹_›

/-! ### The canonical form -/

theorem SMap.rising_cons {α : Type} (a : Nat × α) (m : SMap α) :
    SMap.rising (a :: m) = true ↔ (∀ e ∈ m, a.1 < e.1) ∧ SMap.rising m = true := by
  induction m generalizing a with
  | nil => simp [SMap.rising]
  | cons b m ih =>
    simp only [SMap.rising, Bool.and_eq_true, decide_eq_true_eq, List.mem_cons, forall_eq_or_imp]
    constructor
    · rintro ⟨h, hr⟩
      exact ⟨⟨h, fun e he => Nat.lt_trans h (((ih b).1 hr).1 e he)⟩, hr⟩
    · rintro ⟨⟨h, -⟩, hr⟩
      exact ⟨h, hr⟩

theorem SMap.rising_filter {α : Type} (m : SMap α) (p : Nat × α → Bool) (h : SMap.rising m = true) :
    SMap.rising (m.filter p) = true := by
  induction m with
  | nil => rfl
  | cons a m ih =>
    obtain ⟨ha, hm⟩ := (SMap.rising_cons a m).1 h
    by_cases hp : p a
    · simp only [List.filter, hp]
      exact (SMap.rising_cons a _).2 ⟨fun e he => ha e (List.mem_filter.1 he).1, ih hm⟩
    · simpa [List.filter, hp] using ih hm

theorem SMap.rising_append {α : Type} (m n : SMap α) (hm : SMap.rising m = true) (hn : SMap.rising n = true)
    (h : ∀ a ∈ m, ∀ b ∈ n, a.1 < b.1) : SMap.rising (m ++ n) = true := by
  induction m with
  | nil => simpa using hn
  | cons a m ih =>
    obtain ⟨ha, hm⟩ := (SMap.rising_cons a m).1 hm
    refine (SMap.rising_cons a _).2 ⟨fun e he => ?_, ih hm fun x hx => h x (by simp [hx])⟩
    rcases List.mem_append.1 he with he | he
    · exact ha e he
    · exact h a (by simp) e he

theorem SMap.rising_splice {α : Type} (m new : SMap α) (k n : Nat) (hm : SMap.rising m = true)
    (hnew : SMap.rising new = true) (hn : ∀ e ∈ new, k ≤ e.1 ∧ e.1 < k + n) : SMap.rising (m.splice k n new) = true := by
  unfold SMap.splice
  refine SMap.rising_append _ _ (SMap.rising_append _ _ (SMap.rising_filter _ _ hm) hnew ?_) (SMap.rising_filter _ _ hm) ?_
  · intro a ha b hb
    have h1 : a.1 < k := by simpa using (List.mem_filter.1 ha).2
    have := hn b hb
    omega
  · intro a ha b hb
    have h2 : k + n ≤ b.1 := by simpa using (List.mem_filter.1 hb).2
    rcases List.mem_append.1 ha with ha | ha
    · have h1 : a.1 < k := by simpa using (List.mem_filter.1 ha).2
      omega
    · have := hn a ha
      omega

theorem SMap.rising_put {α : Type} (m : SMap α) (k : Nat) (v : α) (h : SMap.rising m = true) :
    SMap.rising (m.put k v) = true :=
  SMap.rising_splice m _ k 1 h rfl (by simp)

/-! ### Memory -/

theorem Memory.wf_iff (m : Memory) : Memory.wf m = true ↔ SMap.rising m = true ∧ ∀ e ∈ m, e.2 ≠ 0 := by
  simp [Memory.wf, List.all_eq_true]

@[simp] theorem Memory.wf_nil : Memory.wf [] = true := rfl

theorem Memory.wf_filter (m : Memory) (p : Nat × Byte → Bool) (h : Memory.wf m = true) : Memory.wf (m.filter p) = true := by
  rw [Memory.wf_iff] at *
  exact ⟨SMap.rising_filter m p h.1, fun e he => h.2 e (List.mem_filter.1 he).1⟩

theorem Memory.wf_window (m : Memory) (k n : Nat) (h : Memory.wf m = true) : Memory.wf (m.window k n) = true :=
  Memory.wf_filter m _ h

theorem Memory.wf_splice (m new : Memory) (k n : Nat) (hm : Memory.wf m = true) (hnew : Memory.wf new = true)
    (hn : ∀ e ∈ new, k ≤ e.1 ∧ e.1 < k + n) : Memory.wf (SMap.splice m k n new) = true := by
  rw [Memory.wf_iff] at *
  refine ⟨SMap.rising_splice m new k n hm.1 hnew.1 hn, fun e he => ?_⟩
  simp only [SMap.splice, List.mem_append, List.mem_filter] at he
  rcases he with (he | he) | he
  · exact hm.2 e he.1
  · exact hnew.2 e he
  · exact hm.2 e he.1

theorem Memory.cells_range (bs : List Byte) (k : Nat) : ∀ e ∈ Memory.cells k bs, k ≤ e.1 ∧ e.1 < k + bs.length := by
  induction bs generalizing k with
  | nil => simp [Memory.cells]
  | cons b bs ih =>
    intro e he
    simp only [Memory.cells] at he
    have : e = (k, b) ∨ e ∈ Memory.cells (k + 1) bs := by
      split at he
      · exact .inr he
      · simpa using he
    rcases this with rfl | h
    · simp
    · have := ih (k + 1) e h
      simp only [List.length_cons]
      omega

theorem Memory.wf_cells (bs : List Byte) (k : Nat) : Memory.wf (Memory.cells k bs) = true := by
  induction bs generalizing k with
  | nil => rfl
  | cons b bs ih =>
    simp only [Memory.cells]
    split
    · exact ih _
    · have h := (Memory.wf_iff _).1 (ih (k + 1))
      refine (Memory.wf_iff _).2 ⟨(SMap.rising_cons _ _).2 ⟨fun e he => ?_, h.1⟩, ?_⟩
      · have := Memory.cells_range bs (k + 1) e he
        simp only
        omega
      · rintro e he
        rcases List.mem_cons.1 he with rfl | he
        · assumption
        · exact h.2 e he

/-- A write keeps the canonical form. -/
theorem Memory.wf_write (m : Memory) (k : Nat) (bs : List Byte) (h : Memory.wf m = true) : Memory.wf (m.write k bs) = true :=
  Memory.wf_splice m _ k bs.length h (Memory.wf_cells bs k) (Memory.cells_range bs k)

/-- A range cleared keeps the canonical form. -/
theorem Memory.wf_clear (m : Memory) (k n : Nat) (h : Memory.wf m = true) : Memory.wf (SMap.splice m k n []) = true :=
  Memory.wf_splice m [] k n h rfl (by simp)

/-- The byte at position `i` of the bytes that stand from key `k` upward. -/
theorem Memory.get_cells (bs : List Byte) (k i : Nat) (h : i < bs.length) : SMap.get 0 (Memory.cells k bs) (k + i) = bs[i] := by
  induction bs generalizing k i with
  | nil => simp at h
  | cons b bs ih =>
    simp only [Memory.cells]
    cases i with
    | zero =>
      split
      · rename_i hb
        have : ∀ e ∈ Memory.cells (k + 1) bs, e.1 ≠ k := fun e he => by have := Memory.cells_range bs (k + 1) e he; omega
        have h := SMap.get_append_right (0 : Byte) [] (Memory.cells (k + 1) bs) k this
        simpa [hb] using h
      · simp [SMap.get]
    | succ i =>
      have hi : i < bs.length := by simpa using h
      have e : k + (i + 1) = k + 1 + i := by omega
      split
      · simpa [e] using ih (k + 1) i hi
      · simp only [SMap.get]
        rw [if_neg (by omega), e]
        simpa using ih (k + 1) i hi

/-- A byte that a write covers reads as written. -/
theorem Memory.byte_write_in (m : Memory) (k : Nat) (bs : List Byte) (i : Nat) (h : i < bs.length) :
    (m.write k bs).byte (k + i) = bs[i] := by
  unfold Memory.byte Memory.write
  rw [SMap.get_splice_in (0 : Byte) m _ k bs.length (k + i) (by omega)]
  exact Memory.get_cells bs k i h

/-- A byte outside a write reads as before. -/
theorem Memory.byte_write_out (m : Memory) (k : Nat) (bs : List Byte) (a : Nat) (h : a < k ∨ k + bs.length ≤ a) :
    (m.write k bs).byte a = m.byte a :=
  SMap.get_splice_out (0 : Byte) m _ k bs.length a (Memory.cells_range bs k) h

/-- A read of bytes is a read of each. -/
theorem Memory.read_eq (m : Memory) (k n : Nat) : m.read k n = (List.range n).map fun i => m.byte (k + i) := by
  unfold Memory.read Memory.byte Memory.window
  refine List.map_congr_left fun i hi => ?_
  exact SMap.get_filter (0 : Byte) m (fun a => decide (k ≤ a) && decide (a < k + n)) (k + i)
    (by simp [List.mem_range.1 hi])

/-- The bytes of a write read as written. -/
theorem Memory.read_write_same (m : Memory) (k : Nat) (bs : List Byte) : (m.write k bs).read k bs.length = bs := by
  rw [Memory.read_eq]
  refine List.ext_getElem (by simp) fun i h1 h2 => ?_
  simp [Memory.byte_write_in m k bs i h2]

end Sys2Proof.Machine
end

