-- ==== Sys2Proof/Laws/State.lean ====
section
/-! SUPPORT. What each update leaves of each field: one lemma a field and update, true by definition; and what the
accessors read after an update. -/
namespace Sys2Proof.Machine

/-! ### Fields of the state -/

@[simp] theorem State.putCore_core (s : State) (c : Nat) (x : Core) : (s.putCore c x).core = s.core := rfl
@[simp] theorem State.putCore_slot (s : State) (c : Nat) (x : Core) : (s.putCore c x).slot = s.slot := rfl
@[simp] theorem State.putCore_agenda (s : State) (c : Nat) (x : Core) : (s.putCore c x).agenda = s.agenda := rfl
@[simp] theorem State.putCore_steps (s : State) (c : Nat) (x : Core) : (s.putCore c x).steps = s.steps := rfl
@[simp] theorem State.putCore_view (s : State) (c : Nat) (x : Core) : (s.putCore c x).view = s.view := rfl
@[simp] theorem State.putCore_service (s : State) (c : Nat) (x : Core) : (s.putCore c x).service = s.service := rfl
@[simp] theorem State.putCore_clk (s : State) (c : Nat) (x : Core) : (s.putCore c x).clk = s.clk := rfl
@[simp] theorem State.putCore_mem (s : State) (c : Nat) (x : Core) : (s.putCore c x).mem = s.mem := rfl
@[simp] theorem State.putCore_poison (s : State) (c : Nat) (x : Core) : (s.putCore c x).poison = s.poison := rfl
@[simp] theorem State.putCore_flaws (s : State) (c : Nat) (x : Core) : (s.putCore c x).flaws = s.flaws := rfl
@[simp] theorem State.putCore_late (s : State) (c : Nat) (x : Core) : (s.putCore c x).late = s.late := rfl
@[simp] theorem State.putCore_lateTrace (s : State) (c : Nat) (x : Core) : (s.putCore c x).lateTrace = s.lateTrace := rfl
@[simp] theorem State.putCore_drawnAt (s : State) (c : Nat) (x : Core) : (s.putCore c x).drawnAt = s.drawnAt := rfl
@[simp] theorem State.putCore_spent (s : State) (c : Nat) (x : Core) : (s.putCore c x).spent = s.spent := rfl
@[simp] theorem State.putCore_tags (s : State) (c : Nat) (x : Core) : (s.putCore c x).tags = s.tags := rfl
@[simp] theorem State.putCore_reels (s : State) (c : Nat) (x : Core) : (s.putCore c x).reels = s.reels := rfl
@[simp] theorem State.putCore_reelWaits (s : State) (c : Nat) (x : Core) : (s.putCore c x).reelWaits = s.reelWaits := rfl
@[simp] theorem State.putCore_releases (s : State) (c : Nat) (x : Core) : (s.putCore c x).releases = s.releases := rfl
@[simp] theorem State.putCore_steals (s : State) (c : Nat) (x : Core) : (s.putCore c x).steals = s.steals := rfl
@[simp] theorem State.putCore_net (s : State) (c : Nat) (x : Core) : (s.putCore c x).net = s.net := rfl
@[simp] theorem State.putCore_fids (s : State) (c : Nat) (x : Core) : (s.putCore c x).fids = s.fids := rfl
@[simp] theorem State.putCore_nextFid (s : State) (c : Nat) (x : Core) : (s.putCore c x).nextFid = s.nextFid := rfl
@[simp] theorem State.putCore_saved (s : State) (c : Nat) (x : Core) : (s.putCore c x).saved = s.saved := rfl
@[simp] theorem State.putCore_dies (s : State) (c : Nat) (x : Core) : (s.putCore c x).dies = s.dies := rfl
@[simp] theorem State.putCore_parts (s : State) (c : Nat) (x : Core) : (s.putCore c x).parts = s.parts := rfl
@[simp] theorem State.putCore_segs (s : State) (c : Nat) (x : Core) : (s.putCore c x).segs = s.segs := rfl
@[simp] theorem State.putCore_groups (s : State) (c : Nat) (x : Core) : (s.putCore c x).groups = s.groups := rfl
@[simp] theorem State.putCore_hbm (s : State) (c : Nat) (x : Core) : (s.putCore c x).hbm = s.hbm := rfl
@[simp] theorem State.putCore_vaults (s : State) (c : Nat) (x : Core) : (s.putCore c x).vaults = s.vaults := rfl
@[simp] theorem State.putCore_pkg (s : State) (c : Nat) (x : Core) : (s.putCore c x).pkg = s.pkg := rfl
@[simp] theorem State.putCore_spdm (s : State) (c : Nat) (x : Core) : (s.putCore c x).spdm = s.spdm := rfl
@[simp] theorem State.putCore_streams (s : State) (c : Nat) (x : Core) : (s.putCore c x).streams = s.streams := rfl

@[simp] theorem State.putStrand_core (s : State) (c : Nat) (k : Fin 9) (x : Strand) : (s.putStrand c k x).core = s.core := rfl
@[simp] theorem State.putStrand_slot (s : State) (c : Nat) (k : Fin 9) (x : Strand) : (s.putStrand c k x).slot = s.slot := rfl
@[simp] theorem State.putStrand_agenda (s : State) (c : Nat) (k : Fin 9) (x : Strand) : (s.putStrand c k x).agenda = s.agenda := rfl
@[simp] theorem State.putStrand_steps (s : State) (c : Nat) (k : Fin 9) (x : Strand) : (s.putStrand c k x).steps = s.steps := rfl
@[simp] theorem State.putStrand_view (s : State) (c : Nat) (k : Fin 9) (x : Strand) : (s.putStrand c k x).view = s.view := rfl
@[simp] theorem State.putStrand_service (s : State) (c : Nat) (k : Fin 9) (x : Strand) : (s.putStrand c k x).service = s.service := rfl
@[simp] theorem State.putStrand_clk (s : State) (c : Nat) (k : Fin 9) (x : Strand) : (s.putStrand c k x).clk = s.clk := rfl
@[simp] theorem State.putStrand_mem (s : State) (c : Nat) (k : Fin 9) (x : Strand) : (s.putStrand c k x).mem = s.mem := rfl
@[simp] theorem State.putStrand_poison (s : State) (c : Nat) (k : Fin 9) (x : Strand) : (s.putStrand c k x).poison = s.poison := rfl
@[simp] theorem State.putStrand_flaws (s : State) (c : Nat) (k : Fin 9) (x : Strand) : (s.putStrand c k x).flaws = s.flaws := rfl
@[simp] theorem State.putStrand_late (s : State) (c : Nat) (k : Fin 9) (x : Strand) : (s.putStrand c k x).late = s.late := rfl
@[simp] theorem State.putStrand_lateTrace (s : State) (c : Nat) (k : Fin 9) (x : Strand) : (s.putStrand c k x).lateTrace = s.lateTrace := rfl
@[simp] theorem State.putStrand_drawnAt (s : State) (c : Nat) (k : Fin 9) (x : Strand) : (s.putStrand c k x).drawnAt = s.drawnAt := rfl
@[simp] theorem State.putStrand_spent (s : State) (c : Nat) (k : Fin 9) (x : Strand) : (s.putStrand c k x).spent = s.spent := rfl
@[simp] theorem State.putStrand_tags (s : State) (c : Nat) (k : Fin 9) (x : Strand) : (s.putStrand c k x).tags = s.tags := rfl
@[simp] theorem State.putStrand_reels (s : State) (c : Nat) (k : Fin 9) (x : Strand) : (s.putStrand c k x).reels = s.reels := rfl
@[simp] theorem State.putStrand_reelWaits (s : State) (c : Nat) (k : Fin 9) (x : Strand) : (s.putStrand c k x).reelWaits = s.reelWaits := rfl
@[simp] theorem State.putStrand_releases (s : State) (c : Nat) (k : Fin 9) (x : Strand) : (s.putStrand c k x).releases = s.releases := rfl
@[simp] theorem State.putStrand_steals (s : State) (c : Nat) (k : Fin 9) (x : Strand) : (s.putStrand c k x).steals = s.steals := rfl
@[simp] theorem State.putStrand_net (s : State) (c : Nat) (k : Fin 9) (x : Strand) : (s.putStrand c k x).net = s.net := rfl
@[simp] theorem State.putStrand_fids (s : State) (c : Nat) (k : Fin 9) (x : Strand) : (s.putStrand c k x).fids = s.fids := rfl
@[simp] theorem State.putStrand_nextFid (s : State) (c : Nat) (k : Fin 9) (x : Strand) : (s.putStrand c k x).nextFid = s.nextFid := rfl
@[simp] theorem State.putStrand_saved (s : State) (c : Nat) (k : Fin 9) (x : Strand) : (s.putStrand c k x).saved = s.saved := rfl
@[simp] theorem State.putStrand_dies (s : State) (c : Nat) (k : Fin 9) (x : Strand) : (s.putStrand c k x).dies = s.dies := rfl
@[simp] theorem State.putStrand_parts (s : State) (c : Nat) (k : Fin 9) (x : Strand) : (s.putStrand c k x).parts = s.parts := rfl
@[simp] theorem State.putStrand_segs (s : State) (c : Nat) (k : Fin 9) (x : Strand) : (s.putStrand c k x).segs = s.segs := rfl
@[simp] theorem State.putStrand_groups (s : State) (c : Nat) (k : Fin 9) (x : Strand) : (s.putStrand c k x).groups = s.groups := rfl
@[simp] theorem State.putStrand_hbm (s : State) (c : Nat) (k : Fin 9) (x : Strand) : (s.putStrand c k x).hbm = s.hbm := rfl
@[simp] theorem State.putStrand_vaults (s : State) (c : Nat) (k : Fin 9) (x : Strand) : (s.putStrand c k x).vaults = s.vaults := rfl
@[simp] theorem State.putStrand_pkg (s : State) (c : Nat) (k : Fin 9) (x : Strand) : (s.putStrand c k x).pkg = s.pkg := rfl
@[simp] theorem State.putStrand_spdm (s : State) (c : Nat) (k : Fin 9) (x : Strand) : (s.putStrand c k x).spdm = s.spdm := rfl
@[simp] theorem State.putStrand_streams (s : State) (c : Nat) (k : Fin 9) (x : Strand) : (s.putStrand c k x).streams = s.streams := rfl

@[simp] theorem State.putSelf_core (s : State) (x : Strand) : (s.putSelf x).core = s.core := rfl
@[simp] theorem State.putSelf_slot (s : State) (x : Strand) : (s.putSelf x).slot = s.slot := rfl
@[simp] theorem State.putSelf_agenda (s : State) (x : Strand) : (s.putSelf x).agenda = s.agenda := rfl
@[simp] theorem State.putSelf_steps (s : State) (x : Strand) : (s.putSelf x).steps = s.steps := rfl
@[simp] theorem State.putSelf_view (s : State) (x : Strand) : (s.putSelf x).view = s.view := rfl
@[simp] theorem State.putSelf_service (s : State) (x : Strand) : (s.putSelf x).service = s.service := rfl
@[simp] theorem State.putSelf_clk (s : State) (x : Strand) : (s.putSelf x).clk = s.clk := rfl
@[simp] theorem State.putSelf_mem (s : State) (x : Strand) : (s.putSelf x).mem = s.mem := rfl
@[simp] theorem State.putSelf_poison (s : State) (x : Strand) : (s.putSelf x).poison = s.poison := rfl
@[simp] theorem State.putSelf_flaws (s : State) (x : Strand) : (s.putSelf x).flaws = s.flaws := rfl
@[simp] theorem State.putSelf_late (s : State) (x : Strand) : (s.putSelf x).late = s.late := rfl
@[simp] theorem State.putSelf_lateTrace (s : State) (x : Strand) : (s.putSelf x).lateTrace = s.lateTrace := rfl
@[simp] theorem State.putSelf_drawnAt (s : State) (x : Strand) : (s.putSelf x).drawnAt = s.drawnAt := rfl
@[simp] theorem State.putSelf_spent (s : State) (x : Strand) : (s.putSelf x).spent = s.spent := rfl
@[simp] theorem State.putSelf_tags (s : State) (x : Strand) : (s.putSelf x).tags = s.tags := rfl
@[simp] theorem State.putSelf_reels (s : State) (x : Strand) : (s.putSelf x).reels = s.reels := rfl
@[simp] theorem State.putSelf_reelWaits (s : State) (x : Strand) : (s.putSelf x).reelWaits = s.reelWaits := rfl
@[simp] theorem State.putSelf_releases (s : State) (x : Strand) : (s.putSelf x).releases = s.releases := rfl
@[simp] theorem State.putSelf_steals (s : State) (x : Strand) : (s.putSelf x).steals = s.steals := rfl
@[simp] theorem State.putSelf_net (s : State) (x : Strand) : (s.putSelf x).net = s.net := rfl
@[simp] theorem State.putSelf_fids (s : State) (x : Strand) : (s.putSelf x).fids = s.fids := rfl
@[simp] theorem State.putSelf_nextFid (s : State) (x : Strand) : (s.putSelf x).nextFid = s.nextFid := rfl
@[simp] theorem State.putSelf_saved (s : State) (x : Strand) : (s.putSelf x).saved = s.saved := rfl
@[simp] theorem State.putSelf_dies (s : State) (x : Strand) : (s.putSelf x).dies = s.dies := rfl
@[simp] theorem State.putSelf_parts (s : State) (x : Strand) : (s.putSelf x).parts = s.parts := rfl
@[simp] theorem State.putSelf_segs (s : State) (x : Strand) : (s.putSelf x).segs = s.segs := rfl
@[simp] theorem State.putSelf_groups (s : State) (x : Strand) : (s.putSelf x).groups = s.groups := rfl
@[simp] theorem State.putSelf_hbm (s : State) (x : Strand) : (s.putSelf x).hbm = s.hbm := rfl
@[simp] theorem State.putSelf_vaults (s : State) (x : Strand) : (s.putSelf x).vaults = s.vaults := rfl
@[simp] theorem State.putSelf_pkg (s : State) (x : Strand) : (s.putSelf x).pkg = s.pkg := rfl
@[simp] theorem State.putSelf_spdm (s : State) (x : Strand) : (s.putSelf x).spdm = s.spdm := rfl
@[simp] theorem State.putSelf_streams (s : State) (x : Strand) : (s.putSelf x).streams = s.streams := rfl

@[simp] theorem State.upd_core (s : State) (f : Strand → Strand) : (s.upd f).core = s.core := rfl
@[simp] theorem State.upd_slot (s : State) (f : Strand → Strand) : (s.upd f).slot = s.slot := rfl
@[simp] theorem State.upd_agenda (s : State) (f : Strand → Strand) : (s.upd f).agenda = s.agenda := rfl
@[simp] theorem State.upd_steps (s : State) (f : Strand → Strand) : (s.upd f).steps = s.steps := rfl
@[simp] theorem State.upd_view (s : State) (f : Strand → Strand) : (s.upd f).view = s.view := rfl
@[simp] theorem State.upd_service (s : State) (f : Strand → Strand) : (s.upd f).service = s.service := rfl
@[simp] theorem State.upd_clk (s : State) (f : Strand → Strand) : (s.upd f).clk = s.clk := rfl
@[simp] theorem State.upd_mem (s : State) (f : Strand → Strand) : (s.upd f).mem = s.mem := rfl
@[simp] theorem State.upd_poison (s : State) (f : Strand → Strand) : (s.upd f).poison = s.poison := rfl
@[simp] theorem State.upd_flaws (s : State) (f : Strand → Strand) : (s.upd f).flaws = s.flaws := rfl
@[simp] theorem State.upd_late (s : State) (f : Strand → Strand) : (s.upd f).late = s.late := rfl
@[simp] theorem State.upd_lateTrace (s : State) (f : Strand → Strand) : (s.upd f).lateTrace = s.lateTrace := rfl
@[simp] theorem State.upd_drawnAt (s : State) (f : Strand → Strand) : (s.upd f).drawnAt = s.drawnAt := rfl
@[simp] theorem State.upd_spent (s : State) (f : Strand → Strand) : (s.upd f).spent = s.spent := rfl
@[simp] theorem State.upd_tags (s : State) (f : Strand → Strand) : (s.upd f).tags = s.tags := rfl
@[simp] theorem State.upd_reels (s : State) (f : Strand → Strand) : (s.upd f).reels = s.reels := rfl
@[simp] theorem State.upd_reelWaits (s : State) (f : Strand → Strand) : (s.upd f).reelWaits = s.reelWaits := rfl
@[simp] theorem State.upd_releases (s : State) (f : Strand → Strand) : (s.upd f).releases = s.releases := rfl
@[simp] theorem State.upd_steals (s : State) (f : Strand → Strand) : (s.upd f).steals = s.steals := rfl
@[simp] theorem State.upd_net (s : State) (f : Strand → Strand) : (s.upd f).net = s.net := rfl
@[simp] theorem State.upd_fids (s : State) (f : Strand → Strand) : (s.upd f).fids = s.fids := rfl
@[simp] theorem State.upd_nextFid (s : State) (f : Strand → Strand) : (s.upd f).nextFid = s.nextFid := rfl
@[simp] theorem State.upd_saved (s : State) (f : Strand → Strand) : (s.upd f).saved = s.saved := rfl
@[simp] theorem State.upd_dies (s : State) (f : Strand → Strand) : (s.upd f).dies = s.dies := rfl
@[simp] theorem State.upd_parts (s : State) (f : Strand → Strand) : (s.upd f).parts = s.parts := rfl
@[simp] theorem State.upd_segs (s : State) (f : Strand → Strand) : (s.upd f).segs = s.segs := rfl
@[simp] theorem State.upd_groups (s : State) (f : Strand → Strand) : (s.upd f).groups = s.groups := rfl
@[simp] theorem State.upd_hbm (s : State) (f : Strand → Strand) : (s.upd f).hbm = s.hbm := rfl
@[simp] theorem State.upd_vaults (s : State) (f : Strand → Strand) : (s.upd f).vaults = s.vaults := rfl
@[simp] theorem State.upd_pkg (s : State) (f : Strand → Strand) : (s.upd f).pkg = s.pkg := rfl
@[simp] theorem State.upd_spdm (s : State) (f : Strand → Strand) : (s.upd f).spdm = s.spdm := rfl
@[simp] theorem State.upd_streams (s : State) (f : Strand → Strand) : (s.upd f).streams = s.streams := rfl

@[simp] theorem State.updAt_core (s : State) (c : Nat) (k : Fin 9) (f : Strand → Strand) : (s.updAt c k f).core = s.core := rfl
@[simp] theorem State.updAt_slot (s : State) (c : Nat) (k : Fin 9) (f : Strand → Strand) : (s.updAt c k f).slot = s.slot := rfl
@[simp] theorem State.updAt_agenda (s : State) (c : Nat) (k : Fin 9) (f : Strand → Strand) : (s.updAt c k f).agenda = s.agenda := rfl
@[simp] theorem State.updAt_steps (s : State) (c : Nat) (k : Fin 9) (f : Strand → Strand) : (s.updAt c k f).steps = s.steps := rfl
@[simp] theorem State.updAt_view (s : State) (c : Nat) (k : Fin 9) (f : Strand → Strand) : (s.updAt c k f).view = s.view := rfl
@[simp] theorem State.updAt_service (s : State) (c : Nat) (k : Fin 9) (f : Strand → Strand) : (s.updAt c k f).service = s.service := rfl
@[simp] theorem State.updAt_clk (s : State) (c : Nat) (k : Fin 9) (f : Strand → Strand) : (s.updAt c k f).clk = s.clk := rfl
@[simp] theorem State.updAt_mem (s : State) (c : Nat) (k : Fin 9) (f : Strand → Strand) : (s.updAt c k f).mem = s.mem := rfl
@[simp] theorem State.updAt_poison (s : State) (c : Nat) (k : Fin 9) (f : Strand → Strand) : (s.updAt c k f).poison = s.poison := rfl
@[simp] theorem State.updAt_flaws (s : State) (c : Nat) (k : Fin 9) (f : Strand → Strand) : (s.updAt c k f).flaws = s.flaws := rfl
@[simp] theorem State.updAt_late (s : State) (c : Nat) (k : Fin 9) (f : Strand → Strand) : (s.updAt c k f).late = s.late := rfl
@[simp] theorem State.updAt_lateTrace (s : State) (c : Nat) (k : Fin 9) (f : Strand → Strand) : (s.updAt c k f).lateTrace = s.lateTrace := rfl
@[simp] theorem State.updAt_drawnAt (s : State) (c : Nat) (k : Fin 9) (f : Strand → Strand) : (s.updAt c k f).drawnAt = s.drawnAt := rfl
@[simp] theorem State.updAt_spent (s : State) (c : Nat) (k : Fin 9) (f : Strand → Strand) : (s.updAt c k f).spent = s.spent := rfl
@[simp] theorem State.updAt_tags (s : State) (c : Nat) (k : Fin 9) (f : Strand → Strand) : (s.updAt c k f).tags = s.tags := rfl
@[simp] theorem State.updAt_reels (s : State) (c : Nat) (k : Fin 9) (f : Strand → Strand) : (s.updAt c k f).reels = s.reels := rfl
@[simp] theorem State.updAt_reelWaits (s : State) (c : Nat) (k : Fin 9) (f : Strand → Strand) : (s.updAt c k f).reelWaits = s.reelWaits := rfl
@[simp] theorem State.updAt_releases (s : State) (c : Nat) (k : Fin 9) (f : Strand → Strand) : (s.updAt c k f).releases = s.releases := rfl
@[simp] theorem State.updAt_steals (s : State) (c : Nat) (k : Fin 9) (f : Strand → Strand) : (s.updAt c k f).steals = s.steals := rfl
@[simp] theorem State.updAt_net (s : State) (c : Nat) (k : Fin 9) (f : Strand → Strand) : (s.updAt c k f).net = s.net := rfl
@[simp] theorem State.updAt_fids (s : State) (c : Nat) (k : Fin 9) (f : Strand → Strand) : (s.updAt c k f).fids = s.fids := rfl
@[simp] theorem State.updAt_nextFid (s : State) (c : Nat) (k : Fin 9) (f : Strand → Strand) : (s.updAt c k f).nextFid = s.nextFid := rfl
@[simp] theorem State.updAt_saved (s : State) (c : Nat) (k : Fin 9) (f : Strand → Strand) : (s.updAt c k f).saved = s.saved := rfl
@[simp] theorem State.updAt_dies (s : State) (c : Nat) (k : Fin 9) (f : Strand → Strand) : (s.updAt c k f).dies = s.dies := rfl
@[simp] theorem State.updAt_parts (s : State) (c : Nat) (k : Fin 9) (f : Strand → Strand) : (s.updAt c k f).parts = s.parts := rfl
@[simp] theorem State.updAt_segs (s : State) (c : Nat) (k : Fin 9) (f : Strand → Strand) : (s.updAt c k f).segs = s.segs := rfl
@[simp] theorem State.updAt_groups (s : State) (c : Nat) (k : Fin 9) (f : Strand → Strand) : (s.updAt c k f).groups = s.groups := rfl
@[simp] theorem State.updAt_hbm (s : State) (c : Nat) (k : Fin 9) (f : Strand → Strand) : (s.updAt c k f).hbm = s.hbm := rfl
@[simp] theorem State.updAt_vaults (s : State) (c : Nat) (k : Fin 9) (f : Strand → Strand) : (s.updAt c k f).vaults = s.vaults := rfl
@[simp] theorem State.updAt_pkg (s : State) (c : Nat) (k : Fin 9) (f : Strand → Strand) : (s.updAt c k f).pkg = s.pkg := rfl
@[simp] theorem State.updAt_spdm (s : State) (c : Nat) (k : Fin 9) (f : Strand → Strand) : (s.updAt c k f).spdm = s.spdm := rfl
@[simp] theorem State.updAt_streams (s : State) (c : Nat) (k : Fin 9) (f : Strand → Strand) : (s.updAt c k f).streams = s.streams := rfl

@[simp] theorem State.updCore_core (s : State) (c : Nat) (f : Core → Core) : (s.updCore c f).core = s.core := rfl
@[simp] theorem State.updCore_slot (s : State) (c : Nat) (f : Core → Core) : (s.updCore c f).slot = s.slot := rfl
@[simp] theorem State.updCore_agenda (s : State) (c : Nat) (f : Core → Core) : (s.updCore c f).agenda = s.agenda := rfl
@[simp] theorem State.updCore_steps (s : State) (c : Nat) (f : Core → Core) : (s.updCore c f).steps = s.steps := rfl
@[simp] theorem State.updCore_view (s : State) (c : Nat) (f : Core → Core) : (s.updCore c f).view = s.view := rfl
@[simp] theorem State.updCore_service (s : State) (c : Nat) (f : Core → Core) : (s.updCore c f).service = s.service := rfl
@[simp] theorem State.updCore_clk (s : State) (c : Nat) (f : Core → Core) : (s.updCore c f).clk = s.clk := rfl
@[simp] theorem State.updCore_mem (s : State) (c : Nat) (f : Core → Core) : (s.updCore c f).mem = s.mem := rfl
@[simp] theorem State.updCore_poison (s : State) (c : Nat) (f : Core → Core) : (s.updCore c f).poison = s.poison := rfl
@[simp] theorem State.updCore_flaws (s : State) (c : Nat) (f : Core → Core) : (s.updCore c f).flaws = s.flaws := rfl
@[simp] theorem State.updCore_late (s : State) (c : Nat) (f : Core → Core) : (s.updCore c f).late = s.late := rfl
@[simp] theorem State.updCore_lateTrace (s : State) (c : Nat) (f : Core → Core) : (s.updCore c f).lateTrace = s.lateTrace := rfl
@[simp] theorem State.updCore_drawnAt (s : State) (c : Nat) (f : Core → Core) : (s.updCore c f).drawnAt = s.drawnAt := rfl
@[simp] theorem State.updCore_spent (s : State) (c : Nat) (f : Core → Core) : (s.updCore c f).spent = s.spent := rfl
@[simp] theorem State.updCore_tags (s : State) (c : Nat) (f : Core → Core) : (s.updCore c f).tags = s.tags := rfl
@[simp] theorem State.updCore_reels (s : State) (c : Nat) (f : Core → Core) : (s.updCore c f).reels = s.reels := rfl
@[simp] theorem State.updCore_reelWaits (s : State) (c : Nat) (f : Core → Core) : (s.updCore c f).reelWaits = s.reelWaits := rfl
@[simp] theorem State.updCore_releases (s : State) (c : Nat) (f : Core → Core) : (s.updCore c f).releases = s.releases := rfl
@[simp] theorem State.updCore_steals (s : State) (c : Nat) (f : Core → Core) : (s.updCore c f).steals = s.steals := rfl
@[simp] theorem State.updCore_net (s : State) (c : Nat) (f : Core → Core) : (s.updCore c f).net = s.net := rfl
@[simp] theorem State.updCore_fids (s : State) (c : Nat) (f : Core → Core) : (s.updCore c f).fids = s.fids := rfl
@[simp] theorem State.updCore_nextFid (s : State) (c : Nat) (f : Core → Core) : (s.updCore c f).nextFid = s.nextFid := rfl
@[simp] theorem State.updCore_saved (s : State) (c : Nat) (f : Core → Core) : (s.updCore c f).saved = s.saved := rfl
@[simp] theorem State.updCore_dies (s : State) (c : Nat) (f : Core → Core) : (s.updCore c f).dies = s.dies := rfl
@[simp] theorem State.updCore_parts (s : State) (c : Nat) (f : Core → Core) : (s.updCore c f).parts = s.parts := rfl
@[simp] theorem State.updCore_segs (s : State) (c : Nat) (f : Core → Core) : (s.updCore c f).segs = s.segs := rfl
@[simp] theorem State.updCore_groups (s : State) (c : Nat) (f : Core → Core) : (s.updCore c f).groups = s.groups := rfl
@[simp] theorem State.updCore_hbm (s : State) (c : Nat) (f : Core → Core) : (s.updCore c f).hbm = s.hbm := rfl
@[simp] theorem State.updCore_vaults (s : State) (c : Nat) (f : Core → Core) : (s.updCore c f).vaults = s.vaults := rfl
@[simp] theorem State.updCore_pkg (s : State) (c : Nat) (f : Core → Core) : (s.updCore c f).pkg = s.pkg := rfl
@[simp] theorem State.updCore_spdm (s : State) (c : Nat) (f : Core → Core) : (s.updCore c f).spdm = s.spdm := rfl
@[simp] theorem State.updCore_streams (s : State) (c : Nat) (f : Core → Core) : (s.updCore c f).streams = s.streams := rfl

@[simp] theorem State.mapCores_core (s : State) (p : Nat → Bool) (f : Nat → Core → Core) : (s.mapCores p f).core = s.core := rfl
@[simp] theorem State.mapCores_slot (s : State) (p : Nat → Bool) (f : Nat → Core → Core) : (s.mapCores p f).slot = s.slot := rfl
@[simp] theorem State.mapCores_agenda (s : State) (p : Nat → Bool) (f : Nat → Core → Core) : (s.mapCores p f).agenda = s.agenda := rfl
@[simp] theorem State.mapCores_steps (s : State) (p : Nat → Bool) (f : Nat → Core → Core) : (s.mapCores p f).steps = s.steps := rfl
@[simp] theorem State.mapCores_view (s : State) (p : Nat → Bool) (f : Nat → Core → Core) : (s.mapCores p f).view = s.view := rfl
@[simp] theorem State.mapCores_service (s : State) (p : Nat → Bool) (f : Nat → Core → Core) : (s.mapCores p f).service = s.service := rfl
@[simp] theorem State.mapCores_clk (s : State) (p : Nat → Bool) (f : Nat → Core → Core) : (s.mapCores p f).clk = s.clk := rfl
@[simp] theorem State.mapCores_mem (s : State) (p : Nat → Bool) (f : Nat → Core → Core) : (s.mapCores p f).mem = s.mem := rfl
@[simp] theorem State.mapCores_poison (s : State) (p : Nat → Bool) (f : Nat → Core → Core) : (s.mapCores p f).poison = s.poison := rfl
@[simp] theorem State.mapCores_flaws (s : State) (p : Nat → Bool) (f : Nat → Core → Core) : (s.mapCores p f).flaws = s.flaws := rfl
@[simp] theorem State.mapCores_late (s : State) (p : Nat → Bool) (f : Nat → Core → Core) : (s.mapCores p f).late = s.late := rfl
@[simp] theorem State.mapCores_lateTrace (s : State) (p : Nat → Bool) (f : Nat → Core → Core) : (s.mapCores p f).lateTrace = s.lateTrace := rfl
@[simp] theorem State.mapCores_drawnAt (s : State) (p : Nat → Bool) (f : Nat → Core → Core) : (s.mapCores p f).drawnAt = s.drawnAt := rfl
@[simp] theorem State.mapCores_spent (s : State) (p : Nat → Bool) (f : Nat → Core → Core) : (s.mapCores p f).spent = s.spent := rfl
@[simp] theorem State.mapCores_tags (s : State) (p : Nat → Bool) (f : Nat → Core → Core) : (s.mapCores p f).tags = s.tags := rfl
@[simp] theorem State.mapCores_reels (s : State) (p : Nat → Bool) (f : Nat → Core → Core) : (s.mapCores p f).reels = s.reels := rfl
@[simp] theorem State.mapCores_reelWaits (s : State) (p : Nat → Bool) (f : Nat → Core → Core) : (s.mapCores p f).reelWaits = s.reelWaits := rfl
@[simp] theorem State.mapCores_releases (s : State) (p : Nat → Bool) (f : Nat → Core → Core) : (s.mapCores p f).releases = s.releases := rfl
@[simp] theorem State.mapCores_steals (s : State) (p : Nat → Bool) (f : Nat → Core → Core) : (s.mapCores p f).steals = s.steals := rfl
@[simp] theorem State.mapCores_net (s : State) (p : Nat → Bool) (f : Nat → Core → Core) : (s.mapCores p f).net = s.net := rfl
@[simp] theorem State.mapCores_fids (s : State) (p : Nat → Bool) (f : Nat → Core → Core) : (s.mapCores p f).fids = s.fids := rfl
@[simp] theorem State.mapCores_nextFid (s : State) (p : Nat → Bool) (f : Nat → Core → Core) : (s.mapCores p f).nextFid = s.nextFid := rfl
@[simp] theorem State.mapCores_saved (s : State) (p : Nat → Bool) (f : Nat → Core → Core) : (s.mapCores p f).saved = s.saved := rfl
@[simp] theorem State.mapCores_dies (s : State) (p : Nat → Bool) (f : Nat → Core → Core) : (s.mapCores p f).dies = s.dies := rfl
@[simp] theorem State.mapCores_parts (s : State) (p : Nat → Bool) (f : Nat → Core → Core) : (s.mapCores p f).parts = s.parts := rfl
@[simp] theorem State.mapCores_segs (s : State) (p : Nat → Bool) (f : Nat → Core → Core) : (s.mapCores p f).segs = s.segs := rfl
@[simp] theorem State.mapCores_groups (s : State) (p : Nat → Bool) (f : Nat → Core → Core) : (s.mapCores p f).groups = s.groups := rfl
@[simp] theorem State.mapCores_hbm (s : State) (p : Nat → Bool) (f : Nat → Core → Core) : (s.mapCores p f).hbm = s.hbm := rfl
@[simp] theorem State.mapCores_vaults (s : State) (p : Nat → Bool) (f : Nat → Core → Core) : (s.mapCores p f).vaults = s.vaults := rfl
@[simp] theorem State.mapCores_pkg (s : State) (p : Nat → Bool) (f : Nat → Core → Core) : (s.mapCores p f).pkg = s.pkg := rfl
@[simp] theorem State.mapCores_spdm (s : State) (p : Nat → Bool) (f : Nat → Core → Core) : (s.mapCores p f).spdm = s.spdm := rfl
@[simp] theorem State.mapCores_streams (s : State) (p : Nat → Bool) (f : Nat → Core → Core) : (s.mapCores p f).streams = s.streams := rfl

@[simp] theorem State.retire_core (s : State) : (s.retire).core = s.core := rfl
@[simp] theorem State.retire_slot (s : State) : (s.retire).slot = s.slot := rfl
@[simp] theorem State.retire_agenda (s : State) : (s.retire).agenda = s.agenda := rfl
@[simp] theorem State.retire_steps (s : State) : (s.retire).steps = s.steps := rfl
@[simp] theorem State.retire_view (s : State) : (s.retire).view = s.view := rfl
@[simp] theorem State.retire_service (s : State) : (s.retire).service = s.service := rfl
@[simp] theorem State.retire_clk (s : State) : (s.retire).clk = s.clk := rfl
@[simp] theorem State.retire_mem (s : State) : (s.retire).mem = s.mem := rfl
@[simp] theorem State.retire_poison (s : State) : (s.retire).poison = s.poison := rfl
@[simp] theorem State.retire_flaws (s : State) : (s.retire).flaws = s.flaws := rfl
@[simp] theorem State.retire_late (s : State) : (s.retire).late = s.late := rfl
@[simp] theorem State.retire_lateTrace (s : State) : (s.retire).lateTrace = s.lateTrace := rfl
@[simp] theorem State.retire_drawnAt (s : State) : (s.retire).drawnAt = s.drawnAt := rfl
@[simp] theorem State.retire_spent (s : State) : (s.retire).spent = s.spent := rfl
@[simp] theorem State.retire_tags (s : State) : (s.retire).tags = s.tags := rfl
@[simp] theorem State.retire_reels (s : State) : (s.retire).reels = s.reels := rfl
@[simp] theorem State.retire_reelWaits (s : State) : (s.retire).reelWaits = s.reelWaits := rfl
@[simp] theorem State.retire_releases (s : State) : (s.retire).releases = s.releases := rfl
@[simp] theorem State.retire_steals (s : State) : (s.retire).steals = s.steals := rfl
@[simp] theorem State.retire_net (s : State) : (s.retire).net = s.net := rfl
@[simp] theorem State.retire_fids (s : State) : (s.retire).fids = s.fids := rfl
@[simp] theorem State.retire_nextFid (s : State) : (s.retire).nextFid = s.nextFid := rfl
@[simp] theorem State.retire_saved (s : State) : (s.retire).saved = s.saved := rfl
@[simp] theorem State.retire_dies (s : State) : (s.retire).dies = s.dies := rfl
@[simp] theorem State.retire_parts (s : State) : (s.retire).parts = s.parts := rfl
@[simp] theorem State.retire_segs (s : State) : (s.retire).segs = s.segs := rfl
@[simp] theorem State.retire_groups (s : State) : (s.retire).groups = s.groups := rfl
@[simp] theorem State.retire_hbm (s : State) : (s.retire).hbm = s.hbm := rfl
@[simp] theorem State.retire_vaults (s : State) : (s.retire).vaults = s.vaults := rfl
@[simp] theorem State.retire_pkg (s : State) : (s.retire).pkg = s.pkg := rfl
@[simp] theorem State.retire_spdm (s : State) : (s.retire).spdm = s.spdm := rfl
@[simp] theorem State.retire_streams (s : State) : (s.retire).streams = s.streams := rfl

@[simp] theorem State.issuedWait_core (s : State) (w : Wait) : (s.issuedWait w).core = s.core := rfl
@[simp] theorem State.issuedWait_slot (s : State) (w : Wait) : (s.issuedWait w).slot = s.slot := rfl
@[simp] theorem State.issuedWait_agenda (s : State) (w : Wait) : (s.issuedWait w).agenda = s.agenda := rfl
@[simp] theorem State.issuedWait_steps (s : State) (w : Wait) : (s.issuedWait w).steps = s.steps := rfl
@[simp] theorem State.issuedWait_view (s : State) (w : Wait) : (s.issuedWait w).view = s.view := rfl
@[simp] theorem State.issuedWait_service (s : State) (w : Wait) : (s.issuedWait w).service = s.service := rfl
@[simp] theorem State.issuedWait_clk (s : State) (w : Wait) : (s.issuedWait w).clk = s.clk := rfl
@[simp] theorem State.issuedWait_mem (s : State) (w : Wait) : (s.issuedWait w).mem = s.mem := rfl
@[simp] theorem State.issuedWait_poison (s : State) (w : Wait) : (s.issuedWait w).poison = s.poison := rfl
@[simp] theorem State.issuedWait_flaws (s : State) (w : Wait) : (s.issuedWait w).flaws = s.flaws := rfl
@[simp] theorem State.issuedWait_late (s : State) (w : Wait) : (s.issuedWait w).late = s.late := rfl
@[simp] theorem State.issuedWait_lateTrace (s : State) (w : Wait) : (s.issuedWait w).lateTrace = s.lateTrace := rfl
@[simp] theorem State.issuedWait_drawnAt (s : State) (w : Wait) : (s.issuedWait w).drawnAt = s.drawnAt := rfl
@[simp] theorem State.issuedWait_spent (s : State) (w : Wait) : (s.issuedWait w).spent = s.spent := rfl
@[simp] theorem State.issuedWait_tags (s : State) (w : Wait) : (s.issuedWait w).tags = s.tags := rfl
@[simp] theorem State.issuedWait_reels (s : State) (w : Wait) : (s.issuedWait w).reels = s.reels := rfl
@[simp] theorem State.issuedWait_reelWaits (s : State) (w : Wait) : (s.issuedWait w).reelWaits = s.reelWaits := rfl
@[simp] theorem State.issuedWait_releases (s : State) (w : Wait) : (s.issuedWait w).releases = s.releases := rfl
@[simp] theorem State.issuedWait_steals (s : State) (w : Wait) : (s.issuedWait w).steals = s.steals := rfl
@[simp] theorem State.issuedWait_net (s : State) (w : Wait) : (s.issuedWait w).net = s.net := rfl
@[simp] theorem State.issuedWait_fids (s : State) (w : Wait) : (s.issuedWait w).fids = s.fids := rfl
@[simp] theorem State.issuedWait_nextFid (s : State) (w : Wait) : (s.issuedWait w).nextFid = s.nextFid := rfl
@[simp] theorem State.issuedWait_saved (s : State) (w : Wait) : (s.issuedWait w).saved = s.saved := rfl
@[simp] theorem State.issuedWait_dies (s : State) (w : Wait) : (s.issuedWait w).dies = s.dies := rfl
@[simp] theorem State.issuedWait_parts (s : State) (w : Wait) : (s.issuedWait w).parts = s.parts := rfl
@[simp] theorem State.issuedWait_segs (s : State) (w : Wait) : (s.issuedWait w).segs = s.segs := rfl
@[simp] theorem State.issuedWait_groups (s : State) (w : Wait) : (s.issuedWait w).groups = s.groups := rfl
@[simp] theorem State.issuedWait_hbm (s : State) (w : Wait) : (s.issuedWait w).hbm = s.hbm := rfl
@[simp] theorem State.issuedWait_vaults (s : State) (w : Wait) : (s.issuedWait w).vaults = s.vaults := rfl
@[simp] theorem State.issuedWait_pkg (s : State) (w : Wait) : (s.issuedWait w).pkg = s.pkg := rfl
@[simp] theorem State.issuedWait_spdm (s : State) (w : Wait) : (s.issuedWait w).spdm = s.spdm := rfl
@[simp] theorem State.issuedWait_streams (s : State) (w : Wait) : (s.issuedWait w).streams = s.streams := rfl

@[simp] theorem State.putCursor_core (s : State) (e : Eng) (u : Cursor) : (s.putCursor e u).core = s.core := rfl
@[simp] theorem State.putCursor_slot (s : State) (e : Eng) (u : Cursor) : (s.putCursor e u).slot = s.slot := rfl
@[simp] theorem State.putCursor_agenda (s : State) (e : Eng) (u : Cursor) : (s.putCursor e u).agenda = s.agenda := rfl
@[simp] theorem State.putCursor_steps (s : State) (e : Eng) (u : Cursor) : (s.putCursor e u).steps = s.steps := rfl
@[simp] theorem State.putCursor_view (s : State) (e : Eng) (u : Cursor) : (s.putCursor e u).view = s.view := rfl
@[simp] theorem State.putCursor_service (s : State) (e : Eng) (u : Cursor) : (s.putCursor e u).service = s.service := rfl
@[simp] theorem State.putCursor_clk (s : State) (e : Eng) (u : Cursor) : (s.putCursor e u).clk = s.clk := rfl
@[simp] theorem State.putCursor_mem (s : State) (e : Eng) (u : Cursor) : (s.putCursor e u).mem = s.mem := rfl
@[simp] theorem State.putCursor_poison (s : State) (e : Eng) (u : Cursor) : (s.putCursor e u).poison = s.poison := rfl
@[simp] theorem State.putCursor_flaws (s : State) (e : Eng) (u : Cursor) : (s.putCursor e u).flaws = s.flaws := rfl
@[simp] theorem State.putCursor_late (s : State) (e : Eng) (u : Cursor) : (s.putCursor e u).late = s.late := rfl
@[simp] theorem State.putCursor_lateTrace (s : State) (e : Eng) (u : Cursor) : (s.putCursor e u).lateTrace = s.lateTrace := rfl
@[simp] theorem State.putCursor_drawnAt (s : State) (e : Eng) (u : Cursor) : (s.putCursor e u).drawnAt = s.drawnAt := rfl
@[simp] theorem State.putCursor_spent (s : State) (e : Eng) (u : Cursor) : (s.putCursor e u).spent = s.spent := rfl
@[simp] theorem State.putCursor_tags (s : State) (e : Eng) (u : Cursor) : (s.putCursor e u).tags = s.tags := rfl
@[simp] theorem State.putCursor_reels (s : State) (e : Eng) (u : Cursor) : (s.putCursor e u).reels = s.reels := rfl
@[simp] theorem State.putCursor_reelWaits (s : State) (e : Eng) (u : Cursor) : (s.putCursor e u).reelWaits = s.reelWaits := rfl
@[simp] theorem State.putCursor_releases (s : State) (e : Eng) (u : Cursor) : (s.putCursor e u).releases = s.releases := rfl
@[simp] theorem State.putCursor_steals (s : State) (e : Eng) (u : Cursor) : (s.putCursor e u).steals = s.steals := rfl
@[simp] theorem State.putCursor_net (s : State) (e : Eng) (u : Cursor) : (s.putCursor e u).net = s.net := rfl
@[simp] theorem State.putCursor_fids (s : State) (e : Eng) (u : Cursor) : (s.putCursor e u).fids = s.fids := rfl
@[simp] theorem State.putCursor_nextFid (s : State) (e : Eng) (u : Cursor) : (s.putCursor e u).nextFid = s.nextFid := rfl
@[simp] theorem State.putCursor_saved (s : State) (e : Eng) (u : Cursor) : (s.putCursor e u).saved = s.saved := rfl
@[simp] theorem State.putCursor_dies (s : State) (e : Eng) (u : Cursor) : (s.putCursor e u).dies = s.dies := rfl
@[simp] theorem State.putCursor_parts (s : State) (e : Eng) (u : Cursor) : (s.putCursor e u).parts = s.parts := rfl
@[simp] theorem State.putCursor_segs (s : State) (e : Eng) (u : Cursor) : (s.putCursor e u).segs = s.segs := rfl
@[simp] theorem State.putCursor_groups (s : State) (e : Eng) (u : Cursor) : (s.putCursor e u).groups = s.groups := rfl
@[simp] theorem State.putCursor_hbm (s : State) (e : Eng) (u : Cursor) : (s.putCursor e u).hbm = s.hbm := rfl
@[simp] theorem State.putCursor_vaults (s : State) (e : Eng) (u : Cursor) : (s.putCursor e u).vaults = s.vaults := rfl
@[simp] theorem State.putCursor_pkg (s : State) (e : Eng) (u : Cursor) : (s.putCursor e u).pkg = s.pkg := rfl
@[simp] theorem State.putCursor_spdm (s : State) (e : Eng) (u : Cursor) : (s.putCursor e u).spdm = s.spdm := rfl
@[simp] theorem State.putCursor_streams (s : State) (e : Eng) (u : Cursor) : (s.putCursor e u).streams = s.streams := rfl

@[simp] theorem State.putSeg_core (s : State) (g : Nat) (x : Segment) : (s.putSeg g x).core = s.core := rfl
@[simp] theorem State.putSeg_slot (s : State) (g : Nat) (x : Segment) : (s.putSeg g x).slot = s.slot := rfl
@[simp] theorem State.putSeg_agenda (s : State) (g : Nat) (x : Segment) : (s.putSeg g x).agenda = s.agenda := rfl
@[simp] theorem State.putSeg_steps (s : State) (g : Nat) (x : Segment) : (s.putSeg g x).steps = s.steps := rfl
@[simp] theorem State.putSeg_view (s : State) (g : Nat) (x : Segment) : (s.putSeg g x).view = s.view := rfl
@[simp] theorem State.putSeg_service (s : State) (g : Nat) (x : Segment) : (s.putSeg g x).service = s.service := rfl
@[simp] theorem State.putSeg_clk (s : State) (g : Nat) (x : Segment) : (s.putSeg g x).clk = s.clk := rfl
@[simp] theorem State.putSeg_mem (s : State) (g : Nat) (x : Segment) : (s.putSeg g x).mem = s.mem := rfl
@[simp] theorem State.putSeg_poison (s : State) (g : Nat) (x : Segment) : (s.putSeg g x).poison = s.poison := rfl
@[simp] theorem State.putSeg_flaws (s : State) (g : Nat) (x : Segment) : (s.putSeg g x).flaws = s.flaws := rfl
@[simp] theorem State.putSeg_cores (s : State) (g : Nat) (x : Segment) : (s.putSeg g x).cores = s.cores := rfl
@[simp] theorem State.putSeg_late (s : State) (g : Nat) (x : Segment) : (s.putSeg g x).late = s.late := rfl
@[simp] theorem State.putSeg_lateTrace (s : State) (g : Nat) (x : Segment) : (s.putSeg g x).lateTrace = s.lateTrace := rfl
@[simp] theorem State.putSeg_drawnAt (s : State) (g : Nat) (x : Segment) : (s.putSeg g x).drawnAt = s.drawnAt := rfl
@[simp] theorem State.putSeg_spent (s : State) (g : Nat) (x : Segment) : (s.putSeg g x).spent = s.spent := rfl
@[simp] theorem State.putSeg_tags (s : State) (g : Nat) (x : Segment) : (s.putSeg g x).tags = s.tags := rfl
@[simp] theorem State.putSeg_reels (s : State) (g : Nat) (x : Segment) : (s.putSeg g x).reels = s.reels := rfl
@[simp] theorem State.putSeg_reelWaits (s : State) (g : Nat) (x : Segment) : (s.putSeg g x).reelWaits = s.reelWaits := rfl
@[simp] theorem State.putSeg_releases (s : State) (g : Nat) (x : Segment) : (s.putSeg g x).releases = s.releases := rfl
@[simp] theorem State.putSeg_steals (s : State) (g : Nat) (x : Segment) : (s.putSeg g x).steals = s.steals := rfl
@[simp] theorem State.putSeg_net (s : State) (g : Nat) (x : Segment) : (s.putSeg g x).net = s.net := rfl
@[simp] theorem State.putSeg_fids (s : State) (g : Nat) (x : Segment) : (s.putSeg g x).fids = s.fids := rfl
@[simp] theorem State.putSeg_nextFid (s : State) (g : Nat) (x : Segment) : (s.putSeg g x).nextFid = s.nextFid := rfl
@[simp] theorem State.putSeg_saved (s : State) (g : Nat) (x : Segment) : (s.putSeg g x).saved = s.saved := rfl
@[simp] theorem State.putSeg_dies (s : State) (g : Nat) (x : Segment) : (s.putSeg g x).dies = s.dies := rfl
@[simp] theorem State.putSeg_parts (s : State) (g : Nat) (x : Segment) : (s.putSeg g x).parts = s.parts := rfl
@[simp] theorem State.putSeg_groups (s : State) (g : Nat) (x : Segment) : (s.putSeg g x).groups = s.groups := rfl
@[simp] theorem State.putSeg_hbm (s : State) (g : Nat) (x : Segment) : (s.putSeg g x).hbm = s.hbm := rfl
@[simp] theorem State.putSeg_vaults (s : State) (g : Nat) (x : Segment) : (s.putSeg g x).vaults = s.vaults := rfl
@[simp] theorem State.putSeg_pkg (s : State) (g : Nat) (x : Segment) : (s.putSeg g x).pkg = s.pkg := rfl
@[simp] theorem State.putSeg_spdm (s : State) (g : Nat) (x : Segment) : (s.putSeg g x).spdm = s.spdm := rfl
@[simp] theorem State.putSeg_streams (s : State) (g : Nat) (x : Segment) : (s.putSeg g x).streams = s.streams := rfl

@[simp] theorem State.putGroup_core (s : State) (h g : Nat) (x : Group) : (s.putGroup h g x).core = s.core := rfl
@[simp] theorem State.putGroup_slot (s : State) (h g : Nat) (x : Group) : (s.putGroup h g x).slot = s.slot := rfl
@[simp] theorem State.putGroup_agenda (s : State) (h g : Nat) (x : Group) : (s.putGroup h g x).agenda = s.agenda := rfl
@[simp] theorem State.putGroup_steps (s : State) (h g : Nat) (x : Group) : (s.putGroup h g x).steps = s.steps := rfl
@[simp] theorem State.putGroup_view (s : State) (h g : Nat) (x : Group) : (s.putGroup h g x).view = s.view := rfl
@[simp] theorem State.putGroup_service (s : State) (h g : Nat) (x : Group) : (s.putGroup h g x).service = s.service := rfl
@[simp] theorem State.putGroup_clk (s : State) (h g : Nat) (x : Group) : (s.putGroup h g x).clk = s.clk := rfl
@[simp] theorem State.putGroup_mem (s : State) (h g : Nat) (x : Group) : (s.putGroup h g x).mem = s.mem := rfl
@[simp] theorem State.putGroup_poison (s : State) (h g : Nat) (x : Group) : (s.putGroup h g x).poison = s.poison := rfl
@[simp] theorem State.putGroup_flaws (s : State) (h g : Nat) (x : Group) : (s.putGroup h g x).flaws = s.flaws := rfl
@[simp] theorem State.putGroup_cores (s : State) (h g : Nat) (x : Group) : (s.putGroup h g x).cores = s.cores := rfl
@[simp] theorem State.putGroup_late (s : State) (h g : Nat) (x : Group) : (s.putGroup h g x).late = s.late := rfl
@[simp] theorem State.putGroup_lateTrace (s : State) (h g : Nat) (x : Group) : (s.putGroup h g x).lateTrace = s.lateTrace := rfl
@[simp] theorem State.putGroup_drawnAt (s : State) (h g : Nat) (x : Group) : (s.putGroup h g x).drawnAt = s.drawnAt := rfl
@[simp] theorem State.putGroup_spent (s : State) (h g : Nat) (x : Group) : (s.putGroup h g x).spent = s.spent := rfl
@[simp] theorem State.putGroup_tags (s : State) (h g : Nat) (x : Group) : (s.putGroup h g x).tags = s.tags := rfl
@[simp] theorem State.putGroup_reels (s : State) (h g : Nat) (x : Group) : (s.putGroup h g x).reels = s.reels := rfl
@[simp] theorem State.putGroup_reelWaits (s : State) (h g : Nat) (x : Group) : (s.putGroup h g x).reelWaits = s.reelWaits := rfl
@[simp] theorem State.putGroup_releases (s : State) (h g : Nat) (x : Group) : (s.putGroup h g x).releases = s.releases := rfl
@[simp] theorem State.putGroup_steals (s : State) (h g : Nat) (x : Group) : (s.putGroup h g x).steals = s.steals := rfl
@[simp] theorem State.putGroup_net (s : State) (h g : Nat) (x : Group) : (s.putGroup h g x).net = s.net := rfl
@[simp] theorem State.putGroup_fids (s : State) (h g : Nat) (x : Group) : (s.putGroup h g x).fids = s.fids := rfl
@[simp] theorem State.putGroup_nextFid (s : State) (h g : Nat) (x : Group) : (s.putGroup h g x).nextFid = s.nextFid := rfl
@[simp] theorem State.putGroup_saved (s : State) (h g : Nat) (x : Group) : (s.putGroup h g x).saved = s.saved := rfl
@[simp] theorem State.putGroup_dies (s : State) (h g : Nat) (x : Group) : (s.putGroup h g x).dies = s.dies := rfl
@[simp] theorem State.putGroup_parts (s : State) (h g : Nat) (x : Group) : (s.putGroup h g x).parts = s.parts := rfl
@[simp] theorem State.putGroup_segs (s : State) (h g : Nat) (x : Group) : (s.putGroup h g x).segs = s.segs := rfl
@[simp] theorem State.putGroup_hbm (s : State) (h g : Nat) (x : Group) : (s.putGroup h g x).hbm = s.hbm := rfl
@[simp] theorem State.putGroup_vaults (s : State) (h g : Nat) (x : Group) : (s.putGroup h g x).vaults = s.vaults := rfl
@[simp] theorem State.putGroup_pkg (s : State) (h g : Nat) (x : Group) : (s.putGroup h g x).pkg = s.pkg := rfl
@[simp] theorem State.putGroup_spdm (s : State) (h g : Nat) (x : Group) : (s.putGroup h g x).spdm = s.spdm := rfl
@[simp] theorem State.putGroup_streams (s : State) (h g : Nat) (x : Group) : (s.putGroup h g x).streams = s.streams := rfl

@[simp] theorem State.putVault_core (s : State) (h v : Nat) (x : Vault) : (s.putVault h v x).core = s.core := rfl
@[simp] theorem State.putVault_slot (s : State) (h v : Nat) (x : Vault) : (s.putVault h v x).slot = s.slot := rfl
@[simp] theorem State.putVault_agenda (s : State) (h v : Nat) (x : Vault) : (s.putVault h v x).agenda = s.agenda := rfl
@[simp] theorem State.putVault_steps (s : State) (h v : Nat) (x : Vault) : (s.putVault h v x).steps = s.steps := rfl
@[simp] theorem State.putVault_view (s : State) (h v : Nat) (x : Vault) : (s.putVault h v x).view = s.view := rfl
@[simp] theorem State.putVault_service (s : State) (h v : Nat) (x : Vault) : (s.putVault h v x).service = s.service := rfl
@[simp] theorem State.putVault_clk (s : State) (h v : Nat) (x : Vault) : (s.putVault h v x).clk = s.clk := rfl
@[simp] theorem State.putVault_mem (s : State) (h v : Nat) (x : Vault) : (s.putVault h v x).mem = s.mem := rfl
@[simp] theorem State.putVault_poison (s : State) (h v : Nat) (x : Vault) : (s.putVault h v x).poison = s.poison := rfl
@[simp] theorem State.putVault_flaws (s : State) (h v : Nat) (x : Vault) : (s.putVault h v x).flaws = s.flaws := rfl
@[simp] theorem State.putVault_cores (s : State) (h v : Nat) (x : Vault) : (s.putVault h v x).cores = s.cores := rfl
@[simp] theorem State.putVault_late (s : State) (h v : Nat) (x : Vault) : (s.putVault h v x).late = s.late := rfl
@[simp] theorem State.putVault_lateTrace (s : State) (h v : Nat) (x : Vault) : (s.putVault h v x).lateTrace = s.lateTrace := rfl
@[simp] theorem State.putVault_drawnAt (s : State) (h v : Nat) (x : Vault) : (s.putVault h v x).drawnAt = s.drawnAt := rfl
@[simp] theorem State.putVault_spent (s : State) (h v : Nat) (x : Vault) : (s.putVault h v x).spent = s.spent := rfl
@[simp] theorem State.putVault_tags (s : State) (h v : Nat) (x : Vault) : (s.putVault h v x).tags = s.tags := rfl
@[simp] theorem State.putVault_reels (s : State) (h v : Nat) (x : Vault) : (s.putVault h v x).reels = s.reels := rfl
@[simp] theorem State.putVault_reelWaits (s : State) (h v : Nat) (x : Vault) : (s.putVault h v x).reelWaits = s.reelWaits := rfl
@[simp] theorem State.putVault_releases (s : State) (h v : Nat) (x : Vault) : (s.putVault h v x).releases = s.releases := rfl
@[simp] theorem State.putVault_steals (s : State) (h v : Nat) (x : Vault) : (s.putVault h v x).steals = s.steals := rfl
@[simp] theorem State.putVault_net (s : State) (h v : Nat) (x : Vault) : (s.putVault h v x).net = s.net := rfl
@[simp] theorem State.putVault_fids (s : State) (h v : Nat) (x : Vault) : (s.putVault h v x).fids = s.fids := rfl
@[simp] theorem State.putVault_nextFid (s : State) (h v : Nat) (x : Vault) : (s.putVault h v x).nextFid = s.nextFid := rfl
@[simp] theorem State.putVault_saved (s : State) (h v : Nat) (x : Vault) : (s.putVault h v x).saved = s.saved := rfl
@[simp] theorem State.putVault_dies (s : State) (h v : Nat) (x : Vault) : (s.putVault h v x).dies = s.dies := rfl
@[simp] theorem State.putVault_parts (s : State) (h v : Nat) (x : Vault) : (s.putVault h v x).parts = s.parts := rfl
@[simp] theorem State.putVault_segs (s : State) (h v : Nat) (x : Vault) : (s.putVault h v x).segs = s.segs := rfl
@[simp] theorem State.putVault_groups (s : State) (h v : Nat) (x : Vault) : (s.putVault h v x).groups = s.groups := rfl
@[simp] theorem State.putVault_hbm (s : State) (h v : Nat) (x : Vault) : (s.putVault h v x).hbm = s.hbm := rfl
@[simp] theorem State.putVault_pkg (s : State) (h v : Nat) (x : Vault) : (s.putVault h v x).pkg = s.pkg := rfl
@[simp] theorem State.putVault_spdm (s : State) (h v : Nat) (x : Vault) : (s.putVault h v x).spdm = s.spdm := rfl
@[simp] theorem State.putVault_streams (s : State) (h v : Nat) (x : Vault) : (s.putVault h v x).streams = s.streams := rfl

@[simp] theorem State.putPart_core (s : State) (p : Nat) (x : Partition) : (s.putPart p x).core = s.core := rfl
@[simp] theorem State.putPart_slot (s : State) (p : Nat) (x : Partition) : (s.putPart p x).slot = s.slot := rfl
@[simp] theorem State.putPart_agenda (s : State) (p : Nat) (x : Partition) : (s.putPart p x).agenda = s.agenda := rfl
@[simp] theorem State.putPart_steps (s : State) (p : Nat) (x : Partition) : (s.putPart p x).steps = s.steps := rfl
@[simp] theorem State.putPart_view (s : State) (p : Nat) (x : Partition) : (s.putPart p x).view = s.view := rfl
@[simp] theorem State.putPart_service (s : State) (p : Nat) (x : Partition) : (s.putPart p x).service = s.service := rfl
@[simp] theorem State.putPart_clk (s : State) (p : Nat) (x : Partition) : (s.putPart p x).clk = s.clk := rfl
@[simp] theorem State.putPart_mem (s : State) (p : Nat) (x : Partition) : (s.putPart p x).mem = s.mem := rfl
@[simp] theorem State.putPart_poison (s : State) (p : Nat) (x : Partition) : (s.putPart p x).poison = s.poison := rfl
@[simp] theorem State.putPart_flaws (s : State) (p : Nat) (x : Partition) : (s.putPart p x).flaws = s.flaws := rfl
@[simp] theorem State.putPart_cores (s : State) (p : Nat) (x : Partition) : (s.putPart p x).cores = s.cores := rfl
@[simp] theorem State.putPart_late (s : State) (p : Nat) (x : Partition) : (s.putPart p x).late = s.late := rfl
@[simp] theorem State.putPart_lateTrace (s : State) (p : Nat) (x : Partition) : (s.putPart p x).lateTrace = s.lateTrace := rfl
@[simp] theorem State.putPart_drawnAt (s : State) (p : Nat) (x : Partition) : (s.putPart p x).drawnAt = s.drawnAt := rfl
@[simp] theorem State.putPart_spent (s : State) (p : Nat) (x : Partition) : (s.putPart p x).spent = s.spent := rfl
@[simp] theorem State.putPart_tags (s : State) (p : Nat) (x : Partition) : (s.putPart p x).tags = s.tags := rfl
@[simp] theorem State.putPart_reels (s : State) (p : Nat) (x : Partition) : (s.putPart p x).reels = s.reels := rfl
@[simp] theorem State.putPart_reelWaits (s : State) (p : Nat) (x : Partition) : (s.putPart p x).reelWaits = s.reelWaits := rfl
@[simp] theorem State.putPart_releases (s : State) (p : Nat) (x : Partition) : (s.putPart p x).releases = s.releases := rfl
@[simp] theorem State.putPart_steals (s : State) (p : Nat) (x : Partition) : (s.putPart p x).steals = s.steals := rfl
@[simp] theorem State.putPart_net (s : State) (p : Nat) (x : Partition) : (s.putPart p x).net = s.net := rfl
@[simp] theorem State.putPart_fids (s : State) (p : Nat) (x : Partition) : (s.putPart p x).fids = s.fids := rfl
@[simp] theorem State.putPart_nextFid (s : State) (p : Nat) (x : Partition) : (s.putPart p x).nextFid = s.nextFid := rfl
@[simp] theorem State.putPart_saved (s : State) (p : Nat) (x : Partition) : (s.putPart p x).saved = s.saved := rfl
@[simp] theorem State.putPart_dies (s : State) (p : Nat) (x : Partition) : (s.putPart p x).dies = s.dies := rfl
@[simp] theorem State.putPart_segs (s : State) (p : Nat) (x : Partition) : (s.putPart p x).segs = s.segs := rfl
@[simp] theorem State.putPart_groups (s : State) (p : Nat) (x : Partition) : (s.putPart p x).groups = s.groups := rfl
@[simp] theorem State.putPart_hbm (s : State) (p : Nat) (x : Partition) : (s.putPart p x).hbm = s.hbm := rfl
@[simp] theorem State.putPart_vaults (s : State) (p : Nat) (x : Partition) : (s.putPart p x).vaults = s.vaults := rfl
@[simp] theorem State.putPart_pkg (s : State) (p : Nat) (x : Partition) : (s.putPart p x).pkg = s.pkg := rfl
@[simp] theorem State.putPart_spdm (s : State) (p : Nat) (x : Partition) : (s.putPart p x).spdm = s.spdm := rfl
@[simp] theorem State.putPart_streams (s : State) (p : Nat) (x : Partition) : (s.putPart p x).streams = s.streams := rfl

@[simp] theorem State.putDie_core (s : State) (d : Nat) (x : Die) : (s.putDie d x).core = s.core := rfl
@[simp] theorem State.putDie_slot (s : State) (d : Nat) (x : Die) : (s.putDie d x).slot = s.slot := rfl
@[simp] theorem State.putDie_agenda (s : State) (d : Nat) (x : Die) : (s.putDie d x).agenda = s.agenda := rfl
@[simp] theorem State.putDie_steps (s : State) (d : Nat) (x : Die) : (s.putDie d x).steps = s.steps := rfl
@[simp] theorem State.putDie_view (s : State) (d : Nat) (x : Die) : (s.putDie d x).view = s.view := rfl
@[simp] theorem State.putDie_service (s : State) (d : Nat) (x : Die) : (s.putDie d x).service = s.service := rfl
@[simp] theorem State.putDie_clk (s : State) (d : Nat) (x : Die) : (s.putDie d x).clk = s.clk := rfl
@[simp] theorem State.putDie_mem (s : State) (d : Nat) (x : Die) : (s.putDie d x).mem = s.mem := rfl
@[simp] theorem State.putDie_poison (s : State) (d : Nat) (x : Die) : (s.putDie d x).poison = s.poison := rfl
@[simp] theorem State.putDie_flaws (s : State) (d : Nat) (x : Die) : (s.putDie d x).flaws = s.flaws := rfl
@[simp] theorem State.putDie_cores (s : State) (d : Nat) (x : Die) : (s.putDie d x).cores = s.cores := rfl
@[simp] theorem State.putDie_late (s : State) (d : Nat) (x : Die) : (s.putDie d x).late = s.late := rfl
@[simp] theorem State.putDie_lateTrace (s : State) (d : Nat) (x : Die) : (s.putDie d x).lateTrace = s.lateTrace := rfl
@[simp] theorem State.putDie_drawnAt (s : State) (d : Nat) (x : Die) : (s.putDie d x).drawnAt = s.drawnAt := rfl
@[simp] theorem State.putDie_spent (s : State) (d : Nat) (x : Die) : (s.putDie d x).spent = s.spent := rfl
@[simp] theorem State.putDie_tags (s : State) (d : Nat) (x : Die) : (s.putDie d x).tags = s.tags := rfl
@[simp] theorem State.putDie_reels (s : State) (d : Nat) (x : Die) : (s.putDie d x).reels = s.reels := rfl
@[simp] theorem State.putDie_reelWaits (s : State) (d : Nat) (x : Die) : (s.putDie d x).reelWaits = s.reelWaits := rfl
@[simp] theorem State.putDie_releases (s : State) (d : Nat) (x : Die) : (s.putDie d x).releases = s.releases := rfl
@[simp] theorem State.putDie_steals (s : State) (d : Nat) (x : Die) : (s.putDie d x).steals = s.steals := rfl
@[simp] theorem State.putDie_net (s : State) (d : Nat) (x : Die) : (s.putDie d x).net = s.net := rfl
@[simp] theorem State.putDie_fids (s : State) (d : Nat) (x : Die) : (s.putDie d x).fids = s.fids := rfl
@[simp] theorem State.putDie_nextFid (s : State) (d : Nat) (x : Die) : (s.putDie d x).nextFid = s.nextFid := rfl
@[simp] theorem State.putDie_saved (s : State) (d : Nat) (x : Die) : (s.putDie d x).saved = s.saved := rfl
@[simp] theorem State.putDie_parts (s : State) (d : Nat) (x : Die) : (s.putDie d x).parts = s.parts := rfl
@[simp] theorem State.putDie_segs (s : State) (d : Nat) (x : Die) : (s.putDie d x).segs = s.segs := rfl
@[simp] theorem State.putDie_groups (s : State) (d : Nat) (x : Die) : (s.putDie d x).groups = s.groups := rfl
@[simp] theorem State.putDie_hbm (s : State) (d : Nat) (x : Die) : (s.putDie d x).hbm = s.hbm := rfl
@[simp] theorem State.putDie_vaults (s : State) (d : Nat) (x : Die) : (s.putDie d x).vaults = s.vaults := rfl
@[simp] theorem State.putDie_pkg (s : State) (d : Nat) (x : Die) : (s.putDie d x).pkg = s.pkg := rfl
@[simp] theorem State.putDie_spdm (s : State) (d : Nat) (x : Die) : (s.putDie d x).spdm = s.spdm := rfl
@[simp] theorem State.putDie_streams (s : State) (d : Nat) (x : Die) : (s.putDie d x).streams = s.streams := rfl

@[simp] theorem State.putStack_core (s : State) (h : Nat) (x : Stack) : (s.putStack h x).core = s.core := rfl
@[simp] theorem State.putStack_slot (s : State) (h : Nat) (x : Stack) : (s.putStack h x).slot = s.slot := rfl
@[simp] theorem State.putStack_agenda (s : State) (h : Nat) (x : Stack) : (s.putStack h x).agenda = s.agenda := rfl
@[simp] theorem State.putStack_steps (s : State) (h : Nat) (x : Stack) : (s.putStack h x).steps = s.steps := rfl
@[simp] theorem State.putStack_view (s : State) (h : Nat) (x : Stack) : (s.putStack h x).view = s.view := rfl
@[simp] theorem State.putStack_service (s : State) (h : Nat) (x : Stack) : (s.putStack h x).service = s.service := rfl
@[simp] theorem State.putStack_clk (s : State) (h : Nat) (x : Stack) : (s.putStack h x).clk = s.clk := rfl
@[simp] theorem State.putStack_mem (s : State) (h : Nat) (x : Stack) : (s.putStack h x).mem = s.mem := rfl
@[simp] theorem State.putStack_poison (s : State) (h : Nat) (x : Stack) : (s.putStack h x).poison = s.poison := rfl
@[simp] theorem State.putStack_flaws (s : State) (h : Nat) (x : Stack) : (s.putStack h x).flaws = s.flaws := rfl
@[simp] theorem State.putStack_cores (s : State) (h : Nat) (x : Stack) : (s.putStack h x).cores = s.cores := rfl
@[simp] theorem State.putStack_late (s : State) (h : Nat) (x : Stack) : (s.putStack h x).late = s.late := rfl
@[simp] theorem State.putStack_lateTrace (s : State) (h : Nat) (x : Stack) : (s.putStack h x).lateTrace = s.lateTrace := rfl
@[simp] theorem State.putStack_drawnAt (s : State) (h : Nat) (x : Stack) : (s.putStack h x).drawnAt = s.drawnAt := rfl
@[simp] theorem State.putStack_spent (s : State) (h : Nat) (x : Stack) : (s.putStack h x).spent = s.spent := rfl
@[simp] theorem State.putStack_tags (s : State) (h : Nat) (x : Stack) : (s.putStack h x).tags = s.tags := rfl
@[simp] theorem State.putStack_reels (s : State) (h : Nat) (x : Stack) : (s.putStack h x).reels = s.reels := rfl
@[simp] theorem State.putStack_reelWaits (s : State) (h : Nat) (x : Stack) : (s.putStack h x).reelWaits = s.reelWaits := rfl
@[simp] theorem State.putStack_releases (s : State) (h : Nat) (x : Stack) : (s.putStack h x).releases = s.releases := rfl
@[simp] theorem State.putStack_steals (s : State) (h : Nat) (x : Stack) : (s.putStack h x).steals = s.steals := rfl
@[simp] theorem State.putStack_net (s : State) (h : Nat) (x : Stack) : (s.putStack h x).net = s.net := rfl
@[simp] theorem State.putStack_fids (s : State) (h : Nat) (x : Stack) : (s.putStack h x).fids = s.fids := rfl
@[simp] theorem State.putStack_nextFid (s : State) (h : Nat) (x : Stack) : (s.putStack h x).nextFid = s.nextFid := rfl
@[simp] theorem State.putStack_saved (s : State) (h : Nat) (x : Stack) : (s.putStack h x).saved = s.saved := rfl
@[simp] theorem State.putStack_dies (s : State) (h : Nat) (x : Stack) : (s.putStack h x).dies = s.dies := rfl
@[simp] theorem State.putStack_parts (s : State) (h : Nat) (x : Stack) : (s.putStack h x).parts = s.parts := rfl
@[simp] theorem State.putStack_segs (s : State) (h : Nat) (x : Stack) : (s.putStack h x).segs = s.segs := rfl
@[simp] theorem State.putStack_groups (s : State) (h : Nat) (x : Stack) : (s.putStack h x).groups = s.groups := rfl
@[simp] theorem State.putStack_vaults (s : State) (h : Nat) (x : Stack) : (s.putStack h x).vaults = s.vaults := rfl
@[simp] theorem State.putStack_pkg (s : State) (h : Nat) (x : Stack) : (s.putStack h x).pkg = s.pkg := rfl
@[simp] theorem State.putStack_spdm (s : State) (h : Nat) (x : Stack) : (s.putStack h x).spdm = s.spdm := rfl
@[simp] theorem State.putStack_streams (s : State) (h : Nat) (x : Stack) : (s.putStack h x).streams = s.streams := rfl

@[simp] theorem State.write_core (s : State) (k : Nat) (bs : List Byte) : (s.write k bs).core = s.core := rfl
@[simp] theorem State.write_slot (s : State) (k : Nat) (bs : List Byte) : (s.write k bs).slot = s.slot := rfl
@[simp] theorem State.write_agenda (s : State) (k : Nat) (bs : List Byte) : (s.write k bs).agenda = s.agenda := rfl
@[simp] theorem State.write_steps (s : State) (k : Nat) (bs : List Byte) : (s.write k bs).steps = s.steps := rfl
@[simp] theorem State.write_view (s : State) (k : Nat) (bs : List Byte) : (s.write k bs).view = s.view := rfl
@[simp] theorem State.write_service (s : State) (k : Nat) (bs : List Byte) : (s.write k bs).service = s.service := rfl
@[simp] theorem State.write_clk (s : State) (k : Nat) (bs : List Byte) : (s.write k bs).clk = s.clk := rfl
@[simp] theorem State.write_poison (s : State) (k : Nat) (bs : List Byte) : (s.write k bs).poison = s.poison := rfl
@[simp] theorem State.write_flaws (s : State) (k : Nat) (bs : List Byte) : (s.write k bs).flaws = s.flaws := rfl
@[simp] theorem State.write_cores (s : State) (k : Nat) (bs : List Byte) : (s.write k bs).cores = s.cores := rfl
@[simp] theorem State.write_late (s : State) (k : Nat) (bs : List Byte) : (s.write k bs).late = s.late := rfl
@[simp] theorem State.write_lateTrace (s : State) (k : Nat) (bs : List Byte) : (s.write k bs).lateTrace = s.lateTrace := rfl
@[simp] theorem State.write_drawnAt (s : State) (k : Nat) (bs : List Byte) : (s.write k bs).drawnAt = s.drawnAt := rfl
@[simp] theorem State.write_spent (s : State) (k : Nat) (bs : List Byte) : (s.write k bs).spent = s.spent := rfl
@[simp] theorem State.write_tags (s : State) (k : Nat) (bs : List Byte) : (s.write k bs).tags = s.tags := rfl
@[simp] theorem State.write_reels (s : State) (k : Nat) (bs : List Byte) : (s.write k bs).reels = s.reels := rfl
@[simp] theorem State.write_reelWaits (s : State) (k : Nat) (bs : List Byte) : (s.write k bs).reelWaits = s.reelWaits := rfl
@[simp] theorem State.write_releases (s : State) (k : Nat) (bs : List Byte) : (s.write k bs).releases = s.releases := rfl
@[simp] theorem State.write_steals (s : State) (k : Nat) (bs : List Byte) : (s.write k bs).steals = s.steals := rfl
@[simp] theorem State.write_net (s : State) (k : Nat) (bs : List Byte) : (s.write k bs).net = s.net := rfl
@[simp] theorem State.write_fids (s : State) (k : Nat) (bs : List Byte) : (s.write k bs).fids = s.fids := rfl
@[simp] theorem State.write_nextFid (s : State) (k : Nat) (bs : List Byte) : (s.write k bs).nextFid = s.nextFid := rfl
@[simp] theorem State.write_saved (s : State) (k : Nat) (bs : List Byte) : (s.write k bs).saved = s.saved := rfl
@[simp] theorem State.write_dies (s : State) (k : Nat) (bs : List Byte) : (s.write k bs).dies = s.dies := rfl
@[simp] theorem State.write_parts (s : State) (k : Nat) (bs : List Byte) : (s.write k bs).parts = s.parts := rfl
@[simp] theorem State.write_segs (s : State) (k : Nat) (bs : List Byte) : (s.write k bs).segs = s.segs := rfl
@[simp] theorem State.write_groups (s : State) (k : Nat) (bs : List Byte) : (s.write k bs).groups = s.groups := rfl
@[simp] theorem State.write_hbm (s : State) (k : Nat) (bs : List Byte) : (s.write k bs).hbm = s.hbm := rfl
@[simp] theorem State.write_vaults (s : State) (k : Nat) (bs : List Byte) : (s.write k bs).vaults = s.vaults := rfl
@[simp] theorem State.write_pkg (s : State) (k : Nat) (bs : List Byte) : (s.write k bs).pkg = s.pkg := rfl
@[simp] theorem State.write_spdm (s : State) (k : Nat) (bs : List Byte) : (s.write k bs).spdm = s.spdm := rfl
@[simp] theorem State.write_streams (s : State) (k : Nat) (bs : List Byte) : (s.write k bs).streams = s.streams := rfl

@[simp] theorem State.store_core (s : State) (k : Nat) (bs : List Byte) : (s.store k bs).core = s.core := rfl
@[simp] theorem State.store_slot (s : State) (k : Nat) (bs : List Byte) : (s.store k bs).slot = s.slot := rfl
@[simp] theorem State.store_agenda (s : State) (k : Nat) (bs : List Byte) : (s.store k bs).agenda = s.agenda := rfl
@[simp] theorem State.store_steps (s : State) (k : Nat) (bs : List Byte) : (s.store k bs).steps = s.steps := rfl
@[simp] theorem State.store_view (s : State) (k : Nat) (bs : List Byte) : (s.store k bs).view = s.view := rfl
@[simp] theorem State.store_service (s : State) (k : Nat) (bs : List Byte) : (s.store k bs).service = s.service := rfl
@[simp] theorem State.store_clk (s : State) (k : Nat) (bs : List Byte) : (s.store k bs).clk = s.clk := rfl
@[simp] theorem State.store_cores (s : State) (k : Nat) (bs : List Byte) : (s.store k bs).cores = s.cores := rfl
@[simp] theorem State.store_late (s : State) (k : Nat) (bs : List Byte) : (s.store k bs).late = s.late := rfl
@[simp] theorem State.store_lateTrace (s : State) (k : Nat) (bs : List Byte) : (s.store k bs).lateTrace = s.lateTrace := rfl
@[simp] theorem State.store_drawnAt (s : State) (k : Nat) (bs : List Byte) : (s.store k bs).drawnAt = s.drawnAt := rfl
@[simp] theorem State.store_spent (s : State) (k : Nat) (bs : List Byte) : (s.store k bs).spent = s.spent := rfl
@[simp] theorem State.store_tags (s : State) (k : Nat) (bs : List Byte) : (s.store k bs).tags = s.tags := rfl
@[simp] theorem State.store_reels (s : State) (k : Nat) (bs : List Byte) : (s.store k bs).reels = s.reels := rfl
@[simp] theorem State.store_reelWaits (s : State) (k : Nat) (bs : List Byte) : (s.store k bs).reelWaits = s.reelWaits := rfl
@[simp] theorem State.store_releases (s : State) (k : Nat) (bs : List Byte) : (s.store k bs).releases = s.releases := rfl
@[simp] theorem State.store_steals (s : State) (k : Nat) (bs : List Byte) : (s.store k bs).steals = s.steals := rfl
@[simp] theorem State.store_net (s : State) (k : Nat) (bs : List Byte) : (s.store k bs).net = s.net := rfl
@[simp] theorem State.store_fids (s : State) (k : Nat) (bs : List Byte) : (s.store k bs).fids = s.fids := rfl
@[simp] theorem State.store_nextFid (s : State) (k : Nat) (bs : List Byte) : (s.store k bs).nextFid = s.nextFid := rfl
@[simp] theorem State.store_saved (s : State) (k : Nat) (bs : List Byte) : (s.store k bs).saved = s.saved := rfl
@[simp] theorem State.store_dies (s : State) (k : Nat) (bs : List Byte) : (s.store k bs).dies = s.dies := rfl
@[simp] theorem State.store_parts (s : State) (k : Nat) (bs : List Byte) : (s.store k bs).parts = s.parts := rfl
@[simp] theorem State.store_segs (s : State) (k : Nat) (bs : List Byte) : (s.store k bs).segs = s.segs := rfl
@[simp] theorem State.store_groups (s : State) (k : Nat) (bs : List Byte) : (s.store k bs).groups = s.groups := rfl
@[simp] theorem State.store_hbm (s : State) (k : Nat) (bs : List Byte) : (s.store k bs).hbm = s.hbm := rfl
@[simp] theorem State.store_vaults (s : State) (k : Nat) (bs : List Byte) : (s.store k bs).vaults = s.vaults := rfl
@[simp] theorem State.store_pkg (s : State) (k : Nat) (bs : List Byte) : (s.store k bs).pkg = s.pkg := rfl
@[simp] theorem State.store_spdm (s : State) (k : Nat) (bs : List Byte) : (s.store k bs).spdm = s.spdm := rfl
@[simp] theorem State.store_streams (s : State) (k : Nat) (bs : List Byte) : (s.store k bs).streams = s.streams := rfl

@[simp] theorem State.clear_core (s : State) (k n : Nat) : (s.clear k n).core = s.core := rfl
@[simp] theorem State.clear_slot (s : State) (k n : Nat) : (s.clear k n).slot = s.slot := rfl
@[simp] theorem State.clear_agenda (s : State) (k n : Nat) : (s.clear k n).agenda = s.agenda := rfl
@[simp] theorem State.clear_steps (s : State) (k n : Nat) : (s.clear k n).steps = s.steps := rfl
@[simp] theorem State.clear_view (s : State) (k n : Nat) : (s.clear k n).view = s.view := rfl
@[simp] theorem State.clear_service (s : State) (k n : Nat) : (s.clear k n).service = s.service := rfl
@[simp] theorem State.clear_clk (s : State) (k n : Nat) : (s.clear k n).clk = s.clk := rfl
@[simp] theorem State.clear_cores (s : State) (k n : Nat) : (s.clear k n).cores = s.cores := rfl
@[simp] theorem State.clear_late (s : State) (k n : Nat) : (s.clear k n).late = s.late := rfl
@[simp] theorem State.clear_lateTrace (s : State) (k n : Nat) : (s.clear k n).lateTrace = s.lateTrace := rfl
@[simp] theorem State.clear_drawnAt (s : State) (k n : Nat) : (s.clear k n).drawnAt = s.drawnAt := rfl
@[simp] theorem State.clear_spent (s : State) (k n : Nat) : (s.clear k n).spent = s.spent := rfl
@[simp] theorem State.clear_tags (s : State) (k n : Nat) : (s.clear k n).tags = s.tags := rfl
@[simp] theorem State.clear_reels (s : State) (k n : Nat) : (s.clear k n).reels = s.reels := rfl
@[simp] theorem State.clear_reelWaits (s : State) (k n : Nat) : (s.clear k n).reelWaits = s.reelWaits := rfl
@[simp] theorem State.clear_releases (s : State) (k n : Nat) : (s.clear k n).releases = s.releases := rfl
@[simp] theorem State.clear_steals (s : State) (k n : Nat) : (s.clear k n).steals = s.steals := rfl
@[simp] theorem State.clear_net (s : State) (k n : Nat) : (s.clear k n).net = s.net := rfl
@[simp] theorem State.clear_fids (s : State) (k n : Nat) : (s.clear k n).fids = s.fids := rfl
@[simp] theorem State.clear_nextFid (s : State) (k n : Nat) : (s.clear k n).nextFid = s.nextFid := rfl
@[simp] theorem State.clear_saved (s : State) (k n : Nat) : (s.clear k n).saved = s.saved := rfl
@[simp] theorem State.clear_dies (s : State) (k n : Nat) : (s.clear k n).dies = s.dies := rfl
@[simp] theorem State.clear_parts (s : State) (k n : Nat) : (s.clear k n).parts = s.parts := rfl
@[simp] theorem State.clear_segs (s : State) (k n : Nat) : (s.clear k n).segs = s.segs := rfl
@[simp] theorem State.clear_groups (s : State) (k n : Nat) : (s.clear k n).groups = s.groups := rfl
@[simp] theorem State.clear_hbm (s : State) (k n : Nat) : (s.clear k n).hbm = s.hbm := rfl
@[simp] theorem State.clear_vaults (s : State) (k n : Nat) : (s.clear k n).vaults = s.vaults := rfl
@[simp] theorem State.clear_pkg (s : State) (k n : Nat) : (s.clear k n).pkg = s.pkg := rfl
@[simp] theorem State.clear_spdm (s : State) (k n : Nat) : (s.clear k n).spdm = s.spdm := rfl
@[simp] theorem State.clear_streams (s : State) (k n : Nat) : (s.clear k n).streams = s.streams := rfl

/-! ### Fields of the strand -/

@[simp] theorem Strand.setD_st (x : Strand) (r : DReg) (v : Dom) : (x.setD r v).st = x.st := rfl
@[simp] theorem Strand.setD_wait (x : Strand) (r : DReg) (v : Dom) : (x.setD r v).wait = x.wait := rfl
@[simp] theorem Strand.setD_since (x : Strand) (r : DReg) (v : Dom) : (x.setD r v).since = x.since := rfl
@[simp] theorem Strand.setD_sinceClk (x : Strand) (r : DReg) (v : Dom) : (x.setD r v).sinceClk = x.sinceClk := rfl
@[simp] theorem Strand.setD_back (x : Strand) (r : DReg) (v : Dom) : (x.setD r v).back = x.back := rfl
@[simp] theorem Strand.setD_backWait (x : Strand) (r : DReg) (v : Dom) : (x.setD r v).backWait = x.backWait := rfl
@[simp] theorem Strand.setD_pc (x : Strand) (r : DReg) (v : Dom) : (x.setD r v).pc = x.pc := rfl
@[simp] theorem Strand.setD_po (x : Strand) (r : DReg) (v : Dom) : (x.setD r v).po = x.po := rfl
@[simp] theorem Strand.setD_a (x : Strand) (r : DReg) (v : Dom) : (x.setD r v).a = x.a := rfl
@[simp] theorem Strand.setD_deadA (x : Strand) (r : DReg) (v : Dom) : (x.setD r v).deadA = x.deadA := rfl
@[simp] theorem Strand.setD_loops (x : Strand) (r : DReg) (v : Dom) : (x.setD r v).loops = x.loops := rfl
@[simp] theorem Strand.setD_run (x : Strand) (r : DReg) (v : Dom) : (x.setD r v).run = x.run := rfl
@[simp] theorem Strand.setD_prio (x : Strand) (r : DReg) (v : Dom) : (x.setD r v).prio = x.prio := rfl
@[simp] theorem Strand.setD_owner (x : Strand) (r : DReg) (v : Dom) : (x.setD r v).owner = x.owner := rfl
@[simp] theorem Strand.setD_eff (x : Strand) (r : DReg) (v : Dom) : (x.setD r v).eff = x.eff := rfl
@[simp] theorem Strand.setD_launched (x : Strand) (r : DReg) (v : Dom) : (x.setD r v).launched = x.launched := rfl
@[simp] theorem Strand.setD_q (x : Strand) (r : DReg) (v : Dom) : (x.setD r v).q = x.q := rfl
@[simp] theorem Strand.setD_tokens (x : Strand) (r : DReg) (v : Dom) : (x.setD r v).tokens = x.tokens := rfl
@[simp] theorem Strand.setD_ve (x : Strand) (r : DReg) (v : Dom) : (x.setD r v).ve = x.ve := rfl
@[simp] theorem Strand.setD_nest (x : Strand) (r : DReg) (v : Dom) : (x.setD r v).nest = x.nest := rfl
@[simp] theorem Strand.setD_curMe (x : Strand) (r : DReg) (v : Dom) : (x.setD r v).curMe = x.curMe := rfl
@[simp] theorem Strand.setD_curVe (x : Strand) (r : DReg) (v : Dom) : (x.setD r v).curVe = x.curVe := rfl
@[simp] theorem Strand.setD_curCe (x : Strand) (r : DReg) (v : Dom) : (x.setD r v).curCe = x.curCe := rfl
@[simp] theorem Strand.setD_trap (x : Strand) (r : DReg) (v : Dom) : (x.setD r v).trap = x.trap := rfl
@[simp] theorem Strand.setD_tag (x : Strand) (r : DReg) (v : Dom) : (x.setD r v).tag = x.tag := rfl
@[simp] theorem Strand.setD_lease (x : Strand) (r : DReg) (v : Dom) : (x.setD r v).lease = x.lease := rfl
@[simp] theorem Strand.setD_amaxClk (x : Strand) (r : DReg) (v : Dom) : (x.setD r v).amaxClk = x.amaxClk := rfl
@[simp] theorem Strand.setD_trace (x : Strand) (r : DReg) (v : Dom) : (x.setD r v).trace = x.trace := rfl
@[simp] theorem Strand.setD_light (x : Strand) (r : DReg) (v : Dom) : (x.setD r v).light = x.light := rfl
@[simp] theorem Strand.setD_got (x : Strand) (r : DReg) (v : Dom) : (x.setD r v).got = x.got := rfl
@[simp] theorem Strand.setD_viol (x : Strand) (r : DReg) (v : Dom) : (x.setD r v).viol = x.viol := rfl

@[simp] theorem Strand.setA_st (x : Strand) (r : AReg) (v : DWord) : (x.setA r v).st = x.st := rfl
@[simp] theorem Strand.setA_wait (x : Strand) (r : AReg) (v : DWord) : (x.setA r v).wait = x.wait := rfl
@[simp] theorem Strand.setA_since (x : Strand) (r : AReg) (v : DWord) : (x.setA r v).since = x.since := rfl
@[simp] theorem Strand.setA_sinceClk (x : Strand) (r : AReg) (v : DWord) : (x.setA r v).sinceClk = x.sinceClk := rfl
@[simp] theorem Strand.setA_back (x : Strand) (r : AReg) (v : DWord) : (x.setA r v).back = x.back := rfl
@[simp] theorem Strand.setA_backWait (x : Strand) (r : AReg) (v : DWord) : (x.setA r v).backWait = x.backWait := rfl
@[simp] theorem Strand.setA_pc (x : Strand) (r : AReg) (v : DWord) : (x.setA r v).pc = x.pc := rfl
@[simp] theorem Strand.setA_po (x : Strand) (r : AReg) (v : DWord) : (x.setA r v).po = x.po := rfl
@[simp] theorem Strand.setA_d (x : Strand) (r : AReg) (v : DWord) : (x.setA r v).d = x.d := rfl
@[simp] theorem Strand.setA_deadD (x : Strand) (r : AReg) (v : DWord) : (x.setA r v).deadD = x.deadD := rfl
@[simp] theorem Strand.setA_rel (x : Strand) (r : AReg) (v : DWord) : (x.setA r v).rel = x.rel := rfl
@[simp] theorem Strand.setA_loops (x : Strand) (r : AReg) (v : DWord) : (x.setA r v).loops = x.loops := rfl
@[simp] theorem Strand.setA_run (x : Strand) (r : AReg) (v : DWord) : (x.setA r v).run = x.run := rfl
@[simp] theorem Strand.setA_prio (x : Strand) (r : AReg) (v : DWord) : (x.setA r v).prio = x.prio := rfl
@[simp] theorem Strand.setA_owner (x : Strand) (r : AReg) (v : DWord) : (x.setA r v).owner = x.owner := rfl
@[simp] theorem Strand.setA_eff (x : Strand) (r : AReg) (v : DWord) : (x.setA r v).eff = x.eff := rfl
@[simp] theorem Strand.setA_launched (x : Strand) (r : AReg) (v : DWord) : (x.setA r v).launched = x.launched := rfl
@[simp] theorem Strand.setA_q (x : Strand) (r : AReg) (v : DWord) : (x.setA r v).q = x.q := rfl
@[simp] theorem Strand.setA_tokens (x : Strand) (r : AReg) (v : DWord) : (x.setA r v).tokens = x.tokens := rfl
@[simp] theorem Strand.setA_ve (x : Strand) (r : AReg) (v : DWord) : (x.setA r v).ve = x.ve := rfl
@[simp] theorem Strand.setA_nest (x : Strand) (r : AReg) (v : DWord) : (x.setA r v).nest = x.nest := rfl
@[simp] theorem Strand.setA_curMe (x : Strand) (r : AReg) (v : DWord) : (x.setA r v).curMe = x.curMe := rfl
@[simp] theorem Strand.setA_curVe (x : Strand) (r : AReg) (v : DWord) : (x.setA r v).curVe = x.curVe := rfl
@[simp] theorem Strand.setA_curCe (x : Strand) (r : AReg) (v : DWord) : (x.setA r v).curCe = x.curCe := rfl
@[simp] theorem Strand.setA_trap (x : Strand) (r : AReg) (v : DWord) : (x.setA r v).trap = x.trap := rfl
@[simp] theorem Strand.setA_tag (x : Strand) (r : AReg) (v : DWord) : (x.setA r v).tag = x.tag := rfl
@[simp] theorem Strand.setA_lease (x : Strand) (r : AReg) (v : DWord) : (x.setA r v).lease = x.lease := rfl
@[simp] theorem Strand.setA_amaxClk (x : Strand) (r : AReg) (v : DWord) : (x.setA r v).amaxClk = x.amaxClk := rfl
@[simp] theorem Strand.setA_trace (x : Strand) (r : AReg) (v : DWord) : (x.setA r v).trace = x.trace := rfl
@[simp] theorem Strand.setA_light (x : Strand) (r : AReg) (v : DWord) : (x.setA r v).light = x.light := rfl
@[simp] theorem Strand.setA_got (x : Strand) (r : AReg) (v : DWord) : (x.setA r v).got = x.got := rfl
@[simp] theorem Strand.setA_viol (x : Strand) (r : AReg) (v : DWord) : (x.setA r v).viol = x.viol := rfl

@[simp] theorem Strand.retire_since (x : Strand) : (x.retire).since = x.since := rfl
@[simp] theorem Strand.retire_sinceClk (x : Strand) : (x.retire).sinceClk = x.sinceClk := rfl
@[simp] theorem Strand.retire_back (x : Strand) : (x.retire).back = x.back := rfl
@[simp] theorem Strand.retire_backWait (x : Strand) : (x.retire).backWait = x.backWait := rfl
@[simp] theorem Strand.retire_d (x : Strand) : (x.retire).d = x.d := rfl
@[simp] theorem Strand.retire_a (x : Strand) : (x.retire).a = x.a := rfl
@[simp] theorem Strand.retire_deadD (x : Strand) : (x.retire).deadD = x.deadD := rfl
@[simp] theorem Strand.retire_deadA (x : Strand) : (x.retire).deadA = x.deadA := rfl
@[simp] theorem Strand.retire_bad (x : Strand) : (x.retire).bad = x.bad := rfl
@[simp] theorem Strand.retire_rel (x : Strand) : (x.retire).rel = x.rel := rfl
@[simp] theorem Strand.retire_run (x : Strand) : (x.retire).run = x.run := rfl
@[simp] theorem Strand.retire_prio (x : Strand) : (x.retire).prio = x.prio := rfl
@[simp] theorem Strand.retire_owner (x : Strand) : (x.retire).owner = x.owner := rfl
@[simp] theorem Strand.retire_eff (x : Strand) : (x.retire).eff = x.eff := rfl
@[simp] theorem Strand.retire_launched (x : Strand) : (x.retire).launched = x.launched := rfl
@[simp] theorem Strand.retire_q (x : Strand) : (x.retire).q = x.q := rfl
@[simp] theorem Strand.retire_tokens (x : Strand) : (x.retire).tokens = x.tokens := rfl
@[simp] theorem Strand.retire_ve (x : Strand) : (x.retire).ve = x.ve := rfl
@[simp] theorem Strand.retire_nest (x : Strand) : (x.retire).nest = x.nest := rfl
@[simp] theorem Strand.retire_curMe (x : Strand) : (x.retire).curMe = x.curMe := rfl
@[simp] theorem Strand.retire_curVe (x : Strand) : (x.retire).curVe = x.curVe := rfl
@[simp] theorem Strand.retire_curCe (x : Strand) : (x.retire).curCe = x.curCe := rfl
@[simp] theorem Strand.retire_trap (x : Strand) : (x.retire).trap = x.trap := rfl
@[simp] theorem Strand.retire_tag (x : Strand) : (x.retire).tag = x.tag := rfl
@[simp] theorem Strand.retire_lease (x : Strand) : (x.retire).lease = x.lease := rfl
@[simp] theorem Strand.retire_amaxClk (x : Strand) : (x.retire).amaxClk = x.amaxClk := rfl
@[simp] theorem Strand.retire_trace (x : Strand) : (x.retire).trace = x.trace := rfl
@[simp] theorem Strand.retire_light (x : Strand) : (x.retire).light = x.light := rfl
@[simp] theorem Strand.retire_got (x : Strand) : (x.retire).got = x.got := rfl
@[simp] theorem Strand.retire_viol (x : Strand) : (x.retire).viol = x.viol := rfl

@[simp] theorem Strand.jump_since (x : Strand) (pc : BitVec 17) : (x.jump pc).since = x.since := rfl
@[simp] theorem Strand.jump_sinceClk (x : Strand) (pc : BitVec 17) : (x.jump pc).sinceClk = x.sinceClk := rfl
@[simp] theorem Strand.jump_back (x : Strand) (pc : BitVec 17) : (x.jump pc).back = x.back := rfl
@[simp] theorem Strand.jump_backWait (x : Strand) (pc : BitVec 17) : (x.jump pc).backWait = x.backWait := rfl
@[simp] theorem Strand.jump_d (x : Strand) (pc : BitVec 17) : (x.jump pc).d = x.d := rfl
@[simp] theorem Strand.jump_a (x : Strand) (pc : BitVec 17) : (x.jump pc).a = x.a := rfl
@[simp] theorem Strand.jump_deadD (x : Strand) (pc : BitVec 17) : (x.jump pc).deadD = x.deadD := rfl
@[simp] theorem Strand.jump_deadA (x : Strand) (pc : BitVec 17) : (x.jump pc).deadA = x.deadA := rfl
@[simp] theorem Strand.jump_bad (x : Strand) (pc : BitVec 17) : (x.jump pc).bad = x.bad := rfl
@[simp] theorem Strand.jump_rel (x : Strand) (pc : BitVec 17) : (x.jump pc).rel = x.rel := rfl
@[simp] theorem Strand.jump_loops (x : Strand) (pc : BitVec 17) : (x.jump pc).loops = x.loops := rfl
@[simp] theorem Strand.jump_run (x : Strand) (pc : BitVec 17) : (x.jump pc).run = x.run := rfl
@[simp] theorem Strand.jump_prio (x : Strand) (pc : BitVec 17) : (x.jump pc).prio = x.prio := rfl
@[simp] theorem Strand.jump_owner (x : Strand) (pc : BitVec 17) : (x.jump pc).owner = x.owner := rfl
@[simp] theorem Strand.jump_eff (x : Strand) (pc : BitVec 17) : (x.jump pc).eff = x.eff := rfl
@[simp] theorem Strand.jump_launched (x : Strand) (pc : BitVec 17) : (x.jump pc).launched = x.launched := rfl
@[simp] theorem Strand.jump_q (x : Strand) (pc : BitVec 17) : (x.jump pc).q = x.q := rfl
@[simp] theorem Strand.jump_tokens (x : Strand) (pc : BitVec 17) : (x.jump pc).tokens = x.tokens := rfl
@[simp] theorem Strand.jump_ve (x : Strand) (pc : BitVec 17) : (x.jump pc).ve = x.ve := rfl
@[simp] theorem Strand.jump_nest (x : Strand) (pc : BitVec 17) : (x.jump pc).nest = x.nest := rfl
@[simp] theorem Strand.jump_curMe (x : Strand) (pc : BitVec 17) : (x.jump pc).curMe = x.curMe := rfl
@[simp] theorem Strand.jump_curVe (x : Strand) (pc : BitVec 17) : (x.jump pc).curVe = x.curVe := rfl
@[simp] theorem Strand.jump_curCe (x : Strand) (pc : BitVec 17) : (x.jump pc).curCe = x.curCe := rfl
@[simp] theorem Strand.jump_trap (x : Strand) (pc : BitVec 17) : (x.jump pc).trap = x.trap := rfl
@[simp] theorem Strand.jump_tag (x : Strand) (pc : BitVec 17) : (x.jump pc).tag = x.tag := rfl
@[simp] theorem Strand.jump_lease (x : Strand) (pc : BitVec 17) : (x.jump pc).lease = x.lease := rfl
@[simp] theorem Strand.jump_amaxClk (x : Strand) (pc : BitVec 17) : (x.jump pc).amaxClk = x.amaxClk := rfl
@[simp] theorem Strand.jump_trace (x : Strand) (pc : BitVec 17) : (x.jump pc).trace = x.trace := rfl
@[simp] theorem Strand.jump_light (x : Strand) (pc : BitVec 17) : (x.jump pc).light = x.light := rfl
@[simp] theorem Strand.jump_got (x : Strand) (pc : BitVec 17) : (x.jump pc).got = x.got := rfl
@[simp] theorem Strand.jump_viol (x : Strand) (pc : BitVec 17) : (x.jump pc).viol = x.viol := rfl

@[simp] theorem Strand.pushLd_st (x : Strand) (i : Instr) (ea v c : DWord) : (x.pushLd i ea v c).st = x.st := rfl
@[simp] theorem Strand.pushLd_wait (x : Strand) (i : Instr) (ea v c : DWord) : (x.pushLd i ea v c).wait = x.wait := rfl
@[simp] theorem Strand.pushLd_since (x : Strand) (i : Instr) (ea v c : DWord) : (x.pushLd i ea v c).since = x.since := rfl
@[simp] theorem Strand.pushLd_sinceClk (x : Strand) (i : Instr) (ea v c : DWord) : (x.pushLd i ea v c).sinceClk = x.sinceClk := rfl
@[simp] theorem Strand.pushLd_back (x : Strand) (i : Instr) (ea v c : DWord) : (x.pushLd i ea v c).back = x.back := rfl
@[simp] theorem Strand.pushLd_backWait (x : Strand) (i : Instr) (ea v c : DWord) : (x.pushLd i ea v c).backWait = x.backWait := rfl
@[simp] theorem Strand.pushLd_pc (x : Strand) (i : Instr) (ea v c : DWord) : (x.pushLd i ea v c).pc = x.pc := rfl
@[simp] theorem Strand.pushLd_po (x : Strand) (i : Instr) (ea v c : DWord) : (x.pushLd i ea v c).po = x.po := rfl
@[simp] theorem Strand.pushLd_d (x : Strand) (i : Instr) (ea v c : DWord) : (x.pushLd i ea v c).d = x.d := rfl
@[simp] theorem Strand.pushLd_a (x : Strand) (i : Instr) (ea v c : DWord) : (x.pushLd i ea v c).a = x.a := rfl
@[simp] theorem Strand.pushLd_deadD (x : Strand) (i : Instr) (ea v c : DWord) : (x.pushLd i ea v c).deadD = x.deadD := rfl
@[simp] theorem Strand.pushLd_deadA (x : Strand) (i : Instr) (ea v c : DWord) : (x.pushLd i ea v c).deadA = x.deadA := rfl
@[simp] theorem Strand.pushLd_bad (x : Strand) (i : Instr) (ea v c : DWord) : (x.pushLd i ea v c).bad = x.bad := rfl
@[simp] theorem Strand.pushLd_rel (x : Strand) (i : Instr) (ea v c : DWord) : (x.pushLd i ea v c).rel = x.rel := rfl
@[simp] theorem Strand.pushLd_loops (x : Strand) (i : Instr) (ea v c : DWord) : (x.pushLd i ea v c).loops = x.loops := rfl
@[simp] theorem Strand.pushLd_run (x : Strand) (i : Instr) (ea v c : DWord) : (x.pushLd i ea v c).run = x.run := rfl
@[simp] theorem Strand.pushLd_prio (x : Strand) (i : Instr) (ea v c : DWord) : (x.pushLd i ea v c).prio = x.prio := rfl
@[simp] theorem Strand.pushLd_owner (x : Strand) (i : Instr) (ea v c : DWord) : (x.pushLd i ea v c).owner = x.owner := rfl
@[simp] theorem Strand.pushLd_eff (x : Strand) (i : Instr) (ea v c : DWord) : (x.pushLd i ea v c).eff = x.eff := rfl
@[simp] theorem Strand.pushLd_launched (x : Strand) (i : Instr) (ea v c : DWord) : (x.pushLd i ea v c).launched = x.launched := rfl
@[simp] theorem Strand.pushLd_tokens (x : Strand) (i : Instr) (ea v c : DWord) : (x.pushLd i ea v c).tokens = x.tokens := rfl
@[simp] theorem Strand.pushLd_ve (x : Strand) (i : Instr) (ea v c : DWord) : (x.pushLd i ea v c).ve = x.ve := rfl
@[simp] theorem Strand.pushLd_nest (x : Strand) (i : Instr) (ea v c : DWord) : (x.pushLd i ea v c).nest = x.nest := rfl
@[simp] theorem Strand.pushLd_curMe (x : Strand) (i : Instr) (ea v c : DWord) : (x.pushLd i ea v c).curMe = x.curMe := rfl
@[simp] theorem Strand.pushLd_curVe (x : Strand) (i : Instr) (ea v c : DWord) : (x.pushLd i ea v c).curVe = x.curVe := rfl
@[simp] theorem Strand.pushLd_curCe (x : Strand) (i : Instr) (ea v c : DWord) : (x.pushLd i ea v c).curCe = x.curCe := rfl
@[simp] theorem Strand.pushLd_trap (x : Strand) (i : Instr) (ea v c : DWord) : (x.pushLd i ea v c).trap = x.trap := rfl
@[simp] theorem Strand.pushLd_tag (x : Strand) (i : Instr) (ea v c : DWord) : (x.pushLd i ea v c).tag = x.tag := rfl
@[simp] theorem Strand.pushLd_lease (x : Strand) (i : Instr) (ea v c : DWord) : (x.pushLd i ea v c).lease = x.lease := rfl
@[simp] theorem Strand.pushLd_amaxClk (x : Strand) (i : Instr) (ea v c : DWord) : (x.pushLd i ea v c).amaxClk = x.amaxClk := rfl
@[simp] theorem Strand.pushLd_trace (x : Strand) (i : Instr) (ea v c : DWord) : (x.pushLd i ea v c).trace = x.trace := rfl
@[simp] theorem Strand.pushLd_light (x : Strand) (i : Instr) (ea v c : DWord) : (x.pushLd i ea v c).light = x.light := rfl
@[simp] theorem Strand.pushLd_got (x : Strand) (i : Instr) (ea v c : DWord) : (x.pushLd i ea v c).got = x.got := rfl
@[simp] theorem Strand.pushLd_viol (x : Strand) (i : Instr) (ea v c : DWord) : (x.pushLd i ea v c).viol = x.viol := rfl

@[simp] theorem Strand.pushSt_st (x : Strand) (i : Instr) (ea v c : DWord) : (x.pushSt i ea v c).st = x.st := rfl
@[simp] theorem Strand.pushSt_wait (x : Strand) (i : Instr) (ea v c : DWord) : (x.pushSt i ea v c).wait = x.wait := rfl
@[simp] theorem Strand.pushSt_since (x : Strand) (i : Instr) (ea v c : DWord) : (x.pushSt i ea v c).since = x.since := rfl
@[simp] theorem Strand.pushSt_sinceClk (x : Strand) (i : Instr) (ea v c : DWord) : (x.pushSt i ea v c).sinceClk = x.sinceClk := rfl
@[simp] theorem Strand.pushSt_back (x : Strand) (i : Instr) (ea v c : DWord) : (x.pushSt i ea v c).back = x.back := rfl
@[simp] theorem Strand.pushSt_backWait (x : Strand) (i : Instr) (ea v c : DWord) : (x.pushSt i ea v c).backWait = x.backWait := rfl
@[simp] theorem Strand.pushSt_pc (x : Strand) (i : Instr) (ea v c : DWord) : (x.pushSt i ea v c).pc = x.pc := rfl
@[simp] theorem Strand.pushSt_po (x : Strand) (i : Instr) (ea v c : DWord) : (x.pushSt i ea v c).po = x.po := rfl
@[simp] theorem Strand.pushSt_d (x : Strand) (i : Instr) (ea v c : DWord) : (x.pushSt i ea v c).d = x.d := rfl
@[simp] theorem Strand.pushSt_a (x : Strand) (i : Instr) (ea v c : DWord) : (x.pushSt i ea v c).a = x.a := rfl
@[simp] theorem Strand.pushSt_deadD (x : Strand) (i : Instr) (ea v c : DWord) : (x.pushSt i ea v c).deadD = x.deadD := rfl
@[simp] theorem Strand.pushSt_deadA (x : Strand) (i : Instr) (ea v c : DWord) : (x.pushSt i ea v c).deadA = x.deadA := rfl
@[simp] theorem Strand.pushSt_bad (x : Strand) (i : Instr) (ea v c : DWord) : (x.pushSt i ea v c).bad = x.bad := rfl
@[simp] theorem Strand.pushSt_rel (x : Strand) (i : Instr) (ea v c : DWord) : (x.pushSt i ea v c).rel = x.rel := rfl
@[simp] theorem Strand.pushSt_loops (x : Strand) (i : Instr) (ea v c : DWord) : (x.pushSt i ea v c).loops = x.loops := rfl
@[simp] theorem Strand.pushSt_run (x : Strand) (i : Instr) (ea v c : DWord) : (x.pushSt i ea v c).run = x.run := rfl
@[simp] theorem Strand.pushSt_prio (x : Strand) (i : Instr) (ea v c : DWord) : (x.pushSt i ea v c).prio = x.prio := rfl
@[simp] theorem Strand.pushSt_owner (x : Strand) (i : Instr) (ea v c : DWord) : (x.pushSt i ea v c).owner = x.owner := rfl
@[simp] theorem Strand.pushSt_eff (x : Strand) (i : Instr) (ea v c : DWord) : (x.pushSt i ea v c).eff = x.eff := rfl
@[simp] theorem Strand.pushSt_launched (x : Strand) (i : Instr) (ea v c : DWord) : (x.pushSt i ea v c).launched = x.launched := rfl
@[simp] theorem Strand.pushSt_tokens (x : Strand) (i : Instr) (ea v c : DWord) : (x.pushSt i ea v c).tokens = x.tokens := rfl
@[simp] theorem Strand.pushSt_ve (x : Strand) (i : Instr) (ea v c : DWord) : (x.pushSt i ea v c).ve = x.ve := rfl
@[simp] theorem Strand.pushSt_nest (x : Strand) (i : Instr) (ea v c : DWord) : (x.pushSt i ea v c).nest = x.nest := rfl
@[simp] theorem Strand.pushSt_curMe (x : Strand) (i : Instr) (ea v c : DWord) : (x.pushSt i ea v c).curMe = x.curMe := rfl
@[simp] theorem Strand.pushSt_curVe (x : Strand) (i : Instr) (ea v c : DWord) : (x.pushSt i ea v c).curVe = x.curVe := rfl
@[simp] theorem Strand.pushSt_curCe (x : Strand) (i : Instr) (ea v c : DWord) : (x.pushSt i ea v c).curCe = x.curCe := rfl
@[simp] theorem Strand.pushSt_trap (x : Strand) (i : Instr) (ea v c : DWord) : (x.pushSt i ea v c).trap = x.trap := rfl
@[simp] theorem Strand.pushSt_tag (x : Strand) (i : Instr) (ea v c : DWord) : (x.pushSt i ea v c).tag = x.tag := rfl
@[simp] theorem Strand.pushSt_lease (x : Strand) (i : Instr) (ea v c : DWord) : (x.pushSt i ea v c).lease = x.lease := rfl
@[simp] theorem Strand.pushSt_amaxClk (x : Strand) (i : Instr) (ea v c : DWord) : (x.pushSt i ea v c).amaxClk = x.amaxClk := rfl
@[simp] theorem Strand.pushSt_trace (x : Strand) (i : Instr) (ea v c : DWord) : (x.pushSt i ea v c).trace = x.trace := rfl
@[simp] theorem Strand.pushSt_light (x : Strand) (i : Instr) (ea v c : DWord) : (x.pushSt i ea v c).light = x.light := rfl
@[simp] theorem Strand.pushSt_got (x : Strand) (i : Instr) (ea v c : DWord) : (x.pushSt i ea v c).got = x.got := rfl
@[simp] theorem Strand.pushSt_viol (x : Strand) (i : Instr) (ea v c : DWord) : (x.pushSt i ea v c).viol = x.viol := rfl

@[simp] theorem Strand.pushCmd_st (x : Strand) (e : Eng) (k : CmdKind) (a : DWord) : (x.pushCmd e k a).st = x.st := rfl
@[simp] theorem Strand.pushCmd_wait (x : Strand) (e : Eng) (k : CmdKind) (a : DWord) : (x.pushCmd e k a).wait = x.wait := rfl
@[simp] theorem Strand.pushCmd_since (x : Strand) (e : Eng) (k : CmdKind) (a : DWord) : (x.pushCmd e k a).since = x.since := rfl
@[simp] theorem Strand.pushCmd_sinceClk (x : Strand) (e : Eng) (k : CmdKind) (a : DWord) : (x.pushCmd e k a).sinceClk = x.sinceClk := rfl
@[simp] theorem Strand.pushCmd_back (x : Strand) (e : Eng) (k : CmdKind) (a : DWord) : (x.pushCmd e k a).back = x.back := rfl
@[simp] theorem Strand.pushCmd_backWait (x : Strand) (e : Eng) (k : CmdKind) (a : DWord) : (x.pushCmd e k a).backWait = x.backWait := rfl
@[simp] theorem Strand.pushCmd_pc (x : Strand) (e : Eng) (k : CmdKind) (a : DWord) : (x.pushCmd e k a).pc = x.pc := rfl
@[simp] theorem Strand.pushCmd_po (x : Strand) (e : Eng) (k : CmdKind) (a : DWord) : (x.pushCmd e k a).po = x.po := rfl
@[simp] theorem Strand.pushCmd_d (x : Strand) (e : Eng) (k : CmdKind) (a : DWord) : (x.pushCmd e k a).d = x.d := rfl
@[simp] theorem Strand.pushCmd_a (x : Strand) (e : Eng) (k : CmdKind) (a : DWord) : (x.pushCmd e k a).a = x.a := rfl
@[simp] theorem Strand.pushCmd_deadD (x : Strand) (e : Eng) (k : CmdKind) (a : DWord) : (x.pushCmd e k a).deadD = x.deadD := rfl
@[simp] theorem Strand.pushCmd_deadA (x : Strand) (e : Eng) (k : CmdKind) (a : DWord) : (x.pushCmd e k a).deadA = x.deadA := rfl
@[simp] theorem Strand.pushCmd_bad (x : Strand) (e : Eng) (k : CmdKind) (a : DWord) : (x.pushCmd e k a).bad = x.bad := rfl
@[simp] theorem Strand.pushCmd_rel (x : Strand) (e : Eng) (k : CmdKind) (a : DWord) : (x.pushCmd e k a).rel = x.rel := rfl
@[simp] theorem Strand.pushCmd_loops (x : Strand) (e : Eng) (k : CmdKind) (a : DWord) : (x.pushCmd e k a).loops = x.loops := rfl
@[simp] theorem Strand.pushCmd_run (x : Strand) (e : Eng) (k : CmdKind) (a : DWord) : (x.pushCmd e k a).run = x.run := rfl
@[simp] theorem Strand.pushCmd_prio (x : Strand) (e : Eng) (k : CmdKind) (a : DWord) : (x.pushCmd e k a).prio = x.prio := rfl
@[simp] theorem Strand.pushCmd_owner (x : Strand) (e : Eng) (k : CmdKind) (a : DWord) : (x.pushCmd e k a).owner = x.owner := rfl
@[simp] theorem Strand.pushCmd_eff (x : Strand) (e : Eng) (k : CmdKind) (a : DWord) : (x.pushCmd e k a).eff = x.eff := rfl
@[simp] theorem Strand.pushCmd_launched (x : Strand) (e : Eng) (k : CmdKind) (a : DWord) : (x.pushCmd e k a).launched = x.launched := rfl
@[simp] theorem Strand.pushCmd_tokens (x : Strand) (e : Eng) (k : CmdKind) (a : DWord) : (x.pushCmd e k a).tokens = x.tokens := rfl
@[simp] theorem Strand.pushCmd_ve (x : Strand) (e : Eng) (k : CmdKind) (a : DWord) : (x.pushCmd e k a).ve = x.ve := rfl
@[simp] theorem Strand.pushCmd_nest (x : Strand) (e : Eng) (k : CmdKind) (a : DWord) : (x.pushCmd e k a).nest = x.nest := rfl
@[simp] theorem Strand.pushCmd_curMe (x : Strand) (e : Eng) (k : CmdKind) (a : DWord) : (x.pushCmd e k a).curMe = x.curMe := rfl
@[simp] theorem Strand.pushCmd_curVe (x : Strand) (e : Eng) (k : CmdKind) (a : DWord) : (x.pushCmd e k a).curVe = x.curVe := rfl
@[simp] theorem Strand.pushCmd_curCe (x : Strand) (e : Eng) (k : CmdKind) (a : DWord) : (x.pushCmd e k a).curCe = x.curCe := rfl
@[simp] theorem Strand.pushCmd_trap (x : Strand) (e : Eng) (k : CmdKind) (a : DWord) : (x.pushCmd e k a).trap = x.trap := rfl
@[simp] theorem Strand.pushCmd_tag (x : Strand) (e : Eng) (k : CmdKind) (a : DWord) : (x.pushCmd e k a).tag = x.tag := rfl
@[simp] theorem Strand.pushCmd_lease (x : Strand) (e : Eng) (k : CmdKind) (a : DWord) : (x.pushCmd e k a).lease = x.lease := rfl
@[simp] theorem Strand.pushCmd_amaxClk (x : Strand) (e : Eng) (k : CmdKind) (a : DWord) : (x.pushCmd e k a).amaxClk = x.amaxClk := rfl
@[simp] theorem Strand.pushCmd_trace (x : Strand) (e : Eng) (k : CmdKind) (a : DWord) : (x.pushCmd e k a).trace = x.trace := rfl
@[simp] theorem Strand.pushCmd_light (x : Strand) (e : Eng) (k : CmdKind) (a : DWord) : (x.pushCmd e k a).light = x.light := rfl
@[simp] theorem Strand.pushCmd_got (x : Strand) (e : Eng) (k : CmdKind) (a : DWord) : (x.pushCmd e k a).got = x.got := rfl
@[simp] theorem Strand.pushCmd_viol (x : Strand) (e : Eng) (k : CmdKind) (a : DWord) : (x.pushCmd e k a).viol = x.viol := rfl

@[simp] theorem Strand.putToken_st (x : Strand) (i : Nat) (v : BitVec 8) : (x.putToken i v).st = x.st := rfl
@[simp] theorem Strand.putToken_wait (x : Strand) (i : Nat) (v : BitVec 8) : (x.putToken i v).wait = x.wait := rfl
@[simp] theorem Strand.putToken_since (x : Strand) (i : Nat) (v : BitVec 8) : (x.putToken i v).since = x.since := rfl
@[simp] theorem Strand.putToken_sinceClk (x : Strand) (i : Nat) (v : BitVec 8) : (x.putToken i v).sinceClk = x.sinceClk := rfl
@[simp] theorem Strand.putToken_back (x : Strand) (i : Nat) (v : BitVec 8) : (x.putToken i v).back = x.back := rfl
@[simp] theorem Strand.putToken_backWait (x : Strand) (i : Nat) (v : BitVec 8) : (x.putToken i v).backWait = x.backWait := rfl
@[simp] theorem Strand.putToken_pc (x : Strand) (i : Nat) (v : BitVec 8) : (x.putToken i v).pc = x.pc := rfl
@[simp] theorem Strand.putToken_po (x : Strand) (i : Nat) (v : BitVec 8) : (x.putToken i v).po = x.po := rfl
@[simp] theorem Strand.putToken_d (x : Strand) (i : Nat) (v : BitVec 8) : (x.putToken i v).d = x.d := rfl
@[simp] theorem Strand.putToken_a (x : Strand) (i : Nat) (v : BitVec 8) : (x.putToken i v).a = x.a := rfl
@[simp] theorem Strand.putToken_deadD (x : Strand) (i : Nat) (v : BitVec 8) : (x.putToken i v).deadD = x.deadD := rfl
@[simp] theorem Strand.putToken_deadA (x : Strand) (i : Nat) (v : BitVec 8) : (x.putToken i v).deadA = x.deadA := rfl
@[simp] theorem Strand.putToken_rel (x : Strand) (i : Nat) (v : BitVec 8) : (x.putToken i v).rel = x.rel := rfl
@[simp] theorem Strand.putToken_loops (x : Strand) (i : Nat) (v : BitVec 8) : (x.putToken i v).loops = x.loops := rfl
@[simp] theorem Strand.putToken_run (x : Strand) (i : Nat) (v : BitVec 8) : (x.putToken i v).run = x.run := rfl
@[simp] theorem Strand.putToken_prio (x : Strand) (i : Nat) (v : BitVec 8) : (x.putToken i v).prio = x.prio := rfl
@[simp] theorem Strand.putToken_owner (x : Strand) (i : Nat) (v : BitVec 8) : (x.putToken i v).owner = x.owner := rfl
@[simp] theorem Strand.putToken_eff (x : Strand) (i : Nat) (v : BitVec 8) : (x.putToken i v).eff = x.eff := rfl
@[simp] theorem Strand.putToken_launched (x : Strand) (i : Nat) (v : BitVec 8) : (x.putToken i v).launched = x.launched := rfl
@[simp] theorem Strand.putToken_q (x : Strand) (i : Nat) (v : BitVec 8) : (x.putToken i v).q = x.q := rfl
@[simp] theorem Strand.putToken_ve (x : Strand) (i : Nat) (v : BitVec 8) : (x.putToken i v).ve = x.ve := rfl
@[simp] theorem Strand.putToken_nest (x : Strand) (i : Nat) (v : BitVec 8) : (x.putToken i v).nest = x.nest := rfl
@[simp] theorem Strand.putToken_curMe (x : Strand) (i : Nat) (v : BitVec 8) : (x.putToken i v).curMe = x.curMe := rfl
@[simp] theorem Strand.putToken_curVe (x : Strand) (i : Nat) (v : BitVec 8) : (x.putToken i v).curVe = x.curVe := rfl
@[simp] theorem Strand.putToken_curCe (x : Strand) (i : Nat) (v : BitVec 8) : (x.putToken i v).curCe = x.curCe := rfl
@[simp] theorem Strand.putToken_trap (x : Strand) (i : Nat) (v : BitVec 8) : (x.putToken i v).trap = x.trap := rfl
@[simp] theorem Strand.putToken_tag (x : Strand) (i : Nat) (v : BitVec 8) : (x.putToken i v).tag = x.tag := rfl
@[simp] theorem Strand.putToken_lease (x : Strand) (i : Nat) (v : BitVec 8) : (x.putToken i v).lease = x.lease := rfl
@[simp] theorem Strand.putToken_amaxClk (x : Strand) (i : Nat) (v : BitVec 8) : (x.putToken i v).amaxClk = x.amaxClk := rfl
@[simp] theorem Strand.putToken_trace (x : Strand) (i : Nat) (v : BitVec 8) : (x.putToken i v).trace = x.trace := rfl
@[simp] theorem Strand.putToken_light (x : Strand) (i : Nat) (v : BitVec 8) : (x.putToken i v).light = x.light := rfl
@[simp] theorem Strand.putToken_got (x : Strand) (i : Nat) (v : BitVec 8) : (x.putToken i v).got = x.got := rfl
@[simp] theorem Strand.putToken_viol (x : Strand) (i : Nat) (v : BitVec 8) : (x.putToken i v).viol = x.viol := rfl

@[simp] theorem Strand.enterTrap_since (x : Strand) (e : Cause) (r : BitVec 17) : (x.enterTrap e r).since = x.since := rfl
@[simp] theorem Strand.enterTrap_sinceClk (x : Strand) (e : Cause) (r : BitVec 17) : (x.enterTrap e r).sinceClk = x.sinceClk := rfl
@[simp] theorem Strand.enterTrap_back (x : Strand) (e : Cause) (r : BitVec 17) : (x.enterTrap e r).back = x.back := rfl
@[simp] theorem Strand.enterTrap_backWait (x : Strand) (e : Cause) (r : BitVec 17) : (x.enterTrap e r).backWait = x.backWait := rfl
@[simp] theorem Strand.enterTrap_d (x : Strand) (e : Cause) (r : BitVec 17) : (x.enterTrap e r).d = x.d := rfl
@[simp] theorem Strand.enterTrap_a (x : Strand) (e : Cause) (r : BitVec 17) : (x.enterTrap e r).a = x.a := rfl
@[simp] theorem Strand.enterTrap_deadD (x : Strand) (e : Cause) (r : BitVec 17) : (x.enterTrap e r).deadD = x.deadD := rfl
@[simp] theorem Strand.enterTrap_deadA (x : Strand) (e : Cause) (r : BitVec 17) : (x.enterTrap e r).deadA = x.deadA := rfl
@[simp] theorem Strand.enterTrap_bad (x : Strand) (e : Cause) (r : BitVec 17) : (x.enterTrap e r).bad = x.bad := rfl
@[simp] theorem Strand.enterTrap_rel (x : Strand) (e : Cause) (r : BitVec 17) : (x.enterTrap e r).rel = x.rel := rfl
@[simp] theorem Strand.enterTrap_run (x : Strand) (e : Cause) (r : BitVec 17) : (x.enterTrap e r).run = x.run := rfl
@[simp] theorem Strand.enterTrap_prio (x : Strand) (e : Cause) (r : BitVec 17) : (x.enterTrap e r).prio = x.prio := rfl
@[simp] theorem Strand.enterTrap_owner (x : Strand) (e : Cause) (r : BitVec 17) : (x.enterTrap e r).owner = x.owner := rfl
@[simp] theorem Strand.enterTrap_eff (x : Strand) (e : Cause) (r : BitVec 17) : (x.enterTrap e r).eff = x.eff := rfl
@[simp] theorem Strand.enterTrap_launched (x : Strand) (e : Cause) (r : BitVec 17) : (x.enterTrap e r).launched = x.launched := rfl
@[simp] theorem Strand.enterTrap_tokens (x : Strand) (e : Cause) (r : BitVec 17) : (x.enterTrap e r).tokens = x.tokens := rfl
@[simp] theorem Strand.enterTrap_ve (x : Strand) (e : Cause) (r : BitVec 17) : (x.enterTrap e r).ve = x.ve := rfl
@[simp] theorem Strand.enterTrap_nest (x : Strand) (e : Cause) (r : BitVec 17) : (x.enterTrap e r).nest = x.nest := rfl
@[simp] theorem Strand.enterTrap_tag (x : Strand) (e : Cause) (r : BitVec 17) : (x.enterTrap e r).tag = x.tag := rfl
@[simp] theorem Strand.enterTrap_amaxClk (x : Strand) (e : Cause) (r : BitVec 17) : (x.enterTrap e r).amaxClk = x.amaxClk := rfl
@[simp] theorem Strand.enterTrap_trace (x : Strand) (e : Cause) (r : BitVec 17) : (x.enterTrap e r).trace = x.trace := rfl
@[simp] theorem Strand.enterTrap_light (x : Strand) (e : Cause) (r : BitVec 17) : (x.enterTrap e r).light = x.light := rfl
@[simp] theorem Strand.enterTrap_viol (x : Strand) (e : Cause) (r : BitVec 17) : (x.enterTrap e r).viol = x.viol := rfl

@[simp] theorem Strand.cutQueues_st (x : Strand) : (x.cutQueues).st = x.st := rfl
@[simp] theorem Strand.cutQueues_wait (x : Strand) : (x.cutQueues).wait = x.wait := rfl
@[simp] theorem Strand.cutQueues_since (x : Strand) : (x.cutQueues).since = x.since := rfl
@[simp] theorem Strand.cutQueues_sinceClk (x : Strand) : (x.cutQueues).sinceClk = x.sinceClk := rfl
@[simp] theorem Strand.cutQueues_back (x : Strand) : (x.cutQueues).back = x.back := rfl
@[simp] theorem Strand.cutQueues_backWait (x : Strand) : (x.cutQueues).backWait = x.backWait := rfl
@[simp] theorem Strand.cutQueues_pc (x : Strand) : (x.cutQueues).pc = x.pc := rfl
@[simp] theorem Strand.cutQueues_po (x : Strand) : (x.cutQueues).po = x.po := rfl
@[simp] theorem Strand.cutQueues_d (x : Strand) : (x.cutQueues).d = x.d := rfl
@[simp] theorem Strand.cutQueues_a (x : Strand) : (x.cutQueues).a = x.a := rfl
@[simp] theorem Strand.cutQueues_deadD (x : Strand) : (x.cutQueues).deadD = x.deadD := rfl
@[simp] theorem Strand.cutQueues_deadA (x : Strand) : (x.cutQueues).deadA = x.deadA := rfl
@[simp] theorem Strand.cutQueues_bad (x : Strand) : (x.cutQueues).bad = x.bad := rfl
@[simp] theorem Strand.cutQueues_rel (x : Strand) : (x.cutQueues).rel = x.rel := rfl
@[simp] theorem Strand.cutQueues_loops (x : Strand) : (x.cutQueues).loops = x.loops := rfl
@[simp] theorem Strand.cutQueues_run (x : Strand) : (x.cutQueues).run = x.run := rfl
@[simp] theorem Strand.cutQueues_prio (x : Strand) : (x.cutQueues).prio = x.prio := rfl
@[simp] theorem Strand.cutQueues_owner (x : Strand) : (x.cutQueues).owner = x.owner := rfl
@[simp] theorem Strand.cutQueues_eff (x : Strand) : (x.cutQueues).eff = x.eff := rfl
@[simp] theorem Strand.cutQueues_launched (x : Strand) : (x.cutQueues).launched = x.launched := rfl
@[simp] theorem Strand.cutQueues_tokens (x : Strand) : (x.cutQueues).tokens = x.tokens := rfl
@[simp] theorem Strand.cutQueues_ve (x : Strand) : (x.cutQueues).ve = x.ve := rfl
@[simp] theorem Strand.cutQueues_nest (x : Strand) : (x.cutQueues).nest = x.nest := rfl
@[simp] theorem Strand.cutQueues_tag (x : Strand) : (x.cutQueues).tag = x.tag := rfl
@[simp] theorem Strand.cutQueues_lease (x : Strand) : (x.cutQueues).lease = x.lease := rfl
@[simp] theorem Strand.cutQueues_amaxClk (x : Strand) : (x.cutQueues).amaxClk = x.amaxClk := rfl
@[simp] theorem Strand.cutQueues_trace (x : Strand) : (x.cutQueues).trace = x.trace := rfl
@[simp] theorem Strand.cutQueues_light (x : Strand) : (x.cutQueues).light = x.light := rfl
@[simp] theorem Strand.cutQueues_got (x : Strand) : (x.cutQueues).got = x.got := rfl
@[simp] theorem Strand.cutQueues_viol (x : Strand) : (x.cutQueues).viol = x.viol := rfl

@[simp] theorem Strand.toEnding_since (x : Strand) : (x.toEnding).since = x.since := rfl
@[simp] theorem Strand.toEnding_sinceClk (x : Strand) : (x.toEnding).sinceClk = x.sinceClk := rfl
@[simp] theorem Strand.toEnding_back (x : Strand) : (x.toEnding).back = x.back := rfl
@[simp] theorem Strand.toEnding_backWait (x : Strand) : (x.toEnding).backWait = x.backWait := rfl
@[simp] theorem Strand.toEnding_pc (x : Strand) : (x.toEnding).pc = x.pc := rfl
@[simp] theorem Strand.toEnding_po (x : Strand) : (x.toEnding).po = x.po := rfl
@[simp] theorem Strand.toEnding_d (x : Strand) : (x.toEnding).d = x.d := rfl
@[simp] theorem Strand.toEnding_a (x : Strand) : (x.toEnding).a = x.a := rfl
@[simp] theorem Strand.toEnding_deadD (x : Strand) : (x.toEnding).deadD = x.deadD := rfl
@[simp] theorem Strand.toEnding_deadA (x : Strand) : (x.toEnding).deadA = x.deadA := rfl
@[simp] theorem Strand.toEnding_bad (x : Strand) : (x.toEnding).bad = x.bad := rfl
@[simp] theorem Strand.toEnding_rel (x : Strand) : (x.toEnding).rel = x.rel := rfl
@[simp] theorem Strand.toEnding_loops (x : Strand) : (x.toEnding).loops = x.loops := rfl
@[simp] theorem Strand.toEnding_run (x : Strand) : (x.toEnding).run = x.run := rfl
@[simp] theorem Strand.toEnding_prio (x : Strand) : (x.toEnding).prio = x.prio := rfl
@[simp] theorem Strand.toEnding_owner (x : Strand) : (x.toEnding).owner = x.owner := rfl
@[simp] theorem Strand.toEnding_eff (x : Strand) : (x.toEnding).eff = x.eff := rfl
@[simp] theorem Strand.toEnding_launched (x : Strand) : (x.toEnding).launched = x.launched := rfl
@[simp] theorem Strand.toEnding_q (x : Strand) : (x.toEnding).q = x.q := rfl
@[simp] theorem Strand.toEnding_tokens (x : Strand) : (x.toEnding).tokens = x.tokens := rfl
@[simp] theorem Strand.toEnding_ve (x : Strand) : (x.toEnding).ve = x.ve := rfl
@[simp] theorem Strand.toEnding_nest (x : Strand) : (x.toEnding).nest = x.nest := rfl
@[simp] theorem Strand.toEnding_curMe (x : Strand) : (x.toEnding).curMe = x.curMe := rfl
@[simp] theorem Strand.toEnding_curVe (x : Strand) : (x.toEnding).curVe = x.curVe := rfl
@[simp] theorem Strand.toEnding_curCe (x : Strand) : (x.toEnding).curCe = x.curCe := rfl
@[simp] theorem Strand.toEnding_trap (x : Strand) : (x.toEnding).trap = x.trap := rfl
@[simp] theorem Strand.toEnding_tag (x : Strand) : (x.toEnding).tag = x.tag := rfl
@[simp] theorem Strand.toEnding_lease (x : Strand) : (x.toEnding).lease = x.lease := rfl
@[simp] theorem Strand.toEnding_amaxClk (x : Strand) : (x.toEnding).amaxClk = x.amaxClk := rfl
@[simp] theorem Strand.toEnding_trace (x : Strand) : (x.toEnding).trace = x.trace := rfl
@[simp] theorem Strand.toEnding_light (x : Strand) : (x.toEnding).light = x.light := rfl
@[simp] theorem Strand.toEnding_got (x : Strand) : (x.toEnding).got = x.got := rfl
@[simp] theorem Strand.toEnding_viol (x : Strand) : (x.toEnding).viol = x.viol := rfl

@[simp] theorem Strand.setD_d (x : Strand) (r : DReg) (v : Dom) : (x.setD r v).d = x.d.set r.toNat v := rfl
@[simp] theorem Strand.setD_store (x : Strand) (r : DReg) (v : Dom) : (x.setD r v).rel.store = markPending x.rel.store r := rfl
@[simp] theorem Strand.setA_a (x : Strand) (r : AReg) (v : DWord) : (x.setA r v).a = x.a.set r.toNat v := rfl
@[simp] theorem Strand.retire_po (x : Strand) : x.retire.po = x.po + 1 := rfl
@[simp] theorem Strand.retire_st (x : Strand) : x.retire.st = .ready := rfl
@[simp] theorem Strand.retire_wait (x : Strand) : x.retire.wait = .none := rfl
@[simp] theorem Strand.retire_pc (x : Strand) : x.retire.pc = (afterWord x.pc x.loops).1 := rfl
@[simp] theorem Strand.retire_loops (x : Strand) : x.retire.loops = (afterWord x.pc x.loops).2 := rfl
@[simp] theorem Strand.jump_pc (x : Strand) (pc : BitVec 17) : (x.jump pc).pc = pc := rfl
@[simp] theorem Strand.jump_po (x : Strand) (pc : BitVec 17) : (x.jump pc).po = x.po + 1 := rfl
@[simp] theorem Strand.jump_st (x : Strand) (pc : BitVec 17) : (x.jump pc).st = .ready := rfl
@[simp] theorem Strand.jump_wait (x : Strand) (pc : BitVec 17) : (x.jump pc).wait = .none := rfl

/-! ### Fields of the core -/

@[simp] theorem Core.putFlag_strands (x : Core) (n : BitVec 8) (v : Bool) : (x.putFlag n v).strands = x.strands := rfl
@[simp] theorem Core.putFlag_rr (x : Core) (n : BitVec 8) (v : Bool) : (x.putFlag n v).rr = x.rr := rfl
@[simp] theorem Core.putFlag_issuedAt (x : Core) (n : BitVec 8) (v : Bool) : (x.putFlag n v).issuedAt = x.issuedAt := rfl
@[simp] theorem Core.putFlag_startedAt (x : Core) (n : BitVec 8) (v : Bool) : (x.putFlag n v).startedAt = x.startedAt := rfl
@[simp] theorem Core.putFlag_me (x : Core) (n : BitVec 8) (v : Bool) : (x.putFlag n v).me = x.me := rfl
@[simp] theorem Core.putFlag_ve (x : Core) (n : BitVec 8) (v : Bool) : (x.putFlag n v).ve = x.ve := rfl
@[simp] theorem Core.putFlag_ce (x : Core) (n : BitVec 8) (v : Bool) : (x.putFlag n v).ce = x.ce := rfl
@[simp] theorem Core.putFlag_flagClk (x : Core) (n : BitVec 8) (v : Bool) : (x.putFlag n v).flagClk = x.flagClk := rfl
@[simp] theorem Core.putFlag_flagSets (x : Core) (n : BitVec 8) (v : Bool) : (x.putFlag n v).flagSets = x.flagSets := rfl
@[simp] theorem Core.putFlag_full (x : Core) (n : BitVec 8) (v : Bool) : (x.putFlag n v).full = x.full := rfl
@[simp] theorem Core.putFlag_part (x : Core) (n : BitVec 8) (v : Bool) : (x.putFlag n v).part = x.part := rfl
@[simp] theorem Core.putFlag_feBy (x : Core) (n : BitVec 8) (v : Bool) : (x.putFlag n v).feBy = x.feBy := rfl
@[simp] theorem Core.putFlag_seedM (x : Core) (n : BitVec 8) (v : Bool) : (x.putFlag n v).seedM = x.seedM := rfl
@[simp] theorem Core.putFlag_seedV (x : Core) (n : BitVec 8) (v : Bool) : (x.putFlag n v).seedV = x.seedV := rfl
@[simp] theorem Core.putFlag_seedNextM (x : Core) (n : BitVec 8) (v : Bool) : (x.putFlag n v).seedNextM = x.seedNextM := rfl
@[simp] theorem Core.putFlag_seedNextV (x : Core) (n : BitVec 8) (v : Bool) : (x.putFlag n v).seedNextV = x.seedNextV := rfl
@[simp] theorem Core.putFlag_msgBase (x : Core) (n : BitVec 8) (v : Bool) : (x.putFlag n v).msgBase = x.msgBase := rfl
@[simp] theorem Core.putFlag_act (x : Core) (n : BitVec 8) (v : Bool) : (x.putFlag n v).act = x.act := rfl
@[simp] theorem Core.putFlag_dark (x : Core) (n : BitVec 8) (v : Bool) : (x.putFlag n v).dark = x.dark := rfl
@[simp] theorem Core.putFlag_closing (x : Core) (n : BitVec 8) (v : Bool) : (x.putFlag n v).closing = x.closing := rfl
@[simp] theorem Core.putFlag_pfdrop (x : Core) (n : BitVec 8) (v : Bool) : (x.putFlag n v).pfdrop = x.pfdrop := rfl
@[simp] theorem Core.putFlag_ptph (x : Core) (n : BitVec 8) (v : Bool) : (x.putFlag n v).ptph = x.ptph := rfl
@[simp] theorem Core.putFlag_scope (x : Core) (n : BitVec 8) (v : Bool) : (x.putFlag n v).scope = x.scope := rfl
@[simp] theorem Core.putFlag_flights (x : Core) (n : BitVec 8) (v : Bool) : (x.putFlag n v).flights = x.flights := rfl
@[simp] theorem Core.putFlag_issueNo (x : Core) (n : BitVec 8) (v : Bool) : (x.putFlag n v).issueNo = x.issueNo := rfl
@[simp] theorem Core.putFlag_ready (x : Core) (n : BitVec 8) (v : Bool) : (x.putFlag n v).ready = x.ready := rfl
@[simp] theorem Core.putFlag_wheel (x : Core) (n : BitVec 8) (v : Bool) : (x.putFlag n v).wheel = x.wheel := rfl
@[simp] theorem Core.putFlag_wheelAt (x : Core) (n : BitVec 8) (v : Bool) : (x.putFlag n v).wheelAt = x.wheelAt := rfl
@[simp] theorem Core.putFlag_messages (x : Core) (n : BitVec 8) (v : Bool) : (x.putFlag n v).messages = x.messages := rfl
@[simp] theorem Core.putFlag_placed (x : Core) (n : BitVec 8) (v : Bool) : (x.putFlag n v).placed = x.placed := rfl
@[simp] theorem Core.putFlag_images (x : Core) (n : BitVec 8) (v : Bool) : (x.putFlag n v).images = x.images := rfl
@[simp] theorem Core.putFlag_tlb (x : Core) (n : BitVec 8) (v : Bool) : (x.putFlag n v).tlb = x.tlb := rfl
@[simp] theorem Core.putFlag_mbox (x : Core) (n : BitVec 8) (v : Bool) : (x.putFlag n v).mbox = x.mbox := rfl
@[simp] theorem Core.putFlag_pre (x : Core) (n : BitVec 8) (v : Bool) : (x.putFlag n v).pre = x.pre := rfl
@[simp] theorem Core.putFlag_parkBase (x : Core) (n : BitVec 8) (v : Bool) : (x.putFlag n v).parkBase = x.parkBase := rfl
@[simp] theorem Core.putFlag_scopeSet (x : Core) (n : BitVec 8) (v : Bool) : (x.putFlag n v).scopeSet = x.scopeSet := rfl
@[simp] theorem Core.putFlag_corr (x : Core) (n : BitVec 8) (v : Bool) : (x.putFlag n v).corr = x.corr := rfl
@[simp] theorem Core.putFlag_repair (x : Core) (n : BitVec 8) (v : Bool) : (x.putFlag n v).repair = x.repair := rfl
@[simp] theorem Core.putFlag_unc (x : Core) (n : BitVec 8) (v : Bool) : (x.putFlag n v).unc = x.unc := rfl
@[simp] theorem Core.putFlag_vskip (x : Core) (n : BitVec 8) (v : Bool) : (x.putFlag n v).vskip = x.vskip := rfl

@[simp] theorem Core.putEng_strands (x : Core) (e : Eng) (v : EngState) : (x.putEng e v).strands = x.strands := by cases e <;> rfl
@[simp] theorem Core.putEng_rr (x : Core) (e : Eng) (v : EngState) : (x.putEng e v).rr = x.rr := by cases e <;> rfl
@[simp] theorem Core.putEng_issuedAt (x : Core) (e : Eng) (v : EngState) : (x.putEng e v).issuedAt = x.issuedAt := by cases e <;> rfl
@[simp] theorem Core.putEng_startedAt (x : Core) (e : Eng) (v : EngState) : (x.putEng e v).startedAt = x.startedAt := by cases e <;> rfl
@[simp] theorem Core.putEng_flags (x : Core) (e : Eng) (v : EngState) : (x.putEng e v).flags = x.flags := by cases e <;> rfl
@[simp] theorem Core.putEng_flagBy (x : Core) (e : Eng) (v : EngState) : (x.putEng e v).flagBy = x.flagBy := by cases e <;> rfl
@[simp] theorem Core.putEng_flagClk (x : Core) (e : Eng) (v : EngState) : (x.putEng e v).flagClk = x.flagClk := by cases e <;> rfl
@[simp] theorem Core.putEng_flagSets (x : Core) (e : Eng) (v : EngState) : (x.putEng e v).flagSets = x.flagSets := by cases e <;> rfl
@[simp] theorem Core.putEng_full (x : Core) (e : Eng) (v : EngState) : (x.putEng e v).full = x.full := by cases e <;> rfl
@[simp] theorem Core.putEng_part (x : Core) (e : Eng) (v : EngState) : (x.putEng e v).part = x.part := by cases e <;> rfl
@[simp] theorem Core.putEng_feBy (x : Core) (e : Eng) (v : EngState) : (x.putEng e v).feBy = x.feBy := by cases e <;> rfl
@[simp] theorem Core.putEng_seedM (x : Core) (e : Eng) (v : EngState) : (x.putEng e v).seedM = x.seedM := by cases e <;> rfl
@[simp] theorem Core.putEng_seedV (x : Core) (e : Eng) (v : EngState) : (x.putEng e v).seedV = x.seedV := by cases e <;> rfl
@[simp] theorem Core.putEng_seedNextM (x : Core) (e : Eng) (v : EngState) : (x.putEng e v).seedNextM = x.seedNextM := by cases e <;> rfl
@[simp] theorem Core.putEng_seedNextV (x : Core) (e : Eng) (v : EngState) : (x.putEng e v).seedNextV = x.seedNextV := by cases e <;> rfl
@[simp] theorem Core.putEng_msgBase (x : Core) (e : Eng) (v : EngState) : (x.putEng e v).msgBase = x.msgBase := by cases e <;> rfl
@[simp] theorem Core.putEng_act (x : Core) (e : Eng) (v : EngState) : (x.putEng e v).act = x.act := by cases e <;> rfl
@[simp] theorem Core.putEng_dark (x : Core) (e : Eng) (v : EngState) : (x.putEng e v).dark = x.dark := by cases e <;> rfl
@[simp] theorem Core.putEng_closing (x : Core) (e : Eng) (v : EngState) : (x.putEng e v).closing = x.closing := by cases e <;> rfl
@[simp] theorem Core.putEng_pfdrop (x : Core) (e : Eng) (v : EngState) : (x.putEng e v).pfdrop = x.pfdrop := by cases e <;> rfl
@[simp] theorem Core.putEng_ptph (x : Core) (e : Eng) (v : EngState) : (x.putEng e v).ptph = x.ptph := by cases e <;> rfl
@[simp] theorem Core.putEng_scope (x : Core) (e : Eng) (v : EngState) : (x.putEng e v).scope = x.scope := by cases e <;> rfl
@[simp] theorem Core.putEng_flights (x : Core) (e : Eng) (v : EngState) : (x.putEng e v).flights = x.flights := by cases e <;> rfl
@[simp] theorem Core.putEng_issueNo (x : Core) (e : Eng) (v : EngState) : (x.putEng e v).issueNo = x.issueNo := by cases e <;> rfl
@[simp] theorem Core.putEng_ready (x : Core) (e : Eng) (v : EngState) : (x.putEng e v).ready = x.ready := by cases e <;> rfl
@[simp] theorem Core.putEng_wheel (x : Core) (e : Eng) (v : EngState) : (x.putEng e v).wheel = x.wheel := by cases e <;> rfl
@[simp] theorem Core.putEng_wheelAt (x : Core) (e : Eng) (v : EngState) : (x.putEng e v).wheelAt = x.wheelAt := by cases e <;> rfl
@[simp] theorem Core.putEng_messages (x : Core) (e : Eng) (v : EngState) : (x.putEng e v).messages = x.messages := by cases e <;> rfl
@[simp] theorem Core.putEng_placed (x : Core) (e : Eng) (v : EngState) : (x.putEng e v).placed = x.placed := by cases e <;> rfl
@[simp] theorem Core.putEng_images (x : Core) (e : Eng) (v : EngState) : (x.putEng e v).images = x.images := by cases e <;> rfl
@[simp] theorem Core.putEng_tlb (x : Core) (e : Eng) (v : EngState) : (x.putEng e v).tlb = x.tlb := by cases e <;> rfl
@[simp] theorem Core.putEng_mbox (x : Core) (e : Eng) (v : EngState) : (x.putEng e v).mbox = x.mbox := by cases e <;> rfl
@[simp] theorem Core.putEng_pre (x : Core) (e : Eng) (v : EngState) : (x.putEng e v).pre = x.pre := by cases e <;> rfl
@[simp] theorem Core.putEng_parkBase (x : Core) (e : Eng) (v : EngState) : (x.putEng e v).parkBase = x.parkBase := by cases e <;> rfl
@[simp] theorem Core.putEng_scopeSet (x : Core) (e : Eng) (v : EngState) : (x.putEng e v).scopeSet = x.scopeSet := by cases e <;> rfl
@[simp] theorem Core.putEng_corr (x : Core) (e : Eng) (v : EngState) : (x.putEng e v).corr = x.corr := by cases e <;> rfl
@[simp] theorem Core.putEng_repair (x : Core) (e : Eng) (v : EngState) : (x.putEng e v).repair = x.repair := by cases e <;> rfl
@[simp] theorem Core.putEng_unc (x : Core) (e : Eng) (v : EngState) : (x.putEng e v).unc = x.unc := by cases e <;> rfl
@[simp] theorem Core.putEng_vskip (x : Core) (e : Eng) (v : EngState) : (x.putEng e v).vskip = x.vskip := by cases e <;> rfl

@[simp] theorem Core.putFull_strands (x : Core) (b m : BitVec 16) (v : Bool) : (x.putFull b m v).strands = x.strands := rfl
@[simp] theorem Core.putFull_rr (x : Core) (b m : BitVec 16) (v : Bool) : (x.putFull b m v).rr = x.rr := rfl
@[simp] theorem Core.putFull_issuedAt (x : Core) (b m : BitVec 16) (v : Bool) : (x.putFull b m v).issuedAt = x.issuedAt := rfl
@[simp] theorem Core.putFull_startedAt (x : Core) (b m : BitVec 16) (v : Bool) : (x.putFull b m v).startedAt = x.startedAt := rfl
@[simp] theorem Core.putFull_me (x : Core) (b m : BitVec 16) (v : Bool) : (x.putFull b m v).me = x.me := rfl
@[simp] theorem Core.putFull_ve (x : Core) (b m : BitVec 16) (v : Bool) : (x.putFull b m v).ve = x.ve := rfl
@[simp] theorem Core.putFull_ce (x : Core) (b m : BitVec 16) (v : Bool) : (x.putFull b m v).ce = x.ce := rfl
@[simp] theorem Core.putFull_flags (x : Core) (b m : BitVec 16) (v : Bool) : (x.putFull b m v).flags = x.flags := rfl
@[simp] theorem Core.putFull_flagBy (x : Core) (b m : BitVec 16) (v : Bool) : (x.putFull b m v).flagBy = x.flagBy := rfl
@[simp] theorem Core.putFull_flagClk (x : Core) (b m : BitVec 16) (v : Bool) : (x.putFull b m v).flagClk = x.flagClk := rfl
@[simp] theorem Core.putFull_flagSets (x : Core) (b m : BitVec 16) (v : Bool) : (x.putFull b m v).flagSets = x.flagSets := rfl
@[simp] theorem Core.putFull_part (x : Core) (b m : BitVec 16) (v : Bool) : (x.putFull b m v).part = x.part := rfl
@[simp] theorem Core.putFull_seedM (x : Core) (b m : BitVec 16) (v : Bool) : (x.putFull b m v).seedM = x.seedM := rfl
@[simp] theorem Core.putFull_seedV (x : Core) (b m : BitVec 16) (v : Bool) : (x.putFull b m v).seedV = x.seedV := rfl
@[simp] theorem Core.putFull_seedNextM (x : Core) (b m : BitVec 16) (v : Bool) : (x.putFull b m v).seedNextM = x.seedNextM := rfl
@[simp] theorem Core.putFull_seedNextV (x : Core) (b m : BitVec 16) (v : Bool) : (x.putFull b m v).seedNextV = x.seedNextV := rfl
@[simp] theorem Core.putFull_msgBase (x : Core) (b m : BitVec 16) (v : Bool) : (x.putFull b m v).msgBase = x.msgBase := rfl
@[simp] theorem Core.putFull_act (x : Core) (b m : BitVec 16) (v : Bool) : (x.putFull b m v).act = x.act := rfl
@[simp] theorem Core.putFull_dark (x : Core) (b m : BitVec 16) (v : Bool) : (x.putFull b m v).dark = x.dark := rfl
@[simp] theorem Core.putFull_closing (x : Core) (b m : BitVec 16) (v : Bool) : (x.putFull b m v).closing = x.closing := rfl
@[simp] theorem Core.putFull_pfdrop (x : Core) (b m : BitVec 16) (v : Bool) : (x.putFull b m v).pfdrop = x.pfdrop := rfl
@[simp] theorem Core.putFull_ptph (x : Core) (b m : BitVec 16) (v : Bool) : (x.putFull b m v).ptph = x.ptph := rfl
@[simp] theorem Core.putFull_scope (x : Core) (b m : BitVec 16) (v : Bool) : (x.putFull b m v).scope = x.scope := rfl
@[simp] theorem Core.putFull_flights (x : Core) (b m : BitVec 16) (v : Bool) : (x.putFull b m v).flights = x.flights := rfl
@[simp] theorem Core.putFull_issueNo (x : Core) (b m : BitVec 16) (v : Bool) : (x.putFull b m v).issueNo = x.issueNo := rfl
@[simp] theorem Core.putFull_ready (x : Core) (b m : BitVec 16) (v : Bool) : (x.putFull b m v).ready = x.ready := rfl
@[simp] theorem Core.putFull_wheel (x : Core) (b m : BitVec 16) (v : Bool) : (x.putFull b m v).wheel = x.wheel := rfl
@[simp] theorem Core.putFull_wheelAt (x : Core) (b m : BitVec 16) (v : Bool) : (x.putFull b m v).wheelAt = x.wheelAt := rfl
@[simp] theorem Core.putFull_messages (x : Core) (b m : BitVec 16) (v : Bool) : (x.putFull b m v).messages = x.messages := rfl
@[simp] theorem Core.putFull_placed (x : Core) (b m : BitVec 16) (v : Bool) : (x.putFull b m v).placed = x.placed := rfl
@[simp] theorem Core.putFull_images (x : Core) (b m : BitVec 16) (v : Bool) : (x.putFull b m v).images = x.images := rfl
@[simp] theorem Core.putFull_tlb (x : Core) (b m : BitVec 16) (v : Bool) : (x.putFull b m v).tlb = x.tlb := rfl
@[simp] theorem Core.putFull_mbox (x : Core) (b m : BitVec 16) (v : Bool) : (x.putFull b m v).mbox = x.mbox := rfl
@[simp] theorem Core.putFull_pre (x : Core) (b m : BitVec 16) (v : Bool) : (x.putFull b m v).pre = x.pre := rfl
@[simp] theorem Core.putFull_parkBase (x : Core) (b m : BitVec 16) (v : Bool) : (x.putFull b m v).parkBase = x.parkBase := rfl
@[simp] theorem Core.putFull_scopeSet (x : Core) (b m : BitVec 16) (v : Bool) : (x.putFull b m v).scopeSet = x.scopeSet := rfl
@[simp] theorem Core.putFull_corr (x : Core) (b m : BitVec 16) (v : Bool) : (x.putFull b m v).corr = x.corr := rfl
@[simp] theorem Core.putFull_repair (x : Core) (b m : BitVec 16) (v : Bool) : (x.putFull b m v).repair = x.repair := rfl
@[simp] theorem Core.putFull_unc (x : Core) (b m : BitVec 16) (v : Bool) : (x.putFull b m v).unc = x.unc := rfl
@[simp] theorem Core.putFull_vskip (x : Core) (b m : BitVec 16) (v : Bool) : (x.putFull b m v).vskip = x.vskip := rfl

end Sys2Proof.Machine
end

