-- ==== Sys2Proof/Laws/Ops.lean ====
section
/-! SUPPORT. What each shared operation of the sequencer can do, said once: access after update, going on, waiting,
taking a trap, entering a queue, replacing a register. -/
namespace Sys2Proof.Machine

/-! ### Access after update -/

@[simp] theorem State.coreAt_putCore (s : State) (c : Nat) (x : Core) : (s.putCore c x).coreAt c = x :=
  SMap.get_put_same _ _ _ _
theorem State.coreAt_putCore_ne (s : State) (c j : Nat) (x : Core) (h : j ≠ c) : (s.putCore c x).coreAt j = s.coreAt j :=
  SMap.get_put_other _ _ _ _ _ h
@[simp] theorem State.coreAt_updCore (s : State) (c : Nat) (f : Core → Core) : (s.updCore c f).coreAt c = f (s.coreAt c) :=
  State.coreAt_putCore _ _ _
theorem State.coreAt_updCore_ne (s : State) (c j : Nat) (f : Core → Core) (h : j ≠ c) :
    (s.updCore c f).coreAt j = s.coreAt j := State.coreAt_putCore_ne _ _ _ _ h

/-- The core of a strand that is put keeps everything but its strands. -/
theorem State.coreAt_putStrand (s : State) (c : Nat) (k : Fin 9) (x : Strand) :
    (s.putStrand c k x).coreAt c = { s.coreAt c with strands := (s.coreAt c).strands.set k.val x } :=
  State.coreAt_putCore _ _ _
theorem State.coreAt_putStrand_ne (s : State) (c j : Nat) (k : Fin 9) (x : Strand) (h : j ≠ c) :
    (s.putStrand c k x).coreAt j = s.coreAt j := State.coreAt_putCore_ne _ _ _ _ h

@[simp] theorem State.strandAt_putStrand (s : State) (c : Nat) (k : Fin 9) (x : Strand) :
    (s.putStrand c k x).strandAt c k = x := by
  simp [State.strandAt, State.coreAt_putStrand]
theorem State.strandAt_putStrand_ne (s : State) (c c' : Nat) (k k' : Fin 9) (x : Strand) (h : c' ≠ c ∨ k' ≠ k) :
    (s.putStrand c k x).strandAt c' k' = s.strandAt c' k' := by
  unfold State.strandAt
  by_cases hc : c' = c
  · subst hc
    have hk : k.val ≠ k'.val := fun e => (h.resolve_left (by simp)) (Fin.ext e.symm)
    simp [State.coreAt_putStrand, Vector.getElem_set_ne, hk]
  · rw [State.coreAt_putStrand_ne _ _ _ _ _ hc]
@[simp] theorem State.strandAt_updAt (s : State) (c : Nat) (k : Fin 9) (f : Strand → Strand) :
    (s.updAt c k f).strandAt c k = f (s.strandAt c k) := State.strandAt_putStrand _ _ _ _
theorem State.strandAt_updAt_ne (s : State) (c c' : Nat) (k k' : Fin 9) (f : Strand → Strand) (h : c' ≠ c ∨ k' ≠ k) :
    (s.updAt c k f).strandAt c' k' = s.strandAt c' k' := State.strandAt_putStrand_ne _ _ _ _ _ _ h
/-- Fields of a core other than its strands reach no strand. -/
theorem State.strandAt_updCore (s : State) (c c' : Nat) (k : Fin 9) (f : Core → Core)
    (h : (f (s.coreAt c)).strands = (s.coreAt c).strands) : (s.updCore c f).strandAt c' k = s.strandAt c' k := by
  unfold State.strandAt
  by_cases hc : c' = c
  · subst hc
    rw [State.coreAt_updCore]
    simp [h]
  · rw [State.coreAt_updCore_ne _ _ _ _ hc]

@[simp] theorem State.self_putSelf (s : State) (x : Strand) : (s.putSelf x).self = x := State.strandAt_putStrand _ _ _ _
@[simp] theorem State.self_upd (s : State) (f : Strand → Strand) : (s.upd f).self = f s.self := State.self_putSelf _ _
theorem State.upd_eq (s : State) (f : Strand → Strand) : s.upd f = s.putSelf (f s.self) := rfl

/-! ### Going on -/

/-- A word that has issued goes on: nothing of the state but the acting strand changes. -/
theorem State.done_eq (s : State) : s.done = .next (s.putSelf s.self.retire) := rfl
theorem State.putD_eq (s : State) (r : DReg) (v : Dom) : s.putD r v = .next (s.putSelf (s.self.setD r v).retire) := rfl
theorem State.putA_eq (s : State) (r : AReg) (v : DWord) : s.putA r v = .next (s.putSelf (s.self.setA r v).retire) := rfl

theorem State.withVal_some (s : State) (d : Dom) (k : Word → Out) (v : Word) (h : d.val = some v) : s.withVal d k = k v := by
  simp [State.withVal, h]
theorem State.withVal_none (s : State) (d : Dom) (k : Word → Out) (h : d.val = none) :
    s.withVal d k = s.trapHere Code.indeterminate := by
  simp [State.withVal, h]
theorem State.withVals_some (s : State) (a b : Dom) (k : Word → Word → Out) (v w : Word) (ha : a.val = some v)
    (hb : b.val = some w) : s.withVals a b k = k v w := by
  simp [State.withVals, State.withVal, ha, hb]

/-- A singleton has its value. -/
@[simp] theorem Dom.val_single (v : Word) : (Dom.single v).val = some v := by simp [Dom.val, Dom.sng, Dom.single]

/-- A wait leaves everything but the acting strand, of which only the state and the wait change. -/
theorem State.await_eq (s : State) (w : Wait) : s.await w = .next (s.putSelf (s.self.waitFor w s.steps s.clk)) := rfl
theorem Strand.waitFor_st (x : Strand) (w : Wait) (a b : Nat) : (x.waitFor w a b).st = .waiting ∧ (x.waitFor w a b).wait = w := by
  unfold Strand.waitFor
  split
  · exact ⟨rfl, ‹_›⟩
  · exact ⟨rfl, rfl⟩

/-! ### Entering a queue -/

theorem State.enterLd_room (s : State) (i : Instr) (ea v c : DWord) (h : s.self.allQueued.ld.length < 64) :
    s.enterLd i ea v c = .next (s.putSelf (s.self.pushLd i ea v c).retire) := by
  simp [State.enterLd, Nat.not_le.2 h, State.upd_eq]
theorem State.enterSt_room (s : State) (i : Instr) (ea v c : DWord) (h : s.self.allQueued.st.length < 64) :
    s.enterSt i ea v c = .next (s.putSelf (s.self.pushSt i ea v c).retire) := by
  simp [State.enterSt, Nat.not_le.2 h, State.upd_eq]
theorem State.enterStWait_room (s : State) (i : Instr) (ea v c : DWord) (w : Wait) (h : s.self.allQueued.st.length < 64) :
    s.enterStWait i ea v c w = .next (s.putSelf ((s.self.pushSt i ea v c).retire.waitFor w s.steps s.clk)) := by
  simp [State.enterStWait, Nat.not_le.2 h, State.upd_eq]

/-! ### Traps -/

/-- A trap answers a next state, whatever the state. -/
theorem State.trapHere_next (s : State) (code : BitVec 8) : ∃ t, s.trapHere code = .next t := ⟨_, rfl⟩
theorem State.trapAddr_next (s : State) (code : BitVec 8) (a : DWord) : ∃ t, s.trapAddr code a = .next t := ⟨_, rfl⟩

/-! ### The memory's canonical form -/

theorem State.write_wf (s : State) (k : Nat) (bs : List Byte) (h : Memory.wf s.mem = true) :
    Memory.wf (s.write k bs).mem = true := Memory.wf_write _ _ _ h
theorem State.store_wf (s : State) (k : Nat) (bs : List Byte) (h : Memory.wf s.mem = true) :
    Memory.wf (s.store k bs).mem = true := Memory.wf_write _ _ _ h
theorem State.clear_wf (s : State) (k n : Nat) (h : Memory.wf s.mem = true) :
    Memory.wf (s.clear k n).mem = true := Memory.wf_clear _ _ _ h
theorem State.storeChunks_wf (l : List (Nat × Nat)) : ∀ (s : State) (bs : List Byte), Memory.wf s.mem = true →
    Memory.wf (s.storeChunks l bs).mem = true := by
  induction l with
  | nil => intro s bs h; exact h
  | cons x l ih => intro s bs h; exact ih _ _ (State.store_wf _ _ _ h)
theorem State.updCore_wf (s : State) (c : Nat) (f : Core → Core) (h : Memory.wf s.mem = true) :
    Memory.wf (s.updCore c f).mem = true := h
theorem State.engWrite_wf (s : State) (va k : Nat) (bs : List Byte) (h : Memory.wf s.mem = true) :
    Memory.wf (s.engWrite va k bs).mem = true := by
  unfold State.engWrite
  split
  · exact h
  · exact State.store_wf _ _ _ h
theorem State.engWrites_wf (l : List (Nat × Nat)) : ∀ (s : State) (va : Nat) (bs : List Byte), Memory.wf s.mem = true →
    Memory.wf (s.engWrites va l bs).mem = true := by
  induction l with
  | nil => intro s va bs h; exact h
  | cons x l ih => intro s va bs h; exact ih _ _ _ (State.engWrite_wf _ _ _ _ h)

/-! ### What the units of the package write (R18, R329, R342, R365) -/

/-- A step of a unit of the package from `s` to `t`: it changes no core, and memory keeps its form. -/
structure State.Beside (s t : State) : Prop where
  cores : t.cores = s.cores
  wf : Memory.wf s.mem = true → Memory.wf t.mem = true
theorem State.Beside.rfl' (s : State) : s.Beside s := ⟨rfl, id⟩
theorem State.Beside.trans {s t u : State} (a : s.Beside t) (b : t.Beside u) : s.Beside u :=
  ⟨b.cores.trans a.cores, fun h => b.wf (a.wf h)⟩

theorem State.touchChannel_beside (s : State) (h i : Nat) : s.Beside (s.touchChannel h i).1 := by
  simp only [State.touchChannel]
  split <;> exact ⟨rfl, id⟩
theorem State.touchRows_beside (l : List Nat) : ∀ s : State, s.Beside (s.touchRows l).1 := by
  induction l with
  | nil => intro s; exact .rfl' s
  | cons a l ih =>
    intro s
    refine State.Beside.trans ?_ (ih _)
    simp only [State.touchVault]
    split
    · exact .rfl' s
    · exact s.touchChannel_beside _ _
theorem State.touched_beside (s : State) (l : List (Nat × Nat)) : s.Beside (s.touched l) := State.touchRows_beside _ s
/-- An access to nothing is held by nothing, and leaves nothing. -/
@[simp] theorem State.heldUp_nil (s : State) (c : Nat) : s.heldUp c [] = false := rfl
@[simp] theorem State.arriveAt_nil (s : State) (c k : Nat) : s.arriveAt c k [] = s := by
  have h : ∀ l : List (Nat × Bool), l.filter (fun _ => false) = [] := fun l => by simp
  simp only [State.arriveAt, State.holdsAny, State.sleeping, State.touched, State.touchAll, rowsOf, State.touchRows, State.meetFlaws,
    List.any_nil, List.flatMap_nil, Bool.or_self, Bool.not_true, Bool.false_eq_true, if_false, h, List.foldl_nil]
theorem State.areaTouched_beside (s : State) (l : List (Nat × Nat)) : s.Beside (s.areaTouched l) := by
  have go : ∀ (l : List (Nat × Nat)) (s : State), s.Beside (l.foldl (fun s x => (s.touchChannel x.1 x.2).1) s) := by
    intro l
    induction l with
    | nil => intro s; exact .rfl' s
    | cons x l ih => intro s; exact (s.touchChannel_beside _ _).trans (ih _)
  exact go _ s
theorem State.unitWrite_beside (s : State) (c k : Nat) (bs : List Byte) : s.Beside (s.unitWrite c k bs) := by
  have h := s.touched_beside [(k, bs.length)]
  simp only [State.unitWrite]
  split
  · exact .rfl' s
  · split
    · exact ⟨h.cores, h.wf⟩
    · split <;> exact ⟨h.cores, fun w => State.store_wf _ _ _ (h.wf w)⟩
theorem flushRing_beside (base : Nat) (cons : Byte) (own : Bool) (l : List EventRec) :
    ∀ (s : State) (prod : Byte), s.Beside (flushRing base cons own l s prod).1 := by
  induction l with
  | nil => intro s prod; exact .rfl' s
  | cons e l ih =>
    intro s prod
    have h := s.touched_beside [(base + 32 * prod.toNat, 32)]
    simp only [flushRing]
    split
    · exact .rfl' s
    · split
      · exact h
      · refine State.Beside.trans ?_ (ih _ _)
        split <;> exact ⟨h.cores, fun w => State.write_wf _ _ _ (h.wf w)⟩
theorem State.flushPart_beside (s : State) (p : Nat) : s.Beside (s.flushPart p) := by
  simp only [State.flushPart]
  split
  · exact .rfl' s
  · have h := flushRing_beside (pteAddr (s.part p).evbase.toNat) (s.part p).evcons false (s.part p).kept s (s.part p).evprod
    exact ⟨h.cores, h.wf⟩
theorem State.flushMgmt_beside (s : State) : s.Beside s.flushMgmt := by
  simp only [State.flushMgmt]
  split
  · exact .rfl' s
  · have h := flushRing_beside (pteAddr s.pkg.mevbase.toNat) s.pkg.mevcons true s.pkg.mkept s s.pkg.mevprod
    exact ⟨h.cores, h.wf⟩
theorem State.emitPart_beside (s : State) (p : Nat) (e : EventRec) : s.Beside (s.emitPart p e) :=
  have h := State.flushPart_beside (s.putPart p { s.part p with kept := keepEvent (s.part p).kept e }) p
  ⟨h.cores, h.wf⟩
/-- An event changes no core. -/
theorem State.emit_beside (s : State) (c slot kind addr fid agent : Nat) : s.Beside (s.emit c slot kind addr fid agent) := by
  unfold State.emit
  split
  · have h := State.flushMgmt_beside
      { s with pkg := { s.pkg with mkept := keepEvent s.pkg.mkept (eventRec kind addr fid 0 slot agent) } }
    exact ⟨h.cores, h.wf⟩
  · split
    · exact s.emitPart_beside _ _
    · exact .rfl' s
theorem State.poisonRow_beside (s : State) (key : Nat) (b : Option Nat) : s.Beside (s.poisonRow key b) := by
  have e {t u : State} (h : t.Beside u) (hc : t.cores = s.cores) (hm : t.mem = s.mem) : s.Beside u :=
    ⟨h.cores.trans hc, fun w => h.wf (hm ▸ w)⟩
  unfold State.poisonRow
  generalize (if key < hostBase then 0 else sramCore key) = core
  dsimp only
  split
  · exact e (State.emit_beside _ _ _ _ _ _ _) rfl rfl
  · split
    · exact e (State.emitPart_beside _ _ _) rfl rfl
    · exact e (State.emit_beside _ _ _ _ _ _ _) rfl rfl
    · exact ⟨rfl, id⟩

/-! ### Write events (R64) -/

theorem State.fma1_beside (s : State) (key : Nat) (w : Word) (g : Word × Nat) : s.Beside (s.fma1 key w g) :=
  ⟨rfl, fun h => State.store_wf _ _ _ h⟩
theorem State.put_beside (s : State) (p : Put) : s.Beside (s.put p) := by
  cases p with
  | bytes k bs => exact ⟨rfl, fun h => State.store_wf _ _ _ h⟩
  | add k v => exact ⟨rfl, fun h => State.store_wf _ _ _ h⟩
  | fma k w gs =>
    have go : ∀ (l : List (Word × Nat)) (s : State), s.Beside (l.foldl (State.fma1 · k w ·) s) := by
      intro l
      induction l with
      | nil => intro s; exact .rfl' s
      | cons x l ih => intro s; exact (s.fma1_beside _ _ _).trans (ih _)
    exact go _ s
theorem State.putAll_beside (l : List Put) : ∀ s : State, s.Beside (s.putAll l) := by
  induction l with
  | nil => intro s; exact .rfl' s
  | cons p l ih => intro s; exact (s.put_beside p).trans (ih _)

/-! ### Repetitions and units at one moment -/

theorem State.seen_now (s : State) (l : List (Nat × Nat)) (h : s.view = []) : s.seen l = s.readChunks l := by
  simp [State.seen, h]
theorem State.engWrite_now (s : State) (va k : Nat) (bs : List Byte) (h : s.view = []) : s.engWrite va k bs = s.store k bs := by
  simp [State.engWrite, h]
/-- A write to an own tile or register is performed as it issues. -/
theorem State.engWrite_own (s : State) (va k : Nat) (bs : List Byte) (h : further s.core k = false) :
    s.engWrite va k bs = s.store k bs := by simp [State.engWrite, h]
theorem State.engWrites_now (l : List (Nat × Nat)) : ∀ (s : State) (va : Nat) (bs : List Byte), s.view = [] →
    s.engWrites va l bs = s.storeChunks l bs := by
  induction l with
  | nil => intro s va bs _; rfl
  | cons x l ih =>
    intro s va bs h
    have e := State.engWrite_now s va x.1 (bs.take x.2) h
    exact (congrArg (fun t => State.engWrites t (va + x.2) l (bs.drop x.2)) e).trans (ih _ _ _ h)
theorem State.storeAll_wf (l : List (Nat × List Byte)) : ∀ (s : State), Memory.wf s.mem = true →
    Memory.wf (s.storeAll l).mem = true := by
  induction l with
  | nil => intro s h; exact h
  | cons x l ih => intro s h; exact ih _ (State.engWrite_wf _ _ _ _ h)

end Sys2Proof.Machine
end

