-- ==== Sys2Proof/Laws/Area.lean ====
section
/-! SUPPORT. What the accesses of an area leave as it was on their way: every byte, every register and every translation, so that
an area stands where it stood and holds what it held. -/
namespace Sys2Proof.Machine

/-- A state that differs from `s` at most in which pseudo-channels have been used, sleep or are held. -/
structure State.Touched (s t : State) : Prop where
  eq : t = { s with hbm := t.hbm }
  trained : ∀ i, (t.stack i).trained = (s.stack i).trained
theorem State.Touched.rfl' (s : State) : s.Touched s := ⟨rfl, fun _ => rfl⟩
theorem State.Touched.trans {s t u : State} (a : s.Touched t) (b : t.Touched u) : s.Touched u :=
  ⟨by have h := b.eq; rw [a.eq] at h; exact h, fun i => (b.trained i).trans (a.trained i)⟩
theorem State.touchChannel_touched (s : State) (h i : Nat) : s.Touched (s.touchChannel h i).1 := by
  have k (x : Stack) (hx : x.trained = (s.stack h).trained) : s.Touched (s.putStack h x) := by
    refine ⟨rfl, fun j => ?_⟩
    simp only [State.putStack, State.stack, Vector.getElem_set]
    split
    · next e => rw [hx]; simp only [State.stack, e]
    · rfl
  simp only [State.touchChannel]
  split
  · exact k _ rfl
  · exact k _ rfl
theorem State.areaTouched_touched (s : State) (l : List (Nat × Nat)) : s.Touched (s.areaTouched l) := by
  have go : ∀ (l : List (Nat × Nat)) (s : State), s.Touched (l.foldl (fun s x => (s.touchChannel x.1 x.2).1) s) := by
    intro l
    induction l with
    | nil => exact State.Touched.rfl'
    | cons x l ih => exact fun s => (s.touchChannel_touched _ _).trans (ih _)
  exact go _ s

variable {s : State} {h : Vector Stack 8}
theorem readChunks_hbm : ∀ l : List (Nat × Nat), ({ s with hbm := h } : State).readChunks l = s.readChunks l
  | [] => rfl
  | (_, _) :: l => by rw [State.readChunks, State.readChunks, readChunks_hbm l]; rfl
theorem walkEntry_hbm (p tab level i : Nat) (k : Nat → Walk) :
    ({ s with hbm := h } : State).walkEntry p tab level i k = s.walkEntry p tab level i k := rfl
theorem walkLeaf_hbm (tab i e : Nat) : ({ s with hbm := h } : State).walkLeaf tab i e = s.walkLeaf tab i e := rfl
theorem walkFrom_hbm (p va : Nat) : ∀ level tab, ({ s with hbm := h } : State).walkFrom p va level tab = s.walkFrom p va level tab
  | 0, tab => by simp only [State.walkFrom, walkEntry_hbm, walkLeaf_hbm]
  | level + 1, tab => by simp only [State.walkFrom, walkEntry_hbm, walkFrom_hbm p va level]
theorem walkCells_hbm (va : Nat) : ∀ level tab, ({ s with hbm := h } : State).walkCells va level tab = s.walkCells va level tab
  | 0, _ => rfl
  | level + 1, tab => by rw [State.walkCells, State.walkCells]; simp only [walkCells_hbm va level]
theorem tableCells_hbm (c va n : Nat) : ({ s with hbm := h } : State).tableCells c va n = s.tableCells c va n := by
  simp only [State.tableCells, walkCells_hbm]; rfl
variable (ht : ∀ i, (({ s with hbm := h } : State).stack i).trained = (s.stack i).trained)
include ht
theorem paCheck_hbm (c pa : Nat) (w write : Bool) : ({ s with hbm := h } : State).paCheck c pa w write = s.paCheck c pa w write := by
  simp only [State.paCheck, ht]; rfl
theorem translate_hbm (c va : Nat) (write now : Bool) : ({ s with hbm := h } : State).translate c va write now = s.translate c va write now := by
  simp only [State.translate, State.walk, walkFrom_hbm, paCheck_hbm ht]; rfl
theorem translateRange_hbm (c : Nat) (write now : Bool) : ∀ fuel va n,
    ({ s with hbm := h } : State).translateRange c write now fuel va n = s.translateRange c write now fuel va n
  | 0, _, _ => rfl
  | fuel + 1, va, n => by
    rw [State.translateRange, State.translateRange]; simp only [translate_hbm ht, translateRange_hbm c write now fuel]
theorem reach_hbm (c va n : Nat) (write now : Bool) : ({ s with hbm := h } : State).reach c va n write now = s.reach c va n write now := by
  simp only [State.reach, translateRange_hbm ht]; rfl
theorem area_hbm (c va n : Nat) : ({ s with hbm := h } : State).area c va n = s.area c va n := by
  simp only [State.area, reach_hbm ht]
omit ht
theorem areaNat_hbm (l : List (Nat × Nat)) (o n : Nat) : ({ s with hbm := h } : State).areaNat l o n = s.areaNat l o n := by
  rw [State.areaNat, State.areaNat, State.areaRead, State.areaRead, readChunks_hbm]

variable {t : State} (a : s.Touched t)
include a
theorem State.Touched.area (c va n : Nat) : t.area c va n = s.area c va n := by
  obtain ⟨e, k⟩ := a; rw [e] at k ⊢; exact area_hbm k c va n
theorem State.Touched.tableCells (c va n : Nat) : t.tableCells c va n = s.tableCells c va n := by rw [a.eq]; exact tableCells_hbm c va n
theorem State.Touched.areaNat (l : List (Nat × Nat)) (o n : Nat) : t.areaNat l o n = s.areaNat l o n := by
  rw [a.eq, areaNat_hbm]
theorem State.Touched.clk : t.clk = s.clk := by rw [a.eq]
theorem State.Touched.vault (i v : Nat) : t.vault i v = s.vault i v := by rw [a.eq]; rfl
theorem State.Touched.holdsAny (e : ∀ i, (t.stack i).holds = (s.stack i).holds) (w : Bool) (l : List (Nat × Nat)) :
    t.holdsAny w l = s.holdsAny w l := by
  have k : t.holdsKey w = s.holdsKey w := by funext x; simp only [State.holdsKey, e, a.vault, State.Touched.clk a]
  rw [State.holdsAny, State.holdsAny, k]
theorem State.Touched.cores : t.cores = s.cores := by rw [a.eq]
theorem State.Touched.mem : t.mem = s.mem := by rw [a.eq]
theorem State.Touched.onWay (c : Nat) : t.onWay c = s.onWay c := by rw [a.eq]; rfl
theorem State.Touched.strandAt (c : Nat) (k : Fin 9) : t.strandAt c k = s.strandAt c k := by rw [a.eq]; rfl
theorem State.Touched.coreAt (c : Nat) : t.coreAt c = s.coreAt c := by rw [a.eq]; rfl
theorem State.Touched.parkArea (c : Nat) : t.parkArea c = s.parkArea c := by rw [State.parkArea, State.parkArea, a.area, a.coreAt]
theorem State.Touched.resumeParks (c : Nat) (l : List (Nat × Nat)) : t.resumeParks c l = s.resumeParks c l := by
  rw [State.resumeParks, State.resumeParks, a.areaNat, a.coreAt]
theorem State.Touched.resumeCells (c : Nat) (l : List (Nat × Nat)) : t.resumeCells c l = s.resumeCells c l := by
  simp only [State.resumeCells, State.parkCells, State.areaCells, a.resumeParks, a.tableCells, a.coreAt]
theorem State.Touched.fullSlots (l : List (Nat × Nat)) : t.fullSlots l = s.fullSlots l := by
  simp only [State.fullSlots, State.savedSlots, State.isLight, a.areaNat]
theorem State.Touched.portArea (l : List (Nat × Nat)) : t.portArea l = s.portArea l := by rw [State.portArea, State.portArea, a.areaNat]
theorem State.Touched.partnerEnding (c : Nat) (l : List (Nat × Nat)) : t.partnerEnding c l = s.partnerEnding c l := by
  rw [State.partnerEnding, State.partnerEnding, a.resumeParks, a.coreAt]
theorem State.Touched.resumeRefusal (c : Nat) (l : List (Nat × Nat)) : t.resumeRefusal c l = s.resumeRefusal c l := by
  rw [a.eq]
  simp only [State.resumeRefusal, State.areaOk, State.recordOk, State.isPort, State.allLight, State.fullSlots, State.lightSlots,
    State.savedSlots, State.isLight, State.portArea, areaNat_hbm]
  rfl
omit a

/-- Where no pseudo-channel sleeps, the accesses hold nothing. -/
theorem State.areaTouched_awake (k : ∀ i, (s.stack i).asleep = []) (l : List (Nat × Nat)) :
    (∀ i, ((s.areaTouched l).stack i).asleep = []) ∧ ∀ i, ((s.areaTouched l).stack i).holds = (s.stack i).holds := by
  have one (s : State) (k : ∀ i, (s.stack i).asleep = []) (h j : Nat) :
      (∀ i, ((s.touchChannel h j).1.stack i).asleep = []) ∧ ∀ i, ((s.touchChannel h j).1.stack i).holds = (s.stack i).holds := by
    have e : (s.touchChannel h j).1 = s.putStack h { s.stack h with lastUse := SMap.put (s.stack h).lastUse j s.clk } := by
      simp only [State.touchChannel, k, List.contains_nil, Bool.false_eq_true, if_false]
    rw [e]
    simp only [State.putStack, State.stack, Vector.getElem_set]
    refine ⟨fun i => ?_, fun i => ?_⟩ <;> split
    · exact k h
    · exact k i
    · next e => simp only [e]
    · rfl
  have go : ∀ (l : List (Nat × Nat)) (s : State), (∀ i, (s.stack i).asleep = []) →
      (∀ i, ((l.foldl (fun s x => (s.touchChannel x.1 x.2).1) s).stack i).asleep = []) ∧
        ∀ i, ((l.foldl (fun s x => (s.touchChannel x.1 x.2).1) s).stack i).holds = (s.stack i).holds := by
    intro l
    induction l with
    | nil => exact fun s k => ⟨k, fun _ => rfl⟩
    | cons x l ih =>
      intro s k
      have a := one s k x.1 x.2
      have b := ih _ a.1
      exact ⟨b.1, fun i => (b.2 i).trans (a.2 i)⟩
  exact go _ s k

end Sys2Proof.Machine
end

