-- ==== Sys2Proof/Laws/Engine.lean ====
section
/-! SUPPORT. Laws of engine words: a word that is to make a repetition makes it. -/
namespace Sys2Proof.Machine

/-- A repetition whose pops have been made. -/
theorem State.runReps_popped (s : State) (e : Eng) (w : EWord) (u : Cursor) (body : State → Cursor → Rep)
    (hp : u.popped = true) (ht : u.rep < u.total) : s.runReps e w u body = s.runRep e w u body := by
  have h : u.total ≠ 0 := by omega
  simp [State.runReps, hp, h]

/-- A repetition that makes its pops first. -/
theorem State.runReps_pops (s : State) (e : Eng) (w : EWord) (u : Cursor) (body : State → Cursor → Rep)
    (hp : u.popped = false) (ht : u.rep < u.total) (h : s.Pops e w) :
    s.runReps e w u body = ((s.engWoke e u (s.wokeBy u)).upd fun x => x.pop (popTokens e w.pop)).runRep e w
      { u with popped := true, since := none } body := by
  have h0 : u.total ≠ 0 := by omega
  have h1 : (popTokens e w.pop).find? (fun i => s.self.token i == 0) = none := by
    rw [List.find?_eq_none]
    intro i hi
    simpa using h.2 i hi
  simp only [State.runReps, h0, false_and, if_false, hp, h.1, h1, Bool.and_false, Bool.false_eq_true]

/-- A format word that is taken. -/
theorem State.takeFormat_takes (s t : State) (e : Eng) (form : Option (Fmt → Bool)) (k : State → Word → Out) (v : Word)
    (h : s.Takes form t v) : s.takeFormat e form k = k t v := by
  cases form with
  | none =>
    obtain ⟨rfl, rfl⟩ := h
    rfl
  | some ok =>
    obtain ⟨h1, h2, h3, h4, rfl⟩ := h
    have h5 : (s.pkg.full || (Fmt.unpack v).reduced) = true := by
      rcases h4 with h | h <;> simp [h]
    cases hq : s.self.allQueued.fmt with
    | nil => simp [hq] at h1
    | cons a l =>
      have ha : a = v := by simpa [hq] using h1
      have hb : s.formatBad (some ok) = none := by simp [State.formatBad, hq, ha, h2, h3, h5]
      simp only [State.takeFormat, hb, hq, ha, List.headD_cons]

/-- What stands at a repetition makes it. -/
theorem State.runWord_atRep (s t : State) (e : Eng) (w : EWord) (f : Form) (u : Cursor)
    (h : s.AtRep e w (f.format s) (f.count s) t u) (hb : f.bad s = none) (hs : f.setting s = none) : s.runWord e w f = t.runRep e w u f.body := by
  cases h with
  | again u hc hp ho ht _ => simp only [State.runWord, hc, hp]; exact s.runReps_popped e w u f.body ho ht
  | pops u hc hp ho ht _ hw =>
    have h := s.runReps_pops e w u f.body ho ht hw
    simp only [hp] at h
    simpa only [State.runWord, hc, hp] using h
  | first u n r t v hc hp _ hn hv hg hw =>
    simp only [State.runWord, hc, hp, hb, hs]
    have hr : (State.takeFormat r e (f.format s) fun t v =>
        if r.self.badToken (popTokens e w.pop) = true ∧ ¬(n = 0 ∧ w.each = true) then Host.Outcome.next (r.tokenParity e)
        else t.runReps e w { u with phase := .run, popped := false, rep := 0, total := n, fmt := v } f.body) =
        ((t.engWoke e u (t.wokeBy u)).upd fun x => x.pop (popTokens e w.pop)).runRep e w
          { u with phase := .run, popped := true, rep := 0, total := n, fmt := v, since := none } f.body := by
      rw [r.takeFormat_takes t e _ _ v hv, if_neg (by simp [hg])]
      exact t.runReps_pops e w _ f.body rfl (by simpa using hn.pos) hw
    cases hn with
    | form m hm h0 =>
      simp only [hm]
      exact hr
    | row m hf h0 hw1 hrow =>
      simp only [hf, State.executions, if_pos hw1, hrow]
      exact hr
    | field hf hw1 =>
      simp only [hf, State.executions, if_neg hw1]
      exact hr

/-! ### Moments (R63) -/

/-- An advance that leaves the core no more entries than it has happens. -/
theorem State.within_next (s t : State) (c : Nat) (h : (t.coreAt c).entries ≤ 4096) : s.within c (.next t) = .next t := by
  simp only [State.within]
  rw [if_neg (by omega)]

/-- An engine whose next reads have not begun advances at one moment, where its core has room. -/
theorem engineAdvance_now (c : Nat) (e : Eng) (s : State) (h : ((s.coreAt c).eng e).apart = []) :
    engineAdvance c e s = engineStep c e s := by simp [engineAdvance, h]
/-- An engine without an action of a chain to issue again takes its turn by an advance. -/
theorem engineTurn_now (c : Nat) (e : Eng) (s : State) (h : ((s.coreAt c).eng e).apart = [])
    (hr : e ≠ .ce ∨ s.restrikeSlot c = none) : engineTurn c e s = s.within c (engineStep c e s) := by
  rw [← engineAdvance_now c e s h, engineTurn]
  rcases hr with hr | hr <;> simp [hr]

end Sys2Proof.Machine
end

