-- ==== Sys2Proof/Laws/Save.lean ====
section
/-! SUPPORT. What a save of a core leaves of the other cores: whether lending is in force in their favour, what they have in flight, and
where their park areas begin. -/
namespace Sys2Proof.Machine

/-- What a save of another core leaves of a core. -/
def Core.lending (y : Core) : Bool × List Flight × DWord := (y.act, y.flights, y.parkBase)

theorem lending_updCore (s : State) (c j : Nat) (f : Core → Core) (h : j ≠ c) : ((s.updCore c f).coreAt j).lending = (s.coreAt j).lending := by
  simp only [State.updCore, State.putCore, State.coreAt, SMap.get_put_other _ _ _ _ _ h]
theorem lending_updAt (s : State) (c j : Nat) (k : Fin 9) (f : Strand → Strand) (h : j ≠ c) :
    ((s.updAt c k f).coreAt j).lending = (s.coreAt j).lending := by
  simp only [State.updAt, State.putStrand, State.putCore, State.coreAt, SMap.get_put_other _ _ _ _ _ h]
theorem cores_zeroChunks (l : List (Nat × Nat)) : ∀ s : State, (s.zeroChunks l).cores = s.cores := by
  induction l with
  | nil => intro s; rfl
  | cons a l ih => intro s; obtain ⟨k, n⟩ := a; rw [State.zeroChunks, ih]
theorem cores_storeChunks (l : List (Nat × Nat)) : ∀ (s : State) (bs : List Byte), (s.storeChunks l bs).cores = s.cores := by
  induction l with
  | nil => intro s bs; rfl
  | cons a l ih => intro s bs; obtain ⟨k, n⟩ := a; rw [State.storeChunks, ih]; rfl
theorem cores_areaPieces (l : List (Nat × Nat)) (b : Nat) (ps : List (Nat × List Byte)) :
    ∀ s : State, (s.areaPieces l b ps).cores = s.cores := by
  induction ps with
  | nil => intro s; rfl
  | cons a ps ih => intro s; exact (ih _).trans (cores_storeChunks _ _ _)
theorem lending_of_cores {s t : State} (h : t.cores = s.cores) (j : Nat) : (t.coreAt j).lending = (s.coreAt j).lending := by
  rw [State.coreAt, h]; rfl
theorem lending_mapCores (s : State) (f : Nat → Core → Core) (hf : ∀ c y, (f c y).lending = y.lending) (j : Nat) :
    ((s.mapCores (fun _ => true) f).coreAt j).lending = (s.coreAt j).lending := by
  simp only [State.mapCores, State.coreAt, if_true]
  induction s.cores with
  | nil => rfl
  | cons a l ih =>
    simp only [List.map_cons, SMap.get]
    split
    · exact hf _ _
    · exact ih
theorem lending_putSeg (s : State) (g : Nat) (x : Segment) (j : Nat) : ((s.putSeg g x).coreAt j).lending = (s.coreAt j).lending := rfl
theorem lending_freeLease (s : State) (c j : Nat) (k : Fin 9) (h : j ≠ c) : ((s.freeLease c k).coreAt j).lending = (s.coreAt j).lending := by
  simp only [State.freeLease]
  by_cases hl : (!(s.strandAt c k).lease.held) = true
  · rw [if_pos hl]
  · rw [if_neg hl, lending_updAt _ _ _ _ _ h]
    by_cases hm : c = mgmtCore
    · rw [if_pos hm]
    · rw [if_neg hm, lending_putSeg]
theorem lending_suspend (s : State) (c j : Nat) (k : Fin 9) (h : j ≠ c) : ((s.suspendLease c k).coreAt j).lending = (s.coreAt j).lending := by
  simp only [State.suspendLease]
  by_cases hl : (!(s.strandAt c k).lease.held) = true
  · rw [if_pos hl]
  · rw [if_neg hl, lending_updAt _ _ _ _ _ h, lending_freeLease _ _ _ _ h]
theorem lending_foldl {α : Type} (f : State → α → State) (j : Nat) (hf : ∀ s a, ((f s a).coreAt j).lending = (s.coreAt j).lending) (l : List α) :
    ∀ s : State, ((l.foldl f s).coreAt j).lending = (s.coreAt j).lending := by
  induction l with
  | nil => intro s; rfl
  | cons a l ih => intro s; rw [List.foldl_cons, ih, hf]
theorem lending_mend (s : State) (c j : Nat) (k : Fin 9) (h : j ≠ c) : ((s.mend c k).coreAt j).lending = (s.coreAt j).lending := by
  simp only [State.mend]
  split
  · rfl
  · rw [lending_updCore _ _ _ _ h, lending_updAt _ _ _ _ _ h]
theorem lending_spend (s : State) (c j : Nat) (k : Fin 9) (h : j ≠ c) : ((s.spend c k).coreAt j).lending = (s.coreAt j).lending := by
  simp only [State.spend]
  split
  · split
    · rfl
    · rw [lending_updAt _ _ _ _ _ h]; rfl
  · rfl
theorem lending_cutAt (s : State) (c j : Nat) (k : Fin 9) (h : j ≠ c) : ((s.cutAt c k).coreAt j).lending = (s.coreAt j).lending := by
  rw [State.cutAt, lending_updCore _ _ _ _ h, lending_updAt _ _ _ _ _ h]
  simp only [State.dropLeaseReq]
  by_cases hl : ((s.mend c k).strandAt c k).lease.pend = true
  · rw [if_pos hl, lending_updAt _ _ _ _ _ h, lending_putSeg, lending_mend _ _ _ _ h]
  · rw [if_neg hl, lending_mend _ _ _ _ h]
theorem lending_saveStrand (s : State) (c j : Nat) (k : Fin 9) (l : List (Nat × Nat)) (o : Nat) (p : Bool) (h : j ≠ c) :
    ((s.saveStrand c k l o p).coreAt j).lending = (s.coreAt j).lending := by
  rw [State.saveStrand, lending_suspend _ _ _ _ h]
  exact lending_of_cores ((cores_areaPieces _ _ _ _).trans (cores_zeroChunks _ _)) j
/-- A change of a core that leaves the field. -/
theorem lending_updSame (s : State) (c j : Nat) (f : Core → Core) (h : ∀ y, (f y).lending = y.lending) : ((s.updCore c f).coreAt j).lending = (s.coreAt j).lending := by
  by_cases e : j = c
  · subst e
    simp only [State.updCore, State.putCore, State.coreAt, SMap.get_put_same, h]
  · exact lending_updCore _ _ _ _ e
theorem lending_findFlaw (s : State) (key : Nat) (d : Bool) (b : Option Nat) (j : Nat) : ((s.findFlaw key d b).coreAt j).lending = (s.coreAt j).lending := by
  have hp (t : State) : ((t.poisonRow key b).coreAt j).lending = (t.coreAt j).lending := lending_of_cores (t.poisonRow_beside _ _).cores j
  unfold State.findFlaw
  dsimp only
  split
  · split
    · exact (hp _).trans rfl
    · rfl
  · split
    · exact (hp _).trans ((lending_updSame _ _ _ _ (by intros; rfl)).trans rfl)
    · exact (lending_updSame _ _ _ _ (by intros; rfl)).trans rfl
theorem lending_meetFlaws (s : State) (c k : Nat) (l : List (Nat × Nat)) (j : Nat) : ((s.meetFlaws c k l).coreAt j).lending = (s.coreAt j).lending :=
  lending_foldl _ j (fun s _ => lending_findFlaw s _ _ _ j) _ s
theorem lending_arriveAt (s : State) (c k : Nat) (l : List (Nat × Nat)) (j : Nat) : ((s.arriveAt c k l).coreAt j).lending = (s.coreAt j).lending := by
  unfold State.arriveAt
  split
  · rfl
  · split
    · exact lending_of_cores (s.touched_beside _).cores j
    · exact (lending_meetFlaws _ _ _ _ _).trans (lending_of_cores (s.touched_beside _).cores j)
theorem lending_areaTouched (s : State) (l : List (Nat × Nat)) (j : Nat) : ((s.areaTouched l).coreAt j).lending = (s.coreAt j).lending :=
  lending_of_cores (s.areaTouched_beside _).cores j
theorem lending_unitWrite (s : State) (c k : Nat) (bs : List Byte) (j : Nat) : ((s.unitWrite c k bs).coreAt j).lending = (s.coreAt j).lending :=
  lending_of_cores (s.unitWrite_beside _ _ _).cores j
theorem lending_traceOne (s : State) (c j : Nat) (k : Fin 9) (a : BitVec 64) (n : Nat) (v w : DWord) (h : j ≠ c) :
    ((s.traceOne c k a n v w).coreAt j).lending = (s.coreAt j).lending := by
  simp only [State.traceOne]
  split
  · rw [lending_updAt _ _ _ _ _ h, lending_unitWrite]
  · rw [lending_updAt _ _ _ _ _ h]
theorem lending_traceRecord (s : State) (c j : Nat) (k : Fin 9) (n : Nat) (v w : DWord) (h : j ≠ c) :
    ((s.traceRecord c k n v w).coreAt j).lending = (s.coreAt j).lending := by
  simp only [State.traceRecord]
  split
  · rfl
  · split
    · exact (lending_of_cores rfl j).trans (lending_arriveAt _ _ _ _ _)
    · simp only [State.traceNow]
      rw [lending_traceOne _ _ _ _ _ _ _ _ h]
      split
      · split
        · exact lending_arriveAt _ _ _ _ _
        · rw [lending_traceOne _ _ _ _ _ _ _ _ h]; exact lending_arriveAt _ _ _ _ _
      · exact lending_arriveAt _ _ _ _ _
theorem lending_setFlag (s : State) (c j : Nat) (n : BitVec 8) (b : BitVec 16) (a : Nat) (h : j ≠ c) :
    ((s.setFlag c n b a).coreAt j).lending = (s.coreAt j).lending := by
  simp only [State.setFlag]
  split
  · simp only [State.traceWait]
    split
    · rw [lending_traceRecord _ _ _ _ _ _ _ h, lending_updAt _ _ _ _ _ h, lending_updCore _ _ _ _ h]
    · rw [lending_updAt _ _ _ _ _ h, lending_updCore _ _ _ _ h]
  · rw [lending_updCore _ _ _ _ h, lending_updCore _ _ _ _ h]
theorem lending_settleRow (s : State) (c j : Nat) (f : Flight) : ((s.settleRow c f).coreAt j).lending = (s.coreAt j).lending := by
  unfold State.settleRow
  split
  · split
    · rfl
    · exact lending_unitWrite _ _ _ _ _
  · rfl
theorem lending_settleAccess (s : State) (c j : Nat) (f : Flight) (h : j ≠ c) : ((s.settleAccess c f).coreAt j).lending = (s.coreAt j).lending := by
  have hf (t : State) : ((t.nmFlag c f).coreAt j).lending = (t.coreAt j).lending := by
    simp only [State.nmFlag]
    split
    · exact lending_setFlag _ _ _ _ _ _ h
    · rfl
  have hp : ((if s.dmaStopped c f.place = true then s else s.putAll (f.out.getD [])).coreAt j).lending = (s.coreAt j).lending := by
    split
    · rfl
    · exact lending_of_cores (State.putAll_beside _ s).cores j
  simp only [State.settleAccess]
  rw [hf]
  split
  · exact (lending_of_cores rfl j).trans hp
  · exact hp
/-- What a cut performs on its way leaves the other cores as they lend. -/
theorem lending_settleRows (s : State) (c j : Nat) (h : j ≠ c) : ((s.settleRows c).coreAt j).lending = (s.coreAt j).lending := by
  rw [State.settleRows, lending_updCore _ _ _ _ h]
  rw [lending_foldl _ j (fun s f => lending_settleAccess s c j f h), lending_foldl _ j (fun s f => lending_settleRow s c j f)]
theorem lending_emptySlot (s : State) (c j : Nat) (k : Fin 9) (h : j ≠ c) : ((s.emptySlot c k).coreAt j).lending = (s.coreAt j).lending := by
  simp only [State.emptySlot, State.dropTraffic]
  rw [State.putStrand, State.coreAt, State.putCore, SMap.get_put_other _ _ _ _ _ h, ← State.coreAt, lending_updCore _ _ _ _ h, lending_spend _ _ _ _ h]
  exact lending_mapCores _ _ (by intros; rfl) j
theorem cores_copy {s t : State} (l : List (Nat × Nat)) (o n : Nat) (ps : List (Nat × List Byte)) (rows : List Nat) (h : t.cores = s.cores) :
    (((t.areaZero l o n).areaPieces l o ps).poisonRows rows).cores = s.cores := by
  rw [State.poisonRows]
  exact (cores_areaPieces _ _ _ _).trans ((cores_zeroChunks _ _).trans h)
theorem lending_copyOut (s : State) (c j : Nat) (l : List (Nat × Nat)) (o k n : Nat) : ((s.copyOut c l o k n).coreAt j).lending = (s.coreAt j).lending := by
  rw [State.copyOut]
  exact (lending_of_cores (cores_copy _ _ _ _ _ rfl) j).trans (lending_meetFlaws _ _ _ _ _)
theorem lending_saveFull (s : State) (c j m : Nat) (l : List (Nat × Nat)) (h : j ≠ c) : ((s.saveFull c m l).coreAt j).lending = (s.coreAt j).lending := by
  have hz (s : State) (l : List (Nat × Nat)) (o n : Nat) : ((s.areaZero l o n).coreAt j).lending = (s.coreAt j).lending :=
    lending_of_cores (cores_zeroChunks _ _) j
  have hp (s : State) (l : List (Nat × Nat)) (o : Nat) (bs : List Byte) : ((s.areaPut l o bs).coreAt j).lending = (s.coreAt j).lending :=
    lending_of_cores (cores_storeChunks _ _ _) j
  have ho (s : State) (l : List (Nat × Nat)) (o k n : Nat) : ((s.copyOut c l o k n).coreAt j).lending = (s.coreAt j).lending :=
    lending_copyOut _ _ _ _ _ _ _
  have hi (s : State) : ((s.saveImage c l).coreAt j).lending = (s.coreAt j).lending := by
    simp only [State.saveImage, ho]
  have hq (s : State) (p : Bool) : ((s.savePartner c l p).coreAt j).lending = (s.coreAt j).lending := by
    simp only [State.savePartner]
    split <;> simp only [ho, hz]
  have hk (s : State) (k : Fin 9) : ((s.keepSaved c k).coreAt j).lending = (s.coreAt j).lending := rfl
  simp only [State.saveFull]
  rw [lending_updCore _ _ _ _ h]
  have hs (s : State) (p : Bool) : ∀ ks : List (Fin 9), ((ks.foldl (fun s k =>
      (s.keepSaved c k).saveStrand c k l (0x20000 + 0x40000 * k.val) p) s).coreAt j).lending = (s.coreAt j).lending :=
    fun ks => lending_foldl _ j (fun s k => (lending_saveStrand _ c j k l _ _ h).trans (hk s k)) ks s
  split
  · rw [lending_foldl _ j (fun s k => lending_emptySlot s c j k h), hq, hi, hs, hp, hz, lending_settleRows _ _ _ h, lending_foldl _ j (fun s k => lending_cutAt s c j k h)]
  · rw [hq, hs, hp, hz, lending_settleRows _ _ _ h, lending_foldl _ j (fun s k => lending_cutAt s c j k h)]

end Sys2Proof.Machine
end

