-- ==== Sys2Proof/Tests/Slice0.lean ====
section
/-! SUPPORT. Tests of single operations on small states, each with an outcome written out from the spec; and, for every
statement with hypotheses, witnesses: concrete states and operands that meet them together. -/
namespace Sys2Proof.Tests
set_option Elab.async false
open Sys2Proof Sys2Proof.Machine

/-- A strand that can issue: READY, at word 0x100. -/
def strand (f : Strand → Strand) : State := State.reset.upd fun x => f { x with st := .ready, pc := 0x100 }

/-- D1 = 5, D2 = 6, D3 = 7, D4 = {3..9}, D5 the whole 32-bit range, D6 the most negative number, D7 = {-1}; A1 at the end of
the scratchpad, A2 = -1, A3 = 64. -/
def regs : State := strand fun x =>
  { x with d := ((((((x.d.set 1 (Dom.single 5)).set 2 (Dom.single 6)).set 3 (Dom.single 7)).set 4 (Dom.range 3 9)).set 5
                    { lo := 0x80000000, hi := 0x7FFFFFFF, mask := -1 }).set 6 (Dom.single 0x80000000)).set 7 (Dom.single (-1)),
           a := ((x.a.set 1 0xFFFFF).set 2 (-1)).set 3 64 }

/-- The state after an instruction. -/
def after (i : Instr) (s : State) : State := match exec i s with
  | .next t => t
  | _ => s

/-- A strand that has trapped with a code. -/
def trapped (t : State) (code : BitVec 8) : Bool := t.self.trap.hm && t.self.trap.code == code

theorem some_of_any {α : Type} {o : Option α} {p : α → Bool} (h : o.any p = true) : ∃ a, o = some a ∧ p a = true := by
  cases o <;> simp_all

theorem ok_of_any {α : Type} {o : Except Fail α} {p : α → Bool} (h : o.toOption.any p = true) : ∃ a, o = .ok a ∧ p a = true := by
  cases o <;> simp_all [Except.toOption]

/-! ### Integer and relational forms -/

/-- R146: MUL keeps the low half; MULH the high one. -/
theorem test_mulh : (after (.mulhS 8 (.reg 6 7)) regs).self.d[8] = Dom.single 0 ∧
    (after (.mulhU 8 (.reg 6 7)) regs).self.d[8] = Dom.single 0x7FFFFFFF := by decide +kernel
/-- R146: division by 0 gives all ones, its remainder the dividend; the most negative number by -1 gives itself and 0. -/
theorem test_div : (after (.divS 8 (.reg 1 0)) regs).self.d[8] = Dom.single 0xFFFFFFFF ∧
    (after (.remU 8 (.reg 1 0)) regs).self.d[8] = Dom.single 5 ∧
    (after (.divS 8 (.reg 6 7)) regs).self.d[8] = Dom.single 0x80000000 ∧
    (after (.remS 8 (.reg 6 7)) regs).self.d[8] = Dom.single 0 := by decide +kernel
/-- R148: a shift takes its amount modulo 32. -/
theorem test_shift : (after (.shl 8 (.lit2 1 33)) regs).self.d[8] = Dom.single 10 ∧
    (after (.sra 8 (.lit2 6 31)) regs).self.d[8] = Dom.single 0xFFFFFFFF := by decide +kernel
/-- R106: a sum of sets spans the sums; R106: it widens to the full range where it leaves 32 bits. -/
theorem test_add_sets : (after (.add 8 (.reg 4 1)) regs).self.d[8] = Dom.range 8 14 ∧
    (after (.add 8 (.reg 5 1)) regs).self.d[8] = { lo := 0x80000000, hi := 0x7FFFFFFF, mask := -1 } := by decide +kernel
/-- R146: the compares. -/
theorem test_compare : (after (.cmplt 8 (.reg 6 1)) regs).self.d[8] = Dom.single 1 ∧
    (after (.cmpne 8 (.reg 1 1)) regs).self.d[8] = Dom.single 0 := by decide +kernel
/-- R148: an extracted field with its sign. -/
theorem test_exts : (after (.exts 8 1 0 3) regs).self.d[8] = Dom.single 0xFFFFFFFD ∧
    (after (.extz 8 7 28 4) regs).self.d[8] = Dom.single 15 := by decide +kernel
/-- R140: an indeterminate source traps with code 0x03 at its word. -/
theorem test_indeterminate : trapped (after (.and 8 (.reg 4 1)) regs) 0x03 ∧
    (after (.and 8 (.reg 4 1)) regs).self.trap.tpc = 0x100 := by decide +kernel
/-- R107: posting D4 = D1 + D8 with D4 in 3..9 narrows nothing but D4 and D8 = 0 gives D4 = 5. -/
theorem test_relation : (after (.addR 4 (.reg 1 8)) regs).self.d[4] = Dom.single 5 ∧
    (after (.addR 4 (.reg 1 8)) regs).self.rel.store.length = 1 := by decide +kernel
/-- R147: a reified compare that holds for every member fixes its result. -/
theorem test_reified : (after (.cmpltR 5 (.reg 6 4)) regs).self.d[5] = Dom.single 1 := by decide +kernel
/-- R151: the lower half of 3..9 is 3..6, the upper 7..9. -/
theorem test_dpick : (after (.dpickLo 8 4) regs).self.d[8] = Dom.range 3 6 ∧
    (after (.dpickHi 8 4) regs).self.d[8] = Dom.range 7 9 := by decide +kernel
/-- R152: the last value removed fails, with code 0x05 where no checkpoint is to be restored. -/
theorem test_dexc : (after (.dexc 4 (.lit 3)) regs).self.d[4] = Dom.range 4 9 ∧
    trapped (after (.dexc 1 (.lit 5)) regs) 0x05 := by decide +kernel
/-- R155, R114: a failure with SYS.PCTL bit 1 set restores the newest checkpoint and goes to its alternative. -/
theorem test_fail_back :
    let s := after (.ckpt 4) regs
    let t := after (.dexc 1 (.lit 5)) (s.upd fun x => { x with rel := { x.rel with ab := true } })
    t.self.pc = 0x120 ∧ t.self.rel.ckd = 0 ∧ t.self.d[1] = Dom.single 5 := by decide +kernel
/-- R104: the count of the whole range does not fit: code 0x08. -/
theorem test_dcard : (after (.dcard 8 4) regs).self.d[8] = Dom.single 7 ∧ trapped (after (.dcard 8 5) regs) 0x08 := by decide +kernel
/-- R157: address sums wrap modulo 2^64; compares are unsigned. -/
theorem test_address : (after (.aadd 4 2 (.lit 1)) regs).self.a[4] = 0 ∧
    (after (.acmpLt 8 1 2) regs).self.d[8] = Dom.single 1 := by decide +kernel

/-- ValueFormsAndComparesGiveResults, with a divisor of 0, and with the most negative number by -1. -/
theorem wit_value_forms : ((regs.src1 (.reg 1 0)).val = some 5 ∧ (regs.src2 (.reg 1 0)).val = some 0) ∧
    ((regs.src1 (.reg 6 7)).val = some 0x80000000 ∧ (regs.src2 (.reg 6 7)).val = some (-1)) := by decide +kernel
/-- FunctionalFormsGiveTheirResults: its two clauses. -/
theorem wit_functional_forms : ((regs.src1 (.reg 6 7)).val = some 0x80000000 ∧ (regs.src2 (.reg 6 7)).val = some (-1)) ∧
    ((regs.src1 (.reg 4 5)).canonical = true ∧ (regs.src2 (.reg 4 5)).canonical = true ∧ (regs.src1 (.reg 4 5)).has 9 = true ∧
      (regs.src2 (.reg 4 5)).has 0x7FFFFFFF = true) := by decide +kernel
/-- OneSourceFormsGiveTheirResults: a value and the whole word as a field, and a set. -/
theorem wit_one_source : ((regs.rd 6).val = some 0x80000000 ∧ 1 ≤ (32 : BitVec 6).toNat ∧
    (0 : BitVec 5).toNat + (32 : BitVec 6).toNat ≤ 32) ∧ (regs.rd 5).canonical = true ∧ (regs.rd 5).has (-2 ^ 31) = true := by
  decide +kernel
/-- SelCopiesAWholeDomain: a condition of 0, one of 5, and one without a value. -/
theorem wit_sel : (regs.rd 0).val = some 0 ∧ (regs.rd 1).val = some 5 ∧ (regs.rd 4).val = none := by decide +kernel
/-- A store of 256 relations. -/
def full : State := regs.upd fun x =>
  { x with rel := { x.rel with store := List.replicate 256 { op := .le, args := [.reg 9, .reg 10], pending := false } } }
/-- SequencerFormsTrapAndFail: each of its clauses. -/
theorem wit_sequencer_traps : (regs.src1 (.reg 4 1)).val = none ∧
    ((regs.src1 (.reg 1 4)).val.isSome ∧ (regs.src2 (.reg 1 4)).val = none) ∧ 256 ≤ full.self.rel.store.length ∧
    (2 ^ 31 ≤ (regs.rd 5).card ∧
      ((regs.upd fun x => x.setA 3 0x80000000).ra 3).toInt ≥ 2 ^ 31) ∧
    ((regs.rd 1).canonical = true ∧ (regs.rd 2).canonical = true ∧ regs.self.rel.ab = false ∧
      (regs.src1 (.lit1 9 3)).val = some 9 ∧ (regs.src2 (.lit1 9 3)).val = some 7 ∧ (7 : Word).toInt < (9 : Word).toInt) := by decide +kernel
theorem wit_narrowing_fails : ∀ u, ¬ ((regs.rd 1).has u = true ∧ (regs.rd 2).has u = true) := by
  have h1 : (regs.rd 1).h = 5 := by decide +kernel
  have h2 : (regs.rd 2).l = 6 := by decide +kernel
  intro u
  simp only [Dom.has, Bool.and_eq_true, decide_eq_true_eq]
  omega
/-- A store of two entries that wait to run, under a budget of one. -/
def pendingTwo : State := regs.upd fun x =>
  { x with rel := { x.rel with budget := 1, ple := true, store := List.replicate 2 { op := .le, args := [.reg 9, .reg 1, .reg 4], pending := true } } }
/-- RelationsArePosted: a post that leaves no domain empty, an ALLD, PFIX with a pending entry, and PFIX with none; a run that the
budget stops under PLE = 1. -/
theorem wit_relations :
    (∃ p, propagate regs.self.rel.store regs.self.rel.budget.toNat
        (some { op := .add, args := (Src2.reg 1 8).opds 4, pending := false })
        (runFix { op := .add, args := (Src2.reg 1 8).opds 4, pending := false } regs.file) = some p ∧
      (!p.stopped && p.changed == [4]) = true) ∧ regs.self.rel.store.length < 256 ∧
    (∃ p, propagate [{ op := .add, args := [.reg 4, .reg 1, .reg 8], pending := true }] regs.self.rel.budget.toNat none
        (some (regs.file, [])) = some p ∧ (!p.stopped && p.changed == [4]) = true) ∧
    (∃ p, propagate regs.self.rel.store regs.self.rel.budget.toNat
        (some { op := .alld, args := (List.range 3).map fun i => .reg (1 + BitVec.ofNat 6 i), pending := false })
        (runFix { op := .alld, args := (List.range 3).map fun i => .reg (1 + BitVec.ofNat 6 i), pending := false } regs.file) = some p ∧
      (!p.stopped) = true) ∧
    (∃ p, propagate pendingTwo.self.rel.store pendingTwo.self.rel.budget.toNat none (some (pendingTwo.file, [])) = some p ∧
      (p.stopped && pendingTwo.self.rel.ple) = true) ∧
    (∀ e ∈ full.self.rel.store, e.pending = false) := by
  refine ⟨some_of_any (by decide +kernel), by decide +kernel, some_of_any (by decide +kernel), some_of_any (by decide +kernel),
    some_of_any (by decide +kernel), by decide +kernel⟩
/-- RelationsArePosted, for a propagation: canonical domains with a solution of D4 = D1 + D8, a relation as its form gives it, and a
run that leaves single values. -/
theorem wit_propagation :
    let e : StoreEntry := { op := .add, args := (Src2.reg 1 8).opds 4, pending := false }
    (∀ r : DReg, (regs.file[r.toNat]).canonical = true) ∧ e.Formed ∧
    (∃ f : DReg → Int, (∀ r : DReg, (regs.file[r.toNat]).has (f r) = true) ∧ ∀ x ∈ [] ++ [e], x.Holds f) ∧
    ∃ p, propagate [] 4 (some e) (runFix e regs.file) = some p ∧ (!p.stopped && e.args.all fun a => (a.dom p.file).sng) = true := by
  have hc : ∀ i : Fin 64, (regs.file[i.val]).canonical = true ∧
      (regs.file[i.val]).has (if i.val = 4 then 5 else (regs.file[i.val]).l) = true := by decide +kernel
  have hv : (regs.file[4]).has 5 = true ∧ (regs.file[1]).l = 5 ∧ (regs.file[8]).l = 0 := by decide +kernel
  refine ⟨fun r => (hc ⟨r.toNat, r.isLt⟩).1, ⟨4, .reg 1 8, rfl⟩,
    ⟨fun r => if r.toNat = 4 then 5 else (regs.file[r.toNat]).l, fun r => (hc ⟨r.toNat, r.isLt⟩).2, ?_⟩, some_of_any (by decide +kernel)⟩
  intro x hx
  simp only [List.nil_append, List.mem_singleton] at hx
  subst hx
  simp only [StoreEntry.Holds, Src2.opds, List.map, Opd.value]
  exact (by decide +kernel : (5 : Int) = (regs.file[1]).l + (regs.file[8]).l)
theorem wit_domain_forms : (regs.srcV (.reg 7)).val = some (-1) ∧ (regs.src1 (.reg 1 2)).val = some 5 ∧
    (regs.src2 (.reg 1 2)).val = some 6 ∧ (5 : Word).toInt ≤ (6 : Word).toInt ∧ (regs.rd 4).card < 2 ^ 31 := by decide +kernel
/-- DomainFormsInspectSetAndNarrow: a set, a singleton, and a narrowing of D4 = 3..9 by each of its forms. -/
theorem wit_narrowings : (regs.rd 4).canonical = true ∧ (regs.rd 1).canonical = true ∧
    regs.self.deadD.mask.getLsbD 4 = false ∧ regs.self.rel.store = [] ∧ (regs.srcV (.lit 3)).val = some 3 ∧
    (3 : Word).toInt < (regs.rd 4).lo.toInt + 64 ∧
    (∃ u, (regs.rd 4).has u = true ∧ (regs.ra 3).getLsbD (u - (regs.rd 4).lo.toInt).toNat = true) ∧
    (∃ u, (regs.rd 4).has u = true ∧ decide (u ≠ (3 : Word).toInt) = true) ∧
    ∃ u, (regs.rd 4).has u = true ∧ (regs.rd 1).has u = true := by
  refine ⟨by decide +kernel, by decide +kernel, by decide +kernel, by decide +kernel, by decide +kernel, by decide +kernel, ⟨9, by decide +kernel⟩, ⟨4, by decide +kernel⟩, ⟨5, by decide +kernel⟩⟩
/-- DomainFormsInspectSetAndNarrow under a store: a propagation behind D4 = 3..8 that is not stopped, one that the budget stops under
PLE = 1, and one that fails; a value beyond the window of D5, the whole 32-bit range. -/
def storeOf (n : Nat) (e : StoreEntry) : State := regs.upd fun x => { x with rel := { x.rel with budget := 1, ple := true, store := List.replicate n e } }
theorem wit_narrowings_under_a_store :
    let less : StoreEntry := { op := .lt, args := [.lit 1, .reg 4, .reg 2], pending := false }
    let more : StoreEntry := { op := .lt, args := [.lit 1, .reg 4, .reg 1], pending := false }
    let run (s : State) := propagate s.self.rel.store s.self.rel.budget.toNat none (some (s.file.set 4 (Dom.range 7 9), [4]))
    (storeOf 1 less).self.rel.store ≠ [] ∧ (Dom.range 7 9).canonical = true ∧ Dom.range 7 9 ≠ regs.rd 4 ∧
    run (storeOf 1 more) = none ∧ (storeOf 1 more).self.rel.ab = false ∧
    (run (storeOf 1 { less with args := [.lit 0, .reg 4, .reg 2] })).any (fun p => !p.stopped) = true ∧
    (run (storeOf 2 { less with args := [.lit 0, .reg 4, .reg 2] })).any (fun p => p.stopped) = true ∧
    (storeOf 2 less).self.rel.ple = true ∧ (regs.rd 5).canonical = true ∧ 64 ≤ (5 : Word).toInt - (regs.rd 5).lo.toInt ∧
    (5 : Word).toInt ≠ (regs.rd 5).hi.toInt := by decide +kernel
/-- RelationsArePosted: a propagation behind a register that an instruction has narrowed itself. -/
theorem wit_propagation_own : (∀ r : DReg, (regs.file[r.toNat]).canonical = true) ∧
    (∃ f : DReg → Int, (∀ r : DReg, (regs.file[r.toNat]).has (f r) = true) ∧ ∀ x ∈ ([] : List StoreEntry) ++ (none : Option StoreEntry).toList, x.Holds f) ∧
    (propagate [] 4 none (some (regs.file, [4]))).any (fun p => p.changed == [4]) = true := by
  have hc : ∀ i : Fin 64, (regs.file[i.val]).canonical = true ∧ (regs.file[i.val]).has (regs.file[i.val]).l = true := by decide +kernel
  exact ⟨fun r => (hc ⟨r.toNat, r.isLt⟩).1, ⟨fun r => (regs.file[r.toNat]).l, fun r => (hc ⟨r.toNat, r.isLt⟩).2, fun x hx => by simp at hx⟩,
    by decide +kernel⟩
/-- A checkpoint of canonical domains, with a store of one pending entry. -/
def mark1 : Ckpt := { d := Vector.replicate 64 (Dom.single 0), alt := 0x120, sh := 1, budget := 64, pxf := true, pending := [true] }
/-- A strand with `n` checkpoints and a store of one relation, its spill slots at 0 of the scratchpad. -/
def deep (n : Nat) : State := regs.upd fun x =>
  { x with rel := { x.rel with cks := List.replicate (min n 16) mark1, ckd := n, ckSlots := 2,
                               store := [{ op := .le, args := [.reg 9, .reg 10], pending := false }] } }
/-- CkptPushes: a first checkpoint, and a seventeenth, which goes to its spill slot. -/
theorem wit_ckpt : ∀ s ∈ [deep 0, deep 16], (0 : Int) ≤ (s.self.pc.toNat : Int) + 8 * (4 : BitVec 20).toInt ∧
    (s.self.pc.toNat : Int) + 8 * (4 : BitVec 20).toInt ≤ 0x1FFF8 ∧ s.self.rel.ckd < 16 + s.self.rel.ckSlots.toNat ∧
    (16 ≤ s.self.rel.ckd → s.self.rel.slotOk (s.self.rel.ckd - 16) = true ∧ s.slotBusy (s.self.rel.ckd - 16) = false) := by
  decide +kernel
/-- A strand at depth 17, whose spill slot holds a checkpoint. -/
def spilt : State := (deep 17).store (localKey 0 0) mark1.bytes
theorem spilt_read : spilt.mem.read (localKey 0 0) 1088 = mark1.bytes := by decide +kernel
theorem mark1_bytes : Ckpt.ofBytes mark1.bytes 1 = some mark1 := by decide +kernel
/-- CheckpointsReturn: at depth 1 and 16, and at depth 17. -/
theorem wit_checkpoints : (∀ s ∈ [deep 1, deep 16], s.self.rel.cks.head? = some mark1 ∧ 0 < s.self.rel.ckd ∧ s.self.rel.ckd ≤ 16) ∧
    spilt.self.rel.cks.head? = some mark1 ∧ 16 < spilt.self.rel.ckd ∧ spilt.self.rel.slotOk (spilt.self.rel.ckd - 17) = true ∧
    spilt.slotBusy (spilt.self.rel.ckd - 17) = false ∧
    Ckpt.ofBytes (spilt.mem.read (localKey spilt.core (64 * spilt.self.rel.ckBase.toNat + 1088 * (spilt.self.rel.ckd - 17))) 1088)
      spilt.self.rel.store.length = some mark1 ∧ mark1.pending.length = mark1.sh ∧ mark1.sh = spilt.self.rel.store.length := by
  refine ⟨by decide +kernel, by decide +kernel, by decide +kernel, by decide +kernel, by decide +kernel, ?_, by decide +kernel, by decide +kernel⟩
  have h : localKey spilt.core (64 * spilt.self.rel.ckBase.toNat + 1088 * (spilt.self.rel.ckd - 17)) = localKey 0 0 := by decide +kernel
  have k : spilt.self.rel.store.length = 1 := by decide +kernel
  rw [h, k, spilt_read, mark1_bytes]
/-- CheckpointsReturn: a checkpoint of canonical domains, with a store of one pending entry. -/
theorem wit_spill : (∀ i : Fin 64, (mark1.d[i.val]).canonical = true) ∧ mark1.sh ≤ 1 ∧ mark1.sh ≤ 256 ∧
    mark1.pending.length = mark1.sh := by decide +kernel
/-- AddressFormsGiveResults: its clauses, at the ends of 32 bits; sources that are no singletons. -/
theorem wit_address : ((regs.srcV (.reg 7)).val = some (-1) ∧ (regs.rd 6).val = some 0x80000000 ∧ (6 : BitVec 3).toNat ≤ 6) ∧
    ((regs.srcV (.reg 4)).val = none ∧ (regs.rd 5).val = none) ∧
    (((regs.upd fun x => x.setA 3 0x7FFFFFFF).ra 3).toInt < 2 ^ 31 ∧
      -2 ^ 31 ≤ ((regs.upd fun x => x.setA 3 0xFFFFFFFF80000000).ra 3).toInt) ∧
    2 ^ 31 ≤ ((regs.upd fun x => x.setA 3 0x80000000).ra 3).toInt ∧
    ((regs.upd fun x => x.setA 3 0xFFFFFFFF7FFFFFFF).ra 3).toInt < -2 ^ 31 := by decide +kernel
/-! ### Queues and control -/

/-- `n` stores of the strand to the scratchpad at 0x1000, in its store queue. -/
def entry (i : Instr) (ea : DWord) : QEntry :=
  { i := i, po := 0, qseq := 0, ea := ea, v := 0x1234567890, c := 0, data := [], held := .no, tag := none, ra := none,
    replay := none }
def stored (n : Nat) : State := regs.upd fun x =>
  { x with po := 1, q := { x.q with st := List.replicate n (entry (.st .w32 .ts 1 (.reg 2 0)) 0x1000) } }
def loaded (n : Nat) : State := regs.upd fun x =>
  { x with po := 1, q := { x.q with ld := List.replicate n (entry (.ld .w8 .tz 9 1 0) 0x1000) } }

/-- R163, R165: a store takes the value of its source with it; R158: its address is base plus offset. -/
theorem test_store : ((after (.st .w16 .ts 3 (.reg 7 (-8))) regs).self.q.st.map fun e => (e.ea, e.v, e.qseq)) =
    [(56, 0xFFFFFFFF, 0)] := by decide +kernel
/-- R169: the last word of a body goes back while trips are left. -/
theorem test_loop : afterWord 0x120 [⟨0x108, 0x120, 2⟩] = (0x108, [⟨0x108, 0x120, 1⟩]) ∧
    afterWord 0x120 [⟨0x108, 0x120, 1⟩] = (0x128, []) := by decide +kernel
/-- R168: CALL writes the address of the next word; RET goes to it. -/
theorem test_call : (after (.call 4 (-2)) regs).self.pc = 0xF0 ∧ (after (.call 4 (-2)) regs).self.a[4] = 0x108 ∧
    (after (.ret 3) regs).self.pc = 64 := by decide +kernel
/-- R260: TRAP enters the handler at SYS.TVEC with its argument; the return address is the next word. RTT goes back. -/
theorem test_trap :
    let t := after (.trap 9) (regs.upd fun x => { x with trap := { x.trap with tvec := 0x2000 } })
    trapped t 0x12 ∧ t.self.trap.arg = 9 ∧ t.self.trap.tpc = 0x108 ∧ t.self.pc = 0x2000 ∧
      (after .rtt t).self.pc = 0x108 ∧ (after .rtt t).self.trap.hm = false := by decide +kernel
/-- R172: RTT outside a handler is illegal. -/
theorem test_rtt : trapped (after .rtt regs) 0x01 := by decide +kernel
/-- R171: IDLE has issued, and its strand waits. -/
theorem test_idle : (after .idle regs).self.st = .waiting ∧ (after .idle regs).self.pc = 0x108 := by decide +kernel

/-- LoadsEnterTheLoadQueueOrWait: room, and each full queue. -/
theorem wit_loads : regs.self.allQueued.ld.length < 64 ∧ (loaded 63).self.allQueued.ld.length < 64 ∧
    (loaded 64).self.allQueued.ld.length = 64 ∧ (stored 64).self.allQueued.st.length = 64 := by decide +kernel
/-- A timer wheel of `n` releases. -/
def wheelOf (n : Nat) : State := regs.updCore 0 fun y =>
  { y with wheel := List.replicate n { record := 0, time := 0x100, late := false, prio := 0, owner := none } }
/-- FormsEnterTheStoreQueue: both ends of the watermark, values outside them, and a TREL with room and without it. -/
theorem wit_stores : (regs.self.allQueued.st.length < 64 ∧ (regs.rd 1).val = some 5 ∧ (regs.rd 6).val = some 0x80000000 ∧
      (regs.rd 7).val = some (-1) ∧ (regs.srcV (.lit 7)).val = some 7) ∧
    ([0, 0xFFFFFFF] : List Word).all (fun v => decide (0 ≤ v.toInt ∧ v.toInt < 2 ^ 28 ∧
      ((regs.upd fun x => x.setD 9 (Dom.single v)).rd 9).val = some v)) = true ∧
    ([-1, 0x10000000] : List Word).all (fun v => decide ((v.toInt < 0 ∨ 2 ^ 28 ≤ v.toInt) ∧
      ((regs.upd fun x => x.setD 9 (Dom.single v)).rd 9).val = some v)) = true ∧
    ((wheelOf 255).own.wheel.length < 256 ∧ (wheelOf 255).own.wheelBehind (wheelOf 255).slot = false) ∧ 256 ≤ (wheelOf 256).own.wheel.length := by decide +kernel
/-- Slot 1 waits at a TREL for room in the wheel, and slot 0 is to issue its own. -/
def wheelWaiter (n : Nat) : State := (wheelOf n).updAt 0 1 fun x => { x with st := .waiting, wait := .trel, since := 3 }
/-- FormsEnterTheStoreQueue: a full store queue, and a TREL behind another strand that waits for the wheel. -/
theorem wit_full_store : 64 ≤ (stored 64).self.allQueued.st.length ∧ ((stored 64).rd 1).val = some 5 ∧ ((stored 64).srcV (.lit 7)).val = some 7 ∧
    (wheelWaiter 255).own.wheel.length < 256 ∧ (wheelWaiter 255).own.wheelBehind (wheelWaiter 255).slot = true ∧
    ((stored 64).own.wheel.length < 256 ∧ (stored 64).own.wheelBehind (stored 64).slot = false) := by decide +kernel
/-- RemoteFormsEnterAndWait: a legal target with a length of 0 and of 256, an illegal target, lengths outside. -/
theorem wit_remote : regs.self.allQueued.st.length < 64 ∧ (regs.rd 1).val = some 5 ∧ (regs.srcV (.lit 5)).val = some 5 ∧ (regs.srcV (.reg 7)).val = some (-1) ∧ (regs.rd 0).val = some 0 ∧
    (5 : Word).extractLsb' 14 2 = 0 ∧ 0 ≤ (0 : Word).toInt ∧ (256 : Word).toInt ≤ 256 ∧
    (regs.rd 7).val = some (-1) ∧ (-1 : Word).extractLsb' 14 2 ≠ 0 ∧ (-1 : Word).toInt < 0 ∧ (256 : Int) < (257 : Word).toInt := by
  decide +kernel
/-- MarkersAndFencesEnterEveryNamedQueue. -/
theorem wit_markers : regs.self.allQueued.ld.length < 64 ∧ regs.self.allQueued.st.length < 64 ∧ regs.self.allQueued.me.length < 64 ∧
    regs.self.allQueued.ve.length < 64 ∧ regs.self.allQueued.ce.length < 64 ∧ ∀ e, regs.reqFirst e = false :=
  ⟨by decide +kernel, by decide +kernel, by decide +kernel, by decide +kernel, by decide +kernel, fun _ => rfl⟩
/-- BranchesAndCallsGoToTheirTargets: both ends of instruction memory, a target before and after it, a set, registers with
a legal and an illegal target. -/
theorem wit_branches :
    (regs.self.pc.toNat : Int) + 8 * (-32 : BitVec 20).toInt = 0 ∧
    (regs.self.pc.toNat : Int) + 8 * (0x3FDF : BitVec 20).toInt = 0x1FFF8 ∧
    (regs.self.pc.toNat : Int) + 8 * (-33 : BitVec 20).toInt < 0 ∧
    0x1FFF8 < (regs.self.pc.toNat : Int) + 8 * (0x3FE0 : BitVec 20).toInt ∧
    (regs.rd 1).val = some 5 ∧ (regs.rd 2).val = some 6 ∧ (regs.rd 4).val = none ∧ (regs.ra 3).toNat < 0x20000 ∧
    (regs.ra 3).toNat % 8 = 0 ∧ 0x20000 ≤ (regs.ra 2).toNat := by decide +kernel
/-- A strand in kernel execution `i` of a record of four trips and two stages, in the kernel at 0x300, with row pointers in
the scratchpad at 0x1000: 0, 3. -/
def record (rp : Bool) : BitVec 256 :=
  BitVec.ofNat 256 ((if rp then 2 ^ 246 + 0x1000 * 2 ^ 128 else 0) + 2 ^ 240 + 2 ^ 253 + 2 ^ 254 + 4 * 2 ^ 96 + 0x300 * 2 ^ 32)
def kernel (rp : Bool) (i : Nat) : State :=
  (regs.upd fun x => { x with run := some { record := record rp, part := .kernel, iter := i, order := 0, begun := 0, row := none } }).store
    (localKey 0 0x1004) [3]
/-- LoopsRepeatTheirBodies: LOOP of 5 trips and of none, and LOOPRP of 3 trips from the row pointers, with no replay under way. -/
theorem wit_loops : regs.loopFault 2 = none ∧ regs.self.loops.length < 4 ∧ (regs.rd 1).val = some 5 ∧ (regs.rd 6).val = some 0x80000000 ∧
    (kernel true 0).loopFault 2 = none ∧ (kernel true 0).self.loops.length < 4 ∧ (kernel true 0).own.replaying 0 = false ∧
    (((kernel true 0).upd fun x => x.setD 1 (Dom.single 3)).rd 1).val = some 3 ∧
    ((kernel true 0).rowCount 0 ((kernel true 0).upd fun x => x.setD 1 (Dom.single 3)).self) = .count 3 := by decide +kernel
/-- A loop record of 32 bytes at 0x40 of the scratchpad. -/
def withRecord : State := regs.store (localKey 0 64) (leBytes 32 (record false).toNat)
/-- RecordsNodesAndIdle. -/
theorem wit_records : withRecord.self.got = none ∧ withRecord.own.storesDone 0 = true ∧ withRecord.own.replaying 0 = false ∧
    withRecord.flaws = [] ∧ (withRecord.ra 3).toNat % 32 = 0 ∧
    withRecord.peek 0 (withRecord.ra 3).toNat 32 = .bytes (leBytes 32 (record false).toNat) ∧
    Rec.ok (BitVec.ofNat 256 (leNat (leBytes 32 (record false).toNat))) = true ∧ withRecord.own.ready.length < 64 ∧ withRecord.own.closing = none ∧
    withRecord.behind (fun y => y.wait == .lrec && y.got.isSome) = false ∧ regs.self.allQueued.allEmpty = true ∧
    regs.own.settled 0 = true ∧ regs.self.light = none := by decide +kernel
/-- HaltEndsOrRepeats: a strand without a record, one with a store left, and one in kernel execution 2 of 5. -/
theorem wit_halt : (regs.self.q.drained = true ∧ regs.own.settled regs.slot = true ∧ regs.self.trap.hm = false ∧
      regs.self.run = none ∧ regs.self.lease.held = false) ∧ (stored 1).self.q.drained = false ∧
    ((kernel false 2).self.q.drained = true ∧ (kernel false 2).own.settled (kernel false 2).slot = true ∧
      (kernel false 2).self.trap.hm = false ∧
      (∃ r, (kernel false 2).self.run = some r ∧ r.part = .kernel ∧ r.iter + 1 < Rec.executions r.record) ∧
      (kernel false 2).own.wantsSwitch (kernel false 2).self.prio = false) := by
  refine ⟨by decide +kernel, by decide +kernel, by decide +kernel, by decide +kernel, by decide +kernel,
    ⟨_, rfl, by decide +kernel, by decide +kernel⟩, by decide +kernel⟩
/-- A strand in its handler, with what the trap set aside. -/
def handling : State := after (.trap 9) (stored 1)
/-- TrapsSaveWhatTheySay and TrapAndItsEventEnterTheHandler: outside and inside a handler. -/
theorem wit_traps : ((stored 1).self.trap.hm = false ∧ (stored 1).self.lease.pend = false ∧ (Cause.plain 0x01).code ≠ 0x26 ∧
      (Cause.plain 0x01).code ≠ 0x22 ∧ (Cause.plain 0x01).part = none ∧ (stored 1).self.st = .ready ∧
      1 ≤ (Cause.plain 0x01).code.toNat ∧ (Cause.plain 0x01).code.toNat ≤ 0x26) ∧
    (handling.self.trap.hm = true ∧ handling.self.st = .ready) := by decide +kernel
/-- RttReturns: in a handler with a store set aside, and outside. -/
theorem wit_rtt : (∃ a, handling.self.trap.aside = some a ∧ (a.1.st.length == 1) = true) ∧ handling.self.trap.hm = true ∧
    handling.pkg.alertHeld = false ∧ regs.self.trap.hm = false := by
  refine ⟨some_of_any (by decide +kernel), by decide +kernel, by decide +kernel, by decide +kernel⟩
/-- BreakpointsAndCuts: BKE = 1 on a core of the grid, BKE = 0, and the management core. -/
def traced : State := regs.upd fun x => { x with trace := { x.trace with bke := true } }
theorem wit_breakpoints : (traced.self.trace.bke = true ∧ traced.self.trace.tre = false ∧ traced.core ≠ 2048 ∧
      traced.self.st = .ready) ∧ regs.self.trace.bke = false ∧ { regs with core := 2048 }.core = 2048 ∧
    regs.self.trace.tre = false := by decide +kernel

/-! ### Flags, command queues, tables, leases -/

/-- Flag 255 set, a token from the VE, none from the ME. -/
def signalled : State :=
  (regs.updCore 0 fun y => { y with flags := 1 <<< 255 }).upd fun x => { x with tokens := x.tokens.set 6 1 }
/-- R175: WAITF consumes its flag. -/
theorem test_waitf : (after (.waitf 255) signalled).own.flags = 0 ∧ (after (.waitf 0) signalled).self.st = .waiting := by
  decide +kernel
/-- Flag 255 read 1 and has been set again in this clk. -/
def again : State := signalled.updCore 0 fun y => { y with flagClk := 0, flagSets := [(255, true)] }
/-- FlagsAndTokensAreConsumed: each clause. -/
theorem wit_flags : (signalled.own.flags.getLsbD 255 = true ∧ signalled.own.setIn signalled.clk 255 ≠ some true) ∧
    (again.own.flags.getLsbD 255 = true ∧ again.own.setIn again.clk 255 = some true) ∧ signalled.own.flags.getLsbD 0 = false ∧
    signalled.self.wait = .none ∧ signalled.self.token 6 ≠ 0 ∧ signalled.self.token 3 = 0 := by decide +kernel
/-- R175: a clear in the clk of a set of the flag goes before it. -/
theorem test_waitf_again : (after (.waitf 255) again).own.flags.getLsbD 255 = true := by decide +kernel
/-- EnqPutsAStreamWithItsSnapshot: a legal address, a misaligned one, and one outside instruction memory. -/
theorem wit_enq : (regs.ra 3).toNat < 0x20000 ∧ (regs.ra 3).toNat % 64 = 0 ∧ regs.self.allQueued.me.length < 64 ∧
    regs.self.allQueued.ve.length < 64 ∧ regs.self.allQueued.ce.length < 64 ∧
    [Eng.me, .ve, .ce].all (fun e => !regs.reqFirst e) = true ∧ (regs.ra 1).toNat % 64 ≠ 0 ∧ 0x20000 ≤ (regs.ra 2).toNat := by
  decide +kernel
/-- A nest of one level of 3, MMAC its body, extents 1, and a port set of one level, at 0x40 of the scratchpad. -/
def table : Nat := 3 * 2 ^ 256 + 4 * 2 ^ 224 + 2 ^ 192 + 2 ^ 160 + 2 ^ 128
def withTable (n : Nat) : State := regs.store (localKey 0 64) (leBytes 64 n)
/-- TablesPortsAndFormatsAreTaken. -/
theorem wit_tables :
    (withTable table).flaws = [] ∧ (withTable table).own.replaying 0 = false ∧
    ((withTable table).ra 3).toNat % 64 = 0 ∧ ((withTable table).ra 3).toNat + 192 ≤ 0x100000 ∧
    (withTable table).scratchBusy 64 192 = false ∧ (withTable table).poisoned (localKey 0 64) 192 = false ∧
    (withTable table).self.nest.st ≠ .armed ∧
    Nest.ok (BitVec.ofNat 1536 ((withTable table).readNat (localKey 0 64) 192)) = true ∧
    (withTable 0x1000).scratchBusy 64 64 = false ∧ (withTable 0x1000).poisoned (localKey 0 64) 64 = false ∧
    PortSet.ok (BitVec.ofNat 512 ((withTable 0x1000).readNat (localKey 0 64) 64)) = true ∧
    (after (.nest 3) (withTable table)).self.nest.st = .filled ∧ (after (.nest 3) (withTable table)).reqFirst .me = false ∧
    (after (.nest 3) (withTable table)).self.allQueued.me.length < 64 ∧ regs.self.allQueued.fmt.length < 32 ∧ shapeOk 0x00027C1F = true ∧
    (regs.srcV (.lit 0x00027C1F)).val = some 0x00027C1F := by decide +kernel
/-- R177: NEST fills the shadow; NGO arms it and queues its entry. -/
theorem test_nest : (after .ngo (after (.nest 3) (withTable table))).self.nest.st = .armed ∧
    (after .ngo (after (.nest 3) (withTable table))).self.q.me.length = 1 ∧ trapped (after .ngo regs) 0x0F := by decide +kernel
/-- A request of slot 0 of core 0 for the level `l`, at the head of its segment. -/
def asking (l : BitVec 4) : State := after (.pacq l) regs
/-- R336: the grant: the units held rise by the level. -/
theorem test_lease : ((after (.leaseGrant 0) (asking 7)).seg 0).held = 7 ∧
    ((after .prel (after (.leaseGrant 0) (asking 7))).seg 0).held = 0 := by decide +kernel
/-- LeasesAreGrantedInOrder: the management core, a strand that asks, one with a store before it; a request that fits, a new level
for a lease that is held, which fits in its place, and one that does not fit. -/
theorem wit_leases : ({ regs with core := 2048 } : State).self.allQueued.ld = [] ∧ ({ regs with core := 2048 } : State).self.allQueued.st = [] ∧
    (regs.core ≠ 2048 ∧ regs.self.allQueued.ld = [] ∧ regs.self.allQueued.st = [] ∧ regs.self.lease.pend = false) ∧
    (stored 1).self.allQueued.st ≠ [] ∧
    ([(asking 15, (15 : BitVec 4), 0, 240), ((after (.leaseGrant 0) (asking 7)) |> after (.pacq 9) |> (·.putSeg 0 { Segment.fresh with
        held := 7, reqs := [{ core := 0, slot := 0, level := 9 }], cap := 9 }), 9, 7, 9),
      (asking 15 |> fun s => s.putSeg 0 { s.seg 0 with held := 230 }, 15, 0, 240)] : List (State × BitVec 4 × Nat × Nat)).all (fun p =>
     let s := p.1
     let x := s.strandAt 0 (slotIx 0)
     (s.seg 0).reqs == [{ core := 0, slot := 0, level := p.2.1 }] && x.st == .waiting && x.wait == .lease && !x.lease.again &&
       !x.lease.left && (if x.lease.held then x.lease.level.toNat else 0) == p.2.2.1 && (s.seg 0).cap.toNat == p.2.2.2 &&
       ((s.seg 0).held.toNat + p.2.1.toNat ≤ (s.seg 0).cap.toNat + p.2.2.1) == ((s.seg 0).held != 230)) = true := by decide +kernel
/-- R187: an unassigned number is illegal; SYS.TVEC keeps its bits 16 to 3. -/
theorem test_srr : trapped (after (.srr 8 0xFFF) regs) 0x01 := by decide +kernel
/-- SystemRegistersAreReadAndWritten: an assigned number and one that is not; a checkpoint base at a depth above 16, one that runs over
and one that does not; a largest magnitude that no commit of this clk has touched. -/
theorem wit_srr : (regs.rd 1).val = some 5 ∧ (regs.sysRead 0 0 0x081).isSome ∧ (0x081 : BitVec 12) ≠ 0x030 ∧
    ((regs.sysRead 0 0 0x030).isSome ∧ shapeOk 5 = true ∧ (regs.rd 7).val = some (-1) ∧ shapeOk (-1) = false) ∧
    regs.self.amaxClk = Vector.replicate 4 0 ∧ (16 < (deep 17).self.rel.ckd ∧ ((deep 17).sysRead 0 0 0x013).isSome) ∧
    (239 < ((-1 : Word).extractLsb' 20 8).toNat ∧ ¬ 239 < ((5 : Word).extractLsb' 20 8).toNat) ∧
    regs.sysRead 0 0 0xFFF = none := by decide +kernel
/-- SystemRegistersAreReadAndWritten: a register without a value as a source. -/
theorem wit_srr_set : (regs.sysRead 0 0 0x081).isSome = true ∧ (regs.rd 4).val = none := by decide +kernel
/-- SdeadDeclaresRegistersDead: a mask below 2^32 and one above. -/
theorem wit_sdead : (regs.ra 3).toNat < 2 ^ 32 ∧ 2 ^ 32 ≤ (regs.ra 2).toNat := by decide +kernel

/-! ### The engines -/

/-- A strand that an engine serves at the first word of its stream at 0, with format word 0 queued, the tiles `full` full, and
a nest of three executions of body `b` over one row and column. -/
def nestTable (b : Nat) : BitVec 1536 := BitVec.ofNat 1536 (3 * 2 ^ 256 + 0x10000 * 2 ^ 352 + b * 2 ^ 224 + 2 ^ 228 + 2 ^ 192 + 2 ^ 160 + 2 ^ 128 +
  0x100000 * 2 ^ 64 + (if b = 4 then 0x1E0000 + 0x1F0000 * 2 ^ 32 else 0))
def command (k : CmdKind) : Cmd := { kind := k, addr := 0, qseq := 0, snap := Snap.zero }
def engine (full : BitVec 16) (b : Nat) : State :=
  ((regs.upd fun x =>
    { x with q := { x.q with me := [command (.stream none)], ve := [command (.stream none)], ce := [command (.stream none)], fmt := [0] }
             curMe := some (Cursor.start 0 1), curVe := some (Cursor.start 0 1), curCe := some (Cursor.start 0 1)
             nest := { x.nest with active := nestTable b, shadow := nestTable b, ptrC := 0x40 } })
    ).updCore 0 fun y => { y with full := full, me := { serving := some 0, last := 0, apart := [] }, ve := { serving := some 0, last := 0, apart := [] },
                                  ce := { serving := some 0, last := 0, apart := [] } }
/-- A word of two repetitions without tokens. -/
def word (x y z : BitVec 4) : EWord := { pop := 0, push := 0, each := false, rpt := 1, step := 1, k := false, x := x, y := y, z := z }
/-- The state and cursor in which such a word makes its first repetition. -/
def firstRep (s : State) (fmt : Bool) (n : Nat) : State × Cursor :=
  let t := if fmt then s.upd Strand.dropFmt else s
  let u := Cursor.start 0 1
  (((t.engWoke .me u (t.wokeBy u)).upd fun x => x.pop (popTokens .me 0)),
   { u with phase := .run, popped := true, rep := 0, total := n, fmt := 0, since := none })
theorem atRep_plain {e : Eng} {s : State} {w : EWord} (h : s.self.cursor e = some (Cursor.start 0 1)) (hw : w.rpt = 1) (hp : w.pop = 0)
    (hb : s.self.badToken (popTokens e 0) = false) (ht : popTokens e 0 = []) (hf : s.flaws = []) :
    s.AtRep e w none none (firstRep s false 2).1 (firstRep s false 2).2 := by
  have hc : s.Counts w none s 2 := by simpa [hw] using State.Counts.field (s := s) (w := w) (count := none) rfl (by simp [hw])
  have := State.AtRep.first (fmt := none) (e := e) (Cursor.start 0 1) 2 s s 0 h rfl hf hc ⟨rfl, rfl⟩ (by rw [hp]; exact hb)
    ⟨by rw [hp]; exact hb, by rw [hp, ht]; simp⟩
  rw [hp, ht] at this
  exact this
theorem atRep_format {s : State} {w : EWord} {ok : Fmt → Bool} (c : Option Nat) {n : Nat} (h : s.self.cursor .me = some (Cursor.start 0 1))
    (hq : s.self.allQueued.fmt.head? = some 0) (ho : (Fmt.unpack 0).ok = true) (hk : ok (Fmt.unpack 0) = true) (hr : (Fmt.unpack 0).reduced = true)
    (hn : s.Counts w c s n) (hp : w.pop = 0) (hb : (firstRep s true n).1.self.badToken (popTokens .me 0) = false)
    (hf : s.flaws = []) :
    s.AtRep .me w (some ok) c (firstRep s true n).1 (firstRep s true n).2 := by
  have := State.AtRep.first (fmt := some ok) (e := .me) (Cursor.start 0 1) n s
    (s.upd Strand.dropFmt) 0 h rfl hf hn ⟨hq, ho, hk, Or.inr hr, rfl⟩ (by rw [hp]; exact hb)
    ⟨by rw [hp]; exact hb, by rw [hp]; simp [popTokens]⟩
  rw [hp] at this
  exact this

/-- R203: MLOAD of one FP32 element: its bytes stand in the tile, which is full. -/
theorem test_mload :
    let w := { word 0 0 0 with rpt := 0 }
    let s := (engine 0 1).store (localKey 0 0) (leBytes 4 0x3F800000)
    (after (.mload w) s).readNat (tileKey 0 0) 8 = 0x3F800000 ∧ (after (.mload w) s).own.full = 1 ∧
      (after (.mload w) s).self.nest.ptrA = 64 := by decide +kernel
/-- R206: 1.5 × 2 added to 1 is 4, in FP32. -/
theorem test_mmac :
    let s := (((engine 7 4).store (tileKey 0 0) (leBytes 4 0x3F800000)).store (tileKey 0 1) (leBytes 4 0x3FC00000)).store (tileKey 0 2)
      (leBytes 4 0x40000000)
    (after (.mmac { word 0 1 2 with rpt := 0 }) s).readNat (tileKey 0 0) 8 = 0x40800000 := by decide +kernel
/-- R29: a load into a full tile waits; R93: a load without a format word faults with code 0x1E. -/
theorem test_mload_waits :
    (after (.mload (word 0 0 0)) (engine 1 1)).self.curMe.map (·.since.isSome) = some true ∧
    trapped (after (.mload (word 0 0 0)) ((engine 0 1).upd fun x => { x with q := { x.q with fmt := [] } })) 0x1E := by decide +kernel

/-- MatrixWordsCommit: a first repetition of each form, by its word, its format and the tiles it finds full. -/
theorem wit_mzero : (engine 0 1).AtRep .me (word 0 0 0) none none (firstRep (engine 0 1) false 2).1 (firstRep (engine 0 1) false 2).2 ∧
    (firstRep (engine 0 1) false 2).1.own.tileWait 0 (firstRep (engine 0 1) false 2).2 [] [0] false = none :=
  ⟨atRep_plain (by decide +kernel) rfl rfl (by decide +kernel) rfl rfl, by decide +kernel⟩
theorem wit_matrix_formats : ∀ p ∈ [(word 0 0 0, Fmt.loadOk), (word 0 0 0, Fmt.gatherOk), (word 0 0 0, Fmt.storeOk), (word 0 1 2, Fmt.macOk),
      (word 0 0 1, Fmt.macsOk), (word 0 1 0, Fmt.drainOk), (word 0 1 0, Fmt.hadOk), (word 0 1 0, Fmt.trnOk)],
    ∀ full, (engine full 1).AtRep .me p.1 (some p.2) none (firstRep (engine full 1) true 2).1 (firstRep (engine full 1) true 2).2 := by
  intro p hp full
  have hw : p.1.rpt = 1 ∧ p.1.pop = 0 ∧ p.2 (Fmt.unpack 0) = true := by
    simp only [List.mem_cons, List.not_mem_nil, or_false] at hp
    rcases hp with rfl | rfl | rfl | rfl | rfl | rfl | rfl | rfl <;> exact ⟨rfl, rfl, by decide +kernel⟩
  exact atRep_format none rfl rfl (by decide +kernel) hw.2.2 (by decide +kernel)
    (by simpa [hw.1] using State.Counts.field (s := engine full 1) (w := p.1) (count := none) rfl (by simp [hw.1])) hw.2.1 rfl rfl
/-- The state and cursor of the first repetition with the tiles `full` full. -/
def run1 (full : BitVec 16) : State × Cursor := firstRep (engine full 1) true 2
theorem wit_matrix_tiles : (run1 0).1.own.tileWait 0 (run1 0).2 [] [0] false = none ∧ (run1 1).1.own.tileWait 0 (run1 1).2 [0] [] false = none ∧
    (run1 7).1.own.tileWait 0 (run1 7).2 [1, 2] [0] true = none ∧ (run1 1).1.own.tileWait 0 (run1 1).2 [] [0] true = none ∧
    (run1 1).1.own.tileWait 0 (run1 1).2 [0] [1] false = none ∧ (run1 2).1.own.tileWait 0 (run1 2).2 [1] [0] false = none := by decide +kernel
theorem wit_matrix_work :
    let t := (run1 7).1
    let o := t.cmd3 (run1 7).2
    (t.loadWork o 0 (o.shape 0).1 (o.shape 0).2 fun r => o.ptr 0 + imgPitch o.f o.f.af * r).toOption.isSome = true ∧
    (t.loadWork o 0 o.ext.m o.ext.k fun r => PortSet.rowAddr (t.portSnap .me 0) ((run1 7).2.row 0 + r)).toOption.isSome = true ∧
    (t.gatherWork o 0 o.ext.m (o.shape 0).2 (o.ptr 0)).toOption.isSome = true ∧
    (t.storeWork o.f 0 (o.shape 0).1 (o.shape 0).2 (o.ptr 0)).toOption.isSome = true ∧ (t.macWork o 0 1 2).toOption.isSome = true ∧
    (t.macsWork o 0 (o.ptr 0) (o.ptr 1)).toOption.isSome = true ∧ (t.drainWork o 0 1).toOption.isSome = true ∧
    (t.hadWork o 0 1 16).toOption.isSome = true ∧ (t.trnWork o.f 0 1).toOption.isSome = true := by decide +kernel
/-- A command whose output format has block scales, 16 to a block; its largest magnitude in register 1. -/
def converting : Cmd3 := { (run1 7).1.cmd3 (run1 7).2 with f := Fmt.unpack 0x00380500 }
/-- MatrixCommandsConvertTheirRows: a command of equal formats and one that converts; images and index vectors in the scratchpad,
clean tiles, a product that meets no fault. -/
theorem wit_conversions :
    let t := (run1 7).1
    let o := t.cmd3 (run1 7).2
    (([o, converting] : List Cmd3).all fun o => o.f.bk == 16 && decide (o.f.af < 8) && decide (o.f.of < 8) && decide (o.ext.m ≤ 128) &&
      decide (o.ext.n ≤ 128) && decide (o.ext.k ≤ 128) && o.f.rnd != 1 && t.tileClean 1 o.ext.m && !o.f.factor &&
      ((List.range 2).all fun r => (t.localRead (0x400 * r) (imgPitch o.f o.f.af)).toOption.isSome && (t.localRead (o.i + 4 * r) 4).toOption.isSome) &&
      (t.spansOk (o.f.factorAt o.i ++ imageSpans o.f 2 fun r => 0x400 * r)).toOption.isSome &&
      (t.spansOk ((List.range 2).map fun r => Span.of false (o.i + 4 * r) 4)).toOption.isSome &&
      decide (0x400 + imgPitch o.f o.f.af * 2 ≤ 0x100000) && t.tileClean 1 2) = true ∧
    (o.f.af = o.f.of ∧ converting.f.af ≠ converting.f.of ∧ converting.f.scaled converting.f.of = true ∧ converting.f.amx = true) ∧
    (t.factor o.f o.i).toOption = some none ∧ (t.factor converting.f converting.i).toOption = some none ∧
    (t.factor o.f (o.i + 4)).toOption = some none ∧ t.view = [] ∧ t.own.flights = [] ∧ t.poisoned (localKey t.core 0) 512 = false ∧
    (t.macsWork o 0 (o.ptr 0) (o.ptr 1)).toOption.isSome = true := by decide +kernel
/-- ProductsTransposesAndClears. -/
theorem wit_products :
    let t := (run1 7).1
    let o := t.cmd3 (run1 7).2
    o.ext.m ≤ 128 ∧ o.ext.n ≤ 128 ∧ o.ext.k ≤ 128 ∧ (t.factor o.f o.i).toOption = some none ∧ (t.factor o.f (o.i + 4)).toOption = some none ∧
      o.f.af < 8 ∧ (1 : Nat) < 16 := by decide +kernel
/-- NestsStopsAndNops: a first word that pops nothing, a repetition of one, and an MNEST that names another body. -/
theorem wit_nops : (Cursor.start 0 1).phase = .fetch ∧ (Cursor.start 0 1).since = none ∧ (word 0 0 0).pop = 0 ∧ (word 0 0 0).rpt ≠ 0x3FF ∧
    (engine 0 1).self.curMe = some (Cursor.start 0 1) ∧ (engine 0 1).self.curVe = some (Cursor.start 0 1) ∧
    (engine 0 1).AtRep .me (word 0 0 0) none none (firstRep (engine 0 1) false 2).1 (firstRep (engine 0 1) false 2).2 ∧
    (engine 0 1).AtRep .ve (word 0 0 0) none none (firstRep (engine 0 1) false 2).1 (firstRep (engine 0 1) false 2).2 ∧
    (word 0 0 2).z.toNat ≠ Nest.body (engine 0 1).self.nest.active :=
  ⟨rfl, rfl, rfl, by decide, rfl, rfl, atRep_plain (by decide +kernel) rfl rfl (by decide +kernel) rfl rfl,
   atRep_plain (by decide +kernel) rfl rfl (by decide +kernel) rfl rfl, by decide +kernel⟩
/-- The first of three executions of a NEST entry of body `b`, with the tiles `full` full. -/
def nestCursor : Cursor := { Cursor.start 0 1 with phase := .run, popped := true, total := 3, nestEntry := true }
def nestEntry (full : BitVec 16) (b : Nat) : State := (engine full b).upd fun x => { x with curMe := some nestCursor }
/-- The five bodies, each with the tiles that it finds full. -/
def bodies : List (Nat × BitVec 16) := [(1, 0), (2, 0), (3, 1), (4, 0xC001), (5, 1)]
theorem wit_nest_first : ∀ p ∈ bodies, (engine p.2 p.1).AtRep .me (word 0 0 (BitVec.ofNat 4 p.1)) (some (nestFormat p.1))
      (some (Nest.executions (engine p.2 p.1).self.nest.active)) (firstRep (engine p.2 p.1) true 3).1 (firstRep (engine p.2 p.1) true 3).2 ∧
    (word 0 0 (BitVec.ofNat 4 p.1)).z.toNat = p.1 := by
  intro p hp
  have h : p.1 ∈ [1, 2, 3, 4, 5] := by
    simp only [bodies, List.mem_cons, List.not_mem_nil, or_false] at hp
    rcases hp with rfl | rfl | rfl | rfl | rfl <;> decide
  have hk : ∀ b ∈ [1, 2, 3, 4, 5], nestFormat b (Fmt.unpack 0) = true ∧ Nest.executions (nestTable b) = 3 ∧
      (BitVec.ofNat 4 b).toNat = b := by decide +kernel
  exact ⟨atRep_format _ rfl rfl (by decide +kernel) (hk _ h).1 (by decide +kernel) (.form 3 (congrArg some (hk _ h).2.1) (by decide)) rfl rfl rfl,
    (hk _ h).2.2⟩
theorem wit_nest_entry : ∀ full b, (nestEntry full b).AtRep .me (EWord.unpack 0) (some (nestFormat b))
      (some (Nest.executions (nestEntry full b).self.nest.active)) (nestEntry full b) nestCursor ∧
    ((nestEntry full b).own.eng .me).serving = some (nestEntry full b).slot.val ∧ (nestEntry full b).withheld (nestEntry full b).core = false ∧
    (∀ c, (nestEntry full b).self.curMe = some c → c.nestEntry = true ∧ c.held = .no) :=
  fun _ _ => ⟨.again _ rfl rfl rfl (by decide) rfl, rfl, rfl, fun _ h => by cases h; exact ⟨rfl, rfl⟩⟩
/-- The body `b` of the active table of `s` finds its tiles and meets no fault at its first execution, in state `t`. -/
def bodyRuns (s t : State) (u : Cursor) (b : Nat) : Bool :=
  let n := s.self.nest.active
  let p (k : Nat) : Nat := Nest.pointer n k (Nest.index n u.rep)
  let o : Cmd3 := { a := p 0, b := p 1, c := p 2, i := p 3, ext := Nest.ext3 n (Nest.index n u.rep), f := Fmt.unpack u.fmt }
  let runs (r w : List Nat) (acc : Bool) (g : Except Fail Staged) : Bool :=
    t.own.tileWait t.slot u r w acc == none && g.toOption.isSome
  Nest.body n == b && Nest.tileAt o.c == some 0 && match b with
    | 1 => runs [] [0] false (t.loadWork o 0 o.ext.m o.ext.k fun r => o.a + imgPitch o.f o.f.af * r)
    | 2 => runs [] [0] false (t.gatherWork o 0 o.ext.m o.ext.k o.a)
    | 3 => runs [0] [] false (t.storeWork o.f 0 o.ext.m o.ext.n o.a)
    | 4 => Nest.tileAt o.a == some 14 && Nest.tileAt o.b == some 15 && runs [14, 15] [0] true (t.macWork o 0 14 15)
    | _ => runs [] [0] true (t.macsWork o 0 o.a o.b)
theorem wit_nest_bodies : bodies.all (fun p =>
    bodyRuns (engine p.2 p.1) (firstRep (engine p.2 p.1) true 3).1 (firstRep (engine p.2 p.1) true 3).2 p.1 &&
      bodyRuns (nestEntry p.2 p.1) (nestEntry p.2 p.1) nestCursor p.1) = true := by decide +kernel

/-- A free ME of core 0 whose slot 0 has one command of a kind. -/
def waitingCmd (k : CmdKind) : State := regs.upd fun x => { x with q := { x.q with me := [command k] } }
/-- R195: an entry that begins takes the ME, and its cursor stands at its first word. -/
theorem test_entry : ((after (.engineEntryStart 0 .me) (waitingCmd (.stream none))).own.me.serving) = some 0 ∧
    (after (.engineEntryStart 0 .me) (waitingCmd (.fence 0 true false false))).self.q.me = [] := by decide +kernel
/-- The ME of core 0 serves a cursor. -/
def atCursor (u : Cursor) : State := (engine 0 1).upd fun x => { x with curMe := some u }
/-- MarkersAndFencesEnterEveryNamedQueue: a full store queue that MARK ST names and MARK LQ does not; a full ME queue, and one before
which a remote enqueue waits. -/
def fullMe : State := regs.upd fun x => { x with q := { x.q with me := List.replicate 64 (command (.stream none)) } }
def reqWaits : State := { regs with net := [{ src := (1, 0, 0), core := 0, slot := 0, eng := .me, addr := 64, since := 0 }] }
theorem wit_named_queues :
    ((8 : BitVec 5).getLsbD 3 = true ∧ 64 ≤ (stored 64).self.allQueued.st.length) ∧
    ((16 : BitVec 5).getLsbD 4 = true ∧ (16 : BitVec 5).getLsbD 3 = false ∧ (16 : BitVec 5).getLsbD 2 = false ∧
      (16 : BitVec 5).getLsbD 1 = false ∧ (16 : BitVec 5).getLsbD 0 = false ∧ (stored 64).self.allQueued.ld.length < 64) ∧
    ((4 : BitVec 3).getLsbD 2 = true ∧ 64 ≤ fullMe.self.allQueued.me.length) ∧
    ((3 : BitVec 3).getLsbD 2 = false ∧ fullMe.self.allQueued.ve.length < 64 ∧ fullMe.self.allQueued.ce.length < 64 ∧
      fullMe.reqFirst .ve = false ∧ fullMe.reqFirst .ce = false) ∧ reqWaits.reqFirst .me = true := by decide +kernel
/-- EntriesBeginAndComplete: a stream, a NEST and a fence at the head, at the first slot in turn and after two that have none. -/
theorem wit_entries : ∀ k ∈ [CmdKind.stream none, .nest, .fence 0 true false false], ∀ n ∈ [7, 5],
    let s := (waitingCmd k).updCore 0 fun y => { y with me := { y.me with last := n } }
    ((s.coreAt 0).eng .me).serving = none ∧ (s.coreAt 0).headReady .me 0 = true ∧
      ((List.range ((0 + 7 - n % 8) % 8)).all fun i => !(s.coreAt 0).headReady .me ((n + 1 + i) % 8)) = true ∧
      (s.strandAt 0 (slotIx 0)).head .me = some (command k) ∧ (s.strandAt 0 (slotIx 0)).cursor .me = none := by decide +kernel
/-- A finished MSTOP, a finished word that is none, one that pushes to a full counter, and a repetition under EACH. -/
theorem wit_completions : ([(0xF00000000000, Phase.done, 0), (0, .done, 0), (0x060800000451, .done, 0), (0x060800000451, .done, 255),
      (0x012201804200, .push, 0)] : List (Nat × Phase × Byte)).all (fun p =>
    let u := { Cursor.start 0 0 with phase := p.2.1, rep := 1, total := 4, word := BitVec.ofNat 256 p.1 }
    let s := (atCursor u).upd fun x => { x with tokens := Vector.replicate 12 p.2.2 }
    let l := (pushTokens .me u.eword.push).filter (fun i => !u.pushed.contains i)
    (s.own.eng .me).serving == some 0 && s.self.cursor .me == some u && !u.nestEntry && !s.self.badToken l &&
      (l.filter (fun i => s.self.token i != 255) == l) == (p.2.2 == 0) && u.eword.each == (p.2.1 == .push) &&
      u.isStop == (p.1 == 0xF00000000000) && !s.own.rowsOut 0) = true := by decide +kernel
/-- A finished word that pushes, and a repetition under EACH, whose rows are on their way. -/
theorem wit_rows_out : ([(0x060800000451, Phase.done), (0x012A01804200, .push)] : List (Nat × Phase)).all (fun p =>
    let u := { Cursor.start 0 0 with phase := p.2, rep := 1, total := 4, word := BitVec.ofNat 256 p.1 }
    let s := (atCursor u).updCore 0 fun y => Core.sendRow 0 0 0 0 y (ballBase, [7])
    s.own.rowsOut s.slot.val && ((pushTokens .me u.eword.push).filter fun i => !u.pushed.contains i) != [] &&
      u.eword.each == (p.2 == .push)) = true := by decide +kernel

/-- A VE entry with a grid of one row of two elements of 32 bits. -/
def lanes : State := (engine 0 1).upd fun x =>
  { x with q := { x.q with ve := [{ command (.stream none) with snap := { Snap.zero with shape := 0x20001 } }] } }
/-- R230: VADD of (1.0, 2.0) and (2.0, 2^-24) rounds to nearest, ties to even. -/
theorem test_vadd :
    let s := (lanes.store (vregKey 0 1 0) (leBytes 8 0x400000003F800000)).store (vregKey 0 2 0) (leBytes 8 0x3380000040000000)
    (after (.vadd { word 8 9 10 with rpt := 0 }) s).readNat (vregKey 0 0 0) 8 = 0x4000000040400000 := by decide +kernel
/-- R232: leading zeros of 1 and of 0. -/
theorem test_vclz :
    (after (.vclz { word 8 9 0 with rpt := 0 }) (lanes.store (vregKey 0 1 0) (leBytes 8 1))).readNat (vregKey 0 0 0) 8 =
      0x200000001F := by decide +kernel
/-- R235: VPST writes a predicate for each element that is not ±0. -/
theorem test_vpst :
    ((after (.vpst { word 8 9 0 with rpt := 0 }) (lanes.store (vregKey 0 1 0) (leBytes 8 0x3F80000080000000))).self.curVe.map (·.pw)) =
      some 2 := by decide +kernel

/-- VectorWordsApplyTheirElements: registers as operands, and a port as source and destination. -/
theorem wit_vector : lanes.AtRep .ve (word 8 9 10) none none (firstRep lanes false 2).1 (firstRep lanes false 2).2 :=
  atRep_plain (by decide +kernel) rfl rfl (by decide +kernel) rfl rfl
theorem wit_vector_operands : ([word 8 9 10, { word 8 9 10 with k := true }, word 0 1 2] : List EWord).all (fun w =>
    let s := lanes
    let t := (firstRep s false 2).1
    let u := (firstRep s false 2).2
    let g := t.grid
    u.lets w && ([Wide.arith, .iw, .fp32].all fun d => s.shapeBad d w [w.x.toNat, w.y.toNat, w.z.toNat] == none) &&
      (t.vread g w u w.y.toNat 8).toOption.isSome && (t.vread g w u w.z.toNat 8).toOption.isSome &&
      (t.vreadX g w u w.x.toNat 8).toOption.isSome && (t.vwrite g w u w.x.toNat 8 [0]).toOption.isSome) = true := by decide +kernel
/-- VectorOperandsPredicatesAndConversions: its two kinds of operand. -/
theorem wit_operands : ([0] : List Nat).length = lanes.grid.rows ∧ (∀ x ∈ [0], x < 2 ^ (8 * 8)) ∧ 8 ≤ (9 : Nat) ∧
    lanes.poisoned (vregKey 0 (lanes.grid.reg (word 8 9 10) 9) 0) (lanes.grid.rows * 8) = false ∧
    (lanes.vread lanes.grid (word 8 9 10) (Cursor.start 0 0) 7 8).toOption.isSome = true := by decide +kernel
/-- VectorOperandsPredicatesAndConversions: predicate 0 is 1 and predicate 1 is 0; a conversion of FP32 to BF16. -/
theorem wit_predicates :
    let t := (firstRep lanes false 2).1
    let u := (firstRep lanes false 2).2
    let w := { word 8 9 10 with step := 0x44 }
    let g := t.grid
    u.lets w = false ∧ u.lets (word 8 9 10) = true ∧ lanes.shapeBad .iw w [8, 9] = none ∧ lanes.shapeBad .fp32 w [9] = none ∧
      (t.vread g w u 9 8).toOption.isSome = true ∧ lanes.grid.cvtBad w 0 1 = none ∧ (g.conv 0 1).factor = false ∧
      (t.vwrite g w u 8 4 (convRows g (g.conv 0 1) none t.own.seedV 0 [0]).1).toOption.isSome = true := by
  decide +kernel
/-- VectorOperandsPredicatesAndConversions: a predicated-off word of each width, and a conversion with its format and its block. -/
theorem wit_predicated_off :
    let w := { word 8 9 10 with step := 0x44 }
    (lanes.shapeBad .arith w [8, 9] = none ∧ lanes.shapeBad .arith w [8, 9, 10] = none ∧ lanes.shapeBad .iw w [8, 9, 10] = none ∧
      lanes.shapeBad .fp32 w [8, 9] = none ∧ lanes.shapeBad .fp32 w [8, 9, 10] = none) ∧
    lanes.grid.cvtFormat 0 1 = none ∧ (lanes.grid.cvtBad w 0 1).or (lanes.grid.cvtFormat 0 1) = none ∧
    ((lanes.grid.conv 0 1).bk = 16 ∨ (lanes.grid.conv 0 1).bk = 32) ∧ (lanes.grid.conv 0 1).rnd ≠ 1 := by decide +kernel
theorem wit_predicate_rep : lanes.AtRep .ve { word 8 9 10 with step := 0x44 } none none (firstRep lanes false 2).1 (firstRep lanes false 2).2 :=
  atRep_plain (by decide +kernel) rfl rfl (by decide +kernel) rfl rfl

/-- A chain entry of two rows of 8 bytes, 64 bytes apart: from address 0 to 0x400, its index list at 0x800. -/
def twoRows : CEntry := { dpstr := 0, drstr := 0, spstr := 0, srstr := 0, addr1 := 0x400, addr0 := 0, n1m := 1, lenm := 7, n2m := 0, fn := 0,
                          setf := false, tkp := false }
def indexed : CEntry := { twoRows with srstr := 0x800 }
/-- R243: CCOPY moves a row; CFILL repeats its eight bytes. -/
theorem test_ccopy :
    let e := { twoRows with srstr := 1, drstr := 2 }
    let s := (engine 0 1).store (localKey 0 64) [7]
    (after (.ccopy e) (after (.ccopy e) s)).readNat (localKey 0 0x480) 1 = 7 ∧
      (after (.cfill { e with addr0 := 0x0807060504030201 }) s).readNat (localKey 0 0x400) 8 = 0x0807060504030201 := by decide +kernel
/-- R63, R64: a row of CFILL that is performed at two moments is on its way to its bank, and is then performed there. -/
theorem test_two_moments :
    let e := { twoRows with addr1 := 0x100000000, addr0 := 0x0807060504030201 }
    let s := after (.cfill e) { (engine 0 1).putPart 0 { Partition.fresh with en := true, key := true, cols := 1 } with view := [(0, [])] }
    s.own.flights.map (·.place) = [.bank 0] ∧ s.readNat ballBase 8 = 0 ∧ s.own.rowsOut 0 = true ∧
      (after (.accessPerform 0 0) { s with view := [] }).readNat ballBase 8 = 0x0807060504030201 := by decide +kernel
/-- R133: CWAIT is met where the counter has passed its target, modulo 2^32. -/
theorem test_cwait :
    ((after (.cwait { twoRows with addr1 := 0xFFFFFFFF }) (engine 0 1)).self.curCe.map (·.phase)) = some .done ∧
    (after (.cwait { twoRows with addr1 := 1 }) (engine 0 1)).own.ce.serving = none := by decide +kernel

/-- ChainUnitsMoveRows: the first unit of an entry, from its fetch and after it, and the last one. -/
def atUnit (p : Phase) (n : Nat) : State := (engine 0 1).upd fun x => { x with curCe := some { Cursor.start 0 0 with phase := p, unit := n } }
theorem wit_units : (atUnit .fetch 0).AtUnit { Cursor.start 0 0 with phase := .run } 2 ∧
    (atUnit .run 1).AtUnit { Cursor.start 0 0 with phase := .run, unit := 1 } 2 :=
  ⟨⟨by decide, Cursor.start 0 0, rfl, rfl, .inr ⟨rfl, rfl⟩⟩, by decide, _, rfl, rfl, .inl ⟨rfl, rfl⟩⟩
/-- ChainUnitsMoveRows: each form from its first unit and from a later one; a CGATH whose row has been read before; the two ways of a
write; accesses that nothing holds. -/
theorem wit_rows : Chain.rows twoRows * Chain.planes twoRows = 2 ∧ Chain.rows indexed = 2 ∧
    ([(.fetch, 0), (.run, 1)] : List (Phase × Nat)).all (fun p =>
      let s := atUnit p.1 p.2
      let n := p.2
      let src := (indexed.addr0 + BitVec.ofNat 64 (8 * n)).toNat
      let dst := (indexed.addr1 + BitVec.ofNat 64 (8 * n)).toNat
      (s.ceMove (Chain.src twoRows n) (Chain.dst twoRows n) 8).toOption.isSome && (s.ceSpot (Chain.dst twoRows n) 8).toOption.isSome &&
      (match s.ceIndex indexed n { va := dst, n := 8, write := true } with
        | .ok (r, ix) => ix == 0 && (r.ceMove (indexed.addr0 + BitVec.ofNat 64 (Chain.pitch indexed * ix)).toNat dst 8).toOption.isSome &&
            (r.ceSpot dst 8).toOption.isSome
        | _ => false) &&
      (match s.ceIndex indexed n { va := src, n := 8, write := false } with
        | .ok (r, ix) => (r.ceMove src (indexed.addr1 + BitVec.ofNat 64 (Chain.pitch indexed * ix)).toNat 8).toOption.isSome
        | _ => false)) = true ∧
    ([(0, [7])] : List (Nat × List Byte)).find? (fun p => p.1 == 0) = some (0, [7]) ∧
    ((engine 0 1).view = [] ∧ further 0 ballBase = true ∧ further 0 (localKey 0 0x100000) = false ∧ further 0 (localKey 0 0) = false ∧
      ballBase % 64 + 8 ≤ 64) ∧
    ((engine 0 1).own.flights = [] ∧ (engine 0 1).poison = [] ∧ (engine 0 1).flaws = [] ∧ (engine 0 1).reels = [] ∧
      (engine 0 1).tableCells 0 0 8 = [] ∧ (engine 0 1).tableCells 0 0x400 8 = [] ∧ (engine 0 1).dmaStopped 0 .host = false ∧
      (engine 0 1).reach 0 0x400 8 true true = .at [(localKey 0 0x400, 8)] ∧ (engine 0 1).reach 0 0 8 false true = .at [(localKey 0 0, 8)] ∧
      (Chain.addr2 indexed + BitVec.ofNat 64 (4 * 1)).toNat = 0x804 ∧ (engine 0 1).tableCells 0 0x804 4 = [] ∧
      (engine 0 1).reach 0 0x804 4 false true = .at [(localKey 0 0x804, 4)]) := by decide +kernel
theorem wit_awake : ∀ h, ((engine 0 1).stack h).asleep = [] ∧ ((engine 0 1).stack h).holds = [] := by
  have k : ∀ i : Fin 8, ((engine 0 1).hbm[i.val]).asleep = [] ∧ ((engine 0 1).hbm[i.val]).holds = [] := by decide +kernel
  exact fun h => k ⟨h % 8, Nat.mod_lt _ (by decide)⟩
/-- Where 4 or 8 bytes at an address stand for the CE. -/
def aims (s : State) (va n : Nat) (p : Place) (l : List (Nat × Nat)) : Bool :=
  match s.ceAim va n true Place.adds with
  | .ok (m, q) => q == p && m == l
  | _ => false
/-- ChainAtomicsUpdateOneLocation: 8 and 4 bytes of the scratchpad at 0. -/
theorem wit_atomics :
    let s := atUnit .fetch 0
    let e := { twoRows with srstr := 16 }
    (Chain.addr2 e).getLsbD 4 = true ∧ e.addr0.toNat % 8 = 0 ∧ Chain.len e % 8 = 0 ∧ Chain.len e / 8 = 1 ∧
      aims s 0 8 .scratch [(localKey 0 0, 8)] = true ∧ (s.ceArrive [(localKey 0 0, 8)] false).toOption.isSome = true ∧
      s.poisonedChunks [(localKey 0 0, 8)] = false ∧ aims s 0 4 .scratch [(localKey 0 0, 4)] = true ∧
      (s.ceArrive [(localKey 0 0, 4)] false).toOption.isSome = true ∧ s.poisonedChunks [(localKey 0 0, 4)] = false ∧
      (Cursor.start 0 0).atom = none := by
  decide +kernel
theorem wit_atomic_unit : (atUnit .fetch 0).AtUnit { Cursor.start 0 0 with phase := .run } 1 :=
  ⟨by decide, Cursor.start 0 0, rfl, rfl, .inr ⟨rfl, rfl⟩⟩
/-- ChainsGoOnAndEnd: a met and an unmet target, a chain at its turn, entries before and in their run, finished entries. -/
def cwaiting : State :=
  ((atUnit .run 0).upd fun x => { x with curCe := x.curCe.map fun u => { u with word := 5 } }).updCore 0 fun y => { y with ce := { serving := none, last := 7, apart := [] } }
theorem wit_chains : (engine 0 1).self.curCe = some (Cursor.start 0 1) ∧ (Cursor.start 0 1).held = .no ∧ (Cursor.start 0 1).phase ≠ .done ∧
    ((engine 0 1).ceAim twoRows.addr0.toNat 4 false fun _ => true).toOption.isSome = true ∧
    ((engine 0 1).ceRead twoRows.addr0.toNat 4 true).toOption.map (·.2) = some (leBytes 4 0) ∧
    (0 + 2 ^ 32 - (0xFFFFFFFF : Nat) % 2 ^ 32) % 2 ^ 32 < 2 ^ 31 ∧ 2 ^ 31 ≤ (0 + 2 ^ 32 - (1 : Nat) % 2 ^ 32) % 2 ^ 32 ∧
    (engine 0 1).slot.val ≠ 8 ∧ (Cursor.start 0 1).phase = .fetch ∧
    (cwaiting.own.eng .ce).serving = none ∧ cwaiting.slot = slotIx 0 ∧ cwaiting.own.pickSlot .ce = some 0 ∧
    cwaiting.self.curCe.map (·.atCwait) = some true ∧
    ((cwaiting.updCore 0 fun y => y.serve .ce (some 0) 0).ceAim 0 4 false fun _ => true).toOption.isSome = true ∧
    ((cwaiting.updCore 0 fun y => y.serve .ce (some 0) 0).ceRead 0 4 true).toOption.map (·.2) = some (leBytes 4 0) ∧
    ([9, 8, 1] : List Nat).all (fun n =>
      let u := { Cursor.start 0 0 with phase := .done, word := BitVec.ofNat 256 n }
      let s := (engine 0 1).upd fun x => { x with curCe := some u }
      s.slot == slotIx 0 && (s.own.eng .ce).serving == some 0 && s.self.curCe == some u && !s.own.rowsOut 0 && !u.word.getLsbD 8 &&
        !u.word.getLsbD 9) = true := by
  decide +kernel
/-! ### Traffic, strands, launches -/

/-- The strand of `regs` in partition 0, which holds column 0, with its address space at 0x400000000 in vault 0 of stack 0. -/
def packed : State :=
  let s := { regs with pkg := { regs.pkg with full := true } }.putPart 0 { Partition.fresh with en := true, key := true, cols := 1, ptroot := 1 }
  s.putDie 0 { Die.fresh with tlb := [{ part := 0, va := 0x400000000, log := 30, pa := 0, w := true }] }
/-- AccessesArePerformedAndReturn: an access to be performed, one whose value is to return, one that has ended. -/
def flight (i : Instr) (tag : Option Tag) (done written : Bool) (ans : Answer) : Flight :=
  { n := 0, slot := 0, st := tag.isSome, e := entry i 0x100000000, cls := .pure, tag := tag, ra := [(ballBase, 4)], place := .bank 0,
    done := done, written := written, ans := ans, reads := [], out := none }
/-- BreakpointsAndCuts: a ring of host memory with room, in a package that traces nothing; a strand that traces into the page at
0x400000000, at a wait of 300 clk for a token that has come; one whose buffer no page holds. -/
def ringed : State := (packed.upd fun x => { x with trace := { x.trace with bke := true } }).putPart 0 { packed.part 0 with evbase := 2 ^ 52 }
def tracing (base : BitVec 57) : State :=
  { packed.upd fun x => { x with wait := .token 3, sinceClk := 0, tokens := x.tokens.set 3 1, trace := { x.trace with
      tre := true, wre := true, smp := true, wmin := 5, base := base } } with clk := 2000 }
theorem wit_ringed : ringed.self.trace.bke = true ∧ ringed.core ≠ 2048 ∧ ringed.self.trace.tre = false ∧ ringed.partOf ringed.core = some 0 ∧
    (ringed.part 0).kept = [] ∧ (ringed.part 0).evprod + 1 ≠ (ringed.part 0).evcons ∧ (ringed.part 0).tds ≠ 3 ∧
    hostBase ≤ pteAddr (ringed.part 0).evbase.toNat := by decide +kernel
theorem wit_tracing : (tracing 0x400000000).TraceReady 0 0 0 ∧ (tracing 0x400000000).self.st = .ready ∧
    (∀ u ∈ (tracing 0x400000000).self.curMe, u.since = none) ∧ (∀ u ∈ (tracing 0x400000000).self.curVe, u.since = none) ∧
    ((tracing 0x400000000).self.token 3 ≠ 0 ∧ (tracing 0x400000000).self.wait ≠ .none ∧ (tracing 0x400000000).self.trace.wre = true ∧
      (tracing 0x400000000).self.sinceClk + max (tracing 0x400000000).self.trace.wmin.toNat 1 ≤ (tracing 0x400000000).clk ∧
      (tracing 0x400000000).clk < (tracing 0x400000000).self.sinceClk + 2 ^ 32) ∧
    ((tracing 0x400000000).self.trace.smp = true ∧ (tracing 0x400000000).self.trace.last + (tracing 0x400000000).self.trace.smpint.toNat ≤
      (tracing 0x400000000).clk) ∧
    ((tracing 0x500000000).self.trace.tre = true ∧ (tracing 0x500000000).traceTarget 0 (tracing 0x500000000).self.trace = none) := by
  refine ⟨⟨by decide +kernel, by decide +kernel, by decide +kernel, by decide +kernel, by decide +kernel⟩, by decide +kernel, ?_, ?_,
    by decide +kernel, by decide +kernel, by decide +kernel⟩ <;> intro u hu <;> cases hu
/-- BreakpointsAndCuts: a WAITF whose wait a resumption tests again, with the setter of its flag; a strand whose records are dropped. -/
def waited : State := ((tracing 0x400000000).upd fun x => { x with wait := .flag 7 }).updCore 0 fun y =>
  { y with flags := 1 <<< 7, flagBy := [(7, (0x00C1, 1))] }
theorem wit_waited : waited.TraceReady 0 0 0 ∧ (waited.own.flags.getLsbD 7 = true ∧ waited.self.wait = .flag (7 : BitVec 8).toNat ∧
      waited.own.flagBy = [(7, (BitVec.ofNat 16 0xC1, 1))] ∧ waited.self.trace.wre = true ∧
      waited.self.sinceClk + max waited.self.trace.wmin.toNat 1 ≤ waited.clk ∧ waited.clk < waited.self.sinceClk + 2 ^ 32) ∧
    (tracing 0x500000000).traceHeld 0 0 = false ∧ (tracing 0x500000000).flaws = [] := by
  refine ⟨⟨by decide +kernel, by decide +kernel, by decide +kernel, by decide +kernel, by decide +kernel⟩, by decide +kernel, by decide +kernel,
    by decide +kernel⟩
/-- A store and a load at an address at the heads of their queues. -/
def heads (ea : DWord) : State := packed.upd fun x =>
  { x with po := 9, q := { x.q with st := [entry (.st .w32 .ts 1 (.reg 2 0)) ea], ld := [entry (.ld .w32 .ts 9 1 0) ea] } }
def only (i : Instr) : State := packed.upd fun x => { x with po := 9, q := { x.q with st := [entry i 0] } }
/-- R63: a store to the scratchpad is written as it issues. -/
theorem test_issue : (after (.queueEntryIssue 0 0 true) (heads 0x1000)).readNat (localKey 0 0x1000) 4 = 0x34567890 ∧
    ((after (.queueEntryIssue 0 0 true) (heads 0x100000000)).own.flights.map fun f => (f.place, f.tag)) =
      [(Place.bank 0, some { ctx := 0, seq := 0 })] := by decide +kernel
/-- R70, R162: the access is performed at its bank, and a load's value, sign-extended, reaches its register. -/
theorem test_perform :
    let s := after (.accessPerform 0 0) (after (.queueEntryIssue 0 0 true) (heads 0x100000000))
    let t := after (.loadValueReturn 0 1) (after (.accessPerform 0 1) (after (.queueEntryIssue 0 0 false) s))
    s.readNat ballBase 4 = 0x34567890 ∧ s.tags.length = 1 ∧ t.self.d[9] = Dom.single 0x34567890 := by decide +kernel

/-- The checks of AtHead on the one entry of a queue of core 0. -/
def atHead (s : State) (st : Bool) (e : QEntry) : Bool :=
  s.self.issues && ((s.strandAt 0 0).queue st == [e]) && e.held == .no && e.tag.isNone && e.ra.isNone && e.replay.isNone &&
    !s.overlaps 0 e (s.self.rivals st e) && !s.self.behindCut st e && !(s.coreAt 0).replaying 0 && !(st && (s.coreAt 0).bankBusy 0) && s.flaws == []
theorem atHead_of {s : State} {st : Bool} {e : QEntry} (hs : s.self = s.strandAt 0 (slotIx 0)) (h : atHead s st e = true) :
    s.AtHead 0 0 st e [] := by
  simp only [atHead, Bool.and_eq_true, Bool.not_eq_true', beq_iff_eq, Option.isNone_iff_eq_none] at h
  obtain ⟨⟨⟨⟨⟨⟨⟨⟨⟨⟨h1, h2⟩, h3⟩, h4⟩, h5⟩, h6⟩, h7⟩, h8⟩, h9⟩, h10⟩, h11⟩ := h
  rw [hs] at h1 h7 h8
  exact ⟨by decide, h1, h2, ⟨h3, h4, h5, h6⟩, ⟨h7, h8, h9, h10⟩, h11⟩
/-- QueueHeadsIssue: the heads of both queues to the scratchpad, a tile, the partner window, a bank and a bank of another partition. -/
def lendingPartner : State → State := fun s => s.updCore 0 fun y => { y with act := true }
theorem wit_heads : ∀ p ∈ [(heads 0x1000, (0x1000 : DWord)), (heads 0x100000, 0x100000), (lendingPartner (heads 0x200000), 0x200000),
      (heads 0x100000000, 0x100000000), (heads 0x102000000, 0x102000000)],
    p.1.AtHead 0 0 true (entry (.st .w32 .ts 1 (.reg 2 0)) p.2) [] ∧ p.1.AtHead 0 0 false (entry (.ld .w32 .ts 9 1 0) p.2) [] ∧
      (p.1.coreAt 0).crowded = false ∧ p.1.hasRoom 0 0 = true := by
  intro p hp
  simp only [List.mem_cons, List.not_mem_nil, or_false] at hp
  rcases hp with rfl | rfl | rfl | rfl | rfl <;>
    exact ⟨atHead_of rfl (by decide +kernel), atHead_of rfl (by decide +kernel), by decide +kernel, by decide +kernel⟩
theorem wit_aims :
    let st (a : DWord) := entry (.st .w32 .ts 1 (.reg 2 0)) a
    let ld (a : DWord) := entry (.ld .w32 .ts 9 1 0) a
    (heads 0x1000).aim 0 (st 0x1000) = .go [(localKey 0 0x1000, 4)] .scratch ∧ (heads 0x1000).aim 0 (ld 0x1000) = .go [(localKey 0 0x1000, 4)] .scratch ∧
    (heads 0x100000).aim 0 (ld 0x100000) = .go [(tileKey 0 0, 4)] .tile ∧ (heads 0x1000).poisonedChunks [(tileKey 0 0, 4)] = false ∧
    (heads 0x1000).poisonedChunks [(localKey 0 0x1000, 4)] = false ∧
    (lendingPartner (heads 0x200000)).aim 0 (st 0x200000) = .go [(localKey 1 0, 4)] .partner ∧
    (lendingPartner (heads 0x200000)).aim 0 (ld 0x200000) = .go [(localKey 1 0, 4)] .partner ∧
    (heads 0x100000000).aim 0 (st 0x100000000) = .go [(ballBase, 4)] (.bank 0) ∧ (heads 0x100000000).aim 0 (ld 0x100000000) = .go [(ballBase, 4)] (.bank 0) ∧
    (heads 0x102000000).aim 0 (st 0x102000000) = .violation := by decide +kernel
/-- The one entry of the store queue, with its operands. -/
def sending (i : Instr) (ea v c : DWord) : State := packed.upd fun x => { x with po := 9, q := { x.q with st := [{ entry i ea with v := v, c := c }] } }
/-- QueueHeadsIssue: a REQ to a slot of the partition and one outside it, messages with a payload and without one, a release from the
wheel, a watermark below an open tag, a token. -/
def withTag (s : State) : State :=
  (s.upd fun x => { x with tag := { x.tag with next := 5 } }).updCore 0 fun y =>
    { y with flights := [flight (.st .w32 .ts 1 (.reg 2 0)) (some { ctx := 0, seq := 4 }) true false .none], issueNo := 1 }
theorem wit_sends : ∀ p ∈ [(sending (.reqMe 1 (.reg 2)) 64 8 0, ({ entry (.reqMe 1 (.reg 2)) 64 with v := 8, c := 0 } : QEntry)),
      (sending (.reqCe 1 (.reg 2)) 32 8 0, { entry (.reqCe 1 (.reg 2)) 32 with v := 8, c := 0 }),
      (sending (.reqVe 1 (.reg 2)) 64 0x3000 0, { entry (.reqVe 1 (.reg 2)) 64 with v := 0x3000, c := 0 }),
      (sending (.send 1 2 3 0x200) 64 8 0, { entry (.send 1 2 3 0x200) 64 with v := 8, c := 0 }),
      (sending (.send 1 2 3 0x200) 64 8 40, { entry (.send 1 2 3 0x200) 64 with v := 8, c := 40 }),
      ((sending (.trel 1 2) 64 0x900 0).store (localKey 0 64) (leBytes 32 (record false).toNat), { entry (.trel 1 2) 64 with v := 0x900, c := 0 }),
      (withTag (sending (.reltag 2) 0 3 0), { entry (.reltag 2) 0 with v := 3, c := 0 }),
      (sending (.tkpost .me) 0 0 0, { entry (.tkpost .me) 0 with v := 0, c := 0 }),
      (only (.sigf 3), entry (.sigf 3) 0), (only (.clrf 3), entry (.clrf 3) 0), (only (.mark 8), entry (.mark 8) 0)],
    p.1.AtHead 0 0 true p.2 [] ∧ p.1.hasRoom 0 0 = true := by
  intro p hp
  simp only [List.mem_cons, List.not_mem_nil, or_false] at hp
  rcases hp with rfl | rfl | rfl | rfl | rfl | rfl | rfl | rfl | rfl | rfl | rfl <;> exact ⟨atHead_of rfl (by decide +kernel), by decide +kernel⟩
theorem wit_send_operands :
    packed.outside 0 8 = false ∧ packed.outside 0 0x3000 = true ∧ rangeOf 0 64 = .scratch ∧ (64 : Nat) % 64 = 0 ∧
    (packed.reach 0 64 40 false false = .at [(localKey 0 64, 40)] ∧ (packed.coreAt 0).pathBusy 0 [(localKey 0 64, 40)] = false ∧
      packed.heldUp 0 [(localKey 0 64, 40)] = false ∧ packed.poisonedChunks [(localKey 0 64, 40)] = false ∧ packed.heldUp 0 [] = false) ∧
    (let s := (sending (.trel 1 2) 64 0x900 0).store (localKey 0 64) (leBytes 32 (record false).toNat)
     (s.coreAt 0).wheel.length < 256 ∧ (s.coreAt 0).wheelBehind (slotIx 0) = false ∧ (s.coreAt 0).flights = [] ∧
       s.peek 0 64 32 = .bytes (leBytes 32 (record false).toNat) ∧ Rec.ok (BitVec.ofNat 256 (leNat (leBytes 32 (record false).toNat))) = true) ∧
    (let x := (withTag (sending (.reltag 2) 0 3 0)).self
     ¬ (x.tag.next - x.tag.wmark).toNat < ((3 : BitVec 28) - x.tag.wmark).toNat ∧
       ((withTag (sending (.reltag 2) 0 3 0)).coreAt 0).openTags (slotIx 0) = [{ ctx := 0, seq := 4 }] ∧
       ((3 : BitVec 28) - x.tag.wmark).toNat ≤ ((4 : BitVec 28) - x.tag.wmark).toNat) ∧
    ((sending (.tkpost .me) 0 0 0).own.priorDone 0 0 = true ∧ packed.self.badToken [tokenIx 0 (engIx .me)] = false ∧
      packed.self.token (tokenIx 0 (engIx .me)) ≠ 255) ∧
    (only (.clrf 3)).own.setIn (only (.clrf 3)).clk 3 = none ∧ (only (.sigf 3)).own.priorDone 0 0 = true ∧
    (only (.sigf 3)).own.flagWaiter 3 = none ∧ (only (.mark 8)).own.markerClear 0 (entry (.mark 8) 0).v.toNat 8 = true := by decide +kernel
def flying (f : Flight) : State := packed.updCore 0 fun y => { y with flights := [f], issueNo := 1 }
/-- A chain of `packed` before its first unit, and at it with its atomic under way, performed (`hit`) or not. -/
def striking (a : Option Struck) (l : List Flight) : State :=
  ((packed.upd fun x => { x with q := { x.q with ce := [command (.stream none)] }, curCe := some { Cursor.start 0 0 with phase := .run, atom := a } }).updCore 0
    fun y => { y with ce := { serving := some 0, last := 0, apart := [] }, flights := l, issueNo := 1 })
def strike (e : Instr) : Flight := { flight e (some { ctx := 0, seq := 0 }) false false .none with cls := .tagged }
/-- ChainAtomicsUpdateOneLocation: toward a bank, with room; its update performed, and not yet; the access at its place. -/
theorem wit_strikes :
    let e := { twoRows with srstr := 16, addr0 := 0x100000000 }
    let a : Struck := { tag := some { ctx := 0, seq := 0 }, ra := [(ballBase, 4)], hit := false, replay := none }
    (striking none []).AtUnit { Cursor.start 0 0 with phase := .run } 1 ∧
    (aims (striking none []) 0x100000000 8 (.bank 0) [(ballBase, 8)] = true ∧ aims (striking none []) 0x100000000 4 (.bank 0) [(ballBase, 4)] = true ∧
      (striking none []).slot.val ≠ 8 ∧ (striking none []).own.crowded = false ∧ (striking none []).self.tag.room = true) ∧
    (striking (some { a with hit := true }) []).AtUnit { Cursor.start 0 0 with phase := .run, atom := some { a with hit := true } } 1 ∧
    (striking (some a) [strike (.cpost e)]).AtUnit { Cursor.start 0 0 with phase := .run, atom := some a } 1 ∧
    (striking (some a) [strike (.cpost e)]).own.striking 0 = true ∧
    (∀ i ∈ [Instr.cpost e, .catom e],
      let s := striking (some a) [strike i]
      let f := strike i
      (s.coreAt 0).flights.find? (fun f => f.n == 0) = some f ∧ f.done = false ∧ f.reads = [] ∧ f.out = none ∧ s.stays 0 f = false ∧
        f.place = .bank 0 ∧ s.holdsAny true f.ra = false ∧ s.sleeping f.ra = false ∧ s.flaws = [] ∧
        s.tagFound f.place { ctx := 0, seq := 0 } = none ∧ s.tagRoom 0 f.place = true ∧ s.inReel f.ra = false ∧
        s.poisonedChunks f.ra = false ∧ (s.strandAt 0 (slotIx f.slot)).curCe.bind (fun u => u.atom.map (·.tag)) = some f.tag) := by
  refine ⟨⟨by decide, _, rfl, rfl, .inl ⟨rfl, rfl⟩⟩, by decide +kernel, ⟨by decide, _, rfl, rfl, .inl ⟨rfl, rfl⟩⟩,
    ⟨by decide, _, rfl, rfl, .inl ⟨rfl, rfl⟩⟩, by decide +kernel, by decide +kernel⟩
/-- AccessesArePerformedAndReturn: an aligned load and store of a bank, values to be written, an entry of which nothing more comes. -/
theorem wit_accesses :
    let l := flight (.ld .w32 .ts 9 1 0) none false false .none
    let w := flight (.st .w32 .ts 1 (.reg 2 0)) (some { ctx := 0, seq := 0 }) false false .none
    let r := flight (.ld .w32 .ts 9 1 0) none true false (.value 7)
    let a := flight (.ld .w64 .ta 9 1 0) none true false (.value 7)
    let d := flight (.ld .w32 .ts 9 1 0) none true true (.value 7)
    (∀ f ∈ [l, w, r, a, d], ((flying f).coreAt 0).flights.find? (fun f => f.n == 0) = some f) ∧ (flying l).stays 0 l = false ∧
      hostBase ≤ ballBase ∧ packed.flaws = [] ∧ l.reads = [] ∧ l.out = none ∧ l.e.ea.toNat % 4 = 0 ∧ (flying l).poisoned ballBase 4 = false ∧
      (flying w).stays 0 w = false ∧ (flying w).tagFound (.bank 0) { ctx := 0, seq := 0 } = none ∧ (flying w).tagRoom 0 (.bank 0) = true ∧
      (flying w).inReel [(ballBase, 4)] = false ∧ (flying r).stopped 0 (slotIx 0) = false ∧ d.ended = true := by decide +kernel
/-- A row that an engine has written, before it is performed. -/
theorem wit_row : let f := flight rowForm none false false .none
    ((flying f).coreAt 0).flights.find? (fun f => f.n == 0) = some f ∧ (flying f).stays 0 f = false ∧
      (flying f).inReel [(ballBase, 4)] = false := by decide +kernel
/-- A misaligned load and store, before their first moment and after some. -/
def torn (i : Instr) (tag : Option Tag) (reads : List (Nat × Memory)) : Flight :=
  { flight i tag false false .none with e := entry i 0x100000001, ra := [(ballBase + 1, 4)], reads := reads }
theorem wit_torn : ([[], [(3, [])], [(3, []), (5, [])]] : List (List (Nat × Memory))).all (fun b =>
    let f := torn (.ld .w32 .ts 9 1 0) none b
    let g := torn (.st .w32 .ts 1 (.reg 2 0)) (some { ctx := 0, seq := 0 }) []
    ((flying f).coreAt 0).flights.find? (fun f => f.n == 0) == some f && !(flying f).stays 0 f && f.out == none &&
      decide (hostBase ≤ ballBase + 1) && f.e.ea.toNat % 4 != 0 && !(flying f).poisoned (ballBase + 1) 4 &&
      ((flying g).coreAt 0).flights.find? (fun f => f.n == 0) == some g && !(flying g).stays 0 g && g.e.ea.toNat % Width.w32.bytes != 0 &&
      !(flying g).inReel [(ballBase + 1, 4)] && (flying g).tagFound (.bank 0) { ctx := 0, seq := 0 } == none && (flying g).tagRoom 0 (.bank 0)) = true := by
  decide +kernel
/-- An access of `m` bytes at the start of bank 0, whose bytes there are those of `cell`. -/
def struck (i : Instr) (m : Nat) : Flight := { flight i (some { ctx := 0, seq := 0 }) false false .none with ra := [(ballBase, m)] }
def atCell (i : Instr) (m cell : Nat) : State := (flying (struck i m)).store ballBase (leBytes m cell)
/-- BanksPerformTheirOperations: an atomic of each width, a row update, FADDX, the deque operations and those of reels, on any bytes. -/
theorem wit_banks : ∀ p ∈ [(Instr.atomAdd (.s false 9 (.reg 1)) 1, 4), (.atomMax (.a 3 (.reg 2)) 1, 8), (.atomXchg (.s false 9 (.reg 1)) 1, 4),
      (.atomCas (.a 3 2 1) 1, 8), (.rowUpdate .xor false 1 (.reg 2), 64), (.rowUpdate .add true 1 (.reg 2), 64), (.atomFaddx 1 (.reg 2), 64),
      (.dqPush 9 1 2, 16), (.dqPop 9 1 2, 16), (.dqSteal 9 1 2, 16), (.reelj 1, 16), (.reels 1, 16), (.reell 1, 16)],
    ∀ cell, (atCell p.1 p.2 cell).AtBank 0 0 (struck p.1 p.2) ballBase p.2 { ctx := 0, seq := 0 } ∧
      (atCell p.1 p.2 cell).inReel [(ballBase, p.2)] = false := by
  intro p hp cell
  simp only [List.mem_cons, List.not_mem_nil, or_false] at hp
  rcases hp with rfl | rfl | rfl | rfl | rfl | rfl | rfl | rfl | rfl | rfl | rfl | rfl | rfl <;>
    exact ⟨⟨rfl, ⟨rfl, rfl, rfl, rfl, rfl⟩, ⟨by decide, 0, rfl⟩, ⟨rfl, rfl⟩, ⟨rfl, rfl⟩, rfl, rfl⟩, rfl⟩
/-- Deques of two entries, empty, with one and full, and one across the wrap of its counts; reels without a member, with two of which
one is absent, with two who have not arrived, and with one and a join that waits. -/
theorem wit_cells :
    (([(0, 0), (1, 0), (2, 0), (0, 0xFFFFFFFF)] : List (Nat × Nat)).all fun p =>
      let old := 2 * 2 ^ 64 + p.1 * 2 ^ 32 + p.2
      (atCell (.dqPush 9 1 2) 16 old).readNat ballBase 16 == old && decide ((ballBase - ballBase) % 65536 + 16 + 8 * 2 ≤ 65536) &&
        decide ((p.1 + 2 ^ 32 - p.2) % 2 ^ 32 ≤ 2)) = true ∧
    (([(0, 0, 0, 0), (1, 2, 1, 0), (1, 2, 0, 0), (1, 1, 0, 1), (0xFFFFFFFF, 3, 0, 2)] : List (Nat × Nat × Nat × Nat)).all fun p =>
      let old := p.1 * 2 ^ 96 + p.2.1 * 2 ^ 80 + p.2.2.1 * 2 ^ 64 + p.2.2.2 * 2 ^ 48
      (atCell (.reelj 1) 16 old).readNat ballBase 16 == old) = true := by decide +kernel
/-- The descriptor of a near-memory entry of one row, query and candidate in a table of one element, with its results at 0x1000 of the
scratchpad, or in exact cells at the start of the Ballroom. -/
def descriptor (cells : Bool) : Nat :=
  2 ^ 416 + 2 ^ 384 + 2 ^ 368 + 2 ^ 352 + 64 * 2 ^ 320 +
    (if cells then 0x100000000 * 2 ^ 256 + 0x100000000 * 2 ^ 192 + 2 ^ 24 else 0x1000 * 2 ^ 256 + 0x1000 * 2 ^ 192)
def nearEntry (i : Instr) (cells : Bool) : Flight :=
  let f := flight i (some { ctx := 0, seq := 0 }) false false .none
  { f with e := { f.e with data := leBytes 64 (descriptor cells) ++ leBytes 600 1 }, ra := [(0, 64)], place := .nmu 0 }
/-- The entry before its unit has taken it, and after: with a first moment of its reads, a PKA with its updates. -/
def taken1 (i : Instr) (cells : Bool) : Flight :=
  let f := nearEntry i cells
  if nmKind i = some .pka then { f with out := some (runPka (leNat (f.e.data.take 64)) f.ra (f.e.data.drop 64)) }
  else { f with reads := [(7, packed.mem)] }
def atNear (i : Instr) (cells : Bool) : State := flying (taken1 i cells)
theorem near_unit {s : State} {f : Flight} (h : (s.coreAt 0).flights.find? (fun f => f.n == 0) = some f) (hp : f.place = .nmu 0)
    (hr : f.ra = [(0, 64)]) (ho : s.stays 0 f = false ∧ s.holdsAny true f.reached = false ∧ s.sleeping f.reached = false)
    (ht : f.out = none → ∀ g, f.tag = some g → s.tagFound f.place g = none ∧ s.tagRoom 0 f.place = true)
    (hc : s.flaws = [] ∧ s.memOk = true) : s.NearUnit 0 0 f 0 :=
  ⟨h, ⟨hp, by rw [hr]; decide⟩, ho, ht, hc⟩
/-- NearMemoryEntriesComputeTheirResults: each form, its results in words and in exact cells. -/
theorem wit_near : ∀ p ∈ [(Instr.nmv 1, false), (.nmv 1, true), (.pks 1, false), (.pkg 1, false), (.pkg 1, true), (.pka 1, false)],
    (atNear p.1 p.2).AtUnitOf 0 0 (taken1 p.1 p.2) 0 7 ∧ (taken1 p.1 p.2).e.i = p.1 ∧
      (taken1 p.1 p.2).e.data = leBytes 64 (descriptor p.2) ++ leBytes 600 1 ∧ (taken1 p.1 p.2).ra = [(0, 64)] := by
  intro p hp
  simp only [List.mem_cons, List.not_mem_nil, or_false] at hp
  rcases hp with rfl | rfl | rfl | rfl | rfl | rfl <;>
    exact ⟨⟨near_unit rfl rfl rfl (by decide +kernel) (fun _ _ _ => ⟨rfl, rfl⟩) (by decide +kernel), by decide +kernel⟩, rfl, rfl, rfl⟩
/-- Its first clause: entries of which nothing has come. -/
theorem wit_near_first : ∀ i ∈ [Instr.nmv 1, .pks 1, .pkg 1, .pka 1],
    (flying (nearEntry i false)).NearUnit 0 0 (nearEntry i false) 0 ∧ (nearEntry i false).reads = [] ∧ (nearEntry i false).out = none ∧
      (flying (nearEntry i false)).poisonedChunks (nearEntry i false).reached = false := by
  intro i hi
  simp only [List.mem_cons, List.not_mem_nil, or_false] at hi
  rcases hi with rfl | rfl | rfl | rfl <;>
    exact ⟨near_unit rfl rfl rfl (by decide +kernel) (fun _ _ _ => ⟨rfl, rfl⟩) (by decide +kernel), rfl, rfl, by decide +kernel⟩
theorem wit_near_fields : ([true, false] : List Bool).all (fun b =>
    let d := descriptor b
    decide (d < 2 ^ 512) && Nm.om d == b && Nm.n1 d == 1 && Nm.n2 d == 1 && Nm.wid d == 1 && Nm.kc d == 1 && Nm.pitch d == 64 &&
      !Nm.setf d && Nm.addr d 2 == (if b then 0x100000000 else 0x1000) && Nm.addr d 3 == (if b then 0x100000000 else 0x1000)) = true := by
  decide +kernel
/-- RemoteFormsEnterAndWait: a strand outside its handler whose join the bank holds. -/
theorem wit_join : let f := flight (.reelj 1) (some { ctx := 0, seq := 0 }) true false .wait
    f ∈ ((flying f).coreAt 0).flights ∧ f.slot = 0 ∧ f.e.i = .reelj 1 ∧ f.ans = .wait ∧ ((flying f).strandAt 0 0).trap.hm = false ∧
      ((flying f).strandAt 0 0).heldLoad = none := by decide +kernel
/-- SfenWaitsForItsRadius: nothing before it; a write beyond the radius, queued and under way; writes within it. -/
theorem wit_sfen : (regs.self.wait = .none ∧ regs.self.q.st = [] ∧ regs.own.flights = []) ∧
    (∀ e ∈ (heads 0x101F00000).self.q.st, (heads 0x101F00000).entryPlaces 0 e = some [.bank 496]) ∧ (heads 0x101F00000).own.radius 0 = 0 ∧
    withinRadius 0 0 (.bank 496) = false ∧
    ((stored 1).self.wait = .none ∧ (entry (.st .w32 .ts 1 (.reg 2 0)) 0x1000).i.isWrite = true ∧
      (stored 1).entryPlaces 0 (entry (.st .w32 .ts 1 (.reg 2 0)) 0x1000) = some [.scratch] ∧
      withinRadius 0 ((stored 1).own.radius 0) .scratch = true) ∧
    (let w := flight (.st .w32 .ts 1 (.reg 2 0)) (some { ctx := 0, seq := 0 }) false false .none
     w ∈ (flying w).own.flights ∧ w.st = true ∧ w.done = false ∧ w.e.i.isWrite = true ∧ (flying w).flightPlaces 0 w = some [.bank 0] ∧
       withinRadius 0 ((flying w).own.radius 15) (.bank 0) = true) := by decide +kernel
/-- RequestsReleasesAndMessages. -/
def arrivals : State :=
  let r : Request := { src := (1, 0, 0), core := 0, slot := 0, eng := .me, addr := 64, since := 0 }
  let m : Message := { payload := [1, 2], handler := 0x200, prio := 3, owner := none, src := (1, 0, 0) }
  { (flying (flight (.reelj 1) (some { ctx := 0, seq := 0 }) true false .wait)).updCore 0 fun y => { y with messages := [m], msgBase := 0 } with
    net := [r], releases := [{ cell := ballBase, join := true, tag := { ctx := 0, seq := 0 }, core := 0, n := 0 }] }
/-- A REQ whose issuer's entry is in flight under a tag, toward a port of core 0 that holds so many tags that it and the spill region
are full. -/
def crowdedPort : State :=
  let f := flight (.reqMe 1 (.reg 2)) (some { ctx := 0, seq := 7 }) false false .none
  { (arrivals.updCore 1 fun y => { y with flights := [f] }) with
    tags := List.replicate (4096 + Config.tagSpillCap) { place := .port 0, tag := { ctx := 0, seq := 0 }, ans := .go, released := false, part := 0 } }
theorem spilled_replicate (r : TagRec) : ∀ (n : Nat) (seen : List Place),
    n ≤ ((spilledTags seen (List.replicate n r)).filter fun x => x.part == r.part).length +
      (r.place.tagCap - (seen.filter (· == r.place)).length)
  | 0, _ => Nat.zero_le _
  | n + 1, seen => by
    have h := spilled_replicate r n (r.place :: seen)
    simp only [List.filter_cons, beq_self_eq_true, if_true, List.length_cons] at h
    simp only [List.replicate_succ, spilledTags]
    split
    · simp only [List.filter_cons, beq_self_eq_true, if_true, List.length_cons]
      omega
    · omega
theorem wit_full_port : (∃ r, crowdedPort.net[0]? = some r ∧ crowdedPort.reqReady 0 r = true ∧ crowdedPort.portRoom r.src r.core = false) := by
  refine ⟨_, rfl, rfl, ?_⟩
  have hn : ∀ n, (List.replicate n ({ place := .port 0, tag := { ctx := 0, seq := 0 }, ans := .go, released := false, part := 0 } : TagRec)).find?
      (fun r => r.place == Place.port 0 && r.tag == { ctx := 0, seq := 7 }) = none := by
    intro n
    simp only [List.find?_eq_none, List.mem_replicate]
    rintro _ ⟨-, rfl⟩
    decide
  have hp : crowdedPort.partOf 1 = some 0 := rfl
  have hs := spilled_replicate { place := .port 0, tag := { ctx := 0, seq := 0 }, ans := .go, released := false, part := 0 }
    (4096 + Config.tagSpillCap) []
  simp only [List.filter_nil, List.length_nil, Place.tagCap, Nat.sub_zero] at hs
  have hf : ∀ n, ((List.replicate n ({ place := .port 0, tag := { ctx := 0, seq := 0 }, ans := .go, released := false, part := 0 } : TagRec)).filter
      fun r => r.place == Place.port 0).length = n := by
    intro n
    rw [List.filter_eq_self.mpr (by simp [List.mem_replicate]), List.length_replicate]
  have ht : crowdedPort.sourceTag (1, 0, 0) = some { ctx := 0, seq := 7 } := rfl
  show crowdedPort.portRoom (1, 0, 0) 0 = false
  simp only [State.portRoom, ht, State.tagFound, State.tagRoom, hp, State.spilled]
  simp only [crowdedPort, hn, hf, Option.isSome_none, Place.tagCap, Bool.false_or, Bool.or_eq_false_iff, decide_eq_false_iff_not]
  exact ⟨by omega, decide_eq_false (by omega)⟩
theorem wit_arrivals : (∃ r, arrivals.net[0]? = some r ∧ (arrivals.reqReady 0 r) = true ∧ arrivals.portRoom r.src r.core = true) ∧
    (∃ l, arrivals.releases = [l] ∧ ((arrivals.coreAt l.core).flights.find? (fun f => f.n == l.n)).isSome ∧
      (arrivals.strandAt l.core (slotIx 0)).st ≠ .frozen) ∧
    (∃ m, (arrivals.coreAt 0).messages = [m] ∧ m.payload.length ≤ 256 ∧ arrivals.portRoom m.src 0 = true) ∧ (arrivals.coreAt 0).dark = false ∧
    (arrivals.coreAt 0).closing = none ∧ (arrivals.coreAt 0).startedAt ≠ some arrivals.clk ∧
    (arrivals.coreAt 0).freeSlot = some 1 ∧ arrivals.pkg.alertHeld = false ∧ arrivals.halted 0 = false := by
  refine ⟨⟨_, rfl, by decide +kernel, by decide +kernel⟩, ⟨_, rfl, by decide +kernel, by decide +kernel⟩,
    ⟨_, rfl, by decide +kernel, by decide +kernel⟩, by decide +kernel,
    by decide +kernel, by decide +kernel, by decide +kernel, by decide +kernel, by decide +kernel⟩
/-- R34: a message starts its handler with its payload's length and place. -/
theorem test_message : ((after (.sendAccept 0) arrivals).strandAt 0 1).pc = 0x200 ∧
    ((after (.sendAccept 0) arrivals).strandAt 0 1).d[0] = Dom.single 2 ∧ ((after (.sendAccept 0) arrivals).strandAt 0 1).a[0] = 256 := by
  decide +kernel

/-- StrandsEndSwitchAndAreReleased: an ENDING slot, a strand at the HALT of a kernel execution while a lower class waits, due
and later releases, a strand to be sampled. -/
def ending : State := packed.upd fun x => { x with st := .ending, owner := some (0, 0), launched := true }
def boundary : State :=
  let r : Ready := { record := record false, prio := 0, owner := none, order := 1, kept := none }
  let s := (kernel false 2).upd fun x => { x with st := .waiting, wait := .drain, prio := 3 }
  let s := s.updCore 0 fun y => { y with ready := [r], strands := (Vector.replicate 9 { Strand.fresh with st := .waiting }).set 0 s.self }
  s.store (imemKey 0 0x100) (leBytes 8 0x6E00000000000000)
def wheel : State := { regs with pkg := { regs.pkg with ptp := 0x1000 } }.updCore 0 fun y =>
  { y with wheel := [{ record := record false, time := 0x900, late := false, prio := 0, owner := none },
                     { record := record false, time := 0x1001, late := false, prio := 0, owner := none }] }
/-- Two releases that are due, one of which found no room before; one that is not; and one that a step back has moved ahead. -/
def lateWheel : State := { regs with pkg := { regs.pkg with ptp := 0x1000 } }.updCore 0 fun y =>
  { y with wheel := [{ record := record false, time := 0x900, late := true, prio := 0, owner := none },
                     { record := record false, time := 0x2000, late := true, prio := 0, owner := none },
                     { record := record false, time := 0x950, late := false, prio := 0, owner := none },
                     { record := record false, time := 0x1001, late := false, prio := 0, owner := none }] }
theorem wit_strands : (ending.self.st = .ending ∧ ending.self.q.allEmpty = true ∧ ending.own.settled 0 = true) ∧
    (boundary.self.st = .waiting ∧ boundary.self.wait = .drain ∧ boundary.self.q.drained = true ∧ boundary.own.settled 0 = true ∧
      boundary.self.qualifies = true ∧ boundary.own.wantsSwitch boundary.self.prio = true ∧ boundary.self.atBoundary.isSome = true ∧
      boundary.self.lease.held = false ∧ boundary.self.bad = [] ∧
      (decode .seq (boundary.read (imemKey 0 boundary.self.pc.toNat) 8)).toOption = some .halt) ∧
    (∀ s ∈ [wheel, lateWheel], (s.coreAt 0).dark = false ∧ (s.coreAt 0).closing = none ∧ (s.coreAt 0).wheelAt ≠ 0x1000 ∧
      s.pkg.ptp.toNat / 256 * 256 = 0x1000 ∧ (s.coreAt 0).ready.length + (s.coreAt 0).wheel.length ≤ 64) ∧
    (let s := { (regs.upd fun x => { x with trace := { x.trace with smp := true } }) with clk := 1024 }
     s.self.st = .ready ∧ s.self.trace.smp = true ∧ s.self.trace.tre = false ∧ s.self.trace.last + s.self.trace.smpint.toNat ≤ s.clk) ∧
    regs.clk < regs.self.trace.last + regs.self.trace.smpint.toNat := by decide +kernel
/-- A launch of `ending` that runs, without and with a capture record. -/
theorem wit_running : (∀ q ∈ [none, some (3, (0x1000 : DWord))],
    let s := ending.updCore 0 fun y => { y with mbox := { y.mbox with go := true, status := 3, capture := q } }
    s.self.owner = some (0, 0) ∧ s.self.launched = true ∧ (s.coreAt 0).mbox.running (0, 0) = true ∧ (s.coreAt 0).mbox.fin = none) ∧
    ending.partOf 0 = some 0 := by decide +kernel
/-- The bytes of an image (R267-R274): a SPAD section at 0x300, whose first 32 bytes are the entry loop record, and a KERN
section of one kernel. The check word is that of the digest of the rest. -/
def imageFile (r : BitVec 256) : List Byte :=
  let sec (kind align foff n addr : Nat) : List Byte :=
    leBytes 1 kind ++ leBytes 1 align ++ leBytes 6 0 ++ leBytes 4 foff ++ leBytes 4 n ++ leBytes 8 addr ++ leBytes 8 n
  let head := leBytes 4 0x54465552 ++ leBytes 4 0x10001 ++ (List.replicate 9 (leBytes 2 1)).flatten ++ leBytes 2 2 ++ leBytes 4 64 ++
    leBytes 4 1 ++ leBytes 4 128 ++ leBytes 4 0 ++ leBytes 4 0 ++ leBytes 4 152 ++ leBytes 4 3 ++ leBytes 4 0
  let body := sec 3 6 160 40 0x300 ++ sec 8 3 200 16 0 ++ leBytes 4 1 ++ leBytes 4 (5 * 2 ^ 16) ++ leBytes 8 0x300 ++ leBytes 8 32 ++
    leBytes 8 0x6100 ++ leBytes 32 r.toNat ++ leBytes 8 0 ++ leBytes 16 0
  head ++ (sm3 (head ++ [0, 0, 0, 0] ++ body)).take 4 ++ body
/-- A kernel of core 0 at the head of its die's scoreboard, RESIDENT, its image at 0x400200000; the park area of core 1. -/
def launched (r : BitVec 256) : State :=
  let s := (packed.store 0x200000 (imageFile r)).updCore 0 fun y => { y with mbox := { y.mbox with image := 0x400200000, go := true, status := 2 } }
  let s := s.updCore 1 fun y => { y with parkBase := 0x401000000 }
  s.putDie 0 { s.die 0 with board := [{ core := 0, order := 0, resident := true, since := 0 }] }
/-- The record of `record` in heat class 2. -/
def hotRecord : BitVec 256 := record false ||| BitVec.ofNat 256 (2 * 2 ^ 244)
/-- The target core and the record of a kernel that a plan names. -/
def planned : Option (Launch × Plan) → Option (Nat × Nat × BitVec 256 × Bool)
  | some (b, .kernel k i r) => some (b.core, k, r, i.entry % 32 == 0)
  | _ => none
theorem planned_some {o : Option (Launch × Plan)} {c k : Nat} {r : BitVec 256} {q : Bool} (h : planned o = some (c, k, r, q)) :
    ∃ b i, o = some (b, .kernel k i r) ∧ b.core = c ∧ (i.entry % 32 == 0) = q := by
  unfold planned at h
  split at h
  · simp only [Option.some.injEq, Prod.mk.injEq] at h
    obtain ⟨h1, h2, h3, h4⟩ := h
    subst h2 h3
    exact ⟨_, _, rfl, h1, h4⟩
  · simp at h
/-- A map with one value under each number below `n`. -/
def everywhere {α : Type} (n : Nat) (x : α) : SMap α := (List.range n).map fun i => (i, x)
theorem get_everywhere {α : Type} (d x : α) (n k : Nat) (h : k < n) : SMap.get d (everywhere n x) k = x := by
  induction n with
  | zero => omega
  | succ n ih =>
    rw [everywhere, List.range_succ, List.map_append]
    by_cases hk : k = n
    · rw [SMap.get_append_left _ _ _ _ (by simp; omega)]
      simp [SMap.get, hk]
    · rw [SMap.get_append_right _ _ _ _ (by simp; omega)]
      exact ih (by omega)
/-- A package that firmware has brought up (R303, R355). -/
def ready (cols : Nat) : State :=
  { State.reset with hbm := Vector.replicate 8 { Stack.fresh with trained := true }, pkg := { Package.fresh with ptpOn := true },
                     segs := everywhere (16 * cols) { Segment.fresh with trimmed := true },
                     cores := everywhere (32 * cols) { Core.fresh with scopeSet := 0xF } }
/-- A GO of this clk on the mailbox of core 0, to be judged. -/
def fresh (s : State) : State := s.updCore 0 fun y => { y with mbox := { y.mbox with go := true, fresh := true } }
/-- LaunchesAreSubmittedAndIssued: GO on a mailbox of a package that is not ready, and of one that is; one with GO set. -/
theorem wit_submit : ∀ p ∈ [(State.reset, some 12), (ready 1, none)],
    p.1.blockOk .pf 0 = true ∧ (p.1.coreAt 0).mbox.go = false ∧ p.1.partOf 0 = none ∧ ((fresh p.1).coreAt 0).mbox.go = true ∧
    ((fresh p.1).coreAt 0).mbox.fresh = true ∧ ((fresh p.1).coreAt 0).mbox.capture = none ∧
    ((fresh p.1).updCore 0 fun y => { y with mbox := { ((fresh p.1).coreAt 0).mbox with fresh := false } }).refusal 0 = p.2 := by
  decide +kernel
/-- A partition that captures its launches, into a ring with `n` as its consumer index; a mailbox whose launch has ended, with the
rows `got` of a checksum region of 100 bytes read. -/
def capturing (n : Byte) : State := packed.putPart 0 { packed.part 0 with capEn := true, capCons := n }
def finishing (got : List Byte) : State := (capturing 9).updCore 0 fun y =>
  { y with mbox := { y.mbox with go := true, status := 3, capture := some (2, 0x1000)
                                 fin := some { status := 4, refused := false, at_ := 0x400000040, len := 100, got := got, lost := false, time := 5 } } }
theorem wit_capture : (∀ n ∈ [(1 : Byte), 9], (capturing n).blockOk .pf 0 = true ∧ ((capturing n).coreAt 0).mbox.go = false ∧
      (capturing n).partOf 0 = some 0 ∧ ((capturing n).part 0).capEn = true ∧ ((capturing n).part 0).capProd + 1 = 1 ∧
      ((capturing n).part 0).capCons = n ∧ (capturing n).late = [] ∧ (capturing n).heldUp 0 [(0, 64)] = false ∧
      (capturing n).heldUp 0 [(64, 64)] = false ∧ ((capturing n).part 0).capbase = 0) ∧
    packed.blockOk .pf 0 = true ∧ (packed.part 0).capEn = false ∧ packed.partOf 0 = some 0 := by decide +kernel
theorem wit_finishing : ([[], List.replicate 64 7, List.replicate 100 7] : List (List Byte)).all (fun got =>
    let s := finishing got
    (s.coreAt 0).mbox.capture.isSome && s.partOf 0 == some 0 && s.flaws == [] && !s.dmaStopped 0 .host && s.late == [] &&
      !s.heldUp 0 [(2 * 128 + 64, 64)] && (s.peek 0 (0x400000040 + got.length) (min 64 (100 - got.length)) ==
        (if got.length < 100 then .bytes (List.replicate (min 64 (100 - got.length)) 0) else .bytes []))) = true := by decide +kernel
/-- R294: the lower core's GO of one clk goes first: it takes the last entry of the scoreboard, and the other is refused. -/
def crowded : State :=
  let s := (ready 1).putDie 0 { Die.fresh with board := List.replicate 255 { core := 9, order := 0, resident := false, since := 0 } }
  [3, 2].foldl (fun s c => after (.mailboxGo .pf c) s) s
theorem test_gos : (crowded.judgeGos.coreAt 2).mbox.status = 2 ∧ (crowded.judgeGos.coreAt 3).mbox.status = 8 := by decide +kernel
def transferring : State :=
  (ready 1).updCore 0 (fun y => { y with mbox := { y.mbox with kind := true, image := 0x100, go := true, status := 2 } }) |>.putDie 0
    { Die.fresh with board := [{ core := 0, order := 0, resident := true, since := 0 }] }
/-- A launch that is refused, a TRANSFER, a hot record whose partner is to finish first, and records that issue. -/
def ending1 (s : State) : State := s.updAt 1 0 fun x => { x with st := .ending }
/-- With no bank held and no pseudo-channel asleep, no area is; an area with a held row is busy. -/
theorem areaBusy_free {s : State} (h : ∀ i : Fin 8, (s.hbm[i.val]).asleep = [] ∧ (s.hbm[i.val]).holds = []) (l : List (Nat × Nat)) :
    s.areaBusy l = false := by
  have k : ∀ i, (s.stack i).asleep = [] ∧ (s.stack i).holds = [] := fun i => h ⟨i % 8, Nat.mod_lt _ (by decide)⟩
  simp [State.areaBusy, k]
theorem wit_issue_ready : ∀ s ∈ [transferring, launched (record false)],
    s.pkg.fullPend = false ∧ (s.die 0).mayIssue s.clk = true ∧ (s.coreAt 0).mbox.capture = none ∧ s.flaws = [] ∧
    ∀ l, s.areaBusy l = false := by
  have h : ∀ s ∈ [transferring, launched (record false)],
      s.pkg.fullPend = false ∧ (s.die 0).mayIssue s.clk = true ∧ (s.coreAt 0).mbox.capture = none ∧ s.flaws = [] ∧
      ∀ i : Fin 8, (s.hbm[i.val]).asleep = [] ∧ (s.hbm[i.val]).holds = [] := by decide +kernel
  exact fun s hs => ⟨(h s hs).1, (h s hs).2.1, (h s hs).2.2.1, (h s hs).2.2.2.1, areaBusy_free (h s hs).2.2.2.2⟩
theorem wit_no_issue : State.reset.nextLaunch 0 = none ∧
    ({ Die.fresh with issuedAt := some 0 } : Die).mayIssue 3 = false := by
  decide +kernel
theorem wit_transfer : transferring.nextLaunch 0 = some ({ core := 0, order := 0, resident := true, since := 0 }, .transfer) ∧
    (let s := transferring.updCore 0 fun y => { y with mbox := { y.mbox with kind := false, image := 1 } }
     s.nextLaunch 0 = some ({ core := 0, order := 0, resident := true, since := 0 }, .refuse 9)) := by decide +kernel
/-- The record of `record` with its reserved bit set. -/
def badRecord : BitVec 256 := record false ||| BitVec.ofNat 256 (2 ^ 255)
/-- The sections of the image that goes next lie apart in their memories. -/
def sectionsApart (s : State) : Bool := match s.nextLaunch 0 with
  | some (_, .kernel _ i _) => decide (i.sections.map (·.kind)).Nodup && i.sections.all fun x => decide (x.bytes.length ≤ x.msize) &&
      (x.kind != 1 && x.kind != 2 || decide (x.addr + x.msize ≤ 0x20000)) && (x.kind != 3 || decide (x.addr + x.msize ≤ 0x100000)) &&
      i.sections.all fun y => !(x.kind == 1 && y.kind == 2) || decide (x.addr + x.msize ≤ y.addr)
  | _ => false
theorem wit_issue : planned ((launched (record false)).nextLaunch 0) = some (0, 0, record false, true) ∧ Rec.ok (record false) = true ∧
    Rec.hot (record false) = false ∧ sectionsApart (launched (record false)) = true ∧
    ((launched (record false)).coreAt 0).loaded (0, 0) = false ∧
    planned ((launched badRecord).nextLaunch 0) = some (0, 0, badRecord, true) ∧ Rec.ok badRecord = false := by decide +kernel
theorem wit_close : (ending1 (launched hotRecord)).nextLaunch 0 =
    some ({ core := 0, order := 0, resident := true, since := 0 }, .close 0) := by decide +kernel
theorem wit_loaded :
    let s := after (.overlayLoad 0) (launched (record false))
    (s.coreAt 0).loaded (0, 0) = true ∧ planned (s.nextLaunch 0) = some (0, 0, record false, true) ∧ s.flaws = [] ∧
      ∀ i : Fin 8, (s.hbm[i.val]).asleep = [] ∧ (s.hbm[i.val]).holds = [] := by decide +kernel
/-- ChainsGoOnAndEnd: a TRANSFER of core 0 in its run, at its CEND, and past it. -/
def transfer (p : Phase) (v : Nat) : State :=
  (ready 1).updAt 0 8 fun x => { x with st := .ready, curCe := some { Cursor.start 0 0 with phase := p, word := BitVec.ofNat 256 v } }
theorem wit_transfers : (∀ s ∈ [transfer .run 7, transfer .run 9, transfer .done 9], { s with core := 0, slot := 8 }.self.st = .ready ∧
      ({ s with core := 0, slot := 8 } : State).self.curCe.map (·.held) = some .no ∧ (s.coreAt 0).mbox.capture = none) ∧
    (decodeChain 4).toOption = some (.cfill (CEntry.unpack 4)) ∧ (decodeChain 9).toOption = some (.cend (CEntry.unpack 9)) ∧
    ((9 : BitVec 256).setWidth 8 = (9 : BitVec 8) ∧ (9 : BitVec 256).getLsbD 9 = false) := by decide +kernel
/-- R292: the CEND of a TRANSFER completes its launch. -/
theorem test_transfer : ((after (.transferRun 0) (transfer .done 9)).coreAt 0).mbox.status = 4 := by decide +kernel

/-! ### Lending, pre-emption, translation -/

/-- The first chunk of an area has a held row. -/
def headHeld (s : State) : Option (List (Nat × Nat)) → Bool
  | some (x :: _) => decide (x.1 < hostBase) && !(s.stack (x.1 / 2 ^ 37)).holds.isEmpty && s.holdsAny true [x]
  | _ => false
theorem areaBusy_held {s : State} {o : Option (List (Nat × Nat))} (h : headHeld s o = true) : ∃ l, o = some l ∧ s.areaBusy l = true := by
  unfold headHeld at h
  split at h
  · exact ⟨_, rfl, by simp only [State.areaBusy, List.any_cons, h, Bool.true_or, Bool.or_true]⟩
  · cases h
/-- Every row of vault 0 held. -/
def heldRows (s : State) : State := s.putStack 0 { s.stack 0 with holds := (List.range 24).map fun i => (pcIx 0 i, 64, s.clk + 9) }
/-- The chunks of an area stand one behind the other. -/
def rising (b : Nat) : List (Nat × Nat) → Bool
  | [] => true
  | x :: l => decide (b ≤ x.1) && rising (x.1 + x.2) l
theorem rising_pairwise : ∀ (l : List (Nat × Nat)) (b : Nat), rising b l = true →
    (∀ x ∈ l, b ≤ x.1) ∧ l.Pairwise fun a b => a.1 + a.2 ≤ b.1 ∨ b.1 + b.2 ≤ a.1
  | [], _, _ => ⟨(fun _ h => by cases h), .nil⟩
  | y :: l, b, h => by
    simp only [rising, Bool.and_eq_true, decide_eq_true_eq] at h
    obtain ⟨h1, h2⟩ := rising_pairwise l _ h.2
    refine ⟨fun x hx => ?_, .cons (fun x hx => .inl (h1 x hx)) h2⟩
    rcases List.mem_cons.mp hx with rfl | hx
    · exact h.1
    · have := h1 x hx
      omega
theorem heldUp_of_held {s : State} {c : Nat} {l : List (Nat × Nat)} (h : s.holdsAny true l = true) : s.heldUp c l = true := by
  simp [State.heldUp, h]
/-- The page at 0x400000000 stands in the tables of partition 0, and in no TLB. -/
def tabled (s : State) : State :=
  let s := (s.putDie 0 { s.die 0 with tlb := [] }).putPart 0 { s.part 0 with ptroot := 0x100001 }
  ((s.store 0x100000 (leBytes 8 0x101001)).store 0x101000 (leBytes 8 0x102001)).store (0x102000 + 8 * 16) (leBytes 8 0xD)
/-- CoresParkLendAndRotate: a hot record whose core's partner is to be parked, a dark core whose lending can end: with its area free, with
its rows held, and with the rows of its table walks held. -/
def lent : State :=
  let s := (packed.updCore 1 fun y => { y with dark := true, parkBase := 0x401000000 }).updCore 0 fun y => { y with act := true }
  s.updAt 1 0 fun x => { x with st := .parked, back := .ready }
def parking : State := (launched hotRecord).updAt 1 0 fun x => { x with st := .ready }
theorem wit_parks : ([parking, heldRows parking, heldRows (tabled parking)] : List State).all (fun s =>
    s.memOk && s.flaws == [] && planned (s.nextLaunch 0) == some (0, 0, hotRecord, true) && !(s.coreAt 1).dark && !s.pkg.fullPend &&
      (s.strandAt 1 0).st == .ready) = true ∧ partnerOf 0 = 1 ∧ dieOf 1 = 0 ∧ Rec.hot hotRecord = true ∧ Rec.ok hotRecord = true ∧
    (heldRows (tabled parking)).heldUp 1 ((heldRows (tabled parking)).parkCells 1) = true := by
  refine ⟨by decide +kernel, by decide, by decide, by decide +kernel, by decide +kernel, heldUp_of_held (by decide +kernel)⟩
theorem wit_lends : ([lent, heldRows lent, heldRows (tabled lent)] : List State).all (fun s =>
    s.memOk && s.flaws == [] && (s.coreAt 1).dark && !(s.coreAt (partnerOf 1)).hot && !(s.coreAt (partnerOf 1)).windowBusy &&
      !(s.coreAt (partnerOf 1)).reading && (s.strandAt 1 0).st == .parked) = true ∧
    (heldRows (tabled lent)).heldUp 1 ((heldRows (tabled lent)).parkCells 1) = true := by
  exact ⟨by decide +kernel, heldUp_of_held (by decide +kernel)⟩
/-- The area that a park reaches, with nothing on its way. -/
theorem park_free : ∀ s ∈ [parking, lent], s.heldUp 1 (s.parkCells 1) = false ∧
    ∃ l, (s.arriveAt 1 0 (s.parkCells 1)).parkArea 1 = some l ∧ (l.Pairwise fun a b => a.1 + a.2 ≤ b.1 ∨ b.1 + b.2 ≤ a.1) ∧
      (s.arriveAt 1 0 (s.parkCells 1)).areaBusy ((s.arriveAt 1 0 (s.parkCells 1)).parkReach 1) = false := by
  have h : ∀ s ∈ [parking, lent], s.heldUp 1 (s.parkCells 1) = false ∧
      (((s.arriveAt 1 0 (s.parkCells 1)).parkArea 1).any (rising 0) = true) ∧
      ∀ i : Fin 8, ((s.arriveAt 1 0 (s.parkCells 1)).hbm[i.val]).asleep = [] ∧ ((s.arriveAt 1 0 (s.parkCells 1)).hbm[i.val]).holds = [] := by
    decide +kernel
  intro s hs
  obtain ⟨h1, h2, h3⟩ := h s hs
  obtain ⟨l, hl, hq⟩ := some_of_any h2
  exact ⟨h1, l, hl, (rising_pairwise l 0 hq).2, areaBusy_free h3 _⟩
theorem park_held : ∀ s ∈ [heldRows parking, heldRows lent], s.heldUp 1 (s.parkCells 1) = false ∧
    headHeld (s.arriveAt 1 0 (s.parkCells 1)) ((s.arriveAt 1 0 (s.parkCells 1)).parkArea 1) = true := by decide +kernel
/-- No rotation is due in a cool package. -/
theorem wit_no_rotation : ∀ j, State.reset.rotationOf j = none := by
  intro j
  have h : (State.reset.die (dieOf j)).rth.toNat < State.reset.coreAllow j := by
    simp [State.die, State.reset, State.coreAllow, State.seg, State.group, Die.fresh]
    decide +kernel
  simp [State.rotationOf, h]

/-- PreemptionRequestsAreServed: a request of each mode whose area no page maps, and whose table walk meets held rows; named strands and
none. -/
def asked (mode : BitVec 3) (mask : BitVec 8) (save : DWord) : State :=
  packed.updCore 0 fun y => { y with pre := { y.pre with go := true, mode := mode, mask := mask, save := save } }
theorem wit_preempt : (∀ s ∈ [asked 1 1 1, asked 2 1 1, asked 3 1 1], (s.coreAt 0).pre.go = true ∧ s.saveCells 0 = [] ∧ s.saveArea 0 = none ∧
      s.flaws = []) ∧
    ((asked 1 1 1).coreAt 0).strands.toList.all (fun x => x.light.isNone) = true ∧
    (asked 1 1 1).named 0 = [0] ∧ (asked 1 2 1).named 0 = [] := by decide +kernel
theorem wit_save_walks : ∀ s ∈ [heldRows (asked 1 1 0x4C0000000), heldRows (asked 2 1 0x4C0000000), heldRows (asked 3 1 0x4C0000000)],
    (s.coreAt 0).pre.go = true ∧ s.flaws = [] ∧ s.heldUp 0 (s.saveCells 0) = true ∧
      (s.coreAt 0).strands.toList.all (fun x => x.light.isNone) = true := by
  have h : ∀ s ∈ [heldRows (asked 1 1 0x4C0000000), heldRows (asked 2 1 0x4C0000000), heldRows (asked 3 1 0x4C0000000)],
      (s.coreAt 0).pre.go = true ∧ s.flaws = [] ∧ s.holdsAny true (s.saveCells 0) = true ∧
        (s.coreAt 0).strands.toList.all (fun x => x.light.isNone) = true := by decide +kernel
  exact fun s hs => ⟨(h s hs).1, (h s hs).2.1, heldUp_of_held (h s hs).2.2.1, (h s hs).2.2.2⟩
theorem wit_save_area : (asked 1 1 0x400000000).saveArea 0 ≠ none := by decide +kernel
theorem wit_kill :
    let f := flight (.st .w32 .ts 1 (.reg 2 0)) (some { ctx := 0, seq := 0 }) false false .none
    let s := (asked 4 1 0).updCore 0 fun y => { y with flights := [f] }
    (s.coreAt 0).pre.mask ≠ 0 ∧ s.named 0 = [0] ∧ f ∈ (s.coreAt 0).flights ∧ f.slot = (0 : Fin 9).val ∧ f.ended = false ∧
      ((asked 4 0 0).coreAt 0).pre.mask = 0 := by decide +kernel
/-- A second strand of `asked`, which no mask of 1 names. -/
def second (s : State) : State := s.updAt 0 1 fun x => { x with st := .ready }
/-- PreemptionRequestsAreServed: LIGHT, FULL with every strand named and with one that is not, their areas apart and free; a RESUME;
a KILL of a strand with a lease and none in flight, and of none; a TRANSFER that no unit is left of, with and without capture, one with
a unit under way, and none. -/
theorem wit_areas : (∀ s ∈ [asked 1 1 0x400000000, asked 1 2 0x400000000, asked 2 1 0x400000000, second (asked 2 1 0x400000000), asked 3 1 0x400000000],
    (∀ l, s.areaBusy l = false) ∧ s.saveCells 0 = [] ∧ s.flaws = [] ∧ (s.coreAt 0).dark = false ∧ (s.strandAt 0 0).domainsOk = true) ∧
    ∃ l, (second (asked 2 1 0x400000000)).saveArea 0 = some l ∧ l.Pairwise fun a b => a.1 + a.2 ≤ b.1 ∨ b.1 + b.2 ≤ a.1 := by
  have h : ∀ s ∈ [asked 1 1 0x400000000, asked 1 2 0x400000000, asked 2 1 0x400000000, second (asked 2 1 0x400000000), asked 3 1 0x400000000],
      (∀ i : Fin 8, (s.hbm[i.val]).asleep = [] ∧ (s.hbm[i.val]).holds = []) ∧ s.saveCells 0 = [] ∧ s.flaws = [] ∧
      (s.coreAt 0).dark = false ∧ (s.strandAt 0 0).domainsOk = true := by decide +kernel
  obtain ⟨l, hl, hq⟩ : ∃ l, (second (asked 2 1 0x400000000)).saveArea 0 = some l ∧ rising 0 l = true := some_of_any (by decide +kernel)
  exact ⟨fun s hs => ⟨areaBusy_free (h s hs).1, (h s hs).2⟩, l, hl, (rising_pairwise l 0 hq).2⟩
def killing (f : Core → Core) : State := (asked 4 0 0).updCore 0 f
def moving (st : SlotState) (q : Option (Nat × DWord)) (y : Core) : Core :=
  { y with strands := y.strands.set 8 { Strand.fresh with st := st }, mbox := { y.mbox with kind := true, go := true, status := 3, capture := q } }
theorem wit_kills :
    (let s := (asked 4 1 0).upd fun x => { x with lease := { x.lease with held := true, level := 3 } }
     (s.coreAt 0).pre.mask ≠ 0 ∧ s.named 0 = [0] ∧ (s.coreAt 0).flights = [] ∧ (s.strandAt 0 0).lease.held = true ∧
       (s.strandAt 0 0).lease.pend = false) ∧ (asked 4 2 0).named 0 = [] ∧
    (((asked 4 0 0).strandAt 0 8).st = .dormant ∧ ((asked 4 0 0).coreAt 0).mbox.fin = none) ∧
    (∀ st ∈ [SlotState.ready, .frozen], ∀ q ∈ [none, some (3, (0x1000 : DWord))],
      let s := killing (moving st q)
      (s.strandAt 0 8).st ≠ .dormant ∧ s.unitsDone 0 = true ∧ (s.coreAt 0).mbox.fin = none ∧ (s.coreAt 0).mbox.capture = q ∧
        s.partOf 0 = some 0 ∧ (s.coreAt 0).mbox.kind = true) ∧
    (let f := { flight (.cfill twoRows) none false false .none with slot := 8 }
     let s := killing fun y => { moving .ready none y with flights := [f] }
     (s.strandAt 0 8).st ≠ .dormant ∧ s.unitsDone 0 = false) := by decide +kernel

/-! ### Isolation -/

/-- PartitionsAreIsolated: accesses of the own core, the partner, the Ballroom, a home vault and a page; a head outside; a word that
issues. -/
def confined : State := { packed with service := true, agenda := [.issue 0 0] }
theorem wit_isolated : packed.partOf 0 = some 0 ∧
    ([(0x1000, 0x1000), (0x200000, 0x200000), (0x100000000, 0x100000000), (0x200000000, 0x200000000), (0x400000000, 0x400000000)] :
      List (Nat × Nat)).all (fun p => match (packed.updCore 0 fun y => { y with act := true }).reach 0 p.1 4 false true with
        | .at _ => true
        | _ => false) = true ∧
    (heads 0x102000000).aim 0 (entry (.ld .w32 .ts 9 1 0) 0x102000000) = .violation ∧ (heads 0x102000000).partOf 0 = some 0 ∧
    confined.service = true ∧ confined.agenda = [.issue 0 0] ∧ confined.flaws = [] ∧ confined.partOf 0 = some 0 ∧
    (match step confined with
      | .next _ => true
      | _ => false) = true := by decide +kernel
/-- No strand traces or is to be pre-empted lightly. -/
theorem wit_untraced : (confined.strandAt 0 (slotIx 0)).light = none ∧ ∀ i m, (confined.strandAt i m).trace.tre = false := by
  refine ⟨by decide +kernel, fun i m => ?_⟩
  by_cases h : i = 0
  · subst h
    have k : ∀ m : Fin 9, (confined.strandAt 0 m).trace.tre = false := by decide +kernel
    exact k m
  · have hk : confined.cores = [(0, confined.coreAt 0)] := rfl
    have hc : confined.coreAt i = Core.fresh := by
      rw [State.coreAt, hk]
      simp [SMap.get, Ne.symm h]
    have k : ∀ m : Fin 9, (Core.fresh.strands[m.val]).trace.tre = false := by decide +kernel
    simp only [State.strandAt, hc]
    exact k m
/-- A hot core whose rotation is due: its segment at 104 °C, its park area mapped, and core 2 already lent to. -/
def hotCore : State :=
  let s := (packed.upd fun x => { x with run := some { record := hotRecord, part := .kernel, iter := 0, order := 0, begun := 0, row := none } })
  let s := (s.updCore 0 fun y => { y with parkBase := 0x401000000, pre := { y.pre with port := true } }).updCore 2 fun y => { y with act := true }
  s.putSeg 0 { Segment.fresh with temp := 832 }
/-- It with the last page of its rotation area in no TLB, and every row held. -/
def hotWalk : State :=
  let s := ((tabled hotCore).putDie 0 (hotCore.die 0)).store (0x102000 + 8 * 17) (leBytes 8 0x4000000D)
  heldRows (s.updCore 0 fun y => { y with parkBase := 0x43F501000 })
/-- A hot core whose rotation is due: its segment at 104 °C, its park area mapped, and core 2 already lent to; with the rows of its area
held, and with the rows of the table walks for it held. -/
def hotCores : List State := [hotCore, heldRows hotCore, hotWalk]
theorem rotate_some (s : State) (c t : Nat) (k : Fin 9) (l : List (Nat × Nat)) (hc : t ≠ c) (h : (s.coreAt t).act = true) :
    (s.rotate c t k l).isSome = true := by
  have hu : (((s.saveFull c (2 ^ k.val) l).updCore c fun y => { y with pre := { y.pre with port := (s.coreAt c).pre.port } }).coreAt t).lending =
      (s.coreAt t).lending := by rw [lending_updCore _ _ _ _ hc, lending_saveFull _ _ _ _ _ hc]
  have ha : (((s.saveFull c (2 ^ k.val) l).updCore c fun y => { y with pre := { y.pre with port := (s.coreAt c).pre.port } }).coreAt t).act =
      true := (congrArg (·.1) hu).trans h
  simp only [State.rotate, State.resumePortable, State.restorePartner, ha, Option.isSome_map, if_true]
  split <;> rfl
/-- CoresParkLendAndRotate: what every one of them meets. -/
theorem hot_area : ∀ s ∈ hotCores, s.rotationTarget 0 = some 2 ∧ (s.coreAt 0).longest = some 0 ∧ (s.coreAt 0).portable 1 = true ∧
    s.coreAllow 0 ≤ (s.die (dieOf 0)).rth.toNat ∧ s.rotationDue 0 = true ∧ (s.rotationArea 0).any (rising 0) = true ∧
    0 ∈ s.listed ∧ (s.coreAt 2).act = true ∧ s.flaws = [] ∧ (s.strandAt 0 0).st = .ready ∧ (s.strandAt 0 0).domainsOk = true := by decide +kernel
theorem hot_waits : hotWalk.heldUp 0 (hotWalk.rotationCells 0 2) = true ∧
    (hotCore.heldUp 0 (hotCore.rotationCells 0 2) = false ∧ ∀ h, (hotCore.stack h).asleep = [] ∧ (hotCore.stack h).holds = []) ∧
    (heldRows hotCore).heldUp 0 ((heldRows hotCore).rotationCells 0 2) = false ∧
    headHeld (heldRows hotCore) ((heldRows hotCore).rotationArea 0) = true := by
  have k : ∀ i : Fin 8, (hotCore.hbm[i.val]).asleep = [] ∧ (hotCore.hbm[i.val]).holds = [] := by decide +kernel
  exact ⟨heldUp_of_held (by decide +kernel), ⟨by decide +kernel, fun h => k ⟨h % 8, Nat.mod_lt _ (by decide)⟩⟩, by decide +kernel, by decide +kernel⟩
theorem wit_rotation : ∀ s ∈ hotCores, ∃ t, s.rotationOf 0 = some t := by
  intro s hs
  obtain ⟨ht, hk, hp, ha, hd, hl, -, h2, -⟩ := hot_area s hs
  obtain ⟨l, hl, -⟩ := some_of_any hl
  have hn : ¬ (s.die (dieOf 0)).rth.toNat < s.coreAllow 0 := by omega
  refine Option.isSome_iff_exists.mp ?_
  simp only [State.rotationOf, hn, hd, decide_false, Bool.not_true, Bool.or_false, Bool.false_eq_true, if_false, hk, hl, ht,
    Option.bind_eq_bind, Option.bind_some]
  rw [if_neg (by simpa using hp)]
  split
  · rfl
  · split
    · rfl
    · refine rotate_some _ 0 2 0 l (by decide) ?_
      exact (congrArg (·.1) ((lending_areaTouched _ _ 2).trans (lending_arriveAt _ _ _ _ 2))).trans h2
/-- Nothing is under way on core 3, which parks for core 2, and it has no park area, when core 0 has been saved. -/
theorem wit_saved (s : State) (l : List (Nat × Nat)) (h : s.cores = hotCore.cores) :
    let u := ((s.arriveAt 0 0 (s.rotationCells 0 2)).areaTouched (s.rotationReach 0 2 l)).saveFull 0 1 l
    u.onWay (partnerOf 2) = [] ∧ u.parkArea (partnerOf 2) = none := by
  have hf : (s.coreAt 3).lending = (false, [], 0) := (lending_of_cores h 3).trans (by decide +kernel)
  have hu : ((((s.arriveAt 0 0 (s.rotationCells 0 2)).areaTouched (s.rotationReach 0 2 l)).saveFull 0 1 l).coreAt 3).lending = (false, [], 0) := by
    rw [lending_saveFull _ _ _ _ _ (by decide), lending_areaTouched, lending_arriveAt, hf]
  simp only [Core.lending, Prod.mk.injEq] at hu
  obtain ⟨-, hf, hb⟩ := hu
  refine ⟨?_, ?_⟩
  · rw [State.onWay, show partnerOf 2 = 3 from rfl, hf]; rfl
  · rw [State.parkArea, show partnerOf 2 = 3 from rfl, hb, State.area, if_pos (by decide)]
theorem wit_no_other_rotation : ∀ s ∈ hotCores, ∀ j, j ≠ 0 → s.rotationOf j = none := by
  have hot : ∀ s ∈ hotCores, s.coreAt 1 = Core.fresh ∧ s.segs = [(0, { Segment.fresh with temp := 832 })] ∧ s.groups = [] ∧
      ∀ i : Fin 4, s.dies[i.val].rth = 16 := by decide +kernel
  intro s hs j hj
  obtain ⟨h, hs, hr, hd⟩ := hot s hs
  by_cases h1 : j = 1
  · subst h1
    have hl : Core.fresh.longest = none := by decide +kernel
    simp [State.rotationOf, h, hl]
  · have hg : 0 ≠ segOf j := by simp only [segOf, gcolOf, rowOf]; omega
    have hn : (s.die (dieOf j)).rth.toNat < s.coreAllow j := by
      have h : (s.die (dieOf j)).rth = 16 := hd ⟨dieOf j % 4, Nat.mod_lt _ (by decide)⟩
      rw [h, State.coreAllow, State.seg, hs, State.group, hr]
      simp only [SMap.get, hg, if_false]
      decide +kernel
    simp only [State.rotationOf, hn, decide_true, Bool.true_or, if_true]
/-- RESUME: an area of zeros, which is refused; one that holds a full record of slot 1; one that brings a partner's memory, for which
core 1 is parked behind the area's last byte; and that with the rows of the walks for core 1's park area held. -/
def resumed (b : Byte) : State := (asked 3 1 0x400000000).store 0 (leBytes 4 0x5641534B ++ [2, b])
def resumedLent (base : DWord) : State := (resumed 2).updCore 1 fun y => { y with parkBase := base }
def resumedHeld : State :=
  let s := (resumedLent 0x4C0000000).putPart 0 { packed.part 0 with ptroot := 2 ^ 37 + 1 }
  s.putStack 1 { s.stack 1 with holds := (List.range 24).map fun i => (pcIx 0 i, 64, s.clk + 9) }
theorem areaBusy_awake {s : State} (k : ∀ i, (s.stack i).asleep = []) (l : List (Nat × Nat)) : s.areaBusy l =
    l.any fun x => decide (x.1 < hostBase) && !(s.stack (x.1 / 2 ^ 37)).holds.isEmpty && s.holdsAny true [x] := by
  simp [State.areaBusy, k]
theorem awake_of {s : State} (h : ∀ i : Fin 8, (s.hbm[i.val]).asleep = [] ∧ (s.hbm[i.val]).holds = []) (i : Nat) :
    (s.stack i).asleep = [] ∧ (s.stack i).holds = [] := h ⟨i % 8, Nat.mod_lt _ (by decide)⟩
theorem wit_resume : ∀ p ∈ [(asked 3 1 0x400000000, some 11, false, []), (resumed 0, none, false, [1]), (resumedLent 0x401000000, none, true, [1])],
    ∃ l, p.1.saveArea 0 = some l ∧ p.1.saveCells 0 = [] ∧ p.1.areaBusy l = false ∧
      let v := p.1.areaTouched l
      v.resumeCells 0 l = [] ∧ v.areaBusy (l ++ v.resumeReach 0 l ++ v.onWay 0) = false ∧ v.resumeRefusal 0 l = p.2.1 ∧ v.portArea l = false ∧
        v.onWay 0 = [] ∧ v.onWay 1 = [] ∧ v.resumeParks 0 l = p.2.2.1 ∧ (v.fullSlots l).map (·.val) = p.2.2.2 ∧ v.partnerEnding 0 l = false ∧
        (v.parkArea (partnerOf 0)).any (fun m => m.all fun a => decide (2 ^ 24 ≤ a.1)) = p.2.2.1 ∧ (l.all fun b => decide (b.1 + b.2 ≤ 2 ^ 24)) = true := by
  have h : ∀ p ∈ [(asked 3 1 0x400000000, some (11 : BitVec 4), false, []), (resumed 0, none, false, [1]), (resumedLent 0x401000000, none, true, [1])],
      p.1.saveCells 0 = [] ∧ (∀ i : Fin 8, (p.1.hbm[i.val]).asleep = [] ∧ (p.1.hbm[i.val]).holds = []) ∧
      ((p.1.saveArea 0).any fun l =>
        decide (p.1.resumeCells 0 l = [] ∧ p.1.resumeRefusal 0 l = p.2.1 ∧ p.1.portArea l = false ∧
        p.1.onWay 0 = [] ∧ p.1.onWay 1 = [] ∧ p.1.resumeParks 0 l = p.2.2.1 ∧ (p.1.fullSlots l).map (·.val) = p.2.2.2 ∧ p.1.partnerEnding 0 l = false ∧
        (p.1.parkArea (partnerOf 0)).any (fun m => m.all fun a => decide (2 ^ 24 ≤ a.1)) = p.2.2.1 ∧ (l.all fun b => decide (b.1 + b.2 ≤ 2 ^ 24)) = true)) = true := by
    decide +kernel
  intro p hp
  obtain ⟨h1, h2, h3⟩ := h p hp
  obtain ⟨l, hl, hq⟩ := some_of_any h3
  have a := p.1.areaTouched_touched l
  have w := State.areaTouched_awake (fun i => (awake_of h2 i).1) l
  refine ⟨l, hl, h1, areaBusy_free h2 l, ?_⟩
  simp only [a.resumeCells, a.resumeRefusal, a.portArea, a.onWay, a.resumeParks, a.fullSlots, a.partnerEnding, a.parkArea]
  have q := of_decide_eq_true hq
  exact ⟨q.1, by simp [State.areaBusy, w, awake_of h2], q.2⟩
theorem wit_resume_waits : ∃ l, resumedHeld.saveArea 0 = some l ∧ resumedHeld.saveCells 0 = [] ∧ resumedHeld.areaBusy l = false ∧
    (resumedHeld.areaTouched l).heldUp 0 ((resumedHeld.areaTouched l).resumeCells 0 l) = true := by
  have h : resumedHeld.saveCells 0 = [] ∧ (∀ i : Fin 8, (resumedHeld.hbm[i.val]).asleep = []) ∧
      ((resumedHeld.saveArea 0).any fun l =>
        !(l.any fun x => decide (x.1 < hostBase) && !(resumedHeld.stack (x.1 / 2 ^ 37)).holds.isEmpty && resumedHeld.holdsAny true [x]) &&
        resumedHeld.holdsAny true (resumedHeld.resumeCells 0 l)) = true := by decide +kernel
  have k : ∀ i, (resumedHeld.stack i).asleep = [] := fun i => h.2.1 ⟨i % 8, Nat.mod_lt _ (by decide)⟩
  obtain ⟨l, hl, hq⟩ := some_of_any h.2.2
  simp only [Bool.and_eq_true, Bool.not_eq_true'] at hq
  have a := resumedHeld.areaTouched_touched l
  have w := State.areaTouched_awake k l
  exact ⟨l, hl, h.1, (areaBusy_awake k l).trans hq.1, heldUp_of_held ((a.holdsAny w.2 true _).trans (a.resumeCells 0 l ▸ hq.2))⟩

/-- A walk to a 1 GiB page of vault 0 at 0x480000000, under partition 0's root at 0x100000: its tables of levels 4 and 3
hold one entry each, and that of level 2 a leaf. The leaf after it names a host page. -/
def walked (ea : DWord) (held : Held) : State :=
  let s := { (packed.putDie 0 Die.fresh) with clk := 5 }.putPart 0 { Partition.fresh with en := true, key := true, cols := 1, ptroot := 0x100001 }
  let s := ((s.store 0x100000 (leBytes 8 0x101001)).store 0x101000 (leBytes 8 0x102001)).store (0x102000 + 8 * 18) (leBytes 8 0xD)
  let s := s.store (0x102000 + 8 * 19) (leBytes 8 (2 ^ 52 + 0xD))
  let e (i : Instr) : QEntry := { entry i ea with held := held }
  s.upd fun x => { x with q := { x.q with ld := [e (.ld .w32 .ts 9 1 0)], st := [e (.st .w32 .ts 1 (.reg 2 0))] } }
/-- R324: the walk fills the TLB, and the entry goes on; a page that is not present is held under a fault number. -/
theorem test_walk : ((after (.tableWalkComplete 0 0 false) (walked 0x480000000 .walk)).own.tlb.map fun t => (t.va, t.log)) = [(0x480000000, 30)] ∧
    ((after (.tableWalkComplete 0 0 false) (walked 0x500000000 .walk)).fids.map fun f => (f.cause, f.va)) = [(0x1A, 0x500000000)] := by
  decide +kernel
/-- TranslationsAreFoundHeldAndDropped: its clauses in order: a page in a TLB, one that a walk finds, whose tables are free or held; a host
page, for a load and for a form that host memory does not perform; a page that is not present, for a load, for a misaligned one, and one
whose table is poisoned. -/
def walking (i : Instr) (ea : DWord) : State := (walked ea .no).upd fun x => { x with q := { x.q with ld := [{ entry i ea with held := .walk }] } }
def badTable (s : State) : State := { s with poison := [0x102080] }
theorem wit_walks :
    (let s := walked 0x1000 .walk
     s.missOf 0 { entry (.ld .w32 .ts 9 1 0) 0x1000 with held := .walk } = none ∧ s.self.q.ld = [{ entry (.ld .w32 .ts 9 1 0) 0x1000 with held := .walk }]) ∧
    (∀ i ∈ [Instr.ld .w32 .ts 9 1 0, .ldWcell 9 1 0], ∀ va ∈ [0x480000000, 0x4C0000000, 0x500000000, 0x500000001],
      let s := walking i (BitVec.ofNat 64 va)
      i.isPref = false ∧ s.self.q.ld = [{ entry i (BitVec.ofNat 64 va) with held := .walk }] ∧
        s.missOf 0 { entry i (BitVec.ofNat 64 va) with held := .walk } = some va ∧ s.heldUp 0 (s.tableCells 0 va 1) = false ∧ s.flaws = [] ∧
        s.walk 0 va = (if va = 0x480000000 then .page 0 30 true else if va = 0x4C0000000 then .page hostBase 30 true else .cause 0x1A)) ∧
    (let s := heldRows (walking (.ld .w32 .ts 9 1 0) 0x480000000)
     s.missOf 0 { entry (.ld .w32 .ts 9 1 0) 0x480000000 with held := .walk } = some 0x480000000 ∧ s.heldUp 0 (s.tableCells 0 0x480000000 1) = true) ∧
    (let s := badTable (walking (.ld .w32 .ts 9 1 0) 0x480000000)
     s.missOf 0 { entry (.ld .w32 .ts 9 1 0) 0x480000000 with held := .walk } = some 0x480000000 ∧ s.heldUp 0 (s.tableCells 0 0x480000000 1) = false ∧
       s.flaws = [] ∧ s.walk 0 0x480000000 = .cause Code.poison) ∧
    ({ entry (.ldWcell 9 1 0) 0x500000001 with held := .walk } : QEntry).alignment = 64 ∧
    ({ entry (.ld .w32 .ts 9 1 0) 0x500000001 with held := .walk } : QEntry).alignment = 1 ∧
    ((entry (.ld .w32 .ts 9 1 0) 0).placeOk .host = true ∧ (entry (.ldWcell 9 1 0) 0).placeOk .host = false) ∧
    (walked 0 .no).walkFrom 0 0x4C0000000 4 (pteAddr ((walked 0 .no).part 0).ptroot.toNat) = .page hostBase 30 true ∧
    ((walked 0 .no).part 0).ptroot.getLsbD 0 = true ∧ paOk hostBase = true ∧ (3 : DWord).getLsbD 0 = true := by decide +kernel
def held : State := { walked 0x480000000 (.fid 0) with
  fids := [{ fid := 0, part := 0, core := 0, slot := 0, cause := 0x1A, va := 0x480000000 }], nextFid := 1 }
/-- The strand of `held` outside its handler, in it, and frozen; a page request; a kept event and room for it. -/
theorem wit_answers : (∃ f, held.fids.find? (fun g => g.fid == 0 && g.part == 0) = some f ∧
      (decide (f.slot < 8 ∧ f.cause ≠ 0x22 ∧ f.cause ≠ 0x26 ∧ (held.strandAt f.core (slotIx f.slot)).st = .ready ∧
        (held.strandAt f.core (slotIx f.slot)).trap.hm = false ∧ (held.strandAt f.core (slotIx f.slot)).lease.pend = false ∧
        (held.strandAt f.core (slotIx f.slot)).q.st.head?.map (·.held) = some (.fid 0))) = true) ∧
    (∀ s ∈ [held.upd fun x => { x with trap := { x.trap with hm := true } }, held.upd fun x => { x with st := .frozen }],
      (s.fids.find? (fun g => g.fid == 0 && g.part == 0)).map (·.slot) = some 0 ∧ s.self.q.st.head?.map (·.held) = some (.fid 0) ∧
        ((s.self.st = .ready ∧ s.self.trap.hm = true) ∨ s.self.st = .frozen)) ∧
    (let s := walked 0x480000000 (.pri 3 0x480000000 0x1B)
     s.heldPri 3 = [{ core := 0, slot := 0, held := .pri 3 0x480000000 0x1B, code := 0x1B, addr := 0x480000000, agent := 4, pref := false },
                    { core := 0, slot := 0, held := .pri 3 0x480000000 0x1B, code := 0x1B, addr := 0x480000000, agent := 5, pref := false }]) ∧
    (let s := (walked 0x480000000 .no).upd fun x => { x with q := { x.q with ld := [{ entry (.ld .w32 .ts 9 1 0) 0x480000000 with held := .pri 3 0x480000000 0x1B }] } }
     s.heldPri 3 = [{ core := 0, slot := 0, held := .pri 3 0x480000000 0x1B, code := 0x1B, addr := 0x480000000, agent := 4, pref := false }]) ∧
    ((held.putPart 0 { held.part 0 with tlbinvGo := true }).part 0).tlbinvGo = true ∧
    ({ held with pkg := { held.pkg with mtlbinvGo := true } } : State).pkg.mtlbinvGo = true ∧
    (let s := held.putPart 0 { held.part 0 with kept := [7], evprod := 3 }
     (s.part 0).kept = [7] ∧ (s.part 0).evprod + 1 ≠ 9 ∧ (s.part 0).tds ≠ 3 ∧ s.holdsAny true [(96, 32)] = false ∧ s.sleeping [(96, 32)] = false) := by
  refine ⟨some_of_any (by decide +kernel), by decide +kernel, by decide +kernel, by decide +kernel, by decide +kernel, by decide +kernel,
    by decide +kernel⟩
/-! ### Power, partitions, attestation -/

/-- R344: a cap message of 1000 W; R341: an older one changes nothing. -/
theorem test_cap : (after (.rcapmsg 0x0000000103E80010) State.reset).pkg.rcapCap = 1000 ∧
    (after (.rcapmsg 0x0000000203E80010) (after (.rcapmsg 0x0000000303E80010) State.reset)).pkg.rcapSeq = 3 := by decide +kernel
/-- PowerHeatAndTimeFollowTheirRules: the end of a window, a clk inside one, and an end that has been drawn. -/
theorem wit_draw : (∀ n c k, ({ State.reset with clk := n } : State).overdrawn c k = false) ∧
    (let s := { State.reset with clk := 256 }
     s.clk % 256 = 0 ∧ s.drawnAt ≠ s.clk) ∧ ({ State.reset with clk := 3 } : State).clk % 256 ≠ 0 ∧
    (let s := { State.reset with clk := 256, drawnAt := 256 }
     s.drawnAt = s.clk) := by
  refine ⟨fun n c k => ?_, by decide +kernel⟩
  have h : (({ State.reset with clk := n } : State).seg (segOf c)).ove = false := rfl
  simp [State.overdrawn, h]
/-- PowerHeatAndTimeFollowTheirRules: an alert whose period has passed, with strand 0 of the management core DORMANT and READY. -/
def alerted (f : Strand → Strand) : State :=
  { State.reset with clk := 9, pkg := { Package.fresh with talrtEn := true, alerting := 1, rcapSeen := true, rcapSeq := 5, rcapExpiry := some 8 } }.updAt 2048 0 f
theorem wit_power : (∀ s ∈ [alerted id, alerted fun x => { x with st := .ready }], s.pkg.talrtEn = true ∧ s.pkg.alerting ≠ 0 ∧ s.pkg.alertAt ≤ s.clk) ∧
    ((alerted id).strandAt 2048 0).st = .dormant ∧ ((alerted fun x => { x with st := .ready }).strandAt 2048 0).st = .ready ∧
    ((alerted fun x => { x with st := .ready }).strandAt 2048 0).trap.hm = false ∧
    ((alerted fun x => { x with st := .ready }).strandAt 2048 0).lease.pend = false ∧ State.reset.pkg.talrtEn = false ∧
    State.reset.pkg.alerting = 0 ∧ ((State.reset.stack 0).asleep.contains (pcIx 0 0) = false ∧ 0 < 24 ∧ 0 < 64) ∧
    (let s := { (State.reset.putVault 0 0 { n := 4, busy := false }) with clk := 2 ^ 20 }
     (s.vault 0 0).n.toNat ≤ 4 ∧ 4 < 24 ∧ SMap.get 0 (s.stack 0).lastUse (pcIx 0 4) + 2 ^ 20 ≤ s.clk ∧ (s.stack 0).asleep.contains (pcIx 0 4) = false) ∧
    State.reset.pkg.rcapSeen = false ∧ ((alerted id).pkg.rcapSeen = true ∧ (0x600000000 : DWord).extractLsb' 32 32 ≠ (alerted id).pkg.rcapSeq ∧
      ((0x600000000 : DWord).extractLsb' 32 32 - (alerted id).pkg.rcapSeq).toNat < 2 ^ 31 ∧
      (0x500000000 : DWord).extractLsb' 32 32 = (alerted id).pkg.rcapSeq) ∧
    ((alerted id).pkg.rcapExpiry = some 8 ∧ 8 ≤ (alerted id).clk) ∧ (0 : BitVec 5) ≠ State.reset.pkg.ptpsrc := by decide +kernel
/-- PartitionsLinksAndBringUp: partitions off, refused, on and in their clearing; a stream; FULL; a flaw; registers. -/
theorem wit_partitions :
    (let s := State.reset.putPart 0 { Partition.fresh with cols := 1 }
     (s.part 0).en = false ∧ s.enableRefused 0 = false) ∧ ((State.reset.part 0).en = false ∧ State.reset.enableRefused 0 = true) ∧
    ((packed.part 0).en = true ∧ 0 ∈ packed.coresOf 0) ∧
    (let s := packed.putPart 0 { packed.part 0 with en := false, scrub := true }
     ∀ b ∈ [true, false], let s := if b then heldRows s else s
       (s.part 0).scrub = true ∧ (s.part 0).cols.getLsbD 0 = true ∧ (homeVaults (s.part 0).cols).any s.vaultBusy = b) ∧
    (∀ x ∈ [(heldRows State.reset, true), (State.reset, false)], x.1.areaBusy [(0 * 2 ^ 37 + 5 * 64, 64)] = x.2) ∧
    (State.reset.streamAt 0 0).closed = false ∧
    (let s := { State.reset with flaws := [(0 * 2 ^ 37 + 5 * 64, false)] }
     s.areaBusy [(0 * 2 ^ 37 + 5 * 64, 64)] = false ∧ s.flaws = [(0 * 2 ^ 37 + 5 * 64, false)] ∧ (s.stack 0).corr ≠ 0xFFFFFF) ∧
    ctlAligned 0x03000000 false = true ∧ State.reset.maps (.vf 0) (regOf 0x03000000) = false ∧ State.reset.maps .pf (regOf 0x03000000) = true ∧
    regOf 0x03000000 = .seg 0 0 ∧ (laneMask 0x03000000 false).getLsbD 0 = true := by decide +kernel
/-- A double-bit error of a row of an unassigned vault, and of one of partition 0, whose ring has no room. -/
theorem wit_flaws :
    (let s := { State.reset with flaws := [(0 * 2 ^ 37 + 5 * 64, true)] }
     s.areaBusy [(0 * 2 ^ 37 + 5 * 64, 64)] = false ∧ s.flaws = [(0 * 2 ^ 37 + 5 * 64, true)] ∧ (s.stack 0).unc ≠ 0xFFFF ∧ s.partOfKey (0 * 2 ^ 37 + 5 * 64) = none) ∧
    (let s := { (packed.putPart 0 { packed.part 0 with evprod := 8, evcons := 9 }) with flaws := [(0 * 2 ^ 37 + 5 * 64, true)] }
     s.areaBusy [(0 * 2 ^ 37 + 5 * 64, 64)] = false ∧ (s.stack 0).unc ≠ 0xFFFF ∧ s.partOfKey (0 * 2 ^ 37 + 5 * 64) = some 0 ∧ (s.part 0).kept = [] ∧ (s.part 0).evprod + 1 = (s.part 0).evcons) := by
  decide +kernel
/-- Registers of each block that the statement names, at their offsets; counters; the registers of a partition, unlocked and locked, with
a threshold that its count has reached. -/
theorem wit_registers :
    ([(0x03070000, Reg.stack 0 0), (0x03800000, .cerr 0 0), (0x03880000, .park 0), (0x03050040, .pkg 0x40), (0x03050050, .pkg 0x50),
      (0x02000000, .part 0 0x00), (0x02000028, .part 0 0x28), (0x02000040, .part 0 0x40), (0x02000080, .part 0 0x80)] : List (Nat × Reg)).all (fun p =>
        regOf p.1 == p.2 && ctlAligned p.1 true && State.reset.maps .pf p.2 && (laneMask p.1 true).getLsbD 0) = true ∧
    ([(0x02000000, Reg.part 0 0x00), (0x02000080, .part 0 0x80)] : List (Nat × Reg)).all (fun p => State.reset.maps (.vf 0) p.2) = true ∧
    ((State.reset.coreAt 0).corr = ⟨(0 : BitVec 16).toNat, 0⟩ ∧ (State.reset.coreAt 0).repair = ⟨(0 : Byte).toNat, 0⟩ ∧
      (State.reset.coreAt 0).unc = ⟨(0 : Byte).toNat, 0⟩) ∧
    ((packed.part 0).en = true ∧ (packed.part 0).tds = 0 ∧ ((packed.putPart 0 { packed.part 0 with tds := 1 }).part 0).tds ≠ 0) ∧
    (let s := packed.putPart 0 { packed.part 0 with mck := 5, thr := 0 }
     let w : DWord := 0x30000
     w.extractLsb' 16 8 ≠ 0 ∧ (s.part 0).thr = 0 ∧ (w.extractLsb' 16 8).toNat ≤ ((s.part 0).mck &&& ~~~(w.extractLsb' 0 16)).toNat) ∧
    (0x80000001 : DWord).extractLsb' 16 8 = 0 := by decide +kernel
/-- A package brought up, with every slot DORMANT, and with one that is not. -/
def readyWith (n : Nat) (f : Strand → Strand) : State := (ready n).updAt 2048 0 f
theorem columns_ready (s : State) (n : Nat) (h : 64 ≤ n) (hh : s.hbm = (ready n).hbm) (hs : s.segs = (ready n).segs) (hp : s.pkg = (ready n).pkg)
    (hc : ∀ c, c < 2048 → s.coreAt c = (ready n).coreAt c) : s.fullAllowed = true := by
  have hst : ∀ h, (s.stack h).trained = true := by
    intro h
    simp [State.stack, hh, ready]
  have hseg : ∀ g, g < 1024 → (s.seg g).trimmed = true := by
    intro g hg
    rw [State.seg, hs, ready, get_everywhere _ _ _ _ (by omega)]
  have hcore : ∀ c, c < 2048 → (s.coreAt c).scopeSet = 0xF := by
    intro c hl
    rw [hc c hl, State.coreAt, ready, get_everywhere _ _ _ _ (by omega)]
  have hptp : s.pkg.ptpOn = true := by rw [hp]; rfl
  simp only [State.fullAllowed, State.colReady, Bool.and_eq_true, List.all_eq_true, List.mem_range, hst, hptp, beq_iff_eq, true_and, and_true,
    implies_true]
  exact fun g hg => ⟨fun i hi => hseg _ (by omega), fun i hi => hcore _ (by omega)⟩
theorem ready_allowed (n : Nat) (h : 64 ≤ n) (f : Strand → Strand) : (ready n).fullAllowed = true ∧ (readyWith n f).fullAllowed = true := by
  refine ⟨columns_ready _ n h rfl rfl rfl fun _ _ => rfl, columns_ready _ n h rfl rfl rfl fun c hc => ?_⟩
  rw [readyWith, State.updAt, State.putStrand, State.putCore, State.coreAt, SMap.get_put_other _ _ _ _ _ (by omega)]
  rfl
theorem wit_full (n : Nat) : (ready n).allDormant = true ∧ (readyWith n fun x => { x with st := .ready }).allDormant = false ∧
    (ready n).pkg.full = false := by
  refine ⟨?_, ?_, rfl⟩
  · simp only [State.allDormant, ready, everywhere, List.all_map, List.all_eq_true]
    have h : (List.range 8).all (fun k => ((Core.fresh).strands[k % 9]'(Nat.mod_lt _ (by decide))).st == .dormant) = true := by
      decide +kernel
    intro _ _
    exact h
  · simp only [State.allDormant, readyWith, State.updAt, State.putStrand, State.putCore, SMap.put, SMap.splice, List.all_append,
      List.all_cons, List.all_nil, Bool.and_true, Bool.and_eq_false_iff]
    refine .inl (.inr ?_)
    rw [List.all_eq_false]
    exact ⟨0, by decide, by simp⟩

/-- AttestationOpensSessions: a connection in each of its phases. -/
theorem wit_attestation : Func.pf.responder = some 0 ∧
    (∀ p ∈ [Spdm.start, .version, .capabilities, .negotiated, .handshake, .session],
      ((State.reset.putResponder 0 { phase := p, out := [] }).responderAt 0).phase = p) ∧
    (let s := (packed.putResponder 1 { phase := .session, out := [] })
     s.inSession 0 = true ∧ (s.part 0).en = true ∧ (s.part 0).scrub = false ∧ (s.part 0).tds = 0 ∧
     ((s.putPart 0 { s.part 0 with tds := 1 }).part 0).tds = 1) ∧ packed.inSession 0 = false := by decide +kernel

/-! ### Words written out from the spec -/

/-- Words of the spec's examples and programs, of every family of sequencer words. -/
theorem test_decode_seq : ([(0x4000488500000003, Instr.ld .w8 .tz 9 4 3), (0x2004014000000001, .dset 0 (.lit1 1 10)),
    (0x2C00000000000004, .ckpt 4), (0x1600A28000000110, .extz 20 20 16 8), (0x3502080000000200, .amovL2 1 0x200),
    (0x7100000000000001, .waitf 1), (0x470000000000000F, .sfen 15), (0xB100002000000000, .pks 1), (0x8600004000000006, .port 2 6),
    (0x6000000000000003, .br 3), (0x2300016000000000, .dint 0 11)] : List (Nat × Instr)).all
      (fun p => decodeTableWord 64 p.1 == some p.2) = true := by decide +kernel
/-- Words of the examples of the matrix and vector engines. -/
theorem test_decode_engine : ([(0x012201804200, Instr.mload { pop := 1, push := 0, each := true, rpt := 3, step := 2, k := false, x := 2, y := 0, z := 0 }),
    (0x060800000451, .mdrain { pop := 0, push := 2, each := false, rpt := 0, step := 0, k := false, x := 4, y := 5, z := 1 }),
    (0x092600000004, .mnest { pop := 1, push := 1, each := true, rpt := 0, step := 0, k := false, x := 0, y := 0, z := 4 }),
    (0x40820F800601, .vadd { pop := 4, push := 0, each := true, rpt := 31, step := 0, k := false, x := 6, y := 0, z := 1 }),
    (0x5B0000100800, .vld { pop := 0, push := 0, each := false, rpt := 0, step := 0x80, k := false, x := 8, y := 0, z := 0 }),
    (0xF00000000000, .mstop { pop := 0, push := 0, each := false, rpt := 0, step := 0, k := false, x := 0, y := 0, z := 0 })] :
      List (Nat × Instr)).all (fun p => decodeTableWord 48 p.1 == some p.2) = true := by decide +kernel
/-- The worked CCOPY of the copy engine's chapter. -/
theorem test_decode_chain :
    decodeTableWord 256 (0x0000000400000008 * 2 ^ 192 + 0x8000 * 2 ^ 128 + 0x0000000400000000 * 2 ^ 64 + 0x003000FF00001601) =
      some (.ccopy { dpstr := 0, drstr := 4, spstr := 0, srstr := 8, addr1 := 0x8000, addr0 := 0x400000000, n1m := 3, lenm := 255, n2m := 0,
                     fn := 5, setf := true, tkp := false }) := by decide +kernel
/-- Words that the spec calls undefined: an opcode outside the table, a field of an unused operand, an engine word of an opcode that names no form, a
chain entry of opcode 0; and a word that is cut short. -/
theorem test_decode_undefined : decodeTableWord 64 0xFF00000000000000 = none ∧ decodeTableWord 64 0x7100000000010001 = none ∧
    decodeTableWord 48 0x0A0000000000 = none ∧ decodeTableWord 256 0 = none ∧ (decode .seq [0, 0, 0, 0, 0, 0, 0]).toOption = none := by
  decide +kernel

/-! ### Terms that stand for no word -/

/-- Each check of WellFormed refuses a term. -/
theorem test_wf_words : ([.exts 0 0 0 0, .extz 0 0 31 2, .alld 0 1, .alld 60 8, .ascl 0 0 0 7, .ld .w64 .ts 0 0 0, .ld .w8 .ta 0 0 0,
    .ld .w32 .ta 32 0 0, .st .w16 .ta 0 (.reg 0 0), .st .w64 .tz 0 (.lit 0), .mark 0, .qfen 1, .loop 0 0, .looprp (-1)] :
      List Instr).all (fun i => !i.wf) = true := by decide +kernel
theorem test_wf_engine : ([.mzero { word 0 0 0 with step := 1 }, .mload (word 0 4 0), .mload (word 0 1 14), .mloadg (word 0 3 0),
    .mstore (word 0 0 1), .mmac { word 0 0 1 with step := 0 }, .mmacs (word 0 3 0), .mdrain { word 0 1 2 with step := 0 },
    .mhad { word 0 1 3 with step := 0 }, .mtrn { word 0 0 0 with step := 0 }, .mnest { word 0 0 6 with rpt := 0, step := 0 },
    .mstop { word 0 0 0 with step := 0 }, .mnop (word 0 0 0), .vadd { word 8 0 0 with step := 0x08 }, .vadd { word 5 0 0 with step := 0 },
    .vadd { word 8 7 0 with step := 0 }, .vfma { word 8 0 0 with step := 0, k := true }, .vand { word 8 0 0 with step := 0 },
    .vabs { word 8 0 1 with step := 0 }, .vld { word 8 6 0 with step := 0 }, .vst { word 8 8 0 with step := 0 },
    .vpst { word 8 8 0 with step := 0 }, .vcvt 1 1 { word 8 0 0 with step := 0 }, .vstop { word 0 0 0 with step := 0 },
    .vnop (word 0 0 0)] : List Instr).all (fun i => !i.wf) = true := by decide +kernel
def entry0 : CEntry := CEntry.unpack 0
theorem test_wf_chain : ([.cgath { entry0 with n2m := 1 }, .cscat { entry0 with n2m := 1 }, .cfill { entry0 with srstr := 1 },
    .cwait { entry0 with n1m := 1 }, .cwait { entry0 with addr1 := 0x100000000 }, .cpost entry0, .catom { entry0 with lenm := 3, srstr := 6 },
    .catom { entry0 with lenm := 3, srstr := 0x10 }, .catom { entry0 with lenm := 3, addr0 := 2 }, .clink { entry0 with addr1 := 1 },
    .cend { entry0 with addr0 := 1 }, .cnop { entry0 with dpstr := 1 }] : List Instr).all (fun i => !i.wf) = true := by decide +kernel
theorem test_wf_agents : ([.queueEntryIssue 2049 0 true, .taskSwitch 0 8, .leaseGrant 1024, .park 2049, .rotation 4, .partitionEnable 16,
    .stackTrained 8, .refreshDue 0 16 0 0 true, .refreshDue 0 0 24 0 true, .refreshDue 0 0 0 64 true, .sensorSample [.seg 1024 0],
    .sensorSample [.group 0 32 0 0]] : List Instr).all (fun i => !i.wf) = true := by decide +kernel

/-! ### A step -/

/-- A word placed for the next step is the word that runs: AMOV.L2 A1, and an MSTOP. -/
theorem test_step_word : (match step (State.reset.withFetchWord 64 0x3502080000000200) with
    | .next t => (t.strandAt 0 0).a[1] == 0x200 && (t.strandAt 0 0).pc == 8
    | _ => false) = true := by decide +kernel
theorem test_step_mstop : (match step (State.reset.withFetchWord 48 0xF00000000000) with
    | .next t => (t.strandAt 0 0).curMe.isSome
    | _ => false) = true := by decide +kernel

/-- DecodeAndEncodeAgree: a well-formed instruction with its words, and words that decode. -/
theorem wit_encode : (Instr.ckpt 4).wf = true ∧ encode (.ckpt 4) = some (.seq, leBytes 8 0x2C00000000000004) ∧
    (decode .seq (leBytes 8 0x2C00000000000004)).toOption = some (.ckpt 4) := by decide +kernel
/-- StepRunsTheDecodedInstruction: an issue of a word, of one that is not defined, and of one that the management core does not
have; the word of an engine and the entry of a chain; an event. -/
def issuing (c : Nat) (w : Nat) : State :=
  { (State.reset.updAt c 0 fun x => { x with st := .ready }).write (imemKey c 0) (leBytes 8 w) with agenda := [.issue c 0] }
def taken (c : Nat) (s : State) : State := { s with agenda := [], steps := s.steps + 1, core := c, slot := slotIx 0 }
theorem wit_step_issue : ([(0, 0x2C00000000000004), (0, 0xFF00000000000000), (2048, 0x8000000000000000)] : List (Nat × Nat)).all (fun p =>
    let s := issuing p.1 p.2
    let t := taken p.1 s
    let m := t.meetFlaws p.1 (slotIx 0).val [(imemKey p.1 t.self.pc.toNat, 8)]
    s.service && (s.agenda == [.issue p.1 0]) && !t.alertDue p.1 0 && t.canTry p.1 0 && (t.self.heldLoad.isNone) &&
      !m.poisoned (imemKey p.1 m.self.pc.toNat) 8 && m == t) = true := by decide +kernel
/-- A word whose row holds a double-bit error that its fetch finds; a held alert for strand 0 of the management core. -/
theorem wit_step_flaw :
    (let t := taken 0 { issuing 0 0x2C00000000000004 with flaws := [(imemKey 0 0, true)] }
     let m := t.meetFlaws 0 (slotIx 0).val [(imemKey 0 t.self.pc.toNat, 8)]
     t.canTry 0 0 = true ∧ t.alertDue 0 0 = false ∧ t.self.heldLoad = none ∧ m.poisoned (imemKey 0 m.self.pc.toNat) 8 = true) ∧
    (let s := issuing 2048 0x2C00000000000004
     (taken 2048 { s with pkg := { s.pkg with alertHeld := true } }).alertDue 2048 0 = true) := by decide +kernel
theorem wit_step_words :
    (let t := taken 0 (issuing 0 0x2C00000000000004)
     (decode .seq (t.read (imemKey 0 t.self.pc.toNat) 8)).toOption = some (.ckpt 4) ∧ (Instr.ckpt 4).blockedBy (t.own.awaited t.slot) = false ∧
       (t.repaired (.ckpt 4)).isSome = true) ∧
    (let t := taken 0 (issuing 0 0xFF00000000000000)
     (decode .seq (t.read (imemKey 0 t.self.pc.toNat) 8)).toOption = none) ∧
    (let t := taken 2048 (issuing 2048 0x8000000000000000)
     (decode .seq (t.read (imemKey 2048 t.self.pc.toNat) 8)).toOption = some (.enqMe 0) ∧ (Instr.enqMe 0).notMgmt = true) := by decide +kernel
def fetching (w : Nat) : State := (engine 0 1).write (imemKey 0 0) (leBytes 6 w)
theorem wit_step_engine :
    (let t := taken 0 (fetching 0xF00000000000)
     (t.own.dark = false ∧ (t.own.eng .me).serving = some 0) ∧ t.self.cursor .me = some (Cursor.start 0 1) ∧
       t.self.head .me = some (command (.stream none)) ∧ (Cursor.start 0 1).phase = .fetch ∧ t.withheld 0 = false ∧
       (Cursor.start 0 1).nestEntry = false ∧ t.fetchEng (.stream none) (Cursor.start 0 1) = .word 0xF00000000000 [] ∧
       (decodeEng false (BitVec.ofNat 48 0xF00000000000)).toOption.isSome = true) ∧
    (let t := taken 0 ((engine 0 1).store (localKey 0 0) (leBytes 32 0x09))
     t.self.cursor .ce = some (Cursor.start 0 1) ∧ t.self.head .ce = some (command (.stream none)) ∧ (Cursor.start 0 1).held = .no ∧
       (t.fetchChain (.stream none) (Cursor.start 0 1)).toOption.map (·.2.2) = some 0x09 ∧ (decodeChain (BitVec.ofNat 256 0x09)).toOption.isSome) := by
  decide +kernel
/-- An error of a queue whose machine check is to come; an atomic action of a chain that a replay issues again; a moment of an access. -/
theorem wit_step_others :
    (let t := taken 0 ((issuing 0 0).upd fun x => { x with bad := [(3, 0)] })
     t.alertDue 0 0 = false ∧ t.self.flawed = true ∧ t.self.traps = true) ∧
    (∀ c ∈ [0, 2048], (taken c (issuing c 0)).self.flawed = false) ∧
    (let e := { twoRows with addr1 := 4, n1m := 0, lenm := 0, addr0 := 0x100000000 }
     let a : Struck := { tag := some { ctx := 0, seq := 0 }, ra := [(ballBase, 4)], hit := false, replay := some 0 }
     let s := { striking (some a) [] with agenda := [.engine 0 .ce] }
     let s := s.upd fun x => { x with curCe := x.curCe.map fun u => { u with word := BitVec.ofNat 256 (leNat ((encode (.cpost e)).elim [] (·.2))) } }
     s.service = true ∧ (s.coreAt 0).dark = false ∧ (({ s with agenda := [] } : State).restrikeSlot 0).isSome = true) ∧
    (taken 0 (engine 0 1)).restrikeSlot 0 = none ∧
    ({ State.reset with agenda := [.part 0 0 true] } : State).service = true := by decide +kernel
/-- The reads of the ME word and of the chain entry that run have begun. -/
theorem wit_step_moments : ([.me, .ce] : List Eng).all (fun e =>
    let s := (engine 0 1).upd fun x => { x with curMe := x.curMe.map fun u => { u with phase := .run, popped := true, word := 0xF00000000000 }
                                                curCe := x.curCe.map fun u => { u with phase := .run, word := 0x09 } }
    let t := taken 0 (s.beginApart 0 e)
    (t.own.eng e).apart != [] && (t.own.eng e).serving == some 0 && ((t.self.cursor e).map (·.phase)) == some .run && !t.withheld 0 &&
      (t.opened 0 e).view != [] && ((t.opened 0 e).own.eng e).apart == []) = true := by decide +kernel
theorem wit_step_event : ({ State.reset with agenda := [.event .alertPeriodExpiry] } : State).service = true := rfl
/-- MemoryStaysCanonical and DomainsStayCanonical: a state whose memory lists something and whose domains stand, and its step. -/
theorem wit_memory : (State.reset.withFetchWord 64 0x2C00000000000004).memOk = true ∧
    (State.reset.withFetchWord 64 0x2C00000000000004).domainsOk = true ∧
    (match step (State.reset.withFetchWord 64 0x2C00000000000004) with
     | .next _ => true
     | _ => false) = true := by decide +kernel
end Sys2Proof.Tests
end

section
/-! SUPPORT. SYS.LOOPD across an SRW, and what that says of the system registers (R169, R187). -/
namespace Sys2Proof.Machine

/-! ### SYS.LOOPD across the SRW that names it (R169, R187) -/

@[simp] theorem slotIx_val (k : Fin 9) : slotIx k.val = k := Fin.ext (Nat.mod_eq_of_lt k.isLt)

/-- SYS.LOOPD reads the depth of the strand's loop stack, on the management core too. -/
theorem State.sysRead_loopd (s : State) (c k : Nat) :
    s.sysRead c k 0x014 = some (BitVec.ofNat 32 (s.strandAt c (slotIx k)).loops.length) := by
  have hl : mgmtLacks 0x014 = false := by decide
  simp only [State.sysRead, hl, Bool.false_eq_true, and_false, if_false, Strand.reg]

/-- An SRW writes no field of SYS.LOOPD; its word issues. -/
theorem exec_srw_loopd {s : State} {d : DReg} {w : Word} (hw : (s.rd d).val = some w) :
    exec (.srw d 0x014) s = .next (s.sysWrite s.core s.slot 0x014 w).retire := by
  have hread : s.sysRead s.core s.slot.val (0x014 : BitVec 12).toNat = some _ := s.sysRead_loopd _ _
  have hshape : ¬((0x014 : BitVec 12) = 0x030 ∧ !shapeOk w) := by simp
  change execSrw d 0x014 s = _
  simp only [execSrw, hread, State.withVal_some _ _ _ _ hw, if_neg hshape]
  rfl

/-- The strand of an SRW of SYS.LOOPD after it. -/
theorem strandAt_sysWrite_loopd_retire (s : State) (w : Word) :
    (s.sysWrite s.core s.slot 0x014 w).retire.strandAt s.core s.slot = s.self.retire := by
  have hcore : (s.updCore s.core fun y => y.putReg 0x014 w).strandAt s.core s.slot = s.self :=
    State.strandAt_updCore _ _ _ _ (fun y => y.putReg 0x014 w) rfl
  have hself : (s.sysWrite s.core s.slot 0x014 w).self = s.self := by
    rw [← hcore]; exact State.strandAt_updAt _ _ _ _
  rw [← hself]
  exact State.self_upd _ _

/-- What SYS.LOOPD reads after an SRW that names it: the depth of the loop stack that R169 gives after the SRW's own word. -/
theorem srw_loopd_reads {s t : State} {d : DReg} {w : Word} (hw : (s.rd d).val = some w)
    (ht : exec (.srw d 0x014) s = .next t) :
    t.sysRead s.core s.slot.val 0x014 = some (BitVec.ofNat 32 (afterWord s.self.pc s.self.loops).2.length) := by
  obtain rfl : (s.sysWrite s.core s.slot 0x014 w).retire = t := 
    Host.Outcome.next.inj ((exec_srw_loopd hw).symm.trans ht)
  rw [State.sysRead_loopd, slotIx_val, strandAt_sysWrite_loopd_retire]
  rfl

/-- A strand at word 0 that is the last word of its one loop, in its last turn. -/
def loopEnds : State := State.reset.upd fun x => { x with st := .ready, loops := [{ start := 0, last := 0, left := 1 }] }

/-- Refutes O29: SYS.LOOPD is read-only, but the SRW that names it is itself a word of the strand. Where that word is the last of a
loop in its last turn, the loop leaves the stack with it (R169), and SRR reads 0 after it where it read 1 before. -/
theorem not_systemRegistersAreReadAndWritten : ¬ Obligations.SystemRegistersAreReadAndWritten := by
  unfold Obligations.SystemRegistersAreReadAndWritten
  intro h
  have hval : (loopEnds.rd 0).val = some 0 := by decide
  have hbefore : loopEnds.sysRead loopEnds.core loopEnds.slot.val 0x014 = some 1 := by decide
  have hafter : (afterWord loopEnds.self.pc loopEnds.self.loops).2.length = 0 := by decide
  obtain ⟨hassigned, -⟩ := h loopEnds 0 0x014 1 0
  obtain ⟨-, -, hwrite, -⟩ := hassigned hbefore
  obtain ⟨t, ht, -, -, -, hreads⟩ := hwrite hval (.inl (by decide))
  have hclaimed : t.sysRead loopEnds.core loopEnds.slot.val 0x014 = some 1 := hreads (0x014, 1) (by simp) rfl
  rw [srw_loopd_reads hval ht, hafter] at hclaimed
  exact absurd hclaimed (by decide)

end Sys2Proof.Machine
end

section
/-! SUPPORT. Blocks that are put, and the strands that a partition's disabling stops (R23, R351). -/
namespace Sys2Proof.Machine

/-! ### What a fold of state changes keeps and reaches -/

/-- What every change of a fold keeps, and one of them brings about, holds after the fold. -/
theorem foldl_reaches {α : Type} {P : State → Prop} {f : State → α → State} {a : α} (keeps : ∀ s b, P s → P (f s b))
    (reaches : ∀ s, P (f s a)) (l : List α) (s : State) (h : a ∈ l) : P (l.foldl f s) := by
  induction l generalizing s with
  | nil => cases h
  | cons b l ih =>
    rcases List.mem_cons.1 h with rfl | h
    · exact List.foldlRecOn l f (reaches s) fun t ht x _ => keeps t x ht
    · exact ih _ h

/-! ### Reading a block after it is put -/

@[simp] theorem State.part_putPart (s : State) (p : Nat) (x : Partition) : (s.putPart p x).part p = x := by
  simp [State.part, State.putPart]
@[simp] theorem State.stack_putStack (s : State) (h : Nat) (x : Stack) : (s.putStack h x).stack h = x := by
  simp [State.stack, State.putStack]
@[simp] theorem State.seg_putSeg (s : State) (g : Nat) (x : Segment) : (s.putSeg g x).seg g = x := SMap.get_put_same _ _ _ _
@[simp] theorem State.streamAt_putStream (s : State) (port i : Nat) (x : Stream) : (s.putStream port i x).streamAt port i = x :=
  SMap.get_put_same _ _ _ _

/-! ### Strands that stop stay stopped (R23, R351) -/

/-- A strand that neither runs nor waits: FROZEN or DORMANT. -/
def Strand.Stopped (x : Strand) : Prop := x.st = .frozen ∨ x.st = .dormant
/-- Slot `k` of core `c` holds such a strand. -/
def State.StoppedAt (s : State) (c : Nat) (k : Fin 9) : Prop := (s.strandAt c k).Stopped

theorem Strand.freeze_st (x : Strand) : x.freeze.st = .frozen := by
  unfold Strand.freeze
  split
  · assumption
  · split <;> rfl
theorem Strand.freeze_stopped (x : Strand) : x.freeze.Stopped := .inl x.freeze_st

section
variable {s : State} {c : Nat} {k : Fin 9}

theorem State.StoppedAt.of_cores {t : State} (h : s.StoppedAt c k) (e : t.cores = s.cores) : t.StoppedAt c k := by
  unfold State.StoppedAt State.strandAt State.coreAt at *
  rwa [e]

/-- A change of one strand that stops it, or leaves it stopped where it was. -/
theorem State.StoppedAt.updAt (h : s.StoppedAt c k) (j : Nat) (m : Fin 9) {f : Strand → Strand}
    (hf : (s.strandAt j m).Stopped → (f (s.strandAt j m)).Stopped) : (s.updAt j m f).StoppedAt c k := by
  unfold State.StoppedAt
  by_cases e : c = j ∧ k = m
  · obtain ⟨rfl, rfl⟩ := e
    rw [State.strandAt_updAt]
    exact hf h
  · rw [State.strandAt_updAt_ne _ _ _ _ _ _ (Decidable.not_and_iff_not_or_not.1 e)]
    exact h

/-- A change of a core that leaves its strands. -/
theorem State.StoppedAt.updCore (h : s.StoppedAt c k) (j : Nat) {f : Core → Core} (hf : ∀ y, (f y).strands = y.strands) :
    (s.updCore j f).StoppedAt c k := by
  unfold State.StoppedAt
  rw [State.strandAt_updCore _ _ _ _ _ (hf _)]
  exact h

theorem State.StoppedAt.mapCores (h : s.StoppedAt c k) (sel : Nat → Bool) {f : Nat → Core → Core}
    (hf : ∀ j y, (f j y).strands = y.strands) : (s.mapCores sel f).StoppedAt c k := by
  have hs : ((s.mapCores sel f).coreAt c).strands = (s.coreAt c).strands := by
    simp only [State.mapCores, State.coreAt]
    induction s.cores with
    | nil => rfl
    | cons a l ih =>
      simp only [List.map_cons, SMap.get, apply_ite Prod.fst, apply_ite Prod.snd, ite_self]
      split
      · split
        · exact hf _ _
        · rfl
      · exact ih
  unfold State.StoppedAt State.strandAt
  rw [show ((s.mapCores sel f).coreAt c).strands[k.val] = (s.coreAt c).strands[k.val] by simp only [hs]]
  exact h

theorem State.StoppedAt.foldl {α : Type} {f : State → α → State} (h : s.StoppedAt c k) (l : List α)
    (hf : ∀ (s : State) (a : α), s.StoppedAt c k → (f s a).StoppedAt c k) : (l.foldl f s).StoppedAt c k :=
  List.foldlRecOn l f h fun t ht a _ => hf t a ht

/-! #### Bit errors and trace records -/

theorem State.StoppedAt.findFlaw (h : s.StoppedAt c k) (key : Nat) (double : Bool) (by_ : Option Nat) :
    (s.findFlaw key double by_).StoppedAt c k := by
  unfold State.findFlaw
  dsimp only
  split
  · split
    · exact h.of_cores (State.poisonRow_beside _ _ _).cores
    · exact h
  · split
    · refine State.StoppedAt.of_cores ?_ (State.poisonRow_beside _ _ _).cores
      refine State.StoppedAt.updCore ?_ _ fun _ => rfl
      exact h.of_cores rfl
    · refine State.StoppedAt.updCore ?_ _ fun _ => rfl
      exact h.of_cores rfl
theorem State.StoppedAt.arriveAt (h : s.StoppedAt c k) (j m : Nat) (l : List (Nat × Nat)) : (s.arriveAt j m l).StoppedAt c k := by
  unfold State.arriveAt
  split
  · exact h
  · have ht : (s.touched l).StoppedAt c k := h.of_cores (s.touched_beside l).cores
    split
    · exact ht
    · exact ht.foldl _ fun t f hs => hs.findFlaw _ _ _
theorem State.StoppedAt.unitWrite (h : s.StoppedAt c k) (j key : Nat) (bs : List Byte) : (s.unitWrite j key bs).StoppedAt c k :=
  h.of_cores (s.unitWrite_beside _ _ _).cores

theorem State.StoppedAt.traceOne (h : s.StoppedAt c k) (j : Nat) (m : Fin 9) (at_ : BitVec 64) (type : Nat) (w2 w3 : DWord) :
    (s.traceOne j m at_ type w2 w3).StoppedAt c k := by
  simp only [State.traceOne]
  split
  · exact (h.unitWrite _ _ _).updAt _ _ fun hs => hs
  · exact h.updAt _ _ fun hs => hs
theorem State.StoppedAt.traceNow (h : s.StoppedAt c k) (j : Nat) (m : Fin 9) (at_ : BitVec 64) (type : Nat) (w2 w3 : DWord) :
    (s.traceNow j m at_ type w2 w3).StoppedAt c k := by
  have ha (l : List (Nat × Nat)) : (s.arriveAt j m.val l).StoppedAt c k := h.arriveAt _ _ l
  simp only [State.traceNow]
  refine State.StoppedAt.traceOne ?_ _ _ _ _ _ _
  split
  · split
    · exact ha _
    · exact (ha _).traceOne _ _ _ _ _ _
  · exact ha _
theorem State.StoppedAt.traceRecord (h : s.StoppedAt c k) (j : Nat) (m : Fin 9) (type : Nat) (w2 w3 : DWord) :
    (s.traceRecord j m type w2 w3).StoppedAt c k := by
  simp only [State.traceRecord]
  split
  · exact h
  · split
    · exact (h.arriveAt _ _ _).of_cores rfl
    · exact h.traceNow _ _ _ _ _ _
theorem State.StoppedAt.traceWait (h : s.StoppedAt c k) (j : Nat) (m : Fin 9) (kind agent num since : Nat) (setter : BitVec 16)
    (setAgent off : Nat) (ended : Bool) : (s.traceWait j m kind agent num since setter setAgent off ended).StoppedAt c k := by
  simp only [State.traceWait]
  split
  · exact h.traceRecord _ _ _ _ _
  · exact h

/-! #### Flags -/

theorem earliest_mem : ∀ {l : List (Nat × Nat)} {a : Nat × Nat}, earliest l = some a → a ∈ l
  | b :: l, a, h => by
    simp only [earliest] at h
    split at h
    · simp_all
    · next e =>
      have := earliest_mem e
      split at h <;> simp_all
/-- The strand that a flag's set goes to is READY or WAITING. -/
theorem Core.flagWaiter_runs {y : Core} {n : BitVec 8} {m : Nat} (h : y.flagWaiter n = some m) :
    ¬ (y.strands[(slotIx m).val]).Stopped := by
  obtain ⟨⟨i, since⟩, hi, rfl⟩ := Option.map_eq_some_iff.1 h
  obtain ⟨j, -, hj⟩ := List.mem_filterMap.1 (earliest_mem hi)
  dsimp only at hj
  split at hj
  · next hw =>
    obtain ⟨rfl, -⟩ : j = i ∧ _ := by simpa using hj
    have hst : y.strands[(slotIx j).val].st = .waiting ∨ y.strands[(slotIx j).val].st = .ready := by
      simp only [Bool.and_eq_true, Bool.or_eq_true, beq_iff_eq] at hw
      exact hw.1
    rintro (e | e) <;> simp [e] at hst
  · simp at hj
/-- A flag's set wakes no strand that has stopped. -/
theorem State.StoppedAt.wakeIdle (h : s.StoppedAt c k) (j : Nat) : (s.updCore j Core.wakeIdle).StoppedAt c k := by
  unfold State.StoppedAt State.strandAt at *
  by_cases e : c = j
  · subst e
    rw [State.coreAt_updCore]
    simp only [Core.wakeIdle, Vector.getElem_map]
    rw [if_neg]
    · exact h
    · rintro ⟨hw, -⟩
      rcases h with h | h <;> simp [hw] at h
  · rw [State.coreAt_updCore_ne _ _ _ _ e]
    exact h
theorem State.StoppedAt.setFlag (h : s.StoppedAt c k) (j : Nat) (n : BitVec 8) (setter : BitVec 16) (agent : Nat) :
    (s.setFlag j n setter agent).StoppedAt c k := by
  have hw := h.wakeIdle j
  simp only [State.setFlag]
  split
  · next m hm =>
    exact (hw.updAt _ _ fun hs => absurd hs (Core.flagWaiter_runs hm)).traceWait _ _ _ _ _ _ _ _ _ _
  · refine hw.updCore _ fun y => ?_
    rfl

/-! #### The end of a TRANSFER and of a capture -/

theorem State.StoppedAt.settleRow (h : s.StoppedAt c k) (j : Nat) (f : Flight) : (s.settleRow j f).StoppedAt c k := by
  unfold State.settleRow
  split
  · split
    · exact h
    · exact h.unitWrite _ _ _
  · exact h
theorem State.StoppedAt.settleAccess (h : s.StoppedAt c k) (j : Nat) (f : Flight) : (s.settleAccess j f).StoppedAt c k := by
  have hp : (if s.dmaStopped j f.place then s else s.putAll (f.out.getD [])).StoppedAt c k := by
    split
    · exact h
    · exact h.of_cores (State.putAll_beside _ s).cores
  have hf {t : State} (ht : t.StoppedAt c k) : (t.nmFlag j f).StoppedAt c k := by
    simp only [State.nmFlag]
    split
    · exact ht.setFlag _ _ _ _
    · exact ht
  simp only [State.settleAccess]
  refine hf ?_
  split
  · exact hp.of_cores rfl
  · exact hp
theorem State.StoppedAt.settleRows (h : s.StoppedAt c k) (j : Nat) : (s.settleRows j).StoppedAt c k :=
  ((h.foldl _ fun _ f hs => hs.settleRow j f).foldl _ fun _ f hs => hs.settleAccess j f).updCore _ fun _ => rfl

theorem State.StoppedAt.finishLaunch (h : s.StoppedAt c k) (j : Nat) (status : BitVec 4) : (s.finishLaunch j status).StoppedAt c k :=
  h.updCore _ fun _ => rfl
theorem State.StoppedAt.reopen (h : s.StoppedAt c k) (l : LaunchId) : (s.reopen l).StoppedAt c k := by
  refine h.mapCores _ fun _ y => ?_
  split <;> rfl
theorem State.StoppedAt.endLaunch (h : s.StoppedAt c k) (j : Nat) (status : BitVec 4) (refused : Bool) :
    (s.endLaunch j status refused).StoppedAt c k := by
  have hr (d : Die) (l : LaunchId) : ((s.putDie (dieOf j) d).reopen l).StoppedAt c k := (h.of_cores rfl).reopen l
  simp only [State.endLaunch]
  split
  · exact (hr _ _).updCore _ fun _ => rfl
  · exact (hr _ _).finishLaunch _ _
theorem State.StoppedAt.endTransfer (h : s.StoppedAt c k) (j : Nat) : (s.endTransfer j).StoppedAt c k := by
  simp only [State.endTransfer]
  split
  · exact h
  · refine State.StoppedAt.endLaunch ?_ _ _ _
    exact State.StoppedAt.updAt (h.of_cores rfl) j 8 (f := fun _ => Strand.fresh) fun _ => .inr rfl
theorem State.StoppedAt.stopTransfer (h : s.StoppedAt c k) (j : Nat) : (s.stopTransfer j).StoppedAt c k := by
  have hd : (s.dropHeld j).StoppedAt c k := h.updCore _ fun _ => rfl
  have he := ((hd.settleRows j).updCore j
    (f := fun y => { y with flights := y.flights.filter fun f => f.slot != 8 }) fun _ => rfl).endTransfer j
  simp only [State.stopTransfer, State.dropTransfer]
  split
  · exact he.endLaunch _ _ _
  · exact he
theorem State.StoppedAt.endCapture (h : s.StoppedAt c k) (j : Nat) : (s.endCapture j).StoppedAt c k := by
  simp only [State.endCapture]
  split
  · exact (h.unitWrite _ _ _).finishLaunch _ _
  · exact h.updCore _ fun _ => rfl

/-! #### Freezing a partition -/

theorem Core.dropEngines_strands (y : Core) (m : Nat) : (y.dropEngines m).strands = y.strands := rfl
theorem State.StoppedAt.freezeAt (h : s.StoppedAt c k) (j : Nat) (m : Fin 9) : (s.freezeAt j m).StoppedAt c k :=
  (h.updAt j m fun _ => Strand.freeze_stopped _).updCore _ fun y => y.dropEngines_strands _
theorem State.freezeAt_stops (s : State) (c : Nat) (k : Fin 9) : (s.freezeAt c k).StoppedAt c k := by
  refine State.StoppedAt.updCore ?_ _ fun y => y.dropEngines_strands _
  unfold State.StoppedAt
  rw [State.strandAt_updAt]
  exact Strand.freeze_stopped _

end

/-- A strand of a partition that stops: it freezes unless its slot is DORMANT. -/
def State.freezeSlot (viol : Bool) (c : Nat) (s : State) (k : Fin 9) : State :=
  if (s.strandAt c k).st = .dormant then s else (s.freezeAt c k).updAt c k fun x => { x with viol := x.viol || viol }
theorem State.freezePart_eq (s : State) (p : Nat) (viol : Bool) :
    s.freezePart p viol = (s.coresOf p).foldl (fun s c => slots8.foldl (State.freezeSlot viol c) s) s := rfl

theorem State.StoppedAt.freezeSlot {s : State} {c : Nat} {k : Fin 9} (h : s.StoppedAt c k) (viol : Bool) (j : Nat) (m : Fin 9) :
    (State.freezeSlot viol j s m).StoppedAt c k := by
  unfold State.freezeSlot
  split
  · exact h
  · exact (h.freezeAt _ _).updAt _ _ fun hs => hs
theorem State.freezeSlot_stops (s : State) (viol : Bool) (c : Nat) (k : Fin 9) : (State.freezeSlot viol c s k).StoppedAt c k := by
  unfold State.freezeSlot
  split
  · next hd => exact .inr hd
  · exact (s.freezeAt_stops c k).updAt _ _ fun hs => hs
theorem mem_slots8 {k : Fin 9} (h : k.val < 8) : k ∈ slots8 :=
  List.mem_map.2 ⟨k.val, List.mem_range.2 h, Fin.ext (Nat.mod_eq_of_lt k.isLt)⟩
/-- R351: the strands of a partition's cores are stopped once it has frozen. -/
theorem State.freezePart_stops (s : State) (p : Nat) (viol : Bool) {c : Nat} {k : Fin 9} (hc : c ∈ s.coresOf p) (hk : k.val < 8) :
    (s.freezePart p viol).StoppedAt c k := by
  rw [State.freezePart_eq]
  refine foldl_reaches (P := fun t => t.StoppedAt c k) (fun t j ht => ?_) (fun t => ?_) _ _ hc
  · exact ht.foldl _ fun u m hu => hu.freezeSlot viol j m
  · exact foldl_reaches (P := fun t => t.StoppedAt c k) (fun u m hu => hu.freezeSlot viol c m)
      (fun u => u.freezeSlot_stops viol c k) _ _ (mem_slots8 hk)
theorem State.freezePart_parts (s : State) (p : Nat) (viol : Bool) : (s.freezePart p viol).parts = s.parts := by
  rw [State.freezePart_eq]
  refine List.foldlRecOn (motive := fun t : State => t.parts = s.parts) _ _ rfl fun t ht c _ => ?_
  refine List.foldlRecOn (motive := fun t : State => t.parts = s.parts) _ _ ht fun u hu k _ => ?_
  unfold State.freezeSlot
  split
  · exact hu
  · exact hu

/-- R351: EN = 0 leaves every strand of the partition's cores stopped. -/
theorem State.disable_stops {s : State} {p : Nat} (hen : (s.part p).en = true) {c : Nat} {k : Fin 9} (hc : c ∈ s.coresOf p)
    (hk : k.val < 8) : (s.disable p).StoppedAt c k := by
  simp only [State.disable, hen, Bool.not_true, Bool.false_eq_true, if_false]
  refine State.StoppedAt.of_cores ?_ rfl
  exact (s.freezePart_stops p false hc hk).foldl _ fun t j ht => (ht.stopTransfer j).endCapture j
/-- R351: EN and the key are gone, and the clearing has begun. -/
theorem State.disable_part {s : State} {p : Nat} (hen : (s.part p).en = true) :
    ((s.disable p).part p).en = false ∧ ((s.disable p).part p).key = false ∧ ((s.disable p).part p).scrub = true := by
  simp only [State.disable, hen, Bool.not_true, Bool.false_eq_true, if_false, State.part_putPart, and_self]

end Sys2Proof.Machine
end

section
/-! SUPPORT. What the patrol scrubber finds, counts, poisons and reports (R329, R365, R366, R368). -/
namespace Sys2Proof.Machine

/-! ### What counting and events leave of the errors that are known (R329, R365, R368) -/

/-- The outstanding errors, the poisoned rows and the error counters of the stacks are as they were. -/
structure State.SameErrors (s t : State) : Prop where
  flaws : t.flaws = s.flaws
  poison : t.poison = s.poison
  corr : ∀ i, (t.stack i).corr = (s.stack i).corr
  unc : ∀ i, (t.stack i).unc = (s.stack i).unc
theorem State.SameErrors.rfl' (s : State) : s.SameErrors s := ⟨rfl, rfl, fun _ => rfl, fun _ => rfl⟩
theorem State.SameErrors.trans {s t u : State} (a : s.SameErrors t) (b : t.SameErrors u) : s.SameErrors u :=
  ⟨b.flaws.trans a.flaws, b.poison.trans a.poison, fun i => (b.corr i).trans (a.corr i), fun i => (b.unc i).trans (a.unc i)⟩

/-- A stack with the counters that it had. -/
theorem State.putStack_sameErrors (s : State) (h : Nat) {x : Stack} (hc : x.corr = (s.stack h).corr) (hu : x.unc = (s.stack h).unc) :
    s.SameErrors (s.putStack h x) := by
  have hx (i : Nat) : (s.putStack h x).stack i = if h % 8 = i % 8 then x else s.stack i := by
    simp only [State.putStack, State.stack, Vector.getElem_set]
  refine ⟨rfl, rfl, fun i => ?_, fun i => ?_⟩
  · rw [hx]
    split
    · next e => rw [hc]; simp only [State.stack, e]
    · rfl
  · rw [hx]
    split
    · next e => rw [hu]; simp only [State.stack, e]
    · rfl
theorem State.touchChannel_sameErrors (s : State) (h i : Nat) : s.SameErrors (s.touchChannel h i).1 := by
  simp only [State.touchChannel]
  split
  · exact s.putStack_sameErrors h rfl rfl
  · exact s.putStack_sameErrors h rfl rfl
theorem State.touchRows_sameErrors (l : List Nat) : ∀ s : State, s.SameErrors (s.touchRows l).1 := by
  induction l with
  | nil => intro s; exact .rfl' s
  | cons a l ih =>
    intro s
    refine State.SameErrors.trans ?_ (ih _)
    simp only [State.touchVault]
    split
    · exact .rfl' s
    · exact s.touchChannel_sameErrors _ _
theorem State.areaTouched_sameErrors (s : State) (l : List (Nat × Nat)) : s.SameErrors (s.areaTouched l) :=
  List.foldlRecOn (motive := fun t => s.SameErrors t) _ _ (.rfl' s) fun t ht _ _ => ht.trans (t.touchChannel_sameErrors _ _)

theorem State.write_sameErrors (s : State) (key : Nat) (bs : List Byte) : s.SameErrors (s.write key bs) :=
  ⟨rfl, rfl, fun _ => rfl, fun _ => rfl⟩
theorem State.keyed_sameErrors (s : State) (l : List (Nat × Nat)) : s.SameErrors (s.keyed l) :=
  ⟨rfl, rfl, fun _ => rfl, fun _ => rfl⟩
theorem flushRing_sameErrors (base : Nat) (cons : Byte) (own : Bool) (l : List EventRec) :
    ∀ (s : State) (prod : Byte), s.SameErrors (flushRing base cons own l s prod).1 := by
  induction l with
  | nil => intro s prod; exact .rfl' s
  | cons e l ih =>
    intro s prod
    have ht : s.SameErrors (s.touched [(base + 32 * prod.toNat, 32)]) := State.touchRows_sameErrors _ s
    simp only [flushRing]
    split
    · exact .rfl' s
    · split
      · exact ht
      · refine State.SameErrors.trans (State.SameErrors.trans ?_ (State.write_sameErrors _ _ _)) (ih _ _)
        split
        · exact ht.trans (State.keyed_sameErrors _ _)
        · exact ht
theorem State.flushPart_sameErrors (s : State) (p : Nat) : s.SameErrors (s.flushPart p) := by
  simp only [State.flushPart]
  split
  · exact .rfl' s
  · have h := flushRing_sameErrors (pteAddr (s.part p).evbase.toNat) (s.part p).evcons false (s.part p).kept s (s.part p).evprod
    exact ⟨h.flaws, h.poison, h.corr, h.unc⟩
theorem State.emitPart_sameErrors (s : State) (p : Nat) (e : EventRec) : s.SameErrors (s.emitPart p e) :=
  have h := State.flushPart_sameErrors (s.putPart p { s.part p with kept := keepEvent (s.part p).kept e }) p
  ⟨h.flaws, h.poison, h.corr, h.unc⟩

/-! ### Events of a partition (R329) -/

/-- An event changes only what its partition keeps and how far its ring is written. -/
theorem State.emitPart_degr (s : State) (p : Nat) (e : EventRec) : ((s.emitPart p e).part p).degr = (s.part p).degr := by
  simp only [State.emitPart, State.flushPart, State.part_putPart]
  split
  · rw [State.part_putPart]
  · rw [State.part_putPart]
/-- A ring without room writes nothing, and its partition keeps the event. -/
theorem State.emitPart_full (s : State) (p : Nat) (e : EventRec) (hk : (s.part p).kept = [])
    (hf : (s.part p).evprod + 1 = (s.part p).evcons) :
    (s.emitPart p e).mem = s.mem ∧ ((s.emitPart p e).part p).kept = [e] := by
  have hkeep : keepEvent (s.part p).kept e = [e] := by simp [keepEvent, hk, kind6]
  simp only [State.emitPart, State.flushPart, State.part_putPart, hkeep, flushRing, hf, if_true]
  split
  · simp only [State.part_putPart, State.putPart_mem, and_self]
  · simp only [State.part_putPart, State.putPart_mem, and_self]

/-! ### The patrol scrubber (R366, R368) -/

section
variable {s : State} {h row key : Nat} (hh : h < 8) (hr : row < 2 ^ 31) (hk : h * 2 ^ 37 + row * 64 = key)
include hh hr hk

/-- The row lies in its stack's vaults. -/
theorem patrolKey_vault : key < hostBase ∧ key / 2 ^ 37 = h := by
  unfold hostBase
  omega
/-- The scrubber waits for banks that are held or asleep. -/
theorem patrolScrub_waits (hb : s.areaBusy [(key, 64)] = true) :
    exec (.patrolScrub h row) s = .next (s.areaTouched [(key, 64)]) := by
  change execPatrolScrub h row s = _
  simp only [execPatrolScrub, Nat.mod_eq_of_lt hh, Nat.mod_eq_of_lt hr, hk, State.onArea, hb, if_true]
/-- It finds the one error that stands. -/
theorem patrolScrub_finds {double : Bool} (hb : s.areaBusy [(key, 64)] = false) (hf : s.flaws = [(key, double)]) :
    exec (.patrolScrub h row) s = .next ((s.areaTouched [(key, 64)]).findFlaw key double none) := by
  have ht := (s.areaTouched_sameErrors [(key, 64)]).flaws
  change execPatrolScrub h row s = _
  simp only [execPatrolScrub, Nat.mod_eq_of_lt hh, Nat.mod_eq_of_lt hr, hk, State.onArea, hb, Bool.false_eq_true, if_false, ht, hf,
    List.find?_cons, beq_self_eq_true]

/-- R366: a single-bit error is corrected and counted. -/
theorem patrolScrub_corrects (hb : s.areaBusy [(key, 64)] = false) (hf : s.flaws = [(key, false)])
    (hc : (s.stack h).corr ≠ 0xFFFFFF) :
    ∃ t, exec (.patrolScrub h row) s = .next t ∧ t.mem = s.mem ∧ t.flaws = [] ∧ t.poison = s.poison ∧
      (t.stack h).corr = (s.stack h).corr + 1 := by
  refine ⟨_, patrolScrub_finds hh hr hk hb hf, ?_⟩
  have a := s.areaTouched_touched [(key, 64)]
  have e := s.areaTouched_sameErrors [(key, 64)]
  generalize s.areaTouched [(key, 64)] = u at a e
  obtain ⟨hv, hstack⟩ := patrolKey_vault hh hr hk
  have hcorr : (({ u with flaws := u.flaws.filter fun f => f.1 != key } : State).stack h).corr = (s.stack h).corr := e.corr h
  have hflaws : (u.flaws.filter fun f => f.1 != key) = [] := by simp [e.flaws, hf]
  simp only [State.findFlaw, if_pos hv, hstack, Bool.false_eq_true, if_false, State.stack_putStack, hcorr, if_neg hc]
  exact ⟨a.mem, hflaws, e.poison, trivial⟩

end

/-- The row at a key is among the poisoned ones. -/
def State.marked (s : State) (key : Nat) : State :=
  { s with poison := if s.poison.contains key then s.poison else key :: s.poison }
theorem State.mem_marked (s : State) (key : Nat) : key ∈ (s.marked key).poison := by
  unfold State.marked
  split
  · next hc => exact List.contains_iff_mem.1 hc
  · exact List.mem_cons_self

theorem State.part_of_parts {s t : State} (e : t.parts = s.parts) (p : Nat) : t.part p = s.part p := by
  simp only [State.part, e]
theorem State.partOfKey_of_parts {s t : State} (e : t.parts = s.parts) (key : Nat) : t.partOfKey key = s.partOfKey key := by
  simp only [State.partOfKey, State.partOfCol, State.part_of_parts e]

/-- R365: a vault row of an enabled partition is poisoned with an event for the partition's ring. -/
theorem State.poisonRow_assigned {s : State} {key p : Nat} (hv : key < hostBase) (hp : s.partOfKey key = some p) :
    s.poisonRow key none = (s.marked key).emitPart p (eventRec 6 (rowAddr key) 0 0 0 0) := by
  have hm : (s.marked key).partOfKey key = some p := (State.partOfKey_of_parts rfl key).trans hp
  have hcore : ¬(hostBase ≤ key ∧ 0 = mgmtCore) := by omega
  unfold State.marked at *
  simp only [State.poisonRow, if_pos hv, if_neg hcore, hm]
/-- One that no partition has is poisoned without an event, where no access of the management core met the error. -/
theorem State.poisonRow_unassigned {s : State} {key : Nat} (hv : key < hostBase) (hp : s.partOfKey key = none) :
    s.poisonRow key none = s.marked key := by
  have hm : (s.marked key).partOfKey key = none := (State.partOfKey_of_parts rfl key).trans hp
  have hcore : ¬(hostBase ≤ key ∧ 0 = mgmtCore) := by omega
  unfold State.marked at *
  simp only [State.poisonRow, if_pos hv, if_neg hcore, hm]
/-- Either way the row is poisoned, and the errors that are known stay as they are. -/
theorem State.poisonRow_marks (s : State) {key : Nat} (hv : key < hostBase) : (s.marked key).SameErrors (s.poisonRow key none) := by
  cases hp : s.partOfKey key with
  | some p => rw [State.poisonRow_assigned hv hp]; exact State.emitPart_sameErrors _ _ _
  | none => rw [State.poisonRow_unassigned hv hp]; exact .rfl' _

section
variable {s : State} {h row key : Nat} (hh : h < 8) (hr : row < 2 ^ 31) (hk : h * 2 ^ 37 + row * 64 = key)
include hh hr hk

/-- R365, R366: a double-bit error poisons its row, is counted, and goes to the ring of the row's partition. -/
theorem patrolScrub_poisons (p : Nat) (hb : s.areaBusy [(key, 64)] = false) (hf : s.flaws = [(key, true)])
    (hu : (s.stack h).unc ≠ 0xFFFF) :
    ∃ t, exec (.patrolScrub h row) s = .next t ∧ t.flaws = [] ∧ key ∈ t.poison ∧
      (t.stack h).unc = (s.stack h).unc + 1 ∧ (t.stack h).corr = (s.stack h).corr ∧
      (s.partOfKey key = none → t.mem = s.mem) ∧
      (s.partOfKey key = some p → (s.part p).kept = [] → (s.part p).evprod + 1 = (s.part p).evcons →
        t.mem = s.mem ∧ (t.part p).kept = [eventRec 6 (rowAddr key) 0 0 0 0]) := by
  refine ⟨_, patrolScrub_finds hh hr hk hb hf, ?_⟩
  have a := s.areaTouched_touched [(key, 64)]
  have e := s.areaTouched_sameErrors [(key, 64)]
  generalize s.areaTouched [(key, 64)] = u at a e
  obtain ⟨hv, hstack⟩ := patrolKey_vault hh hr hk
  have hunc : (({ u with flaws := u.flaws.filter fun f => f.1 != key } : State).stack h).unc = (s.stack h).unc := e.unc h
  simp only [State.findFlaw, if_pos hv, hstack, if_true, hunc, if_neg hu]
  generalize hw : State.putStack _ h _ = w
  have hmem : w.mem = s.mem := by rw [← hw]; exact a.mem
  have hparts : w.parts = s.parts := by rw [← hw, State.putStack_parts, a.eq]
  have hflaws : w.flaws = [] := by
    rw [← hw]
    change (u.flaws.filter fun f => f.1 != key) = []
    simp [e.flaws, hf]
  have hcount : (w.stack h).unc = (s.stack h).unc + 1 ∧ (w.stack h).corr = (s.stack h).corr := by
    rw [← hw, State.stack_putStack]
    exact ⟨rfl, e.corr h⟩
  have m := w.poisonRow_marks hv
  refine ⟨m.flaws.trans hflaws, m.poison ▸ w.mem_marked key, (m.unc h).trans hcount.1, (m.corr h).trans hcount.2, fun hp => ?_,
    fun hp hkept hfull => ?_⟩
  · rw [State.poisonRow_unassigned hv ((State.partOfKey_of_parts hparts key).trans hp)]
    exact hmem
  · have hpart : (w.marked key).part p = s.part p := State.part_of_parts hparts p
    obtain ⟨hm, hring⟩ := (w.marked key).emitPart_full p (eventRec 6 (rowAddr key) 0 0 0 0) (hpart ▸ hkept) (hpart ▸ hfull)
    rw [State.poisonRow_assigned hv ((State.partOfKey_of_parts hparts key).trans hp)]
    exact ⟨hm.trans hmem, hring⟩
end

end Sys2Proof.Machine
end

section
/-! SUPPORT. Enabling and clearing of partitions, links, FULL and reset (R349-R351, R354, R355). -/
namespace Sys2Proof.Machine

/-! ### Enabling (R349-R351) -/

theorem State.newKey_parts (s : State) (p : Nat) : (s.newKey p).parts = s.parts := by
  simp only [State.newKey]
  exact List.foldlRecOn (motive := fun t : State => t.parts = s.parts) _ _ rfl fun t ht _ _ => ht
/-- Where the management core has written nothing under its key, a fresh key changes no byte. -/
theorem State.newKey_mem {s : State} (h : s.pkg.mkeyed = []) (p : Nat) : (s.newKey p).mem = s.mem := by
  simp only [State.newKey, h, List.filter_nil, List.foldl_nil]

/-- R350: EN = 1 that is accepted. -/
theorem partitionEnable_accepted {s : State} {p : Nat} (hen : (s.part p).en = false) (hr : s.enableRefused p = false) :
    exec (.partitionEnable p) s =
      .next ((s.newKey p).putPart p { s.part p with en := true, key := true, parten := 0 }) := by
  change execPartitionEnable p s = _
  simp only [execPartitionEnable, hen, hr, Bool.false_eq_true, if_false]
/-- R350: EN = 1 that is refused. -/
theorem partitionEnable_refused {s : State} {p : Nat} (hen : (s.part p).en = false) (hr : s.enableRefused p = true) :
    exec (.partitionEnable p) s = .next (s.putPart p { s.part p with err := true }) := by
  change execPartitionEnable p s = _
  simp only [execPartitionEnable, hen, hr, Bool.false_eq_true, if_false, if_true]

/-! ### Clearing (R351) -/

theorem State.byte_clear (s : State) (k n a : Nat) :
    (s.clear k n).mem.byte a = if k ≤ a ∧ a < k + n then 0 else s.mem.byte a := by
  split
  · next h => exact SMap.get_splice_in (0 : Byte) s.mem [] k n a h
  · next h => exact SMap.get_splice_out (0 : Byte) s.mem [] k n a (by simp) (by omega)
/-- A byte that a clearing covers reads 0. -/
theorem State.byte_clear_in (s : State) {k n a : Nat} (h : k ≤ a ∧ a < k + n) : (s.clear k n).mem.byte a = 0 := by
  rw [State.byte_clear, if_pos h]
/-- A byte that reads 0 reads 0 after any clearing. -/
theorem State.byte_clear_zero {s : State} {a : Nat} (h : s.mem.byte a = 0) (k n : Nat) : (s.clear k n).mem.byte a = 0 := by
  rw [State.byte_clear, h, ite_self]

section
variable {s : State} {a : Nat}

/-- Zeros in a core's scratchpad, tiles, instruction memory and vector registers. -/
def State.scrubCore (s : State) (c : Nat) : State :=
  ((s.clear (localKey c 0) 0x200000).clear (imemKey c 0) 0x20000).clear (vregKey c 0 0) 0x40000
theorem State.scrubCol_eq (s : State) (g : Nat) : s.scrubCol g = (List.range 32).foldl (fun s r => s.scrubCore (32 * g + r))
    ((s.clear (hbmKey (2 * (g / 16)) (g % 16) 0) (2 ^ 33)).clear (hbmKey (2 * (g / 16) + 1) (g % 16) 0) (2 ^ 33)) := rfl

theorem State.byte_scrubCores_zero (h : s.mem.byte a = 0) (g : Nat) :
    ((List.range 32).foldl (fun s r => s.scrubCore (32 * g + r)) s).mem.byte a = 0 :=
  List.foldlRecOn (motive := fun t : State => t.mem.byte a = 0) _ _ h fun _ ht _ _ =>
    State.byte_clear_zero (State.byte_clear_zero (State.byte_clear_zero ht _ _) _ _) _ _
theorem State.byte_scrubCol_zero (h : s.mem.byte a = 0) (g : Nat) : (s.scrubCol g).mem.byte a = 0 := by
  rw [State.scrubCol_eq]
  exact State.byte_scrubCores_zero (State.byte_clear_zero (State.byte_clear_zero h _ _) _ _) g
theorem State.byte_scrubBall_zero (h : s.mem.byte a = 0) (g : Nat) : (s.scrubBall g).mem.byte a = 0 :=
  State.byte_clear_zero h _ _
end

/-- The clearing of a column leaves its two home vaults zero. -/
theorem State.byte_scrubCol_home (s : State) (g : Nat) {o : Nat} (ho : o < 2 ^ 33) :
    (s.scrubCol g).mem.byte (hbmKey (2 * (g / 16)) (g % 16) 0 + o) = 0 ∧
      (s.scrubCol g).mem.byte (hbmKey (2 * (g / 16) + 1) (g % 16) 0 + o) = 0 := by
  rw [State.scrubCol_eq]
  exact ⟨State.byte_scrubCores_zero (State.byte_clear_zero (State.byte_clear_in _ ⟨Nat.le_add_right _ _, Nat.add_lt_add_left ho _⟩) _ _) g,
    State.byte_scrubCores_zero (State.byte_clear_in _ ⟨Nat.le_add_right _ _, Nat.add_lt_add_left ho _⟩) g⟩

theorem State.scrubCol_parts (s : State) (g : Nat) : (s.scrubCol g).parts = s.parts := by
  rw [State.scrubCol_eq]
  exact List.foldlRecOn (motive := fun t : State => t.parts = s.parts) _ _ rfl fun t ht _ _ => ht
theorem State.vaultTouched_touched (s : State) (x : Nat × Nat) : s.Touched (s.vaultTouched x) :=
  List.foldlRecOn (motive := fun t => s.Touched t) _ _ (.rfl' s) fun t ht _ _ => ht.trans (t.touchChannel_touched _ _)
theorem State.vaultsTouched_touched (s : State) (l : List (Nat × Nat)) : s.Touched (l.foldl State.vaultTouched s) :=
  List.foldlRecOn (motive := fun t => s.Touched t) _ _ (.rfl' s) fun t ht x _ => ht.trans (t.vaultTouched_touched x)

theorem mem_colsOf {m : DWord} {g : Nat} (hg : g < 64) (hm : m.getLsbD g = true) : g ∈ colsOf m :=
  List.mem_filter.2 ⟨List.mem_range.2 hg, hm⟩

/-- The clearing waits for the banks of the home vaults. -/
theorem scrubDone_waits {s : State} {p : Nat} (hs : (s.part p).scrub = true)
    (hb : (homeVaults (s.part p).cols).any s.vaultBusy = true) :
    exec (.scrubDone p) s = .next ((homeVaults (s.part p).cols).foldl State.vaultTouched s) := by
  change execScrubDone p s = _
  simp only [execScrubDone, hs, hb, Bool.not_true, Bool.false_eq_true, or_true, if_true]

/-- The end of the clearing of columns `m` and slices `b` from a state. -/
def State.scrubbed (s : State) (m b : DWord) : State := (colsOf b).foldl State.scrubBall ((colsOf m).foldl State.scrubCol s)
theorem State.scrubbed_home (s : State) (m b : DWord) {g o : Nat} (hg : g < 64) (hm : m.getLsbD g = true) (ho : o < 2 ^ 33) :
    (s.scrubbed m b).mem.byte (hbmKey (2 * (g / 16)) (g % 16) 0 + o) = 0 ∧
      (s.scrubbed m b).mem.byte (hbmKey (2 * (g / 16) + 1) (g % 16) 0 + o) = 0 := by
  have col {a : Nat} (h0 : ∀ t : State, (t.scrubCol g).mem.byte a = 0) : (s.scrubbed m b).mem.byte a = 0 := by
    refine List.foldlRecOn (motive := fun t : State => t.mem.byte a = 0) _ _ ?_ fun t ht j _ => State.byte_scrubBall_zero ht j
    exact foldl_reaches (P := fun t => t.mem.byte a = 0) (fun t j ht => State.byte_scrubCol_zero ht j) h0 _ _ (mem_colsOf hg hm)
  exact ⟨col fun t => (t.byte_scrubCol_home g ho).1, col fun t => (t.byte_scrubCol_home g ho).2⟩
theorem scrubDone_clears {s : State} {p : Nat} (hs : (s.part p).scrub = true)
    (hb : (homeVaults (s.part p).cols).any s.vaultBusy = false) :
    ∃ t, exec (.scrubDone p) s = .next t ∧ (t.part p).scrub = false ∧
      ∀ g o, g < 64 → (s.part p).cols.getLsbD g = true → o < 2 ^ 33 →
        t.mem.byte (hbmKey (2 * (g / 16)) (g % 16) 0 + o) = 0 ∧ t.mem.byte (hbmKey (2 * (g / 16) + 1) (g % 16) 0 + o) = 0 := by
  let u := (homeVaults (s.part p).cols).foldl State.vaultTouched s
  let v := u.scrubbed (s.part p).cols ((s.part p).cols ||| (s.part p).ball)
  refine ⟨v.putPart p { v.part p with scrub := false }, ?_, ?_, fun g o hg hm ho => u.scrubbed_home _ _ hg hm ho⟩
  · change execScrubDone p s = _
    simp only [execScrubDone, hs, hb, Bool.not_true, Bool.false_eq_true, or_self, if_false, if_true]
    rfl
  · rw [State.part_putPart]

/-! ### Links, bring-up and FULL (R354, R355) -/

theorem alabinStreamRekey_opens {s : State} {port stream : Nat} (hp : port < 18) :
    exec (.alabinStreamRekey port stream) s =
      .next (s.putStream port stream { s.streamAt port stream with fails := 0, closed := false }) := by
  change execAlabinStreamRekey port stream s = _
  rw [execAlabinStreamRekey, if_neg (by unfold alabinPorts; omega)]
/-- A group on an open stream: its failures in a row, the third of which closes the stream. -/
theorem alabinFlitGroup_counts {s : State} {port stream : Nat} (ok : Bool) (hp : port < 18)
    (hc : (s.streamAt port stream).closed = false) :
    ∃ t, exec (.alabinFlitGroup port stream ok) s = .next t ∧ t.mem = s.mem ∧
      (t.streamAt port stream).fails = (if ok then 0 else (s.streamAt port stream).fails + 1) ∧
      (t.streamAt port stream).closed = (!ok && decide (2 ≤ (s.streamAt port stream).fails)) := by
  have hgo : ¬(alabinPorts ≤ port ∨ (s.streamAt port stream).closed = true) := by
    simp only [alabinPorts, hc, Bool.false_eq_true, or_false]
    omega
  change ∃ t, execAlabinFlitGroup port stream ok s = .next t ∧ _
  simp only [execAlabinFlitGroup, if_neg hgo]
  cases ok with
  | true => exact ⟨_, rfl, rfl, by simp, by simp [hc]⟩
  | false => exact ⟨_, rfl, rfl, by simp, by simp⟩

/-- The switch that FULL asks for is taken with every slot DORMANT, and waits for that otherwise. -/
theorem State.switchFull_pending {s : State} (hf : s.pkg.full = false) (hp : s.pkg.fullPend = true) :
    s.switchFull.mem = s.mem ∧ s.switchFull.pkg.full = s.allDormant ∧ s.switchFull.pkg.fullPend = !s.allDormant := by
  cases hd : s.allDormant with
  | true => simp [State.switchFull, hp, hd]
  | false => simp [State.switchFull, hp, hd, hf]
theorem svcFull_allowed {s : State} (hf : s.pkg.full = false) (ha : s.fullAllowed = true) :
    ∃ t, exec .svcFull s = .next t ∧ t.mem = s.mem ∧ t.pkg.full = s.allDormant ∧ t.pkg.fullPend = !s.allDormant := by
  refine ⟨({ s with pkg := { s.pkg with fullPend := true } } : State).switchFull, ?_, State.switchFull_pending hf rfl⟩
  change execSvcFull s = _
  rw [execSvcFull, if_neg (by simp [hf, ha])]

/-! ### Reset (R354, R355) -/

/-- A byte of a window of memory. -/
theorem Memory.byte_window (m : Memory) (k n a : Nat) :
    (m.window k n).byte a = if k ≤ a ∧ a < k + n then m.byte a else 0 := by
  split
  · next h => exact SMap.get_filter (0 : Byte) m (fun i => decide (k ≤ i) && decide (i < k + n)) a (by simp [h])
  · next h =>
    have hno : ∀ e ∈ m.window k n, e.1 ≠ a := by
      rintro e he rfl
      have := (List.mem_filter.1 he).2
      simp only [Bool.and_eq_true, decide_eq_true_eq] at this
      exact h this
    simpa [Memory.byte] using SMap.get_append_left (0 : Byte) (m.window k n) [] a hno

/-- A sample without readings sets the stacks' refresh rates and the count of alerting sensors alone. -/
theorem State.sample_nil (s : State) : ∃ h p, s.sample [] = { s with hbm := h, pkg := p } := by
  obtain ⟨h, hh⟩ : ∃ h, (List.range 8).foldl (fun s h => s.putStack h { s.stack h with doubled := s.rateOf h }) s =
      { s with hbm := h } := by
    refine List.foldlRecOn (motive := fun t : State => ∃ h, t = { s with hbm := h }) _ _ ⟨s.hbm, rfl⟩ ?_
    rintro _ ⟨h, rfl⟩ i _
    exact ⟨_, rfl⟩
  simp only [State.sample, List.foldl_nil, hh]
  exact ⟨_, _, rfl⟩
theorem reset_keeps_host (s : State) (ok : Bool) (ver : Word) :
    ∃ t, exec (.reset ok ver []) s = .next t ∧ t.cores = [] ∧ t.clk = 0 ∧
      t.service = (ok && decide (Config.fusedVersion.toNat ≤ ver.toNat)) ∧
      ∀ a, t.mem.byte a = if hostBase ≤ a ∧ a < ballBase then s.mem.byte a else 0 := by
  obtain ⟨h, p, he⟩ := State.sample_nil { State.reset with
    agenda := s.agenda, steps := s.steps
    mem := s.mem.window hostBase (ballBase - hostBase)
    service := ok && decide (Config.fusedVersion.toNat ≤ ver.toNat)
    segs := trimmedSegs }
  refine ⟨_, congrArg Host.Outcome.next he, rfl, rfl, rfl, fun a => ?_⟩
  have hb : hostBase + (ballBase - hostBase) = ballBase := by decide
  exact hb ▸ Memory.byte_window s.mem hostBase (ballBase - hostBase) a

end Sys2Proof.Machine
end

section
/-! SUPPORT. Control registers under their access codes (R3, R4, R346, R353, R367-R369). -/
namespace Sys2Proof.Machine

/-- A write that the function maps reaches its register. -/
theorem controlRegisterWrite_mapped {s : State} {f : Func} {off : Nat} {wide : Bool} {r : Reg} (v : DWord)
    (ha : ctlAligned off wide = true) (hm : s.maps f (regOf off) = true) (hr : regOf off = r) :
    exec (.controlRegisterWrite f off wide v) s = .next (s.regWrite f r (laneValue off wide v) (laneMask off wide)) := by
  subst hr
  change execControlRegisterWrite f off wide v s = _
  simp only [execControlRegisterWrite, ha, if_true, State.ctlWrite, hm]
/-- One that it does not map changes nothing. -/
theorem controlRegisterWrite_unmapped {s : State} {f : Func} {off : Nat} {wide : Bool} (v : DWord)
    (ha : ctlAligned off wide = true) (hm : s.maps f (regOf off) = false) :
    exec (.controlRegisterWrite f off wide v) s = .next s := by
  change execControlRegisterWrite f off wide v s = _
  simp only [execControlRegisterWrite, ha, if_true, State.ctlWrite, hm, Bool.false_eq_true, if_false]

/-- An access that reaches bit 0 of its granule reaches the lower register whole. -/
theorem laneMask_low {off : Nat} {wide : Bool} (h : (laneMask off wide).getLsbD 0 = true) {i : Nat} (hi : i < 32) :
    (laneMask off wide).getLsbD i = true := by
  have h32 : (0xFFFFFFFF : DWord) = (BitVec.allOnes 32).setWidth 64 := by decide
  unfold laneMask at *
  split at h
  · next hw => rw [if_pos hw, BitVec.getLsbD_allOnes, decide_eq_true (by omega)]
  · next hw =>
    split at h
    · next ho =>
      rw [if_neg hw, if_pos ho, h32, BitVec.getLsbD_setWidth, BitVec.getLsbD_allOnes, decide_eq_true hi,
        decide_eq_true (show i < 64 by omega), Bool.and_self]
    · exact absurd h (by decide)
theorem laneMask_ne_zero (off : Nat) (wide : Bool) : laneMask off wide ≠ 0 := by
  unfold laneMask
  split
  · decide
  · split <;> decide
/-- A field of the lower register is the value's own. -/
theorem extractLsb'_laneMask {off : Nat} {wide : Bool} (h : (laneMask off wide).getLsbD 0 = true) (v : DWord) {lo n : Nat}
    (hn : lo + n ≤ 32) : (v &&& laneMask off wide).extractLsb' lo n = v.extractLsb' lo n := by
  ext i hi
  simp only [BitVec.getElem_extractLsb', BitVec.getLsbD_and, laneMask_low h (show lo + i < 32 by omega), Bool.and_true]

/-! #### Counters that ones clear (R4, R367, R368) -/

theorem State.writeStack_scrint (s : State) (h off : Nat) (wide : Bool) (v : DWord) :
    ((s.writeStack h 0 v (laneMask off wide)).stack h).scrint = (if (laneMask off wide).getLsbD 0 then
      (if (v &&& laneMask off wide).extractLsb' 0 8 = 0 then 1 else (v &&& laneMask off wide).extractLsb' 0 8)
      else (s.stack h).scrint) := by
  simp only [State.writeStack, ne_eq, not_true_eq_false, if_false, State.stack_putStack]
  cases hl : (laneMask off wide).getLsbD 0 with
  | true => simp only [extractLsb'_laneMask hl v (show 0 + 8 ≤ 32 by omega)]
  | false => rfl

/-- A saturating counter of `n` bits that counts nothing in the clk of the write loses the bits that are written as ones. -/
theorem Count.value_clear {n : Nat} (hn : n ≤ 64) (x w : BitVec n) :
    (Count.clear ⟨x.toNat, 0⟩ (w.setWidth 64)).value (2 ^ n - 1) = (x &&& ~~~w).toNat := by
  have hbits : BitVec.ofNat 64 x.toNat &&& ~~~(w.setWidth 64) = (x &&& ~~~w).setWidth 64 := by
    ext i hi
    simp only [BitVec.ofNat_toNat, BitVec.getElem_and, BitVec.getElem_not, BitVec.getElem_setWidth, BitVec.getLsbD_and,
      BitVec.getLsbD_not]
    by_cases h : i < n
    · simp [h]
    · simp [h, BitVec.getLsbD_of_ge x i (by omega)]
  have hlt : (x &&& ~~~w).toNat < 2 ^ n := BitVec.isLt _
  have hwide : (x &&& ~~~w).toNat < 2 ^ 64 := Nat.lt_of_lt_of_le hlt (Nat.pow_le_pow_right (by decide) hn)
  simp only [Count.value, Count.clear, hbits, BitVec.toNat_setWidth, Nat.mod_eq_of_lt hwide, Nat.add_zero]
  omega

/-! #### Registers of a partition (R353, R369) -/

/-- A write that R353 lets through. -/
theorem State.writePartBy_own {s : State} {f : Func} {p : Nat} (h : (s.part p).tds = 0 ∨ f = .vf p) (o : Nat) (v m : DWord) :
    s.writePartBy f p o v m = s.writePart p o v m := by
  rcases h with h | rfl
  · simp [State.writePartBy, h]
  · simp [State.writePartBy]
/-- A register that R353 does not guard takes every write. -/
theorem State.writePartBy_free (s : State) (f : Func) (p : Nat) {o : Nat} {m : DWord} (h : tdsGuarded o m = false) (v : DWord) :
    s.writePartBy f p o v m = s.writePart p o v m := by
  simp [State.writePartBy, h]

/-- Every write of SYS.PARTCOLS is guarded. -/
theorem tdsGuarded_cols (off : Nat) (wide : Bool) : tdsGuarded 0x40 (laneMask off wide) = true := by
  simp only [tdsGuarded, bne_iff_ne.2 (laneMask_ne_zero off wide), beq_self_eq_true, Bool.or_true, Bool.true_or, Bool.and_self]
/-- R353: a guarded write by the physical function freezes the partition and moves TDS to 3. -/
theorem State.writePartBy_guarded {s : State} {p o : Nat} {m : DWord} (h : (s.part p).tds ≠ 0) (hg : tdsGuarded o m = true)
    (v : DWord) : s.writePartBy .pf p o v m = s.tdsError p := by
  have hs : ((s.part p).tds != 0) = true := bne_iff_ne.2 h
  simp only [State.writePartBy, hs, hg, Bool.not_false, Bool.and_self, if_true]
theorem State.tdsError_part (s : State) (p : Nat) :
    ((s.tdsError p).part p).tds = 3 ∧ ((s.tdsError p).part p).cols = (s.part p).cols := by
  have hparts (l : List Nat) : (l.foldl (fun s c => if (s.strandAt c 8).st = .dormant then s else s.updAt c 8 Strand.freeze)
      (s.freezePart p true)).parts = s.parts := by
    refine List.foldlRecOn (motive := fun t : State => t.parts = s.parts) _ _ (s.freezePart_parts p true) fun t ht c _ => ?_
    split
    · exact ht
    · exact ht
  simp only [State.tdsError, State.part_putPart, State.part_of_parts (hparts _), and_self]

/-- R369: without a threshold nothing degrades. -/
theorem State.degrade_off {s : State} {p : Nat} (h : (s.part p).thr = 0) (old : Partition) : s.degrade p old = s := by
  simp [State.degrade, Partition.reached, h]
/-- R369: a count that comes to reach its threshold leaves DEGR set. -/
theorem State.degrade_reached {s : State} {p : Nat} {old : Partition} (h : (s.part p).reached = true) (ho : old.reached = false) :
    ((s.degrade p old).part p).degr = true := by
  cases hd : (s.part p).degr with
  | true => simp [State.degrade, hd]
  | false => simp only [State.degrade, h, ho, hd, Bool.not_false, Bool.and_self, if_true, State.emitPart_degr, State.part_putPart]

end Sys2Proof.Machine
end

section
/-! SUPPORT. The writes of control registers, register by register, and the statement about partitions, links and bring-up. -/
namespace Sys2Proof.Machine

/-- A partition's count of machine checks, its threshold and DEGR after a write of them (R369). -/
def Partition.tally (x : Partition) (w : DWord) : Partition :=
  { x with degr := x.degr && !w.getLsbD 31, thr := w.extractLsb' 16 8, mck := x.mck &&& ~~~(w.extractLsb' 0 16) }
theorem State.writePart_tally (s : State) (p : Nat) {off : Nat} {wide : Bool} (h : (laneMask off wide).getLsbD 0 = true) (v : DWord) :
    s.writePart p 0x80 v (laneMask off wide) =
      (s.putPart p ((s.part p).tally (v &&& laneMask off wide))).degrade p (s.part p) := by
  simp only [State.writePart, h, if_true, Partition.tally, extractLsb'_laneMask h v (show 16 + 8 ≤ 32 by omega),
    extractLsb'_laneMask h v (show 0 + 16 ≤ 32 by omega), BitVec.getLsbD_and, laneMask_low h (show 31 < 32 by omega), Bool.and_true]
/-- Without a threshold the write is the whole change. -/
theorem State.writePart_tally_off {s : State} {p off : Nat} {wide : Bool} {v : DWord} (h : (laneMask off wide).getLsbD 0 = true)
    (ht : (v &&& laneMask off wide).extractLsb' 16 8 = 0) :
    s.writePart p 0x80 v (laneMask off wide) = s.putPart p ((s.part p).tally (v &&& laneMask off wide)) := by
  rw [State.writePart_tally s p h, State.degrade_off]
  rw [State.part_putPart]
  exact ht
/-- A threshold that the count has reached sets DEGR. -/
theorem State.writePart_tally_reached {s : State} {p off : Nat} {wide : Bool} {v : DWord} (h : (laneMask off wide).getLsbD 0 = true)
    (ht : (v &&& laneMask off wide).extractLsb' 16 8 ≠ 0) (hold : (s.part p).thr = 0)
    (hr : ((v &&& laneMask off wide).extractLsb' 16 8).toNat ≤
      ((s.part p).mck &&& ~~~((v &&& laneMask off wide).extractLsb' 0 16)).toNat) :
    ((s.writePart p 0x80 v (laneMask off wide)).part p).degr = true := by
  rw [State.writePart_tally s p h]
  refine State.degrade_reached ?_ ?_
  · rw [State.part_putPart, Partition.reached, Partition.tally, bne_iff_ne.2 ht, decide_eq_true hr, Bool.and_self]
  · simp [Partition.reached, hold]

/-! #### The writes of the registers that bring-up names -/

section
variable {s : State} {f : Func} {off : Nat} {wide : Bool} {v : DWord} (ha : ctlAligned off wide = true)
  (hm : s.maps f (regOf off) = true)
include ha hm

theorem write_stackErrors {h : Nat} (hr : regOf off = .stack h 0) :
    ∃ t, exec (.controlRegisterWrite f off wide v) s = .next t ∧ t.mem = s.mem ∧
      (t.stack h).corr = (s.stack h).corr &&& ~~~((laneValue off wide v &&& laneMask off wide).extractLsb' 40 24) ∧
      (t.stack h).unc = (s.stack h).unc &&& ~~~((laneValue off wide v &&& laneMask off wide).extractLsb' 24 16) ∧
      (t.stack h).scrint = (if (laneMask off wide).getLsbD 0 then
        (if (laneValue off wide v &&& laneMask off wide).extractLsb' 0 8 = 0 then 1
          else (laneValue off wide v &&& laneMask off wide).extractLsb' 0 8) else (s.stack h).scrint) :=
  ⟨_, controlRegisterWrite_mapped v ha hm hr, rfl, congrArg Stack.corr (State.stack_putStack _ _ _),
    congrArg Stack.unc (State.stack_putStack _ _ _), State.writeStack_scrint _ _ _ _ _⟩
theorem write_coreErrors {c : Nat} {x : BitVec 16} {y z : Byte} (hr : regOf off = .cerr c 0)
    (hx : (s.coreAt c).corr = ⟨x.toNat, 0⟩) (hy : (s.coreAt c).repair = ⟨y.toNat, 0⟩) (hz : (s.coreAt c).unc = ⟨z.toNat, 0⟩) :
    ∃ t, exec (.controlRegisterWrite f off wide v) s = .next t ∧ t.mem = s.mem ∧
      (t.coreAt c).corr.value 0xFFFF = (x &&& ~~~((laneValue off wide v &&& laneMask off wide).extractLsb' 16 16)).toNat ∧
      (t.coreAt c).repair.value 0xFF = (y &&& ~~~((laneValue off wide v &&& laneMask off wide).extractLsb' 8 8)).toNat ∧
      (t.coreAt c).unc.value 0xFF = (z &&& ~~~((laneValue off wide v &&& laneMask off wide).extractLsb' 0 8)).toNat := by
  refine ⟨_, controlRegisterWrite_mapped v ha hm hr, rfl, ?_⟩
  simp only [State.regWrite, State.writeCerr, State.coreAt_updCore, if_true, hx, hy, hz]
  exact ⟨Count.value_clear (by omega) _ _, Count.value_clear (by omega) _ _, Count.value_clear (by omega) _ _⟩
theorem write_parkBase {c : Nat} (hr : regOf off = .park c) :
    ∃ t, exec (.controlRegisterWrite f off wide v) s = .next t ∧ t.mem = s.mem ∧
      (t.coreAt c).parkBase = merge 0x01FFFFFFFFFFF000 (s.coreAt c).parkBase (laneValue off wide v) (laneMask off wide) :=
  ⟨_, controlRegisterWrite_mapped v ha hm hr, rfl, congrArg Core.parkBase (State.coreAt_updCore _ _ _)⟩
theorem write_ptprate (hr : regOf off = .pkg 0x40) (hl : (laneMask off wide).getLsbD 0 = true) :
    ∃ t, exec (.controlRegisterWrite f off wide v) s = .next t ∧ t.mem = s.mem ∧
      t.pkg.ptprate = (laneValue off wide v &&& laneMask off wide).extractLsb' 0 32 := by
  refine ⟨_, controlRegisterWrite_mapped v ha hm hr, ?_⟩
  simp only [State.regWrite, State.writePkg, hl, if_true, extractLsb'_laneMask hl (laneValue off wide v) (show 0 + 32 ≤ 32 by omega),
    and_self]
theorem write_mptroot (hr : regOf off = .pkg 0x50) :
    ∃ t, exec (.controlRegisterWrite f off wide v) s = .next t ∧ t.mem = s.mem ∧
      t.pkg.mptroot = merge 0x001FFFFFFFFFF001 s.pkg.mptroot (laneValue off wide v) (laneMask off wide) :=
  ⟨_, controlRegisterWrite_mapped v ha hm hr, rfl, rfl⟩
theorem write_segment {g : Nat} (hr : regOf off = .seg g 0) (hl : (laneMask off wide).getLsbD 0 = true) :
    ∃ t, exec (.controlRegisterWrite f off wide v) s = .next t ∧ t.mem = s.mem ∧
      t.seg g = { s.seg g with ove := (laneValue off wide v).getLsbD 31, thr := (laneValue off wide v).extractLsb' 24 4,
                               cap := (laneValue off wide v).extractLsb' 16 8 } := by
  refine ⟨_, controlRegisterWrite_mapped v ha hm hr, ?_⟩
  simp only [State.regWrite, State.writeSeg, hl, and_self, if_true, State.putSeg_mem, State.seg_putSeg]

variable {p : Nat}
theorem write_ptroot (hr : regOf off = .part p 0x00) (hown : (s.part p).tds = 0 ∨ f = .vf p) :
    ∃ t, exec (.controlRegisterWrite f off wide v) s = .next t ∧ t.mem = s.mem ∧
      (t.part p).ptroot = merge 0x001FFFFFFFFFF001 (s.part p).ptroot (laneValue off wide v) (laneMask off wide) := by
  refine ⟨_, controlRegisterWrite_mapped v ha hm hr, ?_⟩
  rw [State.regWrite, State.writePartBy_own hown]
  exact ⟨rfl, congrArg Partition.ptroot (State.part_putPart _ _ _)⟩
theorem write_tagspill (hr : regOf off = .part p 0x28) :
    ∃ t, exec (.controlRegisterWrite f off wide v) s = .next t ∧ t.mem = s.mem ∧
      (t.part p).tagspill = merge 0x001FFFFFFF000000 (s.part p).tagspill (laneValue off wide v) (laneMask off wide) := by
  refine ⟨_, controlRegisterWrite_mapped v ha hm hr, ?_⟩
  rw [State.regWrite, State.writePartBy_free _ _ _ rfl]
  exact ⟨rfl, congrArg Partition.tagspill (State.part_putPart _ _ _)⟩
/-- The columns of a partition that holds them stay (R349). -/
theorem write_cols_held (hr : regOf off = .part p 0x40) (hen : (s.part p).en = true) (hown : (s.part p).tds = 0 ∨ f = .vf p) :
    exec (.controlRegisterWrite f off wide v) s = .next s := by
  rw [controlRegisterWrite_mapped v ha hm hr, State.regWrite, State.writePartBy_own hown]
  simp only [State.writePart, hen, Bool.not_true, Bool.false_and, Bool.false_eq_true, if_false]
theorem write_cols_guarded (hr : regOf off = .part p 0x40) (hf : f = .pf) (ht : (s.part p).tds ≠ 0) :
    ∃ t, exec (.controlRegisterWrite f off wide v) s = .next t ∧ (t.part p).tds = 3 ∧ (t.part p).cols = (s.part p).cols := by
  subst hf
  refine ⟨_, controlRegisterWrite_mapped v ha hm hr, ?_⟩
  rw [State.regWrite, State.writePartBy_guarded ht (tdsGuarded_cols off wide)]
  exact s.tdsError_part p
theorem write_tally_off (hr : regOf off = .part p 0x80) (hl : (laneMask off wide).getLsbD 0 = true)
    (ht : (laneValue off wide v &&& laneMask off wide).extractLsb' 16 8 = 0) :
    ∃ t, exec (.controlRegisterWrite f off wide v) s = .next t ∧ t.mem = s.mem ∧
      t.part p = (s.part p).tally (laneValue off wide v &&& laneMask off wide) := by
  refine ⟨_, controlRegisterWrite_mapped v ha hm hr, ?_⟩
  rw [State.regWrite, State.writePartBy_free _ _ _ rfl, State.writePart_tally_off hl ht]
  exact ⟨rfl, State.part_putPart _ _ _⟩
theorem write_tally_reached (hr : regOf off = .part p 0x80) (hl : (laneMask off wide).getLsbD 0 = true)
    (ht : (laneValue off wide v &&& laneMask off wide).extractLsb' 16 8 ≠ 0) (hold : (s.part p).thr = 0)
    (hreach : ((laneValue off wide v &&& laneMask off wide).extractLsb' 16 8).toNat ≤
      ((s.part p).mck &&& ~~~((laneValue off wide v &&& laneMask off wide).extractLsb' 0 16)).toNat) :
    ∃ t, exec (.controlRegisterWrite f off wide v) s = .next t ∧ (t.part p).degr = true := by
  refine ⟨_, controlRegisterWrite_mapped v ha hm hr, ?_⟩
  rw [State.regWrite, State.writePartBy_free _ _ _ rfl]
  exact State.writePart_tally_reached hl ht hold hreach
end

/-- Settles O53: each clause is the law of its step, above; the strands of a partition stop because nothing that its disabling does
wakes a strand that has frozen, and the home vaults read 0 because no later clearing writes anything but zeros. -/
theorem partitionsLinksAndBringUp : Obligations.PartitionsLinksAndBringUp := by
  unfold Obligations.PartitionsLinksAndBringUp
  intro s p g c o port stream h row off k ok wide f v ver
  refine ⟨fun hen hr => ?_, fun hen hr => ?_, fun hen => ?_, scrubDone_waits, fun hs hb => ?_, fun hp => ?_, alabinFlitGroup_counts ok,
    ⟨_, rfl, rfl, congrArg Stack.trained (State.stack_putStack _ _ _)⟩, fun hf ha hd => ?_, fun hf ha hd => ?_,
    fun hh hr hb => patrolScrub_waits hh hr rfl hb, fun hh hr hb hf hc => patrolScrub_corrects hh hr rfl hb hf hc,
    fun hh hr hb hf hu => patrolScrub_poisons hh hr rfl p hb hf hu, fun ha hm => ?_, controlRegisterWrite_unmapped v,
    fun ha hm => write_segment ha hm, reset_keeps_host s ok ver⟩
  · exact ⟨_, partitionEnable_accepted hen hr, State.newKey_mem (p := p), State.part_putPart _ _ _⟩
  · exact ⟨_, partitionEnable_refused hen hr, rfl, State.part_putPart _ _ _⟩
  · obtain ⟨hen', hkey, hscrub⟩ := State.disable_part hen
    exact ⟨_, rfl, hen', hkey, hscrub, State.disable_stops hen⟩
  · obtain ⟨t, ht, hscrub, hzero⟩ := scrubDone_clears hs hb
    exact ⟨t, ht, hscrub, hzero g o⟩
  · exact ⟨_, alabinStreamRekey_opens hp, rfl, by rw [State.streamAt_putStream], by rw [State.streamAt_putStream]⟩
  · simpa [hd] using svcFull_allowed hf ha
  · simpa [hd] using svcFull_allowed hf ha
  · refine ⟨write_stackErrors ha hm, fun x y z => write_coreErrors ha hm, write_parkBase ha hm, write_ptprate ha hm,
      write_mptroot ha hm, write_ptroot ha hm, write_tagspill ha hm, write_cols_held ha hm, write_cols_guarded ha hm,
      fun hr hl ht => ?_, write_tally_reached ha hm⟩
    obtain ⟨t, hstep, hmem, hpart⟩ := write_tally_off ha hm hr hl ht
    rw [Partition.tally, ht] at hpart
    exact ⟨t, hstep, hmem, hpart⟩

end Sys2Proof.Machine
end
